-- ==== Sys2Proof/Word.lean ====
section
/-! DEFINITION. The word types of the engine (00_scope.md R14, R18): every value is unsigned and has a fixed width. -/

namespace Sys2Proof

/-- One byte: a bus exchange moves exactly one byte each way (20_memory.md R82). -/
abbrev Byte := BitVec 8

/-- u32: command arguments, OCR, `DIVISOR`, the result of `extractBits` (R14). -/
abbrev U32 := BitVec 32

/-- u64: request offsets and sizes, sector counts, byte counts (R14). -/
abbrev U64 := BitVec 64

/-- A command index, 6 bits (R14). -/
abbrev CmdIndex := BitVec 6

end Sys2Proof
end

