-- ==== Sys2Proof/Config.lean ====
section
/-! DEFINITION. The configuration parameters of 00_scope.md R13, and the free values: constants without a body, about
which nothing can be proved. -/

namespace Sys2Proof

/-- The parameters of R13. They are fixed for an engine instance and no rule changes them (10_state.md R47); the state
holds them (R30 counts them among the state's classes), so that a statement about every state is a statement about every
choice of parameters. `B` (block size) is no parameter: R13 fixes it at 512. -/
structure Params where
  /-- `N_CMD`: filler exchanges a command poll may take. -/
  nCmd : Nat
  /-- `N_TOKEN`: filler exchanges a start-token poll may take. -/
  nToken : Nat
  /-- `N_BUSY`: filler exchanges a write-busy poll may take. -/
  nBusy : Nat
  /-- `N_READY`: ACMD41 attempts of the V1 and V2 loops. -/
  nReady : Nat
  /-- `N_RESET_PRE`: unconditional resets before the checked one. -/
  nResetPre : Nat
  /-- `V2_WAIT_MS`: milliseconds between V2 attempts. -/
  v2WaitMs : Nat
  /-- `WRITE_GAP`: fillers before the start token of a write. -/
  writeGap : Nat
  /-- `CLOSE`: the closing byte of every frame but CMD8. -/
  close : Byte
  /-- `CMD8_ARG`. -/
  cmd8Arg : U32
  /-- `CMD8_CLOSE`. -/
  cmd8Close : Byte
  /-- `HCS_ARG`: the ACMD41 argument of the V2 path. -/
  hcsArg : U32
  /-- `HOST_ADDR`: the width in bits of a host buffer address (20_memory.md R73). -/
  hostAddr : Nat
deriving DecidableEq, Repr

/-- The limits R13 sets on the parameters: `N_RESET_PRE` must be at least 5; `HCS_ARG` has the high-capacity-support bit
set, so it is not 0. DEDUCED, log 15. -/
def Params.wf (p : Params) : Bool :=
  decide (5 ≤ p.nResetPre) && decide (p.hcsArg ≠ 0)

/-- OPEN in R13: no value given, none chosen. -/
opaque Config.nToken : Nat
/-- OPEN in R13: no value given, none chosen. -/
opaque Config.nBusy : Nat
/-- OPEN in R13: no value given, none chosen. -/
opaque Config.nReady : Nat
/-- OPEN in R13 (92 D9): no value given, none chosen. -/
opaque Config.v2WaitMs : Nat
/-- OPEN in R73 (92 D34): no value given, none chosen. -/
opaque Config.hostAddr : Nat

/-- The byte the card returns in an exchange for which `State.script` lists none: a free draw (R12, 93 I14). Log 2. -/
opaque Config.cardReply : Nat → Byte
/-- Byte `k` of the free buffer of the given draw (93 I2, I3, I12). Log 11. -/
opaque Config.freeByte : (draw k : Nat) → Byte
/-- A free `DIVISOR` (93 I1). Log 11. -/
opaque Config.freeU32 : Nat → U32
/-- A free `SECTOR_COUNT` (93 I1). Log 11. -/
opaque Config.freeU64 : Nat → U64
/-- Free contents of host memory (93 I6, I12). Log 12. -/
opaque Config.freeCells : Nat → List Host.Cell

/-- The parameters of this instance: the defaults of R13 where it gives one (`CLOSE`, `CMD8_ARG`, `CMD8_CLOSE` and
`HCS_ARG` are PRESUMED by the spec from general knowledge, 93 G1-G4), a free value where it says OPEN. Log 14. -/
def Config.params : Params where
  nCmd := 5000
  nToken := Config.nToken
  nBusy := Config.nBusy
  nReady := Config.nReady
  nResetPre := 5
  v2WaitMs := Config.v2WaitMs
  writeGap := 0
  close := 0x95
  cmd8Arg := 0x000001AA
  cmd8Close := 0x87
  hcsArg := 0x40000000
  hostAddr := Config.hostAddr

end Sys2Proof
end

