-- ==== Sys2Proof/Syntax.lean ====
section
/-! DEFINITION. The instructions, one constructor per row of spec/opcode_table.json, and the words that spell them. -/

namespace Sys2Proof

/-- The kind of a mapper call (44_byte_range_mapper.md R220). -/
inductive MapKind where
  | read
  | write
  | erase
deriving DecidableEq, Repr

/-- The destination of a data block: 43_block_transfer.md R201 allows `CSD` (16 bytes) and `SCRATCH` (512 bytes). -/
inductive DataBuffer where
  | csd
  | scratch
deriving DecidableEq, Repr

/-- The rows of spec/opcode_table.json. -/
inductive Instr where
  /-- CMD0, reset (30_encoding.md R103; 41_bringup.md R161). -/
  | cmd0
  /-- CMD8, interface condition (40_protocol_engine.md R145). -/
  | cmd8
  /-- CMD9, send CSD (42_register_decoder.md R186). -/
  | cmd9
  /-- CMD16, set block length (45_facade.md R251). -/
  | cmd16
  /-- CMD17, read single block at a card address (43_block_transfer.md R202). -/
  | cmd17 (arg : U32)
  /-- CMD24, write single block at a card address (R203). -/
  | cmd24 (arg : U32)
  /-- CMD55, application-command prefix (30_encoding.md R128). -/
  | cmd55
  /-- CMD41 with argument 0 (41_bringup.md R163). -/
  | acmd41V1
  /-- CMD41 with argument `HCS_ARG` (R164). -/
  | acmd41V2
  /-- CMD58, read OCR (40_protocol_engine.md R146). -/
  | cmd58
  /-- A response byte, bit 7 = 0, with its seven flags (30_encoding.md R106). -/
  | r1 (flags : BitVec 7)
  /-- The start-of-block token 0xFE (R110). -/
  | startToken
  /-- A data-response token with low bits 00101; `ignored` is bits 7:5 (R111). -/
  | dataResponseAccept (ignored : BitVec 3)
  /-- The busy byte 0x00 (R112). -/
  | busy
  /-- The filler byte 0xFF (R113). -/
  | filler
  /-- INIT (45_facade.md R251). -/
  | init
  /-- READ (R252). -/
  | read (offset size : U64) (buf : Nat)
  /-- WRITE (R253). -/
  | write (offset size : U64) (buf : Nat)
  /-- ERASE (R254). -/
  | erase (offset size : U64)
  /-- CAPACITY (R255). -/
  | capacity
  /-- STATUS (R256). -/
  | status
  /-- `frame` (40_protocol_engine.md R140). -/
  | frame (idx : CmdIndex) (arg : U32) (close : Byte)
  /-- `poll` (R141). -/
  | poll
  /-- `release` (R142). -/
  | release
  /-- `command` (R143). -/
  | command (idx : CmdIndex) (arg : U32)
  /-- `commandNoDeselect` (R144). -/
  | commandNoDeselect (idx : CmdIndex) (arg : U32)
  /-- `probeInterfaceCondition` (R145). -/
  | probeInterfaceCondition
  /-- `readOperatingConditionRegister` (R146). -/
  | readOperatingConditionRegister
  /-- `bringUp` (41_bringup.md R160). -/
  | bringUp
  /-- `extractBits` on `CSD` (42_register_decoder.md R180). -/
  | extractBits (msb lsb : Nat)
  /-- `decodeCapacity` on `CSD` (R182). -/
  | decodeCapacity
  /-- `decodeV0` on `CSD` (R183). -/
  | decodeV0
  /-- `decodeV1` on `CSD` (R184). -/
  | decodeV1
  /-- `readCSD` (R186). -/
  | readCSD
  /-- `blockAddress` (43_block_transfer.md R200). -/
  | blockAddress (blk : U64)
  /-- `readData` (R201). -/
  | readData (n : Nat) (dst : DataBuffer)
  /-- `readBlockAt` (R202). -/
  | readBlockAt (blk : U64)
  /-- `writeBlockAt` (R203). -/
  | writeBlockAt (blk : U64)
  /-- `checkDataResponse` (R204). -/
  | checkDataResponse
  /-- `waitNotBusy` (R205). -/
  | waitNotBusy
  /-- `mapper` (44_byte_range_mapper.md R220). -/
  | mapper (kind : MapKind) (offset size : U64) (buf : Nat)
  /-- `checkBounds` (R221). -/
  | checkBounds (offset size : U64)
  /-- `mergeSegment` (R227). -/
  | mergeSegment (kind : MapKind) (blk : U64) (off n : Nat)
  /-- `fullBlock` (R228). -/
  | fullBlock (kind : MapKind) (blk : U64)
deriving DecidableEq, Repr

/-- The four words of a host request (30_encoding.md R116). `buf` has `HOST_ADDR` bits, a width the spec leaves open, so
it is a number here (log 16). -/
structure RequestWords where
  opw : Byte
  offset : U64
  size : U64
  buf : Nat
deriving DecidableEq, Repr

/-- What a single byte on the bus is read as: the same value spells different rows in different polls (30_encoding.md
R105-R113, R125). -/
inductive ByteContext where
  /-- received while polling for a command response (R107) -/
  | response
  /-- received while polling for the start token (R110) -/
  | token
  /-- received right after the checksum of a written block (R111) -/
  | dataResponse
  /-- received while waiting for the card to finish programming (R112) -/
  | busy
  /-- sent by the engine to receive only (R113) -/
  | sent
deriving DecidableEq, Repr

/-- One thing presented to the engine's sequencer: a host request at the request port (10_state.md R60), or a command
frame or byte run on its own as a sub-step (log 3). -/
inductive Input where
  | request (w : RequestWords)
  | frame (bytes : List Byte)
  | byte (ctx : ByteContext) (b : Byte)
deriving DecidableEq, Repr

/-- Why words spell no instruction. -/
inductive DecodeError where
  /-- `op` is 6 or 7, or `opw[7:3]` is not 0 (30_encoding.md R124). -/
  | reservedRequest (opw : Byte)
  /-- A frame is exactly 6 bytes (R129). -/
  | frameLength
  /-- A frame's byte 0 has bits 7:6 = 01 (R100). -/
  | frameStart
  /-- "not emitted by this engine" (R104). -/
  | notEmitted
  /-- The byte is no row of the table in this context: it is skipped or rejected by the rule that receives it (R125). -/
  | noRow (b : Byte)
deriving DecidableEq, Repr

end Sys2Proof
end

