-- ==== Sys2Proof/Decode.lean ====
section
/-! DEFINITION. The decoder, total on any words, and the encoder, both from the encodings of 30_encoding.md. -/

namespace Sys2Proof

/-- The filler byte (00_scope.md R15, 30_encoding.md R113). -/
def fillerByte : Byte := 0xFF

/-- The start-of-block token (R15, R110). -/
def startTokenByte : Byte := 0xFE

/-- The low 5 bits of an accepted data-response token (R15, R111). -/
def acceptBits : BitVec 5 := 0b00101

/-- The block size `B` (R13, R34). -/
def blockBytes : Nat := 512

/-- The six bytes of a command frame in the order sent: `0x40 | index`, the argument most significant byte first, the
closing byte (30_encoding.md R100, R101; 20_memory.md R75). -/
def frameBytes (idx : CmdIndex) (arg : U32) (close : Byte) : List Byte :=
  [0x40 ||| idx.setWidth 8, arg.extractLsb' 24 8, arg.extractLsb' 16 8, arg.extractLsb' 8 8, arg.extractLsb' 0 8, close]

/-- Which of the ten frames of R103 this is, if any (R104: every other one is "not emitted by this engine"). -/
def frameRow (p : Params) (idx : CmdIndex) (arg : U32) (close : Byte) : Option Instr :=
  if idx = 8 then
    if arg = p.cmd8Arg ∧ close = p.cmd8Close then some .cmd8 else none
  else if close ≠ p.close then none
  else if idx = 17 then some (.cmd17 arg)
  else if idx = 24 then some (.cmd24 arg)
  else if idx = 0 ∧ arg = 0 then some .cmd0
  else if idx = 9 ∧ arg = 0 then some .cmd9
  else if idx = 16 ∧ arg = 512 then some .cmd16
  else if idx = 55 ∧ arg = 0 then some .cmd55
  else if idx = 41 ∧ arg = 0 then some .acmd41V1
  else if idx = 41 ∧ arg = p.hcsArg then some .acmd41V2
  else if idx = 58 ∧ arg = 0 then some .cmd58
  else none

/-- Is this a frame the engine emits (R103, R104)? -/
def emitted (p : Params) (idx : CmdIndex) (arg : U32) (close : Byte) : Bool :=
  (frameRow p idx arg close).isSome

/-- Reads a command frame from its bytes (R100, R101, R129). -/
def decodeFrame (p : Params) : List Byte → Except DecodeError Instr
  | [b0, b1, b2, b3, b4, b5] =>
    if b0.extractLsb' 6 2 ≠ 0b01#2 then .error .frameStart
    else
      match frameRow p (b0.extractLsb' 0 6) (b1 ++ b2 ++ b3 ++ b4) b5 with
      | some i => .ok i
      | none => .error .notEmitted
  | _ => .error .frameLength

/-- Reads a byte in its context (R107, R110, R111, R112, R113). -/
def decodeByte : ByteContext → Byte → Except DecodeError Instr
  | .response, b => if b.extractLsb' 7 1 = 0#1 then .ok (.r1 (b.extractLsb' 0 7)) else .error (.noRow b)
  | .token, b => if b = startTokenByte then .ok .startToken else .error (.noRow b)
  | .dataResponse, b =>
    if b.extractLsb' 0 5 = acceptBits then .ok (.dataResponseAccept (b.extractLsb' 5 3)) else .error (.noRow b)
  | .busy, b => if b = 0x00 then .ok .busy else .error (.noRow b)
  | .sent, b => if b = fillerByte then .ok .filler else .error (.noRow b)

/-- Reads a host request (R116, R117): `opw[2:0]` is the operation, `opw[7:3]` must be 0, and R124 refuses the rest. -/
def decodeRequest (w : RequestWords) : Except DecodeError Instr :=
  if w.opw.extractLsb' 3 5 ≠ 0#5 then .error (.reservedRequest w.opw)
  else
    match (w.opw.extractLsb' 0 3).toNat with
    | 0 => .ok .init
    | 1 => .ok (.read w.offset w.size w.buf)
    | 2 => .ok (.write w.offset w.size w.buf)
    | 3 => .ok (.erase w.offset w.size)
    | 4 => .ok .capacity
    | 5 => .ok .status
    | _ => .error (.reservedRequest w.opw)

/-- The decoder. -/
def decode (p : Params) : Input → Except DecodeError Instr
  | .request w => decodeRequest w
  | .frame bytes => decodeFrame p bytes
  | .byte ctx b => decodeByte ctx b

/-- The words that spell an instruction; `none` for an internal primitive, which has no encoding (the table's match is
null). The operands an operation does not use are sent as 0 (log 24). -/
def encode (p : Params) : Instr → Option Input
  | .cmd0 => some (.frame (frameBytes 0 0 p.close))
  | .cmd8 => some (.frame (frameBytes 8 p.cmd8Arg p.cmd8Close))
  | .cmd9 => some (.frame (frameBytes 9 0 p.close))
  | .cmd16 => some (.frame (frameBytes 16 512 p.close))
  | .cmd17 arg => some (.frame (frameBytes 17 arg p.close))
  | .cmd24 arg => some (.frame (frameBytes 24 arg p.close))
  | .cmd55 => some (.frame (frameBytes 55 0 p.close))
  | .acmd41V1 => some (.frame (frameBytes 41 0 p.close))
  | .acmd41V2 => some (.frame (frameBytes 41 p.hcsArg p.close))
  | .cmd58 => some (.frame (frameBytes 58 0 p.close))
  | .r1 flags => some (.byte .response (0#1 ++ flags))
  | .startToken => some (.byte .token startTokenByte)
  | .dataResponseAccept ignored => some (.byte .dataResponse (ignored ++ acceptBits))
  | .busy => some (.byte .busy 0x00)
  | .filler => some (.byte .sent fillerByte)
  | .init => some (.request ⟨0x00, 0, 0, 0⟩)
  | .read offset size buf => some (.request ⟨0x01, offset, size, buf⟩)
  | .write offset size buf => some (.request ⟨0x02, offset, size, buf⟩)
  | .erase offset size => some (.request ⟨0x03, offset, size, 0⟩)
  | .capacity => some (.request ⟨0x04, 0, 0, 0⟩)
  | .status => some (.request ⟨0x05, 0, 0, 0⟩)
  | .frame _ _ _ => none
  | .poll => none
  | .release => none
  | .command _ _ => none
  | .commandNoDeselect _ _ => none
  | .probeInterfaceCondition => none
  | .readOperatingConditionRegister => none
  | .bringUp => none
  | .extractBits _ _ => none
  | .decodeCapacity => none
  | .decodeV0 => none
  | .decodeV1 => none
  | .readCSD => none
  | .blockAddress _ => none
  | .readData _ _ => none
  | .readBlockAt _ => none
  | .writeBlockAt _ => none
  | .checkDataResponse => none
  | .waitNotBusy => none
  | .mapper _ _ _ _ => none
  | .checkBounds _ _ => none
  | .mergeSegment _ _ _ _ => none
  | .fullBlock _ _ => none

/-- The `n` bytes of a number, most significant first. -/
def bytesBE : Nat → Nat → List Byte
  | 0, _ => []
  | n + 1, w => BitVec.ofNat 8 (w >>> (8 * n)) :: bytesBE n w

/-- The context in which a lone byte of the table is read when none is given (log 4). -/
def contextOf (b : Byte) : ByteContext :=
  if b = startTokenByte then .token
  else if b = fillerByte then .sent
  else if b.extractLsb' 0 5 = acceptBits then .dataResponse
  else .response

/-- The words whose bits are `w`, numbered as spec/opcode_table.json numbers them: 48 bits are a command frame, its byte
0 in bits 47:40 (R100); a lone byte above 5 is a byte of the bus; everything else is a host request, `opw` in bits 7:0,
then `offset`, `size` and `buf` (R116). Logs 4 and 27. -/
def inputOfWord (nbits w : Nat) : Input :=
  if nbits = 48 then .frame (bytesBE 6 w)
  else if nbits ≤ 8 ∧ 5 < w % 256 then .byte (contextOf (BitVec.ofNat 8 w)) (BitVec.ofNat 8 w)
  else .request ⟨BitVec.ofNat 8 w, BitVec.ofNat 64 (w >>> 8), BitVec.ofNat 64 (w >>> 72), w >>> 136⟩

/-- The instruction the decoder reads from a word of spec/opcode_table.json. -/
def decodeTableWord (nbits w : Nat) : Option Instr :=
  (decode Config.params (inputOfWord nbits w)).toOption

end Sys2Proof
end

