-- ==== Sys2Proof/Machine/State.lean ====
section
/-! DEFINITION. The state of the engine (10_state.md), plain data, and the state after reset. -/

namespace Sys2Proof.Machine

/-- The result of a poll (00_scope.md R23): a response byte with bit 7 = 0, held as its seven flags, or the sentinel
"distinct from all valid byte values". -/
inductive Resp where
  | r1 (flags : BitVec 7)
  | timeout
deriving DecidableEq, Repr

/-- The host operation being served (10_state.md R50, 30_encoding.md R117). -/
inductive HostOp where
  | init
  | read
  | write
  | erase
  | capacity
  | status
deriving DecidableEq, Repr

/-- `TOP` (R50). -/
inductive Top where
  | idle
  | busy (op : HostOp)
deriving DecidableEq, Repr

/-- `BR`, the bring-up state (R50). -/
inductive BringUpState where
  | reset
  | versionProbe
  | v1Path
  | v2Path
  | ready
  | failed
deriving DecidableEq, Repr

/-- The completion status (30_encoding.md R119). -/
inductive Status where
  | success
  | notInitialized
  | outOfBounds
  | ioFailure
deriving DecidableEq, Repr

/-- The diagnostic of a completion (60_exceptions.md R270). -/
inductive Cause where
  | none
  | protocolTimeout
  | illegalResponse
  | writeRejected
  | blockStartMissing
  | csdDecodeFailed
deriving DecidableEq, Repr

/-- `COMPLETION` (10_state.md R45). -/
structure Completion where
  status : Status
  count : U64
  value : U64
  cause : Cause
deriving DecidableEq, Repr

/-- The error kinds (60_exceptions.md R270). -/
inductive Err where
  | protocolTimeout
  | illegalResponse
  | writeRejected
  | blockStartMissing
  | csdDecodeFailed
  | boundsViolation
  | notInitialized
deriving DecidableEq, Repr

/-- One event of the observable bus trace (10_state.md R64): `X(sel, tx, rx)` or `W(ms)`. -/
inductive BusEvent where
  | exchange (sel : Bool) (tx rx : Byte)
  | wait (ms : Nat)
deriving DecidableEq, Repr

/-- A call of the bus capability (00_scope.md R19). `receive` is the exchange of a filler byte in which the byte returned is
given (log 6). -/
inductive BusCall where
  | sel (v : Bool)
  | xfer (tx : Byte)
  | receive (rx : Byte)
  | wait (ms : Nat)
deriving DecidableEq, Repr

/-- The mapper's working registers (R42). -/
structure MapperRegs where
  done : U64
  rem : U64
  blk : U64
  skew : U64
  segN : U64
deriving DecidableEq, Repr

/-- The loop counters (R43): each holds the number of its loop's iterations begun so far (`payload`: bytes moved). -/
structure LoopCounters where
  /-- unconditional resets (41_bringup.md R161) -/
  reset : Nat
  /-- ACMD41 attempts (R163, R164) -/
  attempt : Nat
  /-- command polls (40_protocol_engine.md R141) -/
  poll : Nat
  /-- trailing reply bytes (R145, R146) -/
  trail : Nat
  /-- start-token polls (43_block_transfer.md R201) -/
  token : Nat
  /-- payload bytes (R201, R203) -/
  payload : Nat
  /-- gap fillers of a write (R203) -/
  gap : Nat
  /-- busy polls (R205) -/
  busy : Nat
deriving DecidableEq, Repr

/-- The operands of the request being served (R60). -/
structure Request where
  offset : U64
  size : U64
  buf : Nat
deriving DecidableEq, Repr

/-- The triple `decodeCapacity` returns (42_register_decoder.md R182). -/
structure Decoded where
  ok : Bool
  sectorCount : U64
  capacityBytes : U64
deriving DecidableEq, Repr

/-- What a sub-step run on its own returned (00_scope.md R21) or raised (R22). Log 7. -/
inductive Result where
  | none
  | unit
  | byte (b : Byte)
  | resp (r : Resp)
  | respOcr (r : Resp) (ocr : U32)
  | word (v : U32)
  | decoded (d : Decoded)
  | count (n : U64)
  | raised (e : Err)
deriving DecidableEq, Repr

/-- Host buffer memory: the listed bytes, addresses strictly rising, none equal to what an unlisted address reads as. -/
abbrev Memory := List Host.Cell

/-- The state of the engine, its ports and its inputs. INVENTORY.md lists each field with its rule and reset value. -/
structure State where
  /-- `INITIALIZED` (R31) -/
  initialized : Bool
  /-- `DIVISOR` (R32) -/
  divisor : U32
  /-- `SECTOR_COUNT` (R33) -/
  sectorCount : U64
  /-- `CMD_IDX` (R37) -/
  cmdIdx : CmdIndex
  /-- `CMD_ARG` (R37) -/
  cmdArg : U32
  /-- `RESP` (R38) -/
  resp : Resp
  /-- `OCR` (R39) -/
  ocr : U32
  /-- `CSD` (R40) -/
  csd : Vector Byte 16
  /-- `SCRATCH` (R41) -/
  scratch : Vector Byte 512
  /-- `DONE`, `REM`, `BLK`, `SKEW`, `SEG_N` (R42) -/
  map : MapperRegs
  /-- the loop counters (R43) -/
  loops : LoopCounters
  /-- `found` (43_block_transfer.md R201) -/
  found : Bool
  /-- `DRT` (R44) -/
  drt : Byte
  /-- `COMPLETION` (R45) -/
  completion : Completion
  /-- the configuration parameters (R47) -/
  cfg : Params
  /-- `TOP` (R50) -/
  top : Top
  /-- `BR` (R50) -/
  br : BringUpState
  /-- the position within the running operation: bus events performed (R50; log 20) -/
  position : Nat
  /-- the rest of that position: the bus call the engine has computed up to and now waits for; `none` while it computes or
  is IDLE (R50, 70_reset_and_hazards.md R316; log 20) -/
  pending : Option BusCall
  /-- `SEL` (R53): true = asserted -/
  sel : Bool
  /-- the operands of the request being served (R60) -/
  req : Request
  /-- host buffer memory (R63) -/
  mem : Memory
  /-- the observable bus trace, oldest event first (R64) -/
  trace : List BusEvent
  /-- what will be presented to the engine, oldest first (R60; log 3) -/
  inbox : List Input
  /-- the bytes the card will return, oldest first (R61; log 2) -/
  script : List Byte
  /-- free values taken so far (log 11) -/
  draws : Nat
  /-- how many more `Sel` changes, `Xfer` and `Wait` calls return; `none`: all of them (R316, 93 I13; log 18) -/
  busAnswers : Option Nat
  /-- the host keeps the duties of 70_reset_and_hazards.md R312 (log 13) -/
  hostKeepsDuties : Bool
  /-- what the last sub-step run on its own returned or raised (log 7) -/
  result : Result
deriving DecidableEq, Repr

/-- Why the machine stops with a fault. `stopped` is the state it stops in (log 26). -/
inductive Fault where
  /-- `blockAddress` does not fit the u32 argument (60_exceptions.md R278). Raised by `blockAddress`, so by READ, WRITE,
  ERASE, `mapper`, `mergeSegment`, `fullBlock`, `readBlockAt` and `writeBlockAt`. Safe: the spec itself stops the model. -/
  | addressOverflow (blk : U64) (stopped : State)
  /-- `extractBits` outside its domain (42_register_decoder.md R181). Raised by `extractBits` on its own operands. Safe:
  the spec itself stops the model. -/
  | extractBitsDomain (msb lsb : Nat) (stopped : State)
  /-- A bus call that never returns (70_reset_and_hazards.md R316; 93 I13: stuck). Raised by every `Sel` change, `Xfer` and
  `Wait` when `busAnswers` is spent; `pending` of the state names the call. Safe: nothing is claimed of the run afterwards.
  Log 18. -/
  | busNeverReturns (stopped : State)
deriving DecidableEq, Repr

/-- Why the machine gives an input no meaning. -/
inductive Refusal where
  /-- The instruction has no meaning yet. Raised by `exec` only. Safe. -/
  | notModelled (mnemonic : String)
  /-- The words spell no instruction: a reserved request (30_encoding.md R124, 93 I10: refuse), a frame the engine never
  emits (R104), a byte that is no row of the table in its context. Raised by `step`. Safe. -/
  | undecodable (e : DecodeError)
  /-- A request while `TOP` is BUSY (60_exceptions.md R288, 93 I11: refuse). Raised by the six host operations. Safe. -/
  | busy
  /-- A frame that R103 does not list: "A model of the engine must not produce them" (30_encoding.md R104). Raised by
  `frame`, `command` and `commandNoDeselect` on such operands. Safe. Log 17. -/
  | frameNotEmitted
  /-- Operands outside the range the primitive's rule gives (43_block_transfer.md R201, 44_byte_range_mapper.md R227).
  Raised by `readData` and `mergeSegment` on such operands. Safe. Log 17. -/
  | operandOutOfRange
deriving DecidableEq, Repr

/-- The state right after the reset event (10_state.md R56, 70_reset_and_hazards.md R300, R301). `INITIALIZED`,
`COMPLETION`, `TOP` and `SEL` are the spec's; every register R56 calls unspecified is 0 by DESIGN CHOICE (log 8); the
model's own fields are empty (logs 2, 3, 7, 11, 13, 18, 20). -/
def State.reset : State where
  initialized := false
  divisor := 0
  sectorCount := 0
  cmdIdx := 0
  cmdArg := 0
  resp := .r1 0
  ocr := 0
  csd := Vector.replicate 16 0
  scratch := Vector.replicate 512 0
  map := ⟨0, 0, 0, 0, 0⟩
  loops := ⟨0, 0, 0, 0, 0, 0, 0, 0⟩
  found := false
  drt := 0
  completion := ⟨.success, 0, 0, .none⟩
  cfg := Config.params
  top := .idle
  br := .reset
  position := 0
  pending := none
  sel := false
  req := ⟨0, 0, 0⟩
  mem := []
  trace := []
  inbox := []
  script := []
  draws := 0
  busAnswers := none
  hostKeepsDuties := true
  result := .none

end Sys2Proof.Machine
end

