-- ==== Sys2Proof/Machine/Flags.lean ====
section
/-! DEFINITION. Every flag, status code and classification of 10_state.md R49: the R1 flags, the data-response status,
READY, and the `status` and `cause` codes of a completion. -/

namespace Sys2Proof.Machine

/-- `R1_READY`, "a full zero status" (30_encoding.md R108). -/
def r1Ready : Resp := .r1 0x00

/-- `R1_IDLE`, "exactly 'idle'" (R108). -/
def r1Idle : Resp := .r1 0x01

/-- `R1_IDLE_ILLEGAL`, "idle | illegalCommand" (R108). -/
def r1IdleIllegal : Resp := .r1 0x05

/-- A response as a byte (00_scope.md R23): `TIMEOUT` is 0xFF, an R1 has bit 7 = 0. -/
def Resp.toByte : Resp → Byte
  | .r1 flags => 0#1 ++ flags
  | .timeout => 0xFF

/-- Bit `k` of the R1 byte; false for `TIMEOUT`, which is no R1 (30_encoding.md R106). -/
def Resp.flag (k : Nat) : Resp → Bool
  | .r1 flags => flags.getLsbD k
  | .timeout => false

/-- R106, bit 0. -/
def Resp.idle (r : Resp) : Bool := r.flag 0
/-- R106, bit 1. -/
def Resp.eraseReset (r : Resp) : Bool := r.flag 1
/-- R106, bit 2. -/
def Resp.illegalCommand (r : Resp) : Bool := r.flag 2
/-- R106, bit 3. -/
def Resp.crcError (r : Resp) : Bool := r.flag 3
/-- R106, bit 4. -/
def Resp.eraseSequenceError (r : Resp) : Bool := r.flag 4
/-- R106, bit 5. -/
def Resp.addressError (r : Resp) : Bool := r.flag 5
/-- R106, bit 6. -/
def Resp.parameterError (r : Resp) : Bool := r.flag 6

/-- The R1 a polled byte is, if it is a response at all: bit 7 must be 0 (30_encoding.md R107). -/
def responseOf (rx : Byte) : Option (BitVec 7) :=
  if rx.extractLsb' 7 1 = 0#1 then some (rx.extractLsb' 0 7) else none

/-- Is this byte the start-of-block token (R110)? -/
def isStartToken (rx : Byte) : Bool := decide (rx = startTokenByte)

/-- Does this data-response token accept the block? Bits 7:5 are ignored (R111). -/
def isAccepted (drt : Byte) : Bool := decide (drt.extractLsb' 0 5 = acceptBits)

/-- Does this byte say the card is still programming (R112)? -/
def isBusy (rx : Byte) : Bool := decide (rx = 0x00)

/-- The status code, u8 (R119). -/
def Status.code : Status → Byte
  | .success => 0
  | .notInitialized => 1
  | .outOfBounds => 2
  | .ioFailure => 3

/-- The cause code, u8 (60_exceptions.md R270). -/
def Cause.code : Cause → Byte
  | .none => 0
  | .protocolTimeout => 1
  | .illegalResponse => 2
  | .writeRejected => 3
  | .blockStartMissing => 4
  | .csdDecodeFailed => 5

/-- The numeric encoding of `BR` (10_state.md R51). -/
def BringUpState.code : BringUpState → Byte
  | .reset => 0
  | .versionProbe => 1
  | .v1Path => 2
  | .v2Path => 3
  | .ready => 4
  | .failed => 5

/-- The operation code of a host operation (30_encoding.md R117). -/
def HostOp.code : HostOp → BitVec 3
  | .init => 0
  | .read => 1
  | .write => 2
  | .erase => 3
  | .capacity => 4
  | .status => 5

/-- The status an error kind completes with (60_exceptions.md R270). -/
def Err.status : Err → Status
  | .protocolTimeout | .illegalResponse | .writeRejected | .blockStartMissing | .csdDecodeFailed => .ioFailure
  | .boundsViolation => .outOfBounds
  | .notInitialized => .notInitialized

/-- The cause an error kind records (R270). -/
def Err.cause : Err → Cause
  | .protocolTimeout => .protocolTimeout
  | .illegalResponse => .illegalResponse
  | .writeRejected => .writeRejected
  | .blockStartMissing => .blockStartMissing
  | .csdDecodeFailed => .csdDecodeFailed
  | .boundsViolation => .none
  | .notInitialized => .none

/-- An I/O kind (R279): one that completes with IO_FAILURE. -/
def Err.isIo (e : Err) : Bool := decide (e.status = .ioFailure)

/-- The error of a single decision point whose response is not the expected one (40_protocol_engine.md R147, 41_bringup.md
R168): `TIMEOUT` is ProtocolTimeout, any other response IllegalResponse. -/
def rejection : Resp → Err
  | .timeout => .protocolTimeout
  | .r1 _ => .illegalResponse

/-- The status flags STATUS returns: bit 0 is READY, bits 63:1 are 0 (10_state.md R46, 30_encoding.md R120). -/
def State.statusFlags (s : State) : U64 := (BitVec.ofBool s.initialized).setWidth 64

/-- `BLOCK_SIZE`, hardwired to 512 (10_state.md R34). -/
def State.blockSize (_ : State) : U32 := 512

/-- The card's class is implied by `DIVISOR` (R35): 512 standard capacity, 1 high capacity. -/
def State.standardCapacity (s : State) : Bool := decide (s.divisor = 512)

end Sys2Proof.Machine
end

