-- ==== Sys2Proof/Machine/Operands.lean ====
section
/-! DEFINITION. Operand assembly and address computation: block indices, skews, segment lengths, card addresses, the
bounds of a request, byte buffers. Everything here is a pure function. -/

namespace Sys2Proof.Machine

/-- The block that holds request byte `offset` (20_memory.md R71, 44_byte_range_mapper.md R223). -/
def firstBlock (offset : U64) : U64 := offset / 512

/-- The bytes to skip within the first block (R223). -/
def skewOf (offset : U64) : U64 := offset - firstBlock offset * 512

/-- The smaller of two u64 values (00_scope.md R18). -/
def minU64 (a b : U64) : U64 := if a.toNat ≤ b.toNat then a else b

/-- The head length `min(size, 512 - SKEW)` (R224). -/
def headLength (size skew : U64) : U64 := minU64 size (512 - skew)

/-- `CAP_BOUND = SECTOR_COUNT * 512`, as a mathematical integer (20_memory.md R87). -/
def capacityBound (sectorCount : U64) : Nat := sectorCount.toNat * blockBytes

/-- The legal request range (R87, 44_byte_range_mapper.md R221): the sum is formed without wrap-around, must not
overflow u64 and must not exceed the bound. -/
def rangeLegal (offset size sectorCount : U64) : Bool :=
  decide (offset.toNat + size.toNat < 2 ^ 64) && decide (offset.toNat + size.toNat ≤ capacityBound sectorCount)

/-- The card address of a block before the range check, `blk * DIVISOR` (20_memory.md R72). -/
def cardAddress (blk : U64) (divisor : U32) : Nat := blk.toNat * divisor.toNat

/-- The number of blocks a request with `size ≥ 1` touches (44_byte_range_mapper.md R232). -/
def touchedBlocks (offset size : U64) : Nat :=
  (offset.toNat + size.toNat - 1) / blockBytes - offset.toNat / blockBytes + 1

/-- The OCR from its four bytes, first byte most significant (20_memory.md R77). -/
def assembleOcr (b0 b1 b2 b3 : Byte) : U32 := b0 ++ b1 ++ b2 ++ b3

/-- `BUF[k] <- b` (00_scope.md R21); no effect past the end. -/
def setByte {n : Nat} (v : Vector Byte n) (k : Nat) (b : Byte) : Vector Byte n :=
  ⟨(v.toList.set k b).toArray, by simp⟩

/-- `BUF[off .. off + n - 1] <- bytes`. -/
def overlay {n : Nat} (v : Vector Byte n) (off : Nat) : List Byte → Vector Byte n
  | [] => v
  | b :: bs => overlay (setByte v off b) (off + 1) bs

/-- `BUF[off .. off + n - 1]`. -/
def slice {m : Nat} (v : Vector Byte m) (off n : Nat) : List Byte := (v.toList.drop off).take n

end Sys2Proof.Machine
end

