-- ==== Sys2Proof/Machine/Ops.lean ====
section
/-! DEFINITION. The named operations on registers, the bus, host memory and the free values; taking an error exit
(60_exceptions.md R279), the one shared operation behind every `raise`, and the normal completion beside it. -/

namespace Sys2Proof.Machine

/-! ## Host buffer memory as data -/

/-- What a byte of host memory that is not listed reads as. The spec gives none. DESIGN CHOICE, log 10. -/
def Memory.unlisted : Byte := 0

/-- One byte. -/
def Memory.read : Memory → Nat → Byte
  | [], _ => Memory.unlisted
  | (x, v) :: m, a => if x = a then v else Memory.read m a

/-- Stores one byte and keeps the canonical form. -/
def Memory.write : Memory → Nat → Byte → Memory
  | [], a, b => if b = Memory.unlisted then [] else [(a, b)]
  | (x, v) :: m, a, b =>
    if x < a then (x, v) :: Memory.write m a b
    else if x = a then (if b = Memory.unlisted then m else (a, b) :: m)
    else if b = Memory.unlisted then (x, v) :: m
    else (a, b) :: (x, v) :: m

/-- `n` bytes from `a` up (00_scope.md R20). -/
def Memory.readBytes (m : Memory) (a : Nat) : Nat → List Byte
  | 0 => []
  | n + 1 => Memory.read m a :: Memory.readBytes m (a + 1) n

/-- The bytes at `a` and up, in increasing address order (R20, 20_memory.md R81). -/
def Memory.writeBytes (m : Memory) (a : Nat) : List Byte → Memory
  | [] => m
  | b :: bs => Memory.writeBytes (Memory.write m a b) (a + 1) bs

/-- Replaces the contents of the addresses `lo .. hi - 1` by those of `cells`. -/
def Memory.replaceRange (m : Memory) (lo hi : Nat) (cells : List Host.Cell) : Memory :=
  (cells.filter fun c => decide (lo ≤ c.1) && decide (c.1 < hi)).foldl (fun m c => Memory.write m c.1 c.2)
    (m.filter fun c => !(decide (lo ≤ c.1) && decide (c.1 < hi)))

/-- The canonical form: addresses strictly rising, no entry equal to what an unlisted address reads as. -/
def Memory.wf (m : Memory) : Bool :=
  decide (m.Pairwise fun c d => c.1 < d.1) && m.all fun c => decide (c.2 ≠ Memory.unlisted)

/-! ## Updates of the state, one per register -/

namespace State

/-- `INITIALIZED <- v` (10_state.md R31). -/
def setInitialized (v : Bool) (s : State) : State := { s with initialized := v }
/-- `DIVISOR <- v` (R32). -/
def setDivisor (v : U32) (s : State) : State := { s with divisor := v }
/-- `SECTOR_COUNT <- v` (R33). -/
def setSectorCount (v : U64) (s : State) : State := { s with sectorCount := v }
/-- `CMD_IDX <- idx; CMD_ARG <- arg` (R37). -/
def setCommand (idx : CmdIndex) (arg : U32) (s : State) : State := { s with cmdIdx := idx, cmdArg := arg }
/-- `RESP <- r` (R38). -/
def setResp (r : Resp) (s : State) : State := { s with resp := r }
/-- `OCR <- v` (R39). -/
def setOcr (v : U32) (s : State) : State := { s with ocr := v }
/-- `CSD <- v` (R40). -/
def setCsd (v : Vector Byte 16) (s : State) : State := { s with csd := v }
/-- `SCRATCH <- v` (R41). -/
def setScratch (v : Vector Byte 512) (s : State) : State := { s with scratch := v }
/-- The mapper's registers (R42). -/
def setMap (v : MapperRegs) (s : State) : State := { s with map := v }
/-- The loop counters (R43). -/
def setLoops (v : LoopCounters) (s : State) : State := { s with loops := v }
/-- `found <- v` (43_block_transfer.md R201). -/
def setFound (v : Bool) (s : State) : State := { s with found := v }
/-- `DRT <- b` (R44). -/
def setDrt (b : Byte) (s : State) : State := { s with drt := b }
/-- `BR <- b` (R50). -/
def setBr (b : BringUpState) (s : State) : State := { s with br := b }
/-- The operands of the request being served (R60). -/
def setReq (r : Request) (s : State) : State := { s with req := r }
/-- Host buffer memory (R63). -/
def setMem (m : Memory) (s : State) : State := { s with mem := m }
/-- What the last sub-step returned or raised (log 7). -/
def setResult (r : Result) (s : State) : State := { s with result := r }

/-- A `Sel` change (00_scope.md R19): the new level, and the position advances by one event (10_state.md R50). It shows in
the trace only through the `sel` field of later exchanges (R64). -/
def driveSel (v : Bool) (s : State) : State := { s with sel := v, position := s.position + 1 }

/-- One exchange in the trace (R64): it advances the position by one event (R50). -/
def logExchange (tx rx : Byte) (s : State) : State :=
  { s with trace := s.trace ++ [.exchange s.sel tx rx], position := s.position + 1 }

/-- One wait in the trace (R64). -/
def logWait (ms : Nat) (s : State) : State :=
  { s with trace := s.trace ++ [.wait ms], position := s.position + 1 }

/-- The state after taking the card's next reply byte. -/
def dropReply (s : State) : State :=
  { s with script := s.script.tail, draws := s.draws + if s.script.isEmpty then 1 else 0 }

/-- The card's next reply byte: a free draw (00_scope.md R12; log 2). -/
def replyByte (s : State) : Byte :=
  match s.script with
  | [] => Config.cardReply s.draws
  | b :: _ => b

/-- One `Xfer` or `Wait` call fewer will return (log 18). -/
def spendAnswer (s : State) : State := { s with busAnswers := s.busAnswers.map (· - 1) }

/-- The engine has computed up to a bus call and waits for it (R50). -/
def await (c : BusCall) (s : State) : State := { s with pending := some c }

/-- What a bus call does when it returns: one bus event (R50, R64). -/
def perform (c : BusCall) (s : State) : State :=
  match c with
  | .sel v => s.driveSel v
  | .xfer tx => s.dropReply.logExchange tx s.replyByte
  | .receive rx => s.logExchange fillerByte rx
  | .wait ms => s.logWait ms

/-- A buffer of free bytes (log 11). -/
@[irreducible] def freeVector (n : Nat) (s : State) : Vector Byte n :=
  ⟨((List.range n).map fun k => Config.freeByte s.draws k).toArray, by simp⟩

/-- `CSD` is unspecified from here on (10_state.md R40, 93 I2). -/
def freeCsd (s : State) : State := { s with csd := s.freeVector 16, draws := s.draws + 1 }

/-- `SCRATCH` is unspecified from here on (R41, 93 I3). -/
def freeScratch (s : State) : State := { s with scratch := s.freeVector 512, draws := s.draws + 1 }

/-- The data buffer is unspecified from here on (93 I2, I3). -/
def freeBuffer (dst : DataBuffer) (s : State) : State :=
  match dst with
  | .csd => s.freeCsd
  | .scratch => s.freeScratch

/-- `DIVISOR` and `SECTOR_COUNT` may hold any value (45_facade.md R251, 93 I1). -/
def freeSession (s : State) : State :=
  { s with
    divisor := Config.freeU32 s.draws
    sectorCount := Config.freeU64 s.draws
    draws := s.draws + 1 }

/-- The host bytes at `lo .. hi - 1`, as far as they exist, may hold any value (44_byte_range_mapper.md R234, 93 I6). -/
def freeHostRange (lo hi : Nat) (s : State) : State :=
  { s with
    mem := s.mem.replaceRange lo (min hi (2 ^ s.cfg.hostAddr)) (Config.freeCells s.draws)
    draws := s.draws + 1 }

/-- All of host memory may hold any value (93 I12). -/
def freeHostMemory (s : State) : State := s.freeHostRange 0 (2 ^ s.cfg.hostAddr)

/-- The host keeps the duties of 70_reset_and_hazards.md R312 for an access to `n` bytes at `a`: the bytes exist, and no
one else touches them. -/
def hostBytesSound (a n : Nat) (s : State) : Bool := s.hostKeepsDuties && decide (a + n ≤ 2 ^ s.cfg.hostAddr)

/-- The duties of R312 hold for the whole buffer of the request being served. -/
def bufferSound (s : State) : Bool := s.hostBytesSound s.req.buf s.req.size.toNat

/-- The duties of R312 hold for a host access to `n` bytes at `a`, and for the request the access serves: they bind the
whole buffer. -/
def accessSound (a n : Nat) (s : State) : Bool := s.hostBytesSound a n && s.bufferSound

/-- The bytes of a READ's buffer that are not transferred may hold any value (44_byte_range_mapper.md R234, 93 I6). -/
def freeUnread (s : State) : State :=
  s.freeHostRange (s.req.buf + s.map.done.toNat) (s.req.buf + s.req.size.toNat)

/-- Accepting a request (45_facade.md R250): `TOP <- BUSY(op)`, at the start of its rule. -/
def accept (op : HostOp) (s : State) : State := { s with top := .busy op, position := 0 }

/-- The normal end of a request (R250): `COMPLETION` is written once and `TOP <- IDLE`. -/
def complete (c : Completion) (s : State) : State := { s with completion := c, top := .idle, position := 0 }

/-- The completion of READ, WRITE or ERASE after `raise e` (60_exceptions.md R279, 44_byte_range_mapper.md R230). -/
def rangeCompletion (e : Err) (s : State) : Completion :=
  ⟨e.status, if e.isIo then s.map.done else 0, 0, e.cause⟩

/-- TAKING AN ERROR EXIT (60_exceptions.md R279): the operation of the current request catches `raise e`, writes
`COMPLETION` and sets `TOP <- IDLE`. No register is saved and none restored (R280); there is no return instruction
(R284). After a failed INIT `DIVISOR` and `SECTOR_COUNT` may hold any value (R251); after an I/O failure of READ the
destination bytes from `DONE` on may (R234). A `raise` with no request running is caught by no operation (log 7), and
STATUS cannot raise (R279; log 23). -/
def errorExit (e : Err) (s : State) : State :=
  match s.top with
  | .idle => s
  | .busy .init => ((s.setInitialized false).freeSession).complete ⟨.ioFailure, 0, 0, e.cause⟩
  | .busy .read =>
    if e.isIo then s.freeUnread.complete (s.rangeCompletion e) else s.complete (s.rangeCompletion e)
  | .busy .write => s.complete (s.rangeCompletion e)
  | .busy .erase => s.complete (s.rangeCompletion e)
  | .busy .capacity => s.complete ⟨.ioFailure, 0, 0, e.cause⟩
  | .busy .status => s

/-- Takes the next input. -/
def popInbox (s : State) : State := { s with inbox := s.inbox.tail }

end State

/-! ## Sub-steps: functions on the state that return, raise or stop -/

/-- How a sub-step ends other than by returning: `raise` (00_scope.md R22), or a model fault. -/
inductive Stop where
  | raised (e : Err)
  | fault (f : Fault)
deriving DecidableEq, Repr

/-- A sub-step of the sequencer (92 D1). A `raise` unwinds through every enclosing sub-step; nothing is undone. -/
abbrev M (α : Type) := EStateM Stop State α

/-- `raise e` (R22). -/
def raise {α : Type} (e : Err) : M α := fun s => .error (.raised e) s

/-- Stops with a model fault that records the state it stops in. -/
def stop {α : Type} (f : State → Fault) : M α := fun s => .error (.fault (f s)) s

/-- A register write. -/
def update (f : State → State) : M Unit := fun s => .ok () (f s)

/-- A register read. -/
def look {α : Type} (f : State → α) : M α := fun s => .ok (f s) s

/-- Whatever `m` raises, the state it leaves is passed through `f` first: for what a rule calls unspecified after an
error. -/
def onRaise {α : Type} (f : State → State) (m : M α) : M α := fun s =>
  match m s with
  | .ok a s' => .ok a s'
  | .error (.raised e) s' => .error (.raised e) (f s')
  | .error (.fault g) s' => .error (.fault g) s'

/-- A call of the bus capability, one step of the sequencer (70_reset_and_hazards.md R316): it returns, unless `busAnswers`
is spent (log 18). -/
def busCall (c : BusCall) : M Unit := fun s =>
  if s.busAnswers = some 0 then .error (.fault (.busNeverReturns (s.await c))) (s.await c)
  else .ok () (s.spendAnswer.perform c)

/-- `rx <- Xfer(tx)` (00_scope.md R19). -/
def xfer (tx : Byte) : M Byte := do
  let rx ← look State.replyByte
  busCall (.xfer tx)
  pure rx

/-- An exchange of the filler byte in which the card returns the given byte (R61, R113). -/
def receive (rx : Byte) : M Unit := busCall (.receive rx)

/-- `Wait(ms)` (R19, 10_state.md R62). -/
def wait (ms : Nat) : M Unit := busCall (.wait ms)

/-- `Sel(v)` (R19): a level; setting it to its current value is no event (10_state.md R64), so no step either. -/
def sel (v : Bool) : M Unit := do
  if (← look State.sel) = v then pure () else busCall (.sel v)

/-- Sends the bytes one by one and discards what is received. -/
def sendAll : List Byte → M Unit
  | [] => pure ()
  | b :: bs => do
    let _ ← xfer b
    sendAll bs

/-- A read of `DIVISOR` (10_state.md R32): the value it holds, which may be any value before bring-up reaches Ready (93 I1;
log 9). -/
def readDivisor : M U32 := look State.divisor

/-- A read of `SECTOR_COUNT` (R33): the value it holds, which may be any value before its first write (93 I1; log 9). -/
def readSectorCount : M U64 := look State.sectorCount

/-- `MemWrite(a, n, bytes)` (00_scope.md R20). A broken host duty leaves all of host memory unspecified (93 I12). -/
def memWrite (a : Nat) (bytes : List Byte) : M Unit := update fun s =>
  if s.accessSound a bytes.length then s.setMem (s.mem.writeBytes a bytes) else s.freeHostMemory

/-- `SCRATCH[off .. off+n-1] <- MemRead(a, n)` (R20, 44_byte_range_mapper.md R227, R228). A broken host duty leaves the data
the card is given unspecified (93 I12): all of `SCRATCH`. -/
def loadScratch (off a n : Nat) : M Unit := update fun s =>
  if s.accessSound a n then s.setScratch (overlay s.scratch off (s.mem.readBytes a n)) else s.freeScratch

/-- After a READ or WRITE whose buffer breaks R312, host memory is unconstrained (93 I12), however the request ends: where it
is turned away or has nothing to transfer too. -/
def settleDuties (s : State) : State := if s.bufferSound then s else s.freeHostMemory

/-- Runs `m`, then `settleDuties`. -/
def settled {α : Type} (m : M α) : M α := fun s =>
  match onRaise settleDuties m s with
  | .ok a s' => .ok a (settleDuties s')
  | .error e s' => .error e s'

/-- `settled` for the kinds that use a buffer: the duties of R312 bind READ and WRITE, and ERASE ignores its `buf`
(44_byte_range_mapper.md R231). -/
def settledFor {α : Type} (kind : MapKind) (m : M α) : M α :=
  match kind with
  | .erase => m
  | .read | .write => settled m

/-! ## Running a sub-step or a request as an instruction -/

/-- Runs a sub-step on its own: what it returns or raises is left in `result`; a `raise` inside a running request takes
that request's error exit. -/
def runSubStep {α : Type} (toResult : α → Result) (m : M α) (s : State) : Host.Outcome State Fault Refusal :=
  match m s with
  | .ok a s' => .next (s'.setResult (toResult a))
  | .error (.raised e) s' => .next ((s'.setResult (.raised e)).errorExit e)
  | .error (.fault f) _ => .fault f

/-- Serves a host request (45_facade.md R250): accepted only when `TOP = IDLE` (60_exceptions.md R288), run to its
completion or its error exit. -/
def serve (op : HostOp) (m : M Completion) (s : State) : Host.Outcome State Fault Refusal :=
  if s.top = .idle then
    match m (s.accept op) with
    | .ok c s' => .next (s'.complete c)
    | .error (.raised e) s' => .next (s'.errorExit e)
    | .error (.fault f) _ => .fault f
  else .refused .busy

end Sys2Proof.Machine
end

