-- ==== Sys2Proof/Machine/ProtocolEngine.lean ====
section
/-! DEFINITION. The Protocol Engine (40_protocol_engine.md): frames, polls, commands. -/

namespace Sys2Proof.Machine

/-- `frame(idx, arg, close)` (R140). The six bytes received are discarded. -/
def frame (idx : CmdIndex) (arg : U32) (close : Byte) : M Unit := do
  update (State.setCommand idx arg)
  sel true
  sendAll (frameBytes idx arg close)

/-- The poll loop of R141 with `fuel` iterations left. -/
def pollLoop : Nat → M Resp
  | 0 => do
    update (State.setResp .timeout)
    pure .timeout
  | fuel + 1 => do
    update fun s => s.setLoops { s.loops with poll := s.loops.poll + 1 }
    let rx ← xfer fillerByte
    match responseOf rx with
    | some flags => do
      update (State.setResp (.r1 flags))
      pure (.r1 flags)
    | none => pollLoop fuel

/-- `poll()` (R141). -/
def poll : M Resp := do
  update fun s => s.setLoops { s.loops with poll := 0 }
  pollLoop (← look fun s => s.cfg.nCmd)

/-- `release()` (R142). -/
def release : M Unit := do
  sel false
  let _ ← xfer fillerByte

/-- `command(idx, arg)` (R143). -/
def command (idx : CmdIndex) (arg : U32) : M Resp := do
  frame idx arg (← look fun s => s.cfg.close)
  let r ← poll
  release
  pure r

/-- `commandNoDeselect(idx, arg)` (R144): on a response the select stays asserted for the data phase. -/
def commandNoDeselect (idx : CmdIndex) (arg : U32) : M Resp := do
  frame idx arg (← look fun s => s.cfg.close)
  let r ← poll
  match r with
  | .timeout => do
    release
    pure r
  | .r1 _ => pure r

/-- One of the trailing reply bytes of CMD8 and CMD58 (R145, R146). -/
def trailingByte : M Byte := do
  update fun s => s.setLoops { s.loops with trail := s.loops.trail + 1 }
  xfer fillerByte

/-- The four trailing reply bytes, in the order received. -/
def trailingBytes : M (Byte × Byte × Byte × Byte) := do
  update fun s => s.setLoops { s.loops with trail := 0 }
  let b0 ← trailingByte
  let b1 ← trailingByte
  let b2 ← trailingByte
  let b3 ← trailingByte
  pure (b0, b1, b2, b3)

/-- `probeInterfaceCondition()` (R145): the trailing bytes are read on any response and not stored. -/
def probeInterfaceCondition : M Resp := do
  let p ← look State.cfg
  frame 8 p.cmd8Arg p.cmd8Close
  let r ← poll
  match r with
  | .timeout => do
    release
    pure r
  | .r1 _ => do
    let _ ← trailingBytes
    release
    pure r

/-- `readOperatingConditionRegister()` (R146): `OCR` is written on any response and kept on `TIMEOUT`. -/
def readOperatingConditionRegister : M (Resp × U32) := do
  frame 58 0 (← look fun s => s.cfg.close)
  let r ← poll
  match r with
  | .timeout => do
    release
    let ocr ← look State.ocr
    pure (r, ocr)
  | .r1 _ => do
    let (b0, b1, b2, b3) ← trailingBytes
    update (State.setOcr (assembleOcr b0 b1 b2 b3))
    release
    let ocr ← look State.ocr
    pure (r, ocr)

/-! ## The rows of the table -/

/-- `frame` as an instruction; a frame R103 does not list is refused (R104). -/
def execFrame (idx : CmdIndex) (arg : U32) (close : Byte) (s : State) : Host.Outcome State Fault Refusal :=
  if emitted s.cfg idx arg close then runSubStep (fun _ => .unit) (frame idx arg close) s
  else .refused .frameNotEmitted

/-- `poll` as an instruction. -/
def execPoll (s : State) : Host.Outcome State Fault Refusal := runSubStep .resp poll s

/-- `release` as an instruction. -/
def execRelease (s : State) : Host.Outcome State Fault Refusal := runSubStep (fun _ => .unit) release s

/-- `command` as an instruction; a frame R103 does not list is refused (R104). -/
def execCommand (idx : CmdIndex) (arg : U32) (s : State) : Host.Outcome State Fault Refusal :=
  if emitted s.cfg idx arg s.cfg.close then runSubStep .resp (command idx arg) s
  else .refused .frameNotEmitted

/-- `commandNoDeselect` as an instruction; a frame R103 does not list is refused (R104). -/
def execCommandNoDeselect (idx : CmdIndex) (arg : U32) (s : State) : Host.Outcome State Fault Refusal :=
  if emitted s.cfg idx arg s.cfg.close then runSubStep .resp (commandNoDeselect idx arg) s
  else .refused .frameNotEmitted

/-- `probeInterfaceCondition` as an instruction. -/
def execProbeInterfaceCondition (s : State) : Host.Outcome State Fault Refusal :=
  runSubStep .resp probeInterfaceCondition s

/-- `readOperatingConditionRegister` as an instruction. -/
def execReadOperatingConditionRegister (s : State) : Host.Outcome State Fault Refusal :=
  runSubStep (fun x => .respOcr x.1 x.2) readOperatingConditionRegister s

end Sys2Proof.Machine
end

