-- ==== Sys2Proof/Machine/BringUp.lean ====
section
/-! DEFINITION. The bring-up state machine (41_bringup.md). -/

namespace Sys2Proof.Machine

/-- Entering FAILED and raising its error (R167, R168). -/
def failBringUp (e : Err) : M Unit := do
  update (State.setBr .failed)
  raise e

/-- The unconditional resets of R161, `fuel` left: their results are ignored. -/
def resetLoop : Nat → M Unit
  | 0 => pure ()
  | fuel + 1 => do
    update fun s => s.setLoops { s.loops with reset := s.loops.reset + 1 }
    let _ ← command 0 0
    resetLoop fuel

/-- The pseudo-operation ACMD41 (30_encoding.md R131): CMD55, whose reply is not tested, then CMD41. -/
def acmd41 (arg : U32) : M Resp := do
  let _ ← command 55 0
  command 41 arg

/-- State V1_PATH (R163) with `fuel` attempts left. -/
def v1Loop : Nat → M Unit
  | 0 => failBringUp .protocolTimeout
  | fuel + 1 => do
    update fun s => s.setLoops { s.loops with attempt := s.loops.attempt + 1 }
    let r ← acmd41 0
    if r = r1Ready then do
      update (State.setDivisor 512)
      update (State.setBr .ready)
    else v1Loop fuel

/-- State V1_PATH (R163). -/
def v1Path : M Unit := do
  update fun s => s.setLoops { s.loops with attempt := 0 }
  v1Loop (← look fun s => s.cfg.nReady)

/-- State V2_PATH (R164) with `fuel` attempts left; a wait comes before every attempt but the first. -/
def v2Loop : Nat → M Unit
  | 0 => failBringUp .protocolTimeout
  | fuel + 1 => do
    update fun s => s.setLoops { s.loops with attempt := s.loops.attempt + 1 }
    if 1 < (← look fun s => s.loops.attempt) then wait (← look fun s => s.cfg.v2WaitMs)
    let _ ← readOperatingConditionRegister
    let r ← acmd41 (← look fun s => s.cfg.hcsArg)
    if r = r1Ready then do
      let _ ← readOperatingConditionRegister
      update (State.setDivisor 1)
      update (State.setBr .ready)
    else v2Loop fuel

/-- State V2_PATH (R164). -/
def v2Path : M Unit := do
  update fun s => s.setLoops { s.loops with attempt := 0 }
  v2Loop (← look fun s => s.cfg.nReady)

/-- State VERSION_PROBE (R162). -/
def versionProbe : M Unit := do
  let r ← probeInterfaceCondition
  if r = r1Idle then do
    update (State.setBr .v2Path)
    v2Path
  else if r = r1IdleIllegal then do
    update (State.setBr .v1Path)
    v1Path
  else failBringUp (rejection r)

/-- `bringUp()` (R160), from state RESET (R161) on. -/
def bringUp : M Unit := do
  update (State.setBr .reset)
  update fun s => s.setLoops { s.loops with reset := 0 }
  resetLoop (← look fun s => s.cfg.nResetPre)
  let r ← command 0 0
  if r = r1Idle then do
    update (State.setBr .versionProbe)
    versionProbe
  else failBringUp (rejection r)

/-- `bringUp` as an instruction. -/
def execBringUp (s : State) : Host.Outcome State Fault Refusal := runSubStep (fun _ => .unit) bringUp s

end Sys2Proof.Machine
end

