-- ==== Sys2Proof/WellFormed.lean ====
section
/-! DEFINITION. The operand limits the spec sets, checked on the instruction alone. -/

namespace Sys2Proof

/-- How many payload bytes a data block for this buffer has (43_block_transfer.md R201). -/
def DataBuffer.length : DataBuffer → Nat
  | .csd => 16
  | .scratch => 512

/-- An instruction whose operands lie in the ranges its rule gives: buffer addresses have `HOST_ADDR` bits (R116), a
primitive sends only frames of R103 (R104), `extractBits` stays in its domain (R180), `readData` pairs 16 with `CSD`
and 512 with `SCRATCH` (R201), a segment lies inside one block (R227). -/
def WellFormed (p : Params) : Instr → Bool
  | .read _ _ buf => decide (buf < 2 ^ p.hostAddr)
  | .write _ _ buf => decide (buf < 2 ^ p.hostAddr)
  | .mapper _ _ _ buf => decide (buf < 2 ^ p.hostAddr)
  | .frame idx arg close => emitted p idx arg close
  | .command idx arg => emitted p idx arg p.close
  | .commandNoDeselect idx arg => emitted p idx arg p.close
  | .extractBits msb lsb => decide (lsb ≤ msb) && decide (msb ≤ 127) && decide (msb - lsb + 1 ≤ 32)
  | .readData n dst => decide (n = dst.length)
  | .mergeSegment _ _ off n => decide (1 ≤ n) && decide (off + n ≤ blockBytes)
  | .cmd0 | .cmd8 | .cmd9 | .cmd16 | .cmd17 _ | .cmd24 _ | .cmd55 | .acmd41V1 | .acmd41V2 | .cmd58 => true
  | .r1 _ | .startToken | .dataResponseAccept _ | .busy | .filler => true
  | .init | .erase _ _ | .capacity | .status => true
  | .poll | .release | .probeInterfaceCondition | .readOperatingConditionRegister | .bringUp => true
  | .decodeCapacity | .decodeV0 | .decodeV1 | .readCSD | .blockAddress _ | .readBlockAt _ | .writeBlockAt _ => true
  | .checkDataResponse | .waitNotBusy | .checkBounds _ _ | .fullBlock _ _ => true

end Sys2Proof
end

