-- ==== Sys2Proof/Machine/BlockTransfer.lean ====
section
/-! DEFINITION. The Block Transfer Primitive (43_block_transfer.md). -/

namespace Sys2Proof.Machine

/-- `blockAddress(blk)` (R200): the product must fit the u32 argument, or the model stops (60_exceptions.md R278). -/
def blockAddress (blk : U64) : M U32 := do
  let d ← readDivisor
  if cardAddress blk d < 2 ^ 32 then pure (BitVec.ofNat 32 (cardAddress blk d))
  else stop (.addressOverflow blk)

/-- `dst[k] <- b` (R201). -/
def State.setBufferByte (dst : DataBuffer) (k : Nat) (b : Byte) (s : State) : State :=
  match dst with
  | .csd => s.setCsd (setByte s.csd k b)
  | .scratch => s.setScratch (setByte s.scratch k b)

/-- The start-token poll of R201 with `fuel` iterations left: every byte but 0xFE is skipped. -/
def tokenLoop : Nat → M Bool
  | 0 => pure false
  | fuel + 1 => do
    update fun s => s.setLoops { s.loops with token := s.loops.token + 1 }
    let rx ← xfer fillerByte
    if isStartToken rx then do
      update (State.setFound true)
      pure true
    else tokenLoop fuel

/-- The start-token poll of R201. -/
def tokenPoll : M Bool := do
  update (State.setFound false)
  update fun s => s.setLoops { s.loops with token := 0 }
  tokenLoop (← look fun s => s.cfg.nToken)

/-- Receives `fuel` payload bytes into `dst` from byte `k` on (R201). -/
def receivePayload (dst : DataBuffer) : Nat → Nat → M Unit
  | 0, _ => pure ()
  | fuel + 1, k => do
    let rx ← xfer fillerByte
    update (State.setBufferByte dst k rx)
    update fun s => s.setLoops { s.loops with payload := k + 1 }
    receivePayload dst fuel (k + 1)

/-- Two filler bytes: the discarded checksum of a read (R201), the disabled checksum of a write (R203). -/
def checksumBytes : M Unit := do
  let _ ← xfer fillerByte
  let _ ← xfer fillerByte

/-- `readData(n, dst)` (R201). -/
def readData (n : Nat) (dst : DataBuffer) : M Unit := do
  sel true
  let found ← tokenPoll
  if found then do
    update fun s => s.setLoops { s.loops with payload := 0 }
    receivePayload dst n 0
    checksumBytes
    release
  else do
    release
    raise .blockStartMissing

/-- The R1 check of CMD9, CMD17 and CMD24 (42_register_decoder.md R186, 43_block_transfer.md R202, R203): only
`R1(0x00)` opens the data phase. On `TIMEOUT` the select is already released. -/
def requireReady (r : Resp) : M Unit := do
  match r with
  | .timeout => raise .protocolTimeout
  | .r1 flags =>
    if flags = 0 then pure ()
    else do
      release
      raise .illegalResponse

/-- CMD17 at a card address and its data phase (R202). After an error `SCRATCH` is unspecified. -/
def readBlockFrom (a : U32) : M Unit := onRaise State.freeScratch do
  let r ← commandNoDeselect 17 a
  requireReady r
  readData 512 .scratch

/-- `readBlockAt(blk)` (R202). -/
def readBlockAt (blk : U64) : M Unit := do
  let a ← blockAddress blk
  readBlockFrom a

/-- `checkDataResponse()` (R204): on a reject the select is deasserted with no filler exchange. -/
def checkDataResponse : M Unit := do
  let b ← xfer fillerByte
  update (State.setDrt b)
  if isAccepted b then pure ()
  else do
    sel false
    raise .writeRejected

/-- The busy poll of R205 with `fuel` iterations left. -/
def busyLoop : Nat → M Unit
  | 0 => do
    release
    raise .protocolTimeout
  | fuel + 1 => do
    update fun s => s.setLoops { s.loops with busy := s.loops.busy + 1 }
    let rx ← xfer fillerByte
    if isBusy rx then busyLoop fuel else pure ()

/-- `waitNotBusy()` (R205). -/
def waitNotBusy : M Unit := do
  update fun s => s.setLoops { s.loops with busy := 0 }
  busyLoop (← look fun s => s.cfg.nBusy)

/-- The `WRITE_GAP` fillers of R203, `fuel` left. -/
def gapLoop : Nat → M Unit
  | 0 => pure ()
  | fuel + 1 => do
    update fun s => s.setLoops { s.loops with gap := s.loops.gap + 1 }
    let _ ← xfer fillerByte
    gapLoop fuel

/-- Sends the payload bytes of R203. -/
def sendPayload : List Byte → M Unit
  | [] => pure ()
  | b :: bs => do
    let _ ← xfer b
    update fun s => s.setLoops { s.loops with payload := s.loops.payload + 1 }
    sendPayload bs

/-- CMD24 at a card address, its data phase and the busy wait (R203). After an error `SCRATCH` is unspecified (93 I3). -/
def writeBlockTo (a : U32) : M Unit := onRaise State.freeScratch do
  let r ← commandNoDeselect 24 a
  requireReady r
  sel true
  update fun s => s.setLoops { s.loops with gap := 0 }
  gapLoop (← look fun s => s.cfg.writeGap)
  let _ ← xfer startTokenByte
  update fun s => s.setLoops { s.loops with payload := 0 }
  sendPayload (← look fun s => s.scratch.toList)
  checksumBytes
  checkDataResponse
  waitNotBusy
  release

/-- `writeBlockAt(blk)` (R203). -/
def writeBlockAt (blk : U64) : M Unit := do
  let a ← blockAddress blk
  writeBlockTo a

/-! ## The rows of the table -/

/-- `blockAddress` as an instruction. -/
def execBlockAddress (blk : U64) (s : State) : Host.Outcome State Fault Refusal :=
  runSubStep .word (blockAddress blk) s

/-- `readData` as an instruction; R201 pairs 16 with `CSD` and 512 with `SCRATCH`. After its error the buffer is free, as
it is after the error of `readCSD` or `readBlockAt` (93 I2, I3; log 11). -/
def execReadData (n : Nat) (dst : DataBuffer) (s : State) : Host.Outcome State Fault Refusal :=
  if n = dst.length then runSubStep (fun _ => .unit) (onRaise (State.freeBuffer dst) (readData n dst)) s
  else .refused .operandOutOfRange

/-- `readBlockAt` as an instruction. -/
def execReadBlockAt (blk : U64) (s : State) : Host.Outcome State Fault Refusal :=
  runSubStep (fun _ => .unit) (readBlockAt blk) s

/-- `writeBlockAt` as an instruction. -/
def execWriteBlockAt (blk : U64) (s : State) : Host.Outcome State Fault Refusal :=
  runSubStep (fun _ => .unit) (writeBlockAt blk) s

/-- `checkDataResponse` as an instruction. -/
def execCheckDataResponse (s : State) : Host.Outcome State Fault Refusal :=
  runSubStep (fun _ => .unit) checkDataResponse s

/-- `waitNotBusy` as an instruction. -/
def execWaitNotBusy (s : State) : Host.Outcome State Fault Refusal := runSubStep (fun _ => .unit) waitNotBusy s

end Sys2Proof.Machine
end

