-- ==== Sys2Proof/Machine/Mapper.lean ====
section
/-! DEFINITION. The Byte-Range Mapper (44_byte_range_mapper.md). -/

namespace Sys2Proof.Machine

/-- The source bytes of ERASE (R231, 00_scope.md R15). -/
def eraseFill (n : Nat) : List Byte := List.replicate n 0xFF

/-- `checkBounds(offset, size)` (R221). -/
def checkBounds (offset size : U64) : M Unit := do
  let sc ← readSectorCount
  if rangeLegal offset size sc then pure () else raise .boundsViolation

/-- The host address of the current segment, `buf + DONE` (R227, R228). -/
def segmentAddress (s : State) : Nat := s.req.buf + s.map.done.toNat

/-- `mergeSegment(K, blk, off, n)` (R227): the read-modify-write of one partial or final block. -/
def mergeSegment (kind : MapKind) (blk : U64) (off n : Nat) : M Unit := do
  readBlockAt blk
  match kind with
  | .read => memWrite (← look segmentAddress) (← look fun s => slice s.scratch off n)
  | .write => do
    loadScratch off (← look segmentAddress) n
    writeBlockAt blk
  | .erase => do
    update fun s => s.setScratch (overlay s.scratch off (eraseFill n))
    writeBlockAt blk

/-- `fullBlock(K, blk)` (R228): one body block; WRITE and ERASE issue no read. -/
def fullBlock (kind : MapKind) (blk : U64) : M Unit := do
  match kind with
  | .read => do
    readBlockAt blk
    memWrite (← look segmentAddress) (← look fun s => s.scratch.toList)
  | .write => do
    loadScratch 0 (← look segmentAddress) 512
    writeBlockAt blk
  | .erase => do
    update fun s => s.setScratch (overlay s.scratch 0 (eraseFill 512))
    writeBlockAt blk

/-- After a segment of `n` bytes: `DONE += n; REM -= n; BLK += 1` (R220). -/
def advance (n : U64) (s : State) : State :=
  s.setMap { s.map with done := s.map.done + n, rem := s.map.rem - n, blk := s.map.blk + 1 }

/-- The body loop of R225 with at most `fuel` iterations: while `REM > 512`. -/
def bodyLoop (kind : MapKind) : Nat → M Unit
  | 0 => pure ()
  | fuel + 1 => do
    if 512 < (← look fun s => s.map.rem.toNat) then do
      fullBlock kind (← look fun s => s.map.blk)
      update (advance 512)
      bodyLoop kind fuel
    else pure ()

/-- The head of R224. -/
def headSegment (kind : MapKind) (offset size : U64) : M Unit := do
  update fun s => s.setMap
    { done := 0, rem := size, blk := firstBlock offset, skew := skewOf offset, segN := headLength size (skewOf offset) }
  let m ← look State.map
  mergeSegment kind m.blk m.skew.toNat m.segN.toNat
  update (advance m.segN)

/-- The tail of R226. -/
def tailSegment (kind : MapKind) : M Unit := do
  if 0 < (← look fun s => s.map.rem.toNat) then do
    update fun s => s.setMap { s.map with segN := s.map.rem }
    let m ← look State.map
    mergeSegment kind m.blk 0 m.segN.toNat
    update fun s => s.setMap { s.map with done := s.map.done + m.segN, rem := 0 }
  else pure ()

/-- Head, body and tail of a request with `size ≥ 1`. `REM / 512` iterations are enough for the body, since each takes 512
from `REM`. -/
def segments (kind : MapKind) (offset size : U64) : M Unit := do
  headSegment kind offset size
  bodyLoop kind (← look fun s => s.map.rem.toNat / 512)
  tailSegment kind

/-- `segments`; after a READ that fails the bytes not transferred are unspecified (R234). -/
def transfer (kind : MapKind) (offset size : U64) : M Unit :=
  match kind with
  | .read => onRaise State.freeUnread (segments .read offset size)
  | .write => segments .write offset size
  | .erase => segments .erase offset size

/-- The bounds, then the transfer (R220-R222). -/
def mapRange (kind : MapKind) (offset size : U64) : M U64 := do
  checkBounds offset size
  if size = 0 then pure 0
  else do
    transfer kind offset size
    look fun s => s.map.done

/-- `mapper(K, offset, size, buf)` (R220). `SCRATCH` is unspecified at the start of each call (10_state.md R41, 93 I3). Only
READ and WRITE use `buf` (R231); R312 binds their buffer alone. -/
def mapper (kind : MapKind) (offset size : U64) (buf : Nat) : M U64 := do
  update (State.setReq ⟨offset, size, buf⟩)
  update State.freeScratch
  settledFor kind (mapRange kind offset size)

/-! ## The rows of the table -/

/-- `mapper` as an instruction. -/
def execMapper (kind : MapKind) (offset size : U64) (buf : Nat) (s : State) : Host.Outcome State Fault Refusal :=
  runSubStep .count (mapper kind offset size buf) s

/-- `checkBounds` as an instruction. -/
def execCheckBounds (offset size : U64) (s : State) : Host.Outcome State Fault Refusal :=
  runSubStep (fun _ => .unit) (checkBounds offset size) s

/-- `mergeSegment` as an instruction; the segment lies inside one block (R227). -/
def execMergeSegment (kind : MapKind) (blk : U64) (off n : Nat) (s : State) : Host.Outcome State Fault Refusal :=
  if 1 ≤ n ∧ off + n ≤ blockBytes then runSubStep (fun _ => .unit) (mergeSegment kind blk off n) s
  else .refused .operandOutOfRange

/-- `fullBlock` as an instruction. -/
def execFullBlock (kind : MapKind) (blk : U64) (s : State) : Host.Outcome State Fault Refusal :=
  runSubStep (fun _ => .unit) (fullBlock kind blk) s

end Sys2Proof.Machine
end

