-- ==== Sys2Proof/Machine/RegisterDecoder.lean ====
section
/-! DEFINITION. The Register Decoder (42_register_decoder.md). -/

namespace Sys2Proof.Machine

/-- Bit `p` of a 16-byte register: bit `p & 7` of byte `15 - (p >> 3)` (R180, 20_memory.md R76). -/
def registerBit (reg : Vector Byte 16) (p : Nat) : Bool := (reg[15 - p / 8]).getLsbD (p % 8)

/-- The number whose bit `i` is bit `lsb + i` of the register, for `i < n`. -/
def bitsValue (reg : Vector Byte 16) (lsb : Nat) : Nat → Nat
  | 0 => 0
  | n + 1 => bitsValue reg lsb n + (registerBit reg (lsb + n)).toNat * 2 ^ n

/-- The domain of `extractBits` (R180). -/
def extractDomain (msb lsb : Nat) : Bool :=
  decide (lsb ≤ msb) && decide (msb ≤ 127) && decide (msb - lsb + 1 ≤ 32)

/-- `extractBits(reg, msb, lsb)` inside its domain (R180). -/
def bitField (reg : Vector Byte 16) (msb lsb : Nat) : U32 := BitVec.ofNat 32 (bitsValue reg lsb (msb - lsb + 1))

/-- `extractBits(CSD, msb, lsb)`: a model fault outside its domain (R181). -/
def extractBits (msb lsb : Nat) : M U32 := do
  if extractDomain msb lsb then look fun s => bitField s.csd msb lsb else stop (.extractBitsDomain msb lsb)

/-- Structure version (30_encoding.md R114). -/
def csdStructure (csd : Vector Byte 16) : U32 := bitField csd 127 126
/-- `readBlockLen` (R114). -/
def readBlockLen (csd : Vector Byte 16) : U32 := bitField csd 83 80
/-- `cSize` (R114). -/
def cSize (csd : Vector Byte 16) : U32 := bitField csd 73 62
/-- `cSizeMult` (R114). -/
def cSizeMult (csd : Vector Byte 16) : U32 := bitField csd 49 47
/-- `hcCSize` (R114). -/
def hcCSize (csd : Vector Byte 16) : U32 := bitField csd 69 48

/-- `capacityBytes` of `decodeV0` (R183). -/
def capacityV0 (csd : Vector Byte 16) : U64 :=
  let blockLen : U64 := 1#64 <<< (readBlockLen csd).toNat
  let mult : U64 := 1#64 <<< ((cSizeMult csd).toNat + 2)
  let blockCount : U64 := ((cSize csd).setWidth 64 + 1) * mult
  blockCount * blockLen

/-- `decodeV0(CSD)` (R183). -/
def decodeV0 (csd : Vector Byte 16) : Decoded := ⟨true, capacityV0 csd / 512, capacityV0 csd⟩

/-- `sectorCount` of `decodeV1` (R184). -/
def sectorsV1 (csd : Vector Byte 16) : U64 := ((hcCSize csd).setWidth 64 + 1) * 1024

/-- `decodeV1(CSD)` (R184). -/
def decodeV1 (csd : Vector Byte 16) : Decoded := ⟨true, sectorsV1 csd, sectorsV1 csd * 512⟩

/-- `decodeCapacity(CSD)` (R182, R185). -/
def decodeCapacity (csd : Vector Byte 16) : Decoded :=
  if csdStructure csd = 0 then decodeV0 csd
  else if csdStructure csd = 1 then decodeV1 csd
  else ⟨false, 0, 0⟩

/-- `readCSD()` (R186). After any error `CSD` is unspecified. -/
def readCSD : M Unit := onRaise State.freeCsd do
  let r ← commandNoDeselect 9 0
  requireReady r
  readData 16 .csd

/-! ## The rows of the table -/

/-- `extractBits` as an instruction. -/
def execExtractBits (msb lsb : Nat) (s : State) : Host.Outcome State Fault Refusal :=
  runSubStep .word (extractBits msb lsb) s

/-- `decodeCapacity` as an instruction: a pure function of `CSD`. -/
def execDecodeCapacity (s : State) : Host.Outcome State Fault Refusal :=
  runSubStep .decoded (look fun s => decodeCapacity s.csd) s

/-- `decodeV0` as an instruction. -/
def execDecodeV0 (s : State) : Host.Outcome State Fault Refusal :=
  runSubStep .decoded (look fun s => decodeV0 s.csd) s

/-- `decodeV1` as an instruction. -/
def execDecodeV1 (s : State) : Host.Outcome State Fault Refusal :=
  runSubStep .decoded (look fun s => decodeV1 s.csd) s

/-- `readCSD` as an instruction. -/
def execReadCSD (s : State) : Host.Outcome State Fault Refusal := runSubStep (fun _ => .unit) readCSD s

end Sys2Proof.Machine
end

