-- ==== Sys2Proof/Machine/Facade.lean ====
section
/-! DEFINITION. The Device Facade (45_facade.md): the six host requests. -/

namespace Sys2Proof.Machine

/-- A successful completion. -/
def succeed (count value : U64) : Completion := ⟨.success, count, value, .none⟩

/-- The CMD16 check of INIT (R251): the select is already released. -/
def requireBlockLength (r : Resp) : M Unit :=
  if r = r1Ready then pure () else raise (rejection r)

/-- Decodes `CSD` and writes `SECTOR_COUNT`, or fails (R251, R255). -/
def refreshSectorCount : M Decoded := do
  let d ← look fun s => decodeCapacity s.csd
  if d.ok then do
    update (State.setSectorCount d.sectorCount)
    pure d
  else raise .csdDecodeFailed

/-- INIT (R251). -/
def initOp : M Completion := do
  update (State.setInitialized false)
  bringUp
  readCSD
  let _ ← refreshSectorCount
  let r ← command 16 512
  requireBlockLength r
  update (State.setInitialized true)
  pure (succeed 0 0)

/-- READ, WRITE and ERASE (R252, R253, R254): the session must be initialised, then the mapper runs. A READ or WRITE turned
away here owes its duties too (70_reset_and_hazards.md R312). -/
def rangeOp (kind : MapKind) (offset size : U64) (buf : Nat) : M Completion := do
  update (State.setReq ⟨offset, size, buf⟩)
  if (← look State.initialized) then do
    let n ← mapper kind offset size buf
    pure (succeed n 0)
  else settledFor kind (raise .notInitialized)

/-- CAPACITY (R255). -/
def capacityOp : M Completion := do
  readCSD
  let d ← refreshSectorCount
  pure (succeed 0 d.capacityBytes)

/-- STATUS (R256). -/
def statusOp : M Completion := do
  pure (succeed 0 (← look State.statusFlags))

/-! ## The rows of the table -/

/-- INIT. -/
def execInit (s : State) : Host.Outcome State Fault Refusal := serve .init initOp s

/-- READ. -/
def execRead (offset size : U64) (buf : Nat) (s : State) : Host.Outcome State Fault Refusal :=
  serve .read (rangeOp .read offset size buf) s

/-- WRITE. -/
def execWrite (offset size : U64) (buf : Nat) (s : State) : Host.Outcome State Fault Refusal :=
  serve .write (rangeOp .write offset size buf) s

/-- ERASE; its `buf` is ignored. -/
def execErase (offset size : U64) (s : State) : Host.Outcome State Fault Refusal :=
  serve .erase (rangeOp .erase offset size 0) s

/-- CAPACITY. -/
def execCapacity (s : State) : Host.Outcome State Fault Refusal := serve .capacity capacityOp s

/-- STATUS. -/
def execStatus (s : State) : Host.Outcome State Fault Refusal := serve .status statusOp s

end Sys2Proof.Machine
end

