-- ==== Sys2Proof/Machine/Frames.lean ====
section
/-! DEFINITION. The ten command frames as instructions (30_encoding.md R103): the complete exchange of each frame, with
the reply and the data phase its row names (log 5). -/

namespace Sys2Proof.Machine

/-- CMD0: `command(0, 0)` (41_bringup.md R161). -/
def execCmd0 (s : State) : Host.Outcome State Fault Refusal := runSubStep .resp (command 0 0) s

/-- CMD8: the R1 and four discarded bytes (40_protocol_engine.md R145). -/
def execCmd8 (s : State) : Host.Outcome State Fault Refusal := runSubStep .resp probeInterfaceCondition s

/-- CMD9: the R1 and a 16-byte data block into `CSD` (42_register_decoder.md R186). -/
def execCmd9 (s : State) : Host.Outcome State Fault Refusal := runSubStep (fun _ => .unit) readCSD s

/-- CMD16: `command(16, 512)` (45_facade.md R251). -/
def execCmd16 (s : State) : Host.Outcome State Fault Refusal := runSubStep .resp (command 16 512) s

/-- CMD17: the R1 and a 512-byte data block into `SCRATCH` (43_block_transfer.md R202). -/
def execCmd17 (arg : U32) (s : State) : Host.Outcome State Fault Refusal :=
  runSubStep (fun _ => .unit) (readBlockFrom arg) s

/-- CMD24: the R1, then `SCRATCH` as the data block, its response and the busy wait (R203). -/
def execCmd24 (arg : U32) (s : State) : Host.Outcome State Fault Refusal :=
  runSubStep (fun _ => .unit) (writeBlockTo arg) s

/-- CMD55: `command(55, 0)` (41_bringup.md R163, R164). -/
def execCmd55 (s : State) : Host.Outcome State Fault Refusal := runSubStep .resp (command 55 0) s

/-- CMD41 with argument 0, the second frame of ACMD41 on the V1 path (R163). -/
def execAcmd41V1 (s : State) : Host.Outcome State Fault Refusal := runSubStep .resp (command 41 0) s

/-- CMD41 with `HCS_ARG`, the second frame of ACMD41 on the V2 path (R164). -/
def execAcmd41V2 (s : State) : Host.Outcome State Fault Refusal := runSubStep .resp (command 41 s.cfg.hcsArg) s

/-- CMD58: the R1 and the four bytes of `OCR` (40_protocol_engine.md R146). -/
def execCmd58 (s : State) : Host.Outcome State Fault Refusal :=
  runSubStep (fun x => .respOcr x.1 x.2) readOperatingConditionRegister s

end Sys2Proof.Machine
end

