-- ==== Sys2Proof/Machine/Tokens.lean ====
section
/-! DEFINITION. The single bytes of the bus as instructions (30_encoding.md R105-R113): one exchange in which the card
returns the row's byte, or, for FILLER, the engine sends it (log 6). -/

namespace Sys2Proof.Machine

/-- A response byte is received in a poll: `RESP <- R1(b)` and the poll ends (40_protocol_engine.md R141). -/
def responseByte (flags : BitVec 7) : M Resp := do
  update fun s => s.setLoops { s.loops with poll := s.loops.poll + 1 }
  receive (0#1 ++ flags)
  update (State.setResp (.r1 flags))
  pure (.r1 flags)

/-- The start token is received in a token poll, which ends with `found = true` (43_block_transfer.md R201). -/
def tokenByte : M Unit := do
  update fun s => s.setLoops { s.loops with token := s.loops.token + 1 }
  receive startTokenByte
  update (State.setFound true)

/-- An accepting data-response token is received: `DRT` holds it and the write goes on (R204). -/
def acceptByte (ignored : BitVec 3) : M Unit := do
  receive (ignored ++ acceptBits)
  update (State.setDrt (ignored ++ acceptBits))

/-- The busy byte is received in a busy wait: one more attempt of `N_BUSY` is spent, and when none is left the wait
fails (R205). -/
def busyByte : M Unit := do
  update fun s => s.setLoops { s.loops with busy := s.loops.busy + 1 }
  receive 0x00
  if (← look fun s => s.loops.busy) < (← look fun s => s.cfg.nBusy) then pure ()
  else do
    release
    raise .protocolTimeout

/-- R1. -/
def execR1 (flags : BitVec 7) (s : State) : Host.Outcome State Fault Refusal := runSubStep .resp (responseByte flags) s

/-- START_TOKEN. -/
def execStartToken (s : State) : Host.Outcome State Fault Refusal := runSubStep (fun _ => .unit) tokenByte s

/-- DATA_RESPONSE_ACCEPT. -/
def execDataResponseAccept (ignored : BitVec 3) (s : State) : Host.Outcome State Fault Refusal :=
  runSubStep (fun _ => .unit) (acceptByte ignored) s

/-- BUSY. -/
def execBusy (s : State) : Host.Outcome State Fault Refusal := runSubStep (fun _ => .unit) busyByte s

/-- FILLER: one exchange that only receives; the byte received is returned (30_encoding.md R113). -/
def execFiller (s : State) : Host.Outcome State Fault Refusal := runSubStep .byte (xfer fillerByte) s

end Sys2Proof.Machine
end

