-- ==== Sys2Proof/Machine/Dispatch.lean ====
section
/-! DEFINITION. One arm per constructor of `Instr`. -/

namespace Sys2Proof.Machine

def exec (i : Instr) (s : State) : Host.Outcome State Fault Refusal :=
  match i with
  | .cmd0 => Sys2Proof.Machine.execCmd0 s
  | .cmd8 => Sys2Proof.Machine.execCmd8 s
  | .cmd9 => Sys2Proof.Machine.execCmd9 s
  | .cmd16 => Sys2Proof.Machine.execCmd16 s
  | .cmd17 arg => Sys2Proof.Machine.execCmd17 arg s
  | .cmd24 arg => Sys2Proof.Machine.execCmd24 arg s
  | .cmd55 => Sys2Proof.Machine.execCmd55 s
  | .acmd41V1 => Sys2Proof.Machine.execAcmd41V1 s
  | .acmd41V2 => Sys2Proof.Machine.execAcmd41V2 s
  | .cmd58 => Sys2Proof.Machine.execCmd58 s
  | .r1 flags => Sys2Proof.Machine.execR1 flags s
  | .startToken => Sys2Proof.Machine.execStartToken s
  | .dataResponseAccept ignored => Sys2Proof.Machine.execDataResponseAccept ignored s
  | .busy => Sys2Proof.Machine.execBusy s
  | .filler => Sys2Proof.Machine.execFiller s
  | .init => Sys2Proof.Machine.execInit s
  | .read offset size buf => Sys2Proof.Machine.execRead offset size buf s
  | .write offset size buf => Sys2Proof.Machine.execWrite offset size buf s
  | .erase offset size => Sys2Proof.Machine.execErase offset size s
  | .capacity => Sys2Proof.Machine.execCapacity s
  | .status => Sys2Proof.Machine.execStatus s
  | .frame idx arg close => Sys2Proof.Machine.execFrame idx arg close s
  | .poll => Sys2Proof.Machine.execPoll s
  | .release => Sys2Proof.Machine.execRelease s
  | .command idx arg => Sys2Proof.Machine.execCommand idx arg s
  | .commandNoDeselect idx arg => Sys2Proof.Machine.execCommandNoDeselect idx arg s
  | .probeInterfaceCondition => Sys2Proof.Machine.execProbeInterfaceCondition s
  | .readOperatingConditionRegister => Sys2Proof.Machine.execReadOperatingConditionRegister s
  | .bringUp => Sys2Proof.Machine.execBringUp s
  | .extractBits msb lsb => Sys2Proof.Machine.execExtractBits msb lsb s
  | .decodeCapacity => Sys2Proof.Machine.execDecodeCapacity s
  | .decodeV0 => Sys2Proof.Machine.execDecodeV0 s
  | .decodeV1 => Sys2Proof.Machine.execDecodeV1 s
  | .readCSD => Sys2Proof.Machine.execReadCSD s
  | .blockAddress blk => Sys2Proof.Machine.execBlockAddress blk s
  | .readData n dst => Sys2Proof.Machine.execReadData n dst s
  | .readBlockAt blk => Sys2Proof.Machine.execReadBlockAt blk s
  | .writeBlockAt blk => Sys2Proof.Machine.execWriteBlockAt blk s
  | .checkDataResponse => Sys2Proof.Machine.execCheckDataResponse s
  | .waitNotBusy => Sys2Proof.Machine.execWaitNotBusy s
  | .mapper kind offset size buf => Sys2Proof.Machine.execMapper kind offset size buf s
  | .checkBounds offset size => Sys2Proof.Machine.execCheckBounds offset size s
  | .mergeSegment kind blk off n => Sys2Proof.Machine.execMergeSegment kind blk off n s
  | .fullBlock kind blk => Sys2Proof.Machine.execFullBlock kind blk s

end Sys2Proof.Machine
end

