-- ==== Sys2Proof/Machine/Step.lean ====
section
/-! DEFINITION. One step: the next input is decoded and its instruction run. -/

namespace Sys2Proof.Machine

/-- One step. With nothing presented the engine stays as it is (log 19); words that spell no instruction are refused. -/
def step (s : State) : Host.Outcome State Fault Refusal :=
  match s.inbox with
  | [] => .next s
  | w :: _ =>
    match decode s.cfg w with
    | .ok i => exec i s.popInbox
    | .error e => .refused (.undecodable e)

/-- The state with a word of spec/opcode_table.json presented next. -/
def State.withFetchWord (s : State) (nbits w : Nat) : State := { s with inbox := inputOfWord nbits w :: s.inbox }

end Sys2Proof.Machine
end

