-- ==== Sys2Proof/Machine/Sequencer.lean ====
section
/-! DEFINITION. The sequencer one step at a time (10_state.md R50, 70_reset_and_hazards.md R316): the states inside an
instruction, which `step` passes through in one go (log 1). A sequencer step is one internal computation, up to the next bus
call, or one bus event, the `Sel` change, `Xfer` or `Wait` that returns. -/

namespace Sys2Proof.Machine

/-- An instruction under way. `calls` and `waiting` are its position (R50): how many of its bus calls have returned, and
whether the computation since then is done. -/
structure Running where
  start : State
  instr : Instr
  calls : Nat
  waiting : Bool
deriving DecidableEq, Repr

/-- An instruction that has not begun. -/
def Running.begin (i : Instr) (s : State) : Running := ⟨s, i, 0, false⟩

/-- What the instruction comes to when so many of its bus calls return. -/
def Running.outcome (r : Running) (calls : Nat) : Host.Outcome State Fault Refusal :=
  exec r.instr { r.start with busAnswers := some calls }

/-- The state in which the engine waits for a bus call after so many have returned; `none` if it ends before that. -/
def Running.waitsIn (r : Running) (calls : Nat) : Option State :=
  match r.outcome calls with
  | .fault (.busNeverReturns t) => some { t with busAnswers := r.start.busAnswers.map (· - calls) }
  | _ => none

/-- The bus call the engine waits for returns. -/
def State.answered (s : State) : State :=
  match s.pending with
  | none => s
  | some c => { s.spendAnswer with pending := none }.perform c

/-- The state the engine is in now; `none` once the instruction has ended. -/
def Running.now (r : Running) : Option State :=
  if r.waiting then r.waitsIn r.calls
  else if r.calls = 0 then some r.start
  else (r.waitsIn (r.calls - 1)).map State.answered

/-- One sequencer step: the computation up to the next bus call, or the bus call. One that never returns leaves the engine
stuck (93 I13). -/
def Running.tick (r : Running) : Running :=
  if r.waiting then
    if r.start.busAnswers = some r.calls then r else { r with calls := r.calls + 1, waiting := false }
  else { r with waiting := true }

end Sys2Proof.Machine
end

