-- ==== Sys2Proof/Machine/Trace.lean ====
section
/-! DEFINITION. Reading a bus trace (30_encoding.md R129, R104): which frames the engine sent, and which block payloads. -/

namespace Sys2Proof.Machine

/-- What the engine put on the bus: a command frame's six bytes, or the 512 payload bytes of a block write. -/
inductive BusItem where
  | frame (bytes : List Byte)
  | payload (bytes : List Byte)
deriving DecidableEq, Repr

/-- Where a reader of the tx stream is. -/
inductive Scan where
  /-- outside a frame and outside a data phase -/
  | outside
  /-- inside a frame, with the bytes so far -/
  | inFrame (got : List Byte)
  /-- after a CMD24 frame, waiting for its R1 -/
  | awaitR1
  /-- in the data phase of a write, before the payload: gap fillers and the start token still to come -/
  | lead (left : Nat)
  /-- in the payload, with the bytes so far -/
  | inPayload (got : List Byte)
  /-- in the two checksum bytes -/
  | checksum (left : Nat)
deriving DecidableEq, Repr

/-- The reader's next place after the sixth byte of a frame: a CMD24 opens a data phase, if the card answers it. -/
def Scan.afterFrame (bytes : List Byte) : Scan :=
  if bytes.head? = some 0x58 then .awaitR1 else .outside

/-- The reader's step on one exchange while `SEL = 1`: its next place, and the item it has completed. A frame starts with
a byte whose bits 7:6 are 01, outside a data phase; then 6 bytes are taken (R129). -/
def Scan.selected (p : Params) (tx rx : Byte) : Scan → Scan × Option BusItem
  | .outside => if tx.extractLsb' 6 2 = 0b01#2 then (.inFrame [tx], none) else (.outside, none)
  | .inFrame got =>
    if got.length < 5 then (.inFrame (got ++ [tx]), none)
    else (Scan.afterFrame (got ++ [tx]), some (.frame (got ++ [tx])))
  | .awaitR1 =>
    if rx = 0 then (.lead p.writeGap, none)
    else if rx.extractLsb' 7 1 = 0#1 then (.outside, none)
    else (.awaitR1, none)
  | .lead left => if left = 0 then (.inPayload [], none) else (.lead (left - 1), none)
  | .inPayload got =>
    if got.length < 511 then (.inPayload (got ++ [tx]), none)
    else (.checksum 1, some (.payload (got ++ [tx])))
  | .checksum left => if left = 0 then (.outside, none) else (.checksum (left - 1), none)

/-- The reader's step on one exchange. Releasing the select delimits every command and block transfer (20_memory.md
R92), so a byte sent while `SEL = 0` is outside both. -/
def Scan.exchange (p : Params) (sel : Bool) (tx rx : Byte) (c : Scan) : Scan × Option BusItem :=
  if sel then c.selected p tx rx else (.outside, none)

/-- The items of a trace, from a given place on. -/
def itemsFrom (p : Params) : Scan → List BusEvent → List BusItem
  | _, [] => []
  | c, .wait _ :: es => itemsFrom p c es
  | c, .exchange sel tx rx :: es => (c.exchange p sel tx rx).2.toList ++ itemsFrom p (c.exchange p sel tx rx).1 es

/-- The place a reader is in after a trace. -/
def scanFrom (p : Params) : Scan → List BusEvent → Scan
  | c, [] => c
  | c, .wait _ :: es => scanFrom p c es
  | c, .exchange sel tx rx :: es => scanFrom p (c.exchange p sel tx rx).1 es

/-- The frames and payloads of a trace that starts outside any frame. -/
def itemsIn (p : Params) (es : List BusEvent) : List BusItem := itemsFrom p .outside es

/-- The waits of a trace. -/
def waitsIn (es : List BusEvent) : List Nat := es.filterMap fun
  | .wait ms => some ms
  | .exchange _ _ _ => none

end Sys2Proof.Machine
end

