-- ==== Sys2Proof/Safety.lean ====
section
/-! DEFINITION. The terms the statements use: the invariant of the engine, what the card returns, the bus events each
exchange makes, and the effect of each exchange written out register by register. -/

namespace Sys2Proof

/-- The six host requests (30_encoding.md R117). -/
def Instr.isRequest : Instr → Bool
  | .init | .read _ _ _ | .write _ _ _ | .erase _ _ | .capacity | .status => true
  | _ => false

end Sys2Proof

namespace Sys2Proof.Machine

/-! ## The invariant -/

/-- Every listed host byte exists and the memory is in its canonical form. -/
def MemorySound (s : State) : Prop := s.mem.wf = true ∧ ∀ c ∈ s.mem, c.1 < 2 ^ s.cfg.hostAddr

/-- The session registers are legal whenever the session is ready (10_state.md R31-R33). -/
def SessionSound (s : State) : Prop :=
  s.initialized = true → (s.divisor = 1 ∨ s.divisor = 512) ∧ s.sectorCount.toNat ≤ 2 ^ 32

/-- `cause` is NONE whenever `status` is SUCCESS, NOT_INITIALIZED or OUT_OF_BOUNDS (60_exceptions.md R270). -/
def CompletionSound (s : State) : Prop := s.completion.status ≠ .ioFailure → s.completion.cause = .none

/-- Between host requests `SEL = 0` (10_state.md R53). -/
def SelectSound (s : State) : Prop := s.top = .idle → s.sel = false

/-- The invariant of the engine between steps. -/
structure Inv (s : State) : Prop where
  memory : MemorySound s
  session : SessionSound s
  completion : CompletionSound s
  select : SelectSound s
  params : s.cfg.wf = true

/-! ## The CSD as a number -/

/-- The CSD as one big-endian number (20_memory.md R76). -/
def csdNumber (csd : Vector Byte 16) : Nat := csd.toList.foldl (fun n b => n * 256 + b.toNat) 0

/-! ## Bus events -/

/-- The exchanges of the bytes sent and received at one select level, as trace events (10_state.md R64). -/
def exchanges (sel : Bool) (txs rxs : List Byte) : List BusEvent := List.zipWith (BusEvent.exchange sel) txs rxs

/-- `k` filler bytes. -/
def fillers (k : Nat) : List Byte := List.replicate k 0xFF

/-- The release exchange (40_protocol_engine.md R142). -/
def released (last : Byte) : List BusEvent := [.exchange false 0xFF last]

/-! ## What the card returns

A premise about the card is a premise about `script`, the bytes it returns from here on. Each structure below lists the
bytes of one exchange as the rules read them, `bytes` puts them in order, `fits` says they come within the budgets, and
`events` is the bus trace the exchange makes. -/

/-- The answer to a frame: six bytes while the frame is sent, then bytes with bit 7 = 1, then a response or none. -/
structure Answer where
  during : List Byte
  waits : List Byte
  flags : Option (BitVec 7)

/-- The bytes of the poll (R141). -/
def Answer.polled (a : Answer) : List Byte :=
  match a.flags with
  | some f => a.waits ++ [0#1 ++ f]
  | none => a.waits

/-- All its bytes. -/
def Answer.bytes (a : Answer) : List Byte := a.during ++ a.polled

/-- What the poll returns. -/
def Answer.resp (a : Answer) : Resp :=
  match a.flags with
  | some f => .r1 f
  | none => .timeout

/-- A response comes within `N_CMD` polls; without one all of them are spent (R141). -/
def Answer.fits (p : Params) (a : Answer) : Prop :=
  a.during.length = 6 ∧ (∀ b ∈ a.waits, b.msb = true) ∧
    (if a.flags = none then a.waits.length = p.nCmd else a.waits.length < p.nCmd)

/-- The cause of an answer that was not the one required: a timeout, or an R1 (60_exceptions.md R271, R272). -/
def Answer.cause (a : Answer) : Cause := if a.flags = none then .protocolTimeout else .illegalResponse

/-- Its bus events: the frame and the poll. -/
def Answer.events (idx : CmdIndex) (arg : U32) (close : Byte) (a : Answer) : List BusEvent :=
  exchanges true (frameBytes idx arg close ++ fillers a.polled.length) a.bytes

/-- A select bracket that is closed right after the answer: one more byte, in the release exchange. -/
structure Bracket where
  answer : Answer
  last : Byte

/-- Its bytes. -/
def Bracket.bytes (b : Bracket) : List Byte := b.answer.bytes ++ [b.last]

/-- It comes within the budget. -/
def Bracket.fits (p : Params) (b : Bracket) : Prop := b.answer.fits p

/-- Its bus events (R143). -/
def Bracket.events (idx : CmdIndex) (arg : U32) (close : Byte) (b : Bracket) : List BusEvent :=
  b.answer.events idx arg close ++ released b.last

/-- A select bracket with four more reply bytes after a response (30_encoding.md R105). -/
structure LongBracket where
  answer : Answer
  t0 : Byte
  t1 : Byte
  t2 : Byte
  t3 : Byte
  last : Byte

/-- The trailing bytes: four after a response, none after a timeout (R145, R146). -/
def LongBracket.trailing (b : LongBracket) : List Byte :=
  if b.answer.flags = none then [] else [b.t0, b.t1, b.t2, b.t3]

/-- Its bytes. -/
def LongBracket.bytes (b : LongBracket) : List Byte := b.answer.bytes ++ b.trailing ++ [b.last]

/-- It comes within the budget. -/
def LongBracket.fits (p : Params) (b : LongBracket) : Prop := b.answer.fits p

/-- Its bus events. -/
def LongBracket.events (idx : CmdIndex) (arg : U32) (close : Byte) (b : LongBracket) : List BusEvent :=
  b.answer.events idx arg close ++ exchanges true (fillers b.trailing.length) b.trailing ++ released b.last

/-- A data block from the card (30_encoding.md R109): bytes other than the token, the token, `n` payload bytes, two
checksum bytes; then the byte of the release exchange. -/
structure DataBlock (n : Nat) where
  skipped : List Byte
  data : Vector Byte n
  c0 : Byte
  c1 : Byte
  last : Byte

/-- The bytes of the block up to the checksum. -/
def DataBlock.body {n : Nat} (d : DataBlock n) : List Byte :=
  d.skipped ++ [0xFE] ++ d.data.toList ++ [d.c0, d.c1]

/-- Its bytes. -/
def DataBlock.bytes {n : Nat} (d : DataBlock n) : List Byte := d.body ++ [d.last]

/-- The token comes within its budget (43_block_transfer.md R201). -/
def DataBlock.fits {n : Nat} (p : Params) (d : DataBlock n) : Prop :=
  d.skipped.length < p.nToken ∧ ∀ b ∈ d.skipped, b ≠ 0xFE

/-- Its bus events. -/
def DataBlock.events {n : Nat} (d : DataBlock n) : List BusEvent :=
  exchanges true (fillers d.body.length) d.body ++ released d.last

/-- A data phase without a token: `N_TOKEN` bytes other than 0xFE, then the byte of the release exchange. -/
structure NoToken where
  skipped : List Byte
  last : Byte

/-- Its bytes. -/
def NoToken.bytes (d : NoToken) : List Byte := d.skipped ++ [d.last]

/-- It spends the budget (R201). -/
def NoToken.fits (p : Params) (d : NoToken) : Prop := d.skipped.length = p.nToken ∧ ∀ b ∈ d.skipped, b ≠ 0xFE

/-- Its bus events. -/
def NoToken.events (d : NoToken) : List BusEvent :=
  exchanges true (fillers d.skipped.length) d.skipped ++ released d.last

/-- A successful read: the R1 0x00 and a data block. -/
structure ReadAnswer (n : Nat) where
  answer : Answer
  block : DataBlock n

/-- Its bytes. -/
def ReadAnswer.bytes {n : Nat} (a : ReadAnswer n) : List Byte := a.answer.bytes ++ a.block.bytes

/-- It comes within the budgets. -/
def ReadAnswer.fits {n : Nat} (p : Params) (a : ReadAnswer n) : Prop :=
  a.answer.fits p ∧ a.answer.flags = some 0 ∧ a.block.fits p

/-- Its bus events. -/
def ReadAnswer.events {n : Nat} (idx : CmdIndex) (arg : U32) (close : Byte) (a : ReadAnswer n) : List BusEvent :=
  a.answer.events idx arg close ++ a.block.events

/-- What the engine sends in the data phase of a write before it listens (R203): the gap, the token, the payload and
the disabled checksum. -/
def writeBytes (p : Params) (payload : List Byte) : List Byte :=
  fillers p.writeGap ++ [0xFE] ++ payload ++ [0xFF, 0xFF]

/-- A successful write: the R1 0x00, bytes while the block is sent, an accepting token, zeros, a non-zero byte, and the
byte of the release exchange. -/
structure WriteAnswer where
  answer : Answer
  sending : List Byte
  drt : Byte
  zeros : Nat
  awake : Byte
  last : Byte

/-- The bytes received while the engine only listens: the token, the zeros and the byte that ends them. -/
def WriteAnswer.listening (a : WriteAnswer) : List Byte := [a.drt] ++ List.replicate a.zeros 0x00 ++ [a.awake]

/-- Its bytes. -/
def WriteAnswer.bytes (a : WriteAnswer) : List Byte := a.answer.bytes ++ a.sending ++ a.listening ++ [a.last]

/-- It comes within the budgets, and the token accepts (R204, R205). -/
def WriteAnswer.fits (p : Params) (a : WriteAnswer) : Prop :=
  a.answer.fits p ∧ a.answer.flags = some 0 ∧ a.sending.length = p.writeGap + 515 ∧
    a.drt.extractLsb' 0 5 = 0b00101#5 ∧ a.zeros < p.nBusy ∧ a.awake ≠ 0x00

/-- Its bus events, for the payload written. -/
def WriteAnswer.events (p : Params) (idx : CmdIndex) (arg : U32) (payload : List Byte) (a : WriteAnswer) :
    List BusEvent :=
  a.answer.events idx arg p.close ++
    exchanges true (writeBytes p payload ++ fillers a.listening.length) (a.sending ++ a.listening) ++ released a.last

/-- A read that fails before its block: an answer that is not R1 0x00, or R1 0x00 and no start token
(43_block_transfer.md R202, 42_register_decoder.md R186). -/
inductive ReadFailure where
  | rejected (b : Bracket)
  | noToken (a : Answer) (d : NoToken)

/-- Its bytes. -/
def ReadFailure.bytes : ReadFailure → List Byte
  | .rejected b => b.bytes
  | .noToken a d => a.bytes ++ d.bytes

/-- It spends the budgets as it says. -/
def ReadFailure.fits (p : Params) : ReadFailure → Prop
  | .rejected b => b.fits p ∧ b.answer.flags ≠ some 0
  | .noToken a d => a.fits p ∧ a.flags = some 0 ∧ d.fits p

/-- Its bus events. -/
def ReadFailure.events (idx : CmdIndex) (arg : U32) (close : Byte) : ReadFailure → List BusEvent
  | .rejected b => b.events idx arg close
  | .noToken a d => a.events idx arg close ++ d.events

/-- The cause it is reported with (60_exceptions.md R271, R272, R276). -/
def ReadFailure.cause : ReadFailure → Cause
  | .rejected b => b.answer.cause
  | .noToken _ _ => .blockStartMissing

/-- A write that fails: an answer that is not R1 0x00, a token that rejects the block, or a card that stays busy
(43_block_transfer.md R203-R205). -/
inductive WriteFailure where
  | rejected (b : Bracket)
  | refused (a : Answer) (sending : List Byte) (drt : Byte)
  | busy (a : Answer) (sending : List Byte) (drt : Byte) (zeros : Nat) (last : Byte)

/-- Its bytes. A refused block is not followed by a release exchange (R204). -/
def WriteFailure.bytes : WriteFailure → List Byte
  | .rejected b => b.bytes
  | .refused a sending drt => a.bytes ++ sending ++ [drt]
  | .busy a sending drt zeros last => a.bytes ++ sending ++ [drt] ++ List.replicate zeros 0x00 ++ [last]

/-- It spends the budgets as it says. -/
def WriteFailure.fits (p : Params) : WriteFailure → Prop
  | .rejected b => b.fits p ∧ b.answer.flags ≠ some 0
  | .refused a sending drt =>
    a.fits p ∧ a.flags = some 0 ∧ sending.length = p.writeGap + 515 ∧ drt.extractLsb' 0 5 ≠ 0b00101#5
  | .busy a sending drt zeros _ =>
    a.fits p ∧ a.flags = some 0 ∧ sending.length = p.writeGap + 515 ∧ drt.extractLsb' 0 5 = 0b00101#5 ∧ zeros = p.nBusy

/-- Its bus events, for the payload sent. -/
def WriteFailure.events (p : Params) (idx : CmdIndex) (arg : U32) (payload : List Byte) : WriteFailure → List BusEvent
  | .rejected b => b.events idx arg p.close
  | .refused a sending drt =>
    a.events idx arg p.close ++ exchanges true (writeBytes p payload ++ [0xFF]) (sending ++ [drt])
  | .busy a sending drt zeros last =>
    a.events idx arg p.close ++
      exchanges true (writeBytes p payload ++ fillers (1 + zeros)) (sending ++ [drt] ++ List.replicate zeros 0x00) ++
      released last

/-- The cause it is reported with (60_exceptions.md R271, R272, R275). -/
def WriteFailure.cause : WriteFailure → Cause
  | .rejected b => b.answer.cause
  | .refused _ _ _ => .writeRejected
  | .busy _ _ _ _ _ => .protocolTimeout

/-! ### Bring-up -/

/-- One attempt of the V1 path (41_bringup.md R163): CMD55, then CMD41 with argument 0. -/
structure V1Attempt where
  cmd55 : Bracket
  cmd41 : Bracket

/-- Its bytes. -/
def V1Attempt.bytes (a : V1Attempt) : List Byte := a.cmd55.bytes ++ a.cmd41.bytes

/-- It comes within the budgets. -/
def V1Attempt.fits (p : Params) (a : V1Attempt) : Prop := a.cmd55.fits p ∧ a.cmd41.fits p

/-- Its bus events. -/
def V1Attempt.events (p : Params) (a : V1Attempt) : List BusEvent :=
  a.cmd55.events 55 0 p.close ++ a.cmd41.events 41 0 p.close

/-- One attempt of the V2 path (R164): CMD58, CMD55, then CMD41 with `HCS_ARG`. -/
structure V2Attempt where
  cmd58 : LongBracket
  cmd55 : Bracket
  cmd41 : Bracket

/-- Its bytes. -/
def V2Attempt.bytes (a : V2Attempt) : List Byte := a.cmd58.bytes ++ a.cmd55.bytes ++ a.cmd41.bytes

/-- It comes within the budgets. -/
def V2Attempt.fits (p : Params) (a : V2Attempt) : Prop := a.cmd58.fits p ∧ a.cmd55.fits p ∧ a.cmd41.fits p

/-- Its bus events. -/
def V2Attempt.events (p : Params) (a : V2Attempt) : List BusEvent :=
  a.cmd58.events 58 0 p.close ++ a.cmd55.events 55 0 p.close ++ a.cmd41.events 41 p.hcsArg p.close

/-- The bus events of several V2 attempts: a wait before every attempt but the first of all (R164, R310). -/
def v2Events (p : Params) : List V2Attempt → List BusEvent
  | [] => []
  | [a] => a.events p
  | a :: b :: as => a.events p ++ [.wait p.v2WaitMs] ++ v2Events p (b :: as)

/-- What the card returns from the version probe on: some failed attempts and one that succeeds. -/
inductive PathAnswer where
  | v1 (failed : List V1Attempt) (ready : V1Attempt)
  | v2 (failed : List V2Attempt) (ready : V2Attempt) (latch : LongBracket)

/-- The R1 of the probe that selects the path (R162). -/
def PathAnswer.probe : PathAnswer → BitVec 7
  | .v1 _ _ => 0x05
  | .v2 _ _ _ => 0x01

/-- Its bytes. -/
def PathAnswer.bytes : PathAnswer → List Byte
  | .v1 failed ready => failed.flatMap V1Attempt.bytes ++ ready.bytes
  | .v2 failed ready latch => failed.flatMap V2Attempt.bytes ++ ready.bytes ++ latch.bytes

/-- The attempts come within `N_READY`, and only the last one returns `R1(0x00)`. -/
def PathAnswer.fits (p : Params) : PathAnswer → Prop
  | .v1 failed ready =>
    failed.length < p.nReady ∧ (∀ a ∈ failed, a.fits p ∧ a.cmd41.answer.flags ≠ some 0) ∧ ready.fits p ∧
      ready.cmd41.answer.flags = some 0
  | .v2 failed ready latch =>
    failed.length < p.nReady ∧ (∀ a ∈ failed, a.fits p ∧ a.cmd41.answer.flags ≠ some 0) ∧ ready.fits p ∧
      ready.cmd41.answer.flags = some 0 ∧ latch.fits p

/-- Its bus events: on the V2 path one more CMD58 follows the attempt that succeeds. -/
def PathAnswer.events (p : Params) : PathAnswer → List BusEvent
  | .v1 failed ready => failed.flatMap (V1Attempt.events p) ++ ready.events p
  | .v2 failed ready latch => v2Events p (failed ++ [ready]) ++ latch.events 58 0 p.close

/-- The divisor the path leaves (R163, R164). -/
def PathAnswer.divisor : PathAnswer → U32
  | .v1 _ _ => 512
  | .v2 _ _ _ => 1

/-- What the card returns in a successful bring-up. -/
structure BringUpAnswer where
  resets : List Bracket
  checked : Bracket
  probe : LongBracket
  path : PathAnswer

/-- Its bytes. -/
def BringUpAnswer.bytes (a : BringUpAnswer) : List Byte :=
  a.resets.flatMap Bracket.bytes ++ a.checked.bytes ++ a.probe.bytes ++ a.path.bytes

/-- It comes within the budgets and takes the transitions of R160 to READY. -/
def BringUpAnswer.fits (p : Params) (a : BringUpAnswer) : Prop :=
  a.resets.length = p.nResetPre ∧ (∀ b ∈ a.resets, b.fits p) ∧ a.checked.fits p ∧
    a.checked.answer.flags = some 0x01 ∧ a.probe.fits p ∧ a.probe.answer.flags = some a.path.probe ∧ a.path.fits p

/-- The bus events of the resets, checked and unchecked. -/
def resetEvents (p : Params) (resets : List Bracket) : List BusEvent := resets.flatMap fun b => b.events 0 0 p.close

/-- Its bus events. -/
def BringUpAnswer.events (p : Params) (a : BringUpAnswer) : List BusEvent :=
  resetEvents p (a.resets ++ [a.checked]) ++ a.probe.events 8 p.cmd8Arg p.cmd8Close ++ a.path.events p

/-- What the card returns in a successful INIT (45_facade.md R251). -/
structure InitAnswer where
  bringUp : BringUpAnswer
  csd : ReadAnswer 16
  cmd16 : Bracket

/-- Its bytes. -/
def InitAnswer.bytes (a : InitAnswer) : List Byte := a.bringUp.bytes ++ a.csd.bytes ++ a.cmd16.bytes

/-- Every step of INIT succeeds. -/
def InitAnswer.fits (p : Params) (a : InitAnswer) : Prop :=
  a.bringUp.fits p ∧ a.csd.fits p ∧ (decodeCapacity a.csd.block.data).ok = true ∧ a.cmd16.fits p ∧
    a.cmd16.answer.flags = some 0

/-- Its bus events. -/
def InitAnswer.events (p : Params) (a : InitAnswer) : List BusEvent :=
  a.bringUp.events p ++ a.csd.events 9 0 p.close ++ a.cmd16.events 16 512 p.close

/-- What the card returns in a bring-up that fails: the checked reset, the probe, or all the attempts of a path
(41_bringup.md R161-R164). -/
inductive BringUpFailure where
  | reset (resets : List Bracket) (checked : Bracket)
  | probe (resets : List Bracket) (checked : Bracket) (probed : LongBracket)
  | v1 (resets : List Bracket) (checked : Bracket) (probed : LongBracket) (attempts : List V1Attempt)
  | v2 (resets : List Bracket) (checked : Bracket) (probed : LongBracket) (attempts : List V2Attempt)

/-- Its bytes. -/
def BringUpFailure.bytes : BringUpFailure → List Byte
  | .reset resets checked => resets.flatMap Bracket.bytes ++ checked.bytes
  | .probe resets checked probed => resets.flatMap Bracket.bytes ++ checked.bytes ++ probed.bytes
  | .v1 resets checked probed attempts =>
    resets.flatMap Bracket.bytes ++ checked.bytes ++ probed.bytes ++ attempts.flatMap V1Attempt.bytes
  | .v2 resets checked probed attempts =>
    resets.flatMap Bracket.bytes ++ checked.bytes ++ probed.bytes ++ attempts.flatMap V2Attempt.bytes

/-- The resets come within their budgets (R161). -/
def ResetsFit (p : Params) (resets : List Bracket) (checked : Bracket) : Prop :=
  resets.length = p.nResetPre ∧ (∀ b ∈ resets, b.fits p) ∧ checked.fits p

/-- It takes the transitions of R160 to FAILED. -/
def BringUpFailure.fits (p : Params) : BringUpFailure → Prop
  | .reset resets checked => ResetsFit p resets checked ∧ checked.answer.flags ≠ some 0x01
  | .probe resets checked probed =>
    ResetsFit p resets checked ∧ checked.answer.flags = some 0x01 ∧ probed.fits p ∧
      probed.answer.flags ≠ some 0x01 ∧ probed.answer.flags ≠ some 0x05
  | .v1 resets checked probed attempts =>
    ResetsFit p resets checked ∧ checked.answer.flags = some 0x01 ∧ probed.fits p ∧ probed.answer.flags = some 0x05 ∧
      attempts.length = p.nReady ∧ ∀ a ∈ attempts, a.fits p ∧ a.cmd41.answer.flags ≠ some 0
  | .v2 resets checked probed attempts =>
    ResetsFit p resets checked ∧ checked.answer.flags = some 0x01 ∧ probed.fits p ∧ probed.answer.flags = some 0x01 ∧
      attempts.length = p.nReady ∧ ∀ a ∈ attempts, a.fits p ∧ a.cmd41.answer.flags ≠ some 0

/-- Its bus events. -/
def BringUpFailure.events (p : Params) : BringUpFailure → List BusEvent
  | .reset resets checked => resetEvents p (resets ++ [checked])
  | .probe resets checked probed => resetEvents p (resets ++ [checked]) ++ probed.events 8 p.cmd8Arg p.cmd8Close
  | .v1 resets checked probed attempts =>
    resetEvents p (resets ++ [checked]) ++ probed.events 8 p.cmd8Arg p.cmd8Close ++ attempts.flatMap (V1Attempt.events p)
  | .v2 resets checked probed attempts =>
    resetEvents p (resets ++ [checked]) ++ probed.events 8 p.cmd8Arg p.cmd8Close ++ v2Events p attempts

/-- The cause it is reported with (R168). -/
def BringUpFailure.cause : BringUpFailure → Cause
  | .reset _ checked => checked.answer.cause
  | .probe _ _ probed => probed.answer.cause
  | .v1 _ _ _ _ | .v2 _ _ _ _ => .protocolTimeout

/-- What the card returns in an INIT that fails (45_facade.md R251): in bring-up, in the CSD read, with a CSD that does not
decode, or in CMD16. -/
inductive InitFailure where
  | bringUp (f : BringUpFailure)
  | csd (up : BringUpAnswer) (f : ReadFailure)
  | undecodable (up : BringUpAnswer) (read : ReadAnswer 16)
  | blockLength (up : BringUpAnswer) (read : ReadAnswer 16) (cmd16 : Bracket)

/-- Its bytes. -/
def InitFailure.bytes : InitFailure → List Byte
  | .bringUp f => f.bytes
  | .csd up f => up.bytes ++ f.bytes
  | .undecodable up read => up.bytes ++ read.bytes
  | .blockLength up read cmd16 => up.bytes ++ read.bytes ++ cmd16.bytes

/-- Every step before the failing one succeeds, and that one fails. -/
def InitFailure.fits (p : Params) : InitFailure → Prop
  | .bringUp f => f.fits p
  | .csd up f => up.fits p ∧ f.fits p
  | .undecodable up read => up.fits p ∧ read.fits p ∧ (decodeCapacity read.block.data).ok = false
  | .blockLength up read cmd16 =>
    up.fits p ∧ read.fits p ∧ (decodeCapacity read.block.data).ok = true ∧ cmd16.fits p ∧ cmd16.answer.flags ≠ some 0

/-- Its bus events: none after the failing step. -/
def InitFailure.events (p : Params) : InitFailure → List BusEvent
  | .bringUp f => f.events p
  | .csd up f => up.events p ++ f.events 9 0 p.close
  | .undecodable up read => up.events p ++ read.events 9 0 p.close
  | .blockLength up read cmd16 => up.events p ++ read.events 9 0 p.close ++ cmd16.events 16 512 p.close

/-- The cause it is reported with (60_exceptions.md R271-R277). -/
def InitFailure.cause : InitFailure → Cause
  | .bringUp f => f.cause
  | .csd _ f => f.cause
  | .undecodable _ _ => .csdDecodeFailed
  | .blockLength _ _ cmd16 => cmd16.answer.cause

/-- Where bring-up stands after it (41_bringup.md R160). -/
def InitFailure.br : InitFailure → BringUpState
  | .bringUp _ => .failed
  | .csd _ _ | .undecodable _ _ | .blockLength _ _ _ => .ready

/-! ### Byte ranges -/

/-- What the card returns for one block of a WRITE or ERASE: a read before the write, or the write alone. -/
inductive BlockAnswer where
  | merge (r : ReadAnswer 512) (w : WriteAnswer)
  | full (w : WriteAnswer)

/-- Its bytes. -/
def BlockAnswer.bytes : BlockAnswer → List Byte
  | .merge r w => r.bytes ++ w.bytes
  | .full w => w.bytes

/-- It comes within the budgets. -/
def BlockAnswer.fits (p : Params) : BlockAnswer → Prop
  | .merge r w => r.fits p ∧ w.fits p
  | .full w => w.fits p

/-- Is it a merge? -/
def BlockAnswer.isMerge : BlockAnswer → Bool
  | .merge _ _ => true
  | .full _ => false

/-- Byte `j` of the block as the card returned it; a block written without a read has none. -/
def BlockAnswer.old : BlockAnswer → Nat → Byte
  | .merge r _, j => r.block.data.toList.getD j 0
  | .full _, _ => 0

/-- Its bus events at a card address, for the payload written: CMD17 before a merge, then CMD24 (R227, R228). -/
def BlockAnswer.events (p : Params) (arg : U32) (payload : List Byte) : BlockAnswer → List BusEvent
  | .merge r w => r.events 17 arg p.close ++ w.events p 24 arg payload
  | .full w => w.events p 24 arg payload

/-- The source byte of request byte `k`: host memory for WRITE, 0xFF for ERASE (R231). -/
def sourceByte (kind : MapKind) (s : State) (buf k : Nat) : Byte :=
  match kind with
  | .erase => 0xFF
  | .read | .write => Memory.read s.mem (buf + k)

/-- The 512 bytes written to block `blk`: the source inside the request, the card's own bytes outside (R227, R233). -/
def mergedBlock (kind : MapKind) (s : State) (offset size : U64) (buf blk : Nat) (old : Nat → Byte) : List Byte :=
  (List.range 512).map fun j =>
    if offset.toNat ≤ 512 * blk + j ∧ 512 * blk + j < offset.toNat + size.toNat then
      sourceByte kind s buf (512 * blk + j - offset.toNat)
    else old j

/-- The 512 bytes of a segment: `n` source bytes from `off` on, the card's own bytes around them. -/
def segmentBytes (kind : MapKind) (s : State) (data : List Byte) (off n : Nat) : List Byte :=
  (List.range 512).map fun j =>
    if off ≤ j ∧ j < off + n then sourceByte kind s (s.req.buf + s.map.done.toNat) (j - off) else data.getD j 0

/-- The card address of a block (20_memory.md R72), where it fits. -/
def cardArg (s : State) (blk : Nat) : U32 := BitVec.ofNat 32 (blk * s.divisor.toNat)

/-- The bus events of a WRITE or ERASE, from block `blk` on. -/
def rangeWriteEvents (kind : MapKind) (s : State) (offset size : U64) (buf : Nat) : Nat → List BlockAnswer →
    List BusEvent
  | _, [] => []
  | blk, a :: as =>
    a.events s.cfg (cardArg s blk) (mergedBlock kind s offset size buf blk a.old) ++
      rangeWriteEvents kind s offset size buf (blk + 1) as

/-- The bus events of a READ, from block `blk` on: one CMD17 each. -/
def rangeReadEvents (s : State) : Nat → List (ReadAnswer 512) → List BusEvent
  | _, [] => []
  | blk, a :: as => a.events 17 (cardArg s blk) s.cfg.close ++ rangeReadEvents s (blk + 1) as

/-- What the card returns for the block of a WRITE or ERASE that fails: in the read before the write, or in the write. -/
inductive BlockFailure where
  | reading (f : ReadFailure)
  | merge (r : ReadAnswer 512) (f : WriteFailure)
  | full (f : WriteFailure)

/-- Its bytes. -/
def BlockFailure.bytes : BlockFailure → List Byte
  | .reading f => f.bytes
  | .merge r f => r.bytes ++ f.bytes
  | .full f => f.bytes

/-- It fails as it says. -/
def BlockFailure.fits (p : Params) : BlockFailure → Prop
  | .reading f => f.fits p
  | .merge r f => r.fits p ∧ f.fits p
  | .full f => f.fits p

/-- Is it a merge? -/
def BlockFailure.isMerge : BlockFailure → Bool
  | .reading _ | .merge _ _ => true
  | .full _ => false

/-- Byte `j` of the block as the card returned it, if it did. -/
def BlockFailure.old : BlockFailure → Nat → Byte
  | .merge r _, j => r.block.data.toList.getD j 0
  | .reading _, _ | .full _, _ => 0

/-- Its bus events at a card address, for the payload to be written. -/
def BlockFailure.events (p : Params) (arg : U32) (payload : List Byte) : BlockFailure → List BusEvent
  | .reading f => f.events 17 arg p.close
  | .merge r f => r.events 17 arg p.close ++ f.events p 24 arg payload
  | .full f => f.events p 24 arg payload

/-- The cause it is reported with. -/
def BlockFailure.cause : BlockFailure → Cause
  | .reading f => f.cause
  | .merge _ f | .full f => f.cause

/-- The bytes of the first `k` segments of a request that reaches past them (R223-R225, R230). -/
def bytesBefore (offset : U64) (k : Nat) : Nat := 512 * k - offset.toNat % 512

/-- The first and the last block of a request are merges, the blocks between them are not (R224-R226, R232). -/
def MergesAtEnds (as : List BlockAnswer) : Prop :=
  ∀ k : Nat, ∀ h : k < as.length, as[k].isMerge = true ↔ k = 0 ∨ k + 1 = as.length

/-- The mapper's segments touch no card address that does not fit the u32 argument: the premise of 43_block_transfer.md
R200 for every block of a request with `size ≥ 1`. -/
def AddressesFit (s : State) (offset size : U64) : Prop :=
  (offset.toNat + size.toNat - 1) / 512 * s.divisor.toNat < 2 ^ 32

/-- The session is ready, the request is legal and not empty, its card addresses fit, and the bus answers. -/
structure RangeReady (s : State) (offset size : U64) : Prop where
  session : s.initialized = true
  legal : offset.toNat + size.toNat < 2 ^ 64 ∧ offset.toNat + size.toNat ≤ s.sectorCount.toNat * 512
  nonempty : 1 ≤ size.toNat
  addresses : AddressesFit s offset size
  bus : s.busAnswers = none

/-- The model has stopped in `t` at the first block of a request from `s` whose card address does not fit
(60_exceptions.md R278): no `COMPLETION` is written, and at the request's first block no bus event is made. -/
structure OverflowedAt (s : State) (offset size : U64) (blk : U64) (t : State) : Prop where
  inRange : offset.toNat / 512 ≤ blk.toNat ∧ blk.toNat ≤ (offset.toNat + size.toNat - 1) / 512
  unfit : 2 ^ 32 ≤ blk.toNat * s.divisor.toNat
  earlier : ∀ b, offset.toNat / 512 ≤ b → b < blk.toNat → b * s.divisor.toNat < 2 ^ 32
  completion : t.completion = s.completion
  quiet : blk.toNat = offset.toNat / 512 → t.trace = s.trace

/-- The host keeps R312 for a buffer. -/
def BufferKept (s : State) (buf : Nat) (size : U64) : Prop :=
  s.hostKeepsDuties = true ∧ buf + size.toNat ≤ 2 ^ s.cfg.hostAddr

/-! ## The effect of an exchange, register by register -/

/-- After a frame (40_protocol_engine.md R140). -/
def State.afterFrame (idx : CmdIndex) (arg : U32) (close : Byte) (during rest : List Byte) (s : State) : State :=
  { s with
    cmdIdx := idx
    cmdArg := arg
    trace := s.trace ++ exchanges true (frameBytes idx arg close) during
    position := s.position + (if s.sel then 0 else 1) + 6
    sel := true
    script := rest }

/-- After a poll at the current select level (R141). -/
def State.afterPoll (polled : List Byte) (r : Resp) (rest : List Byte) (s : State) : State :=
  { s with
    resp := r
    loops := { s.loops with poll := polled.length }
    trace := s.trace ++ exchanges s.sel (fillers polled.length) polled
    position := s.position + polled.length
    script := rest }

/-- After a frame and its poll: `SEL` stays asserted. -/
def State.afterAnswer (idx : CmdIndex) (arg : U32) (close : Byte) (a : Answer) (rest : List Byte) (s : State) : State :=
  { s with
    cmdIdx := idx
    cmdArg := arg
    resp := a.resp
    loops := { s.loops with poll := a.polled.length }
    trace := s.trace ++ a.events idx arg close
    position := s.position + (if s.sel then 0 else 1) + a.bytes.length
    sel := true
    script := rest }

/-- After a release (R142): `last` is the byte received. -/
def State.afterRelease (last : Byte) (rest : List Byte) (s : State) : State :=
  { s with
    trace := s.trace ++ released last
    position := s.position + (if s.sel then 1 else 0) + 1
    sel := false
    script := rest }

/-- After a whole command (R143). -/
def State.afterCommand (idx : CmdIndex) (arg : U32) (close : Byte) (b : Bracket) (rest : List Byte) (s : State) :
    State :=
  (s.afterAnswer idx arg close b.answer (b.last :: rest)).afterRelease b.last rest

/-- After CMD8 or CMD58 (R145, R146), `OCR` apart. -/
def State.afterLong (idx : CmdIndex) (arg : U32) (close : Byte) (b : LongBracket) (rest : List Byte) (s : State) :
    State :=
  { s with
    cmdIdx := idx
    cmdArg := arg
    resp := b.answer.resp
    loops := { s.loops with
      poll := b.answer.polled.length
      trail := if b.answer.flags = none then s.loops.trail else 4 }
    trace := s.trace ++ b.events idx arg close
    position := s.position + (if s.sel then 0 else 1) + b.bytes.length + 1
    sel := false
    script := rest }

/-- `OCR` after CMD58: written on a response, kept on a timeout (R146). -/
def LongBracket.ocr (b : LongBracket) (old : U32) : U32 :=
  if b.answer.flags = none then old else b.t0 ++ b.t1 ++ b.t2 ++ b.t3

/-- The payload of a data block is in its buffer. -/
def State.withPayload (dst : DataBuffer) (data : Vector Byte dst.length) (s : State) : State :=
  match dst, data with
  | .csd, data => { s with csd := data }
  | .scratch, data => { s with scratch := data }

/-- After `readData` received a block and released (43_block_transfer.md R201). -/
def State.afterData (dst : DataBuffer) (d : DataBlock dst.length) (rest : List Byte) (s : State) : State :=
  { s with
    loops := { s.loops with token := d.skipped.length + 1, payload := dst.length }
    found := true
    trace := s.trace ++ d.events
    position := s.position + (if s.sel then 0 else 1) + d.bytes.length + 1
    sel := false
    script := rest }.withPayload dst d.data

/-- After `readData` found no token and released (R201). -/
def State.afterNoToken (d : NoToken) (rest : List Byte) (s : State) : State :=
  { s with
    loops := { s.loops with token := d.skipped.length }
    found := false
    trace := s.trace ++ d.events
    position := s.position + (if s.sel then 0 else 1) + d.bytes.length + 1
    sel := false
    script := rest }

/-- After a block write and its release (R203-R205). -/
def State.afterWrite (idx : CmdIndex) (arg : U32) (a : WriteAnswer) (rest : List Byte) (s : State) : State :=
  { s with
    cmdIdx := idx
    cmdArg := arg
    resp := .r1 0
    loops := { s.loops with
      poll := a.answer.polled.length
      gap := s.cfg.writeGap
      payload := 512
      busy := a.zeros + 1 }
    drt := a.drt
    trace := s.trace ++ a.events s.cfg idx arg s.scratch.toList
    position := s.position + (if s.sel then 0 else 1) + a.bytes.length + 1
    sel := false
    script := rest }

/-! ## What an operation leaves alone -/

/-- What bring-up leaves alone: every register but `DIVISOR`, `BR`, `OCR`, the command registers, the loop counters and
the bus side (41_bringup.md R170). -/
structure BringUpFrame (s t : State) : Prop where
  initialized : t.initialized = s.initialized
  sectorCount : t.sectorCount = s.sectorCount
  csd : t.csd = s.csd
  scratch : t.scratch = s.scratch
  map : t.map = s.map
  found : t.found = s.found
  drt : t.drt = s.drt
  completion : t.completion = s.completion
  cfg : t.cfg = s.cfg
  top : t.top = s.top
  req : t.req = s.req
  mem : t.mem = s.mem
  inbox : t.inbox = s.inbox
  hostKeepsDuties : t.hostKeepsDuties = s.hostKeepsDuties

/-- What READ, WRITE and ERASE leave alone: the session registers, `CSD`, `OCR`, `BR` and the parameters. -/
structure RangeFrame (s t : State) : Prop where
  initialized : t.initialized = s.initialized
  divisor : t.divisor = s.divisor
  sectorCount : t.sectorCount = s.sectorCount
  csd : t.csd = s.csd
  ocr : t.ocr = s.ocr
  br : t.br = s.br
  cfg : t.cfg = s.cfg
  inbox : t.inbox = s.inbox
  hostKeepsDuties : t.hostKeepsDuties = s.hostKeepsDuties

/-- The payload bytes the card returned, block after block. -/
def blockData (as : List (ReadAnswer 512)) : List Byte := as.flatMap fun a => a.block.data.toList

/-- A READ has run over its blocks: one CMD17 each in increasing order, request byte `k` in host byte `buf + k`, every
other host byte as before (44_byte_range_mapper.md R232, R233, R235). -/
structure ReadDone (s : State) (offset size : U64) (buf : Nat) (as : List (ReadAnswer 512)) (rest : List Byte)
    (t : State) : Prop where
  trace : t.trace = s.trace ++ rangeReadEvents s (offset.toNat / 512) as
  stored : ∀ k, k < size.toNat → Memory.read t.mem (buf + k) = (blockData as).getD (offset.toNat % 512 + k) 0
  kept : ∀ a, a < buf ∨ buf + size.toNat ≤ a → Memory.read t.mem a = Memory.read s.mem a
  done : t.map.done = size
  sel : t.sel = false
  script : t.script = rest
  unchanged : RangeFrame s t

/-- A WRITE or ERASE has run over its blocks: the blocks of R232 in increasing order, with the payload of R233, and host
memory as before (R235). -/
structure WriteDone (kind : MapKind) (s : State) (offset size : U64) (buf : Nat) (as : List BlockAnswer)
    (rest : List Byte) (t : State) : Prop where
  trace : t.trace = s.trace ++ rangeWriteEvents kind s offset size buf (offset.toNat / 512) as
  mem : t.mem = s.mem
  done : t.map.done = size
  sel : t.sel = false
  script : t.script = rest
  unchanged : RangeFrame s t

end Sys2Proof.Machine
end

