-- ==== Sys2Proof/Certificates/Slice0/Obligations.lean ====
section
/-! DEFINITION. The statements for the provers. Each docstring names the rule it formalises, or the log entry it rests on.
A premise `s.script = … ++ rest` says what the card returns (00_scope.md R12 leaves every byte free; log 2);
`s.busAnswers = none` says every bus call returns (70_reset_and_hazards.md R304, R316; log 18). What a sub-step returned
stands in `result`, the model's own register (log 7). -/

open Sys2Proof Sys2Proof.Machine

/-! ## Encodings -/

/-- The words of the table, written out from 30_encoding.md R100-R103 (frames, with the general-knowledge values of 93
G1-G4), R106-R113 (bytes) and R116-R117 (requests), decode to the instructions they stand for. -/
def Obligations.TableWordsDecodeToTheirRows : Prop :=
  ∀ p : Params, p.close = 0x95 → p.cmd8Arg = 0x000001AA → p.cmd8Close = 0x87 → p.hcsArg = 0x40000000 →
    ∀ (a b c d : Byte) (o z : U64) (buf : Nat),
      decode p (.frame [0x40, 0x00, 0x00, 0x00, 0x00, 0x95]) = .ok .cmd0 ∧
      decode p (.frame [0x48, 0x00, 0x00, 0x01, 0xAA, 0x87]) = .ok .cmd8 ∧
      decode p (.frame [0x49, 0x00, 0x00, 0x00, 0x00, 0x95]) = .ok .cmd9 ∧
      decode p (.frame [0x50, 0x00, 0x00, 0x02, 0x00, 0x95]) = .ok .cmd16 ∧
      decode p (.frame [0x51, a, b, c, d, 0x95]) = .ok (.cmd17 (a ++ b ++ c ++ d)) ∧
      decode p (.frame [0x58, a, b, c, d, 0x95]) = .ok (.cmd24 (a ++ b ++ c ++ d)) ∧
      decode p (.frame [0x77, 0x00, 0x00, 0x00, 0x00, 0x95]) = .ok .cmd55 ∧
      decode p (.frame [0x69, 0x00, 0x00, 0x00, 0x00, 0x95]) = .ok .acmd41V1 ∧
      decode p (.frame [0x69, 0x40, 0x00, 0x00, 0x00, 0x95]) = .ok .acmd41V2 ∧
      decode p (.frame [0x7A, 0x00, 0x00, 0x00, 0x00, 0x95]) = .ok .cmd58 ∧
      decode p (.byte .response 0x05) = .ok (.r1 0b0000101) ∧
      decode p (.byte .token 0xFE) = .ok .startToken ∧
      decode p (.byte .dataResponse 0xE5) = .ok (.dataResponseAccept 0b111) ∧
      decode p (.byte .busy 0x00) = .ok .busy ∧
      decode p (.byte .sent 0xFF) = .ok .filler ∧
      decode p (.request ⟨0x00, o, z, buf⟩) = .ok .init ∧
      decode p (.request ⟨0x01, o, z, buf⟩) = .ok (.read o z buf) ∧
      decode p (.request ⟨0x02, o, z, buf⟩) = .ok (.write o z buf) ∧
      decode p (.request ⟨0x03, o, z, buf⟩) = .ok (.erase o z) ∧
      decode p (.request ⟨0x04, o, z, buf⟩) = .ok .capacity ∧
      decode p (.request ⟨0x05, o, z, buf⟩) = .ok .status

/-- Decoding what an instruction is spelled as gives it back, with every operand at every value (30_encoding.md R100-R117).
`Params.wf` is the limits of 00_scope.md R13 (log 15): with `HCS_ARG = 0` the two ACMD41 rows would be one word. -/
def Obligations.DecodeOfEncodeIsTheInstruction : Prop :=
  ∀ p : Params, p.wf = true → ∀ (i : Instr) (w : Input), encode p i = some w → decode p w = .ok i

/-- The other direction: a frame or byte that decodes is the one spelling of its instruction, so no two words share one;
a request is spelled with the same operation word. -/
def Obligations.WordsThatDecodeAreTheSpelling : Prop :=
  ∀ (p : Params) (i : Instr),
    (∀ bytes, decode p (.frame bytes) = .ok i → encode p i = some (.frame bytes)) ∧
    (∀ ctx b, decode p (.byte ctx b) = .ok i → encode p i = some (.byte ctx b)) ∧
    (∀ w, decode p (.request w) = .ok i → ∃ w', encode p i = some (.request w') ∧ w'.opw = w.opw)

/-- 30_encoding.md R124: a request with a reserved operation or a non-zero reserved field is refused, whatever the state
and its other words. -/
def Obligations.ReservedRequestsAreRefused : Prop :=
  ∀ (s : State) (w : RequestWords) (rest : List Input), s.inbox = .request w :: rest →
    (w.opw.extractLsb' 0 3 = 6#3 ∨ w.opw.extractLsb' 0 3 = 7#3 ∨ w.opw.extractLsb' 3 5 ≠ 0#5) →
      step s = .refused (.undecodable (.reservedRequest w.opw))

/-! ## Steps, reset and the invariant -/

/-- A step decodes the next input and runs its instruction after taking it from the inbox; words that spell nothing are
refused; with nothing presented the engine stays as it is (10_state.md R60; logs 3 and 19). -/
def Obligations.StepRunsTheDecodedInstruction : Prop :=
  ∀ s : State,
    (s.inbox = [] → step s = .next s) ∧
    (∀ w rest i, s.inbox = w :: rest → decode s.cfg w = .ok i → step s = exec i { s with inbox := rest }) ∧
    (∀ w rest e, s.inbox = w :: rest → decode s.cfg w = .error e → step s = .refused (.undecodable e))

/-- 70_reset_and_hazards.md R301: what reset leaves, and that it makes no bus event. -/
def Obligations.ResetLeavesTheEngineIdle : Prop :=
  State.reset.sel = false ∧ State.reset.top = .idle ∧ State.reset.initialized = false ∧
    State.reset.completion.status.code = 0 ∧ State.reset.completion.count = 0 ∧ State.reset.completion.value = 0 ∧
    State.reset.completion.cause.code = 0 ∧ State.reset.trace = [] ∧ State.reset.blockSize = 512

/-- The invariant holds at reset. Its clause about the parameters is log 15, about memory log 10. -/
def Obligations.InvariantHoldsAtReset : Prop := Inv State.reset

/-- Every step keeps the invariant: memory canonical and inside the host's address space, the session registers legal
while the session is ready, no cause beside a status that names itself, `SEL = 0` while IDLE (10_state.md R31-R33, R53;
60_exceptions.md R270). Its clauses about the parameters and memory are the model's (logs 15 and 10). -/
def Obligations.InvariantKeptByEveryStep : Prop :=
  ∀ s t : State, Inv s → step s = .next t → Inv t

/-- 10_state.md R47: no instruction changes a parameter. Nor does one touch what the host and the environment present
(`inbox`, `hostKeepsDuties`; logs 3 and 13). -/
def Obligations.NoInstructionChangesAParameter : Prop :=
  ∀ (i : Instr) (s t : State), exec i s = .next t →
    t.cfg = s.cfg ∧ t.inbox = s.inbox ∧ t.hostKeepsDuties = s.hostKeepsDuties

/-! ## The protocol engine -/

/-- 40_protocol_engine.md R140 and R142: the frame's six bytes go out most significant byte first with `SEL = 1`, the bytes
received are discarded; release deasserts and exchanges one filler. Nothing else changes. -/
def Obligations.FrameAndReleaseExchanges : Prop :=
  ∀ (s : State) (rest : List Byte), s.busAnswers = none →
    (∀ idx arg close during, emitted s.cfg idx arg close = true → during.length = 6 → s.script = during ++ rest →
      exec (.frame idx arg close) s = .next ((s.afterFrame idx arg close during rest).setResult .unit)) ∧
    (∀ last, s.script = last :: rest →
      exec .release s = .next ((s.afterRelease last rest).setResult .unit))

/-- 40_protocol_engine.md R141: bytes with bit 7 = 1 are skipped, the first byte with bit 7 = 0 is the response, and after
`N_CMD` skipped bytes the result is TIMEOUT. -/
def Obligations.PollReturnsTheFirstResponse : Prop :=
  ∀ (s : State) (waits rest : List Byte), s.busAnswers = none → (∀ b ∈ waits, b.msb = true) →
    (∀ f : BitVec 7, waits.length < s.cfg.nCmd → s.script = waits ++ [0#1 ++ f] ++ rest →
      exec .poll s = .next ((s.afterPoll (waits ++ [0#1 ++ f]) (.r1 f) rest).setResult (.resp (.r1 f)))) ∧
    (waits.length = s.cfg.nCmd → s.script = waits ++ rest →
      exec .poll s = .next ((s.afterPoll waits .timeout rest).setResult (.resp .timeout)))

/-- 40_protocol_engine.md R143, for `command` and for the five frames of 30_encoding.md R103 whose reply is an R1 alone:
frame, poll, release; on a timeout too. -/
def Obligations.CommandExchanges : Prop :=
  ∀ (i : Instr) (idx : CmdIndex) (arg : U32) (s : State) (b : Bracket) (rest : List Byte),
    ((i = .cmd0 ∧ idx = 0 ∧ arg = 0) ∨ (i = .cmd16 ∧ idx = 16 ∧ arg = 512) ∨ (i = .cmd55 ∧ idx = 55 ∧ arg = 0) ∨
      (i = .acmd41V1 ∧ idx = 41 ∧ arg = 0) ∨ (i = .acmd41V2 ∧ idx = 41 ∧ arg = s.cfg.hcsArg) ∨
      (i = .command idx arg ∧ emitted s.cfg idx arg s.cfg.close = true)) →
    s.busAnswers = none → b.fits s.cfg → s.script = b.bytes ++ rest →
      exec i s = .next ((s.afterCommand idx arg s.cfg.close b rest).setResult (.resp b.answer.resp))

/-- 40_protocol_engine.md R144: on a response `SEL` stays asserted for the data phase, on a timeout it is released. -/
def Obligations.CommandNoDeselectHandsOver : Prop :=
  ∀ (idx : CmdIndex) (arg : U32) (s : State) (rest : List Byte), s.busAnswers = none →
    emitted s.cfg idx arg s.cfg.close = true →
    (∀ a : Answer, a.fits s.cfg → a.flags ≠ none → s.script = a.bytes ++ rest →
      exec (.commandNoDeselect idx arg) s =
        .next ((s.afterAnswer idx arg s.cfg.close a rest).setResult (.resp a.resp))) ∧
    (∀ b : Bracket, b.fits s.cfg → b.answer.flags = none → s.script = b.bytes ++ rest →
      exec (.commandNoDeselect idx arg) s =
        .next ((s.afterCommand idx arg s.cfg.close b rest).setResult (.resp .timeout)))

/-- 40_protocol_engine.md R145: CMD8 with its own closing byte; four more bytes are exchanged and dropped on any response,
none on a timeout. -/
def Obligations.InterfaceProbeDropsTheEcho : Prop :=
  ∀ (i : Instr) (s : State) (b : LongBracket) (rest : List Byte), (i = .cmd8 ∨ i = .probeInterfaceCondition) →
    s.busAnswers = none → b.fits s.cfg → s.script = b.bytes ++ rest →
      exec i s = .next ((s.afterLong 8 s.cfg.cmd8Arg s.cfg.cmd8Close b rest).setResult (.resp b.answer.resp))

/-- 40_protocol_engine.md R146 and 20_memory.md R77: `OCR` takes the four bytes, the first most significant, on any
response, and keeps its value on a timeout. -/
def Obligations.OcrReadOnAnyResponse : Prop :=
  ∀ (i : Instr) (s : State) (b : LongBracket) (rest : List Byte),
    (i = .cmd58 ∨ i = .readOperatingConditionRegister) →
    s.busAnswers = none → b.fits s.cfg → s.script = b.bytes ++ rest →
      exec i s =
        .next (((s.afterLong 58 0 s.cfg.close b rest).setOcr (b.ocr s.ocr)).setResult
          (.respOcr b.answer.resp (b.ocr s.ocr)))

/-- The single bytes of 30_encoding.md R106-R113 as instructions (log 6): a response is latched in `RESP`, the start token
sets `found`, an accepting token is latched in `DRT`, a busy byte within the budget is skipped and the one that spends it
releases and raises ProtocolTimeout, and a filler returns what the card answers. Nothing else changes but the bus side and
the loop counters. -/
def Obligations.SingleBytesHaveTheirEffect : Prop :=
  ∀ s : State, s.busAnswers = none →
    (∀ f, exec (.r1 f) s = .next { s with
      resp := .r1 f, loops := { s.loops with poll := s.loops.poll + 1 }, result := .resp (.r1 f),
      trace := s.trace ++ [.exchange s.sel 0xFF (0#1 ++ f)], position := s.position + 1 }) ∧
    (exec .startToken s = .next { s with
      found := true, loops := { s.loops with token := s.loops.token + 1 }, result := .unit,
      trace := s.trace ++ [.exchange s.sel 0xFF 0xFE], position := s.position + 1 }) ∧
    (∀ x, exec (.dataResponseAccept x) s = .next { s with
      drt := x ++ 0b00101#5, result := .unit,
      trace := s.trace ++ [.exchange s.sel 0xFF (x ++ 0b00101#5)], position := s.position + 1 }) ∧
    (s.loops.busy + 1 < s.cfg.nBusy → exec .busy s = .next { s with
      loops := { s.loops with busy := s.loops.busy + 1 }, result := .unit,
      trace := s.trace ++ [.exchange s.sel 0xFF 0x00], position := s.position + 1 }) ∧
    (∀ last rest, s.cfg.nBusy ≤ s.loops.busy + 1 → s.script = last :: rest →
      exec .busy s = .next (State.errorExit .protocolTimeout { s with
        loops := { s.loops with busy := s.loops.busy + 1 }, result := .raised .protocolTimeout, script := rest,
        trace := s.trace ++ [.exchange s.sel 0xFF 0x00] ++ released last,
        position := s.position + 1 + (if s.sel then 1 else 0) + 1, sel := false })) ∧
    (∀ b rest, s.script = b :: rest → exec .filler s = .next { s with
      result := .byte b, script := rest,
      trace := s.trace ++ [.exchange s.sel 0xFF b], position := s.position + 1 })

/-! ## Data phases -/

/-- 43_block_transfer.md R201: bytes other than 0xFE are skipped, then `n` payload bytes land in the buffer in order, two
checksum bytes are dropped, and the bracket is released. -/
def Obligations.ReadDataStoresThePayload : Prop :=
  ∀ (s : State) (dst : DataBuffer) (d : DataBlock dst.length) (rest : List Byte), s.busAnswers = none →
    d.fits s.cfg → s.script = d.bytes ++ rest →
      exec (.readData dst.length dst) s = .next ((s.afterData dst d rest).setResult .unit)

/-- 60_exceptions.md R276: `N_TOKEN` bytes without 0xFE release the bracket and raise BlockStartMissing, in `readData` on
its own and inside CMD9, `readCSD`, CMD17 and `readBlockAt` after an R1 0x00 (42_register_decoder.md R186,
43_block_transfer.md R202). The buffer is then a free value (log 11). That `DIVISOR` is read as it stands in every state,
also before bring-up has written it, is the model's choice (log 9). -/
def Obligations.MissingTokenRaisesBlockStartMissing : Prop :=
  ∀ (s : State) (d : NoToken) (rest : List Byte), s.busAnswers = none → d.fits s.cfg →
    (∀ dst : DataBuffer, s.script = d.bytes ++ rest →
      exec (.readData dst.length dst) s =
        .next ((((s.afterNoToken d rest).freeBuffer dst).setResult (.raised .blockStartMissing)).errorExit
          .blockStartMissing)) ∧
    (∀ (i : Instr) (idx : CmdIndex) (arg : U32) (dst : DataBuffer) (a : Answer),
      ((i = .cmd9 ∧ idx = 9 ∧ arg = 0 ∧ dst = .csd) ∨ (i = .readCSD ∧ idx = 9 ∧ arg = 0 ∧ dst = .csd) ∨
        (i = .cmd17 arg ∧ idx = 17 ∧ dst = .scratch) ∨
        (∃ blk : U64, i = .readBlockAt blk ∧ blk.toNat * s.divisor.toNat = arg.toNat ∧ idx = 17 ∧
          dst = .scratch)) →
      a.fits s.cfg → a.flags = some 0 → s.script = a.bytes ++ d.bytes ++ rest →
        exec i s =
          .next (((((s.afterAnswer idx arg s.cfg.close a (d.bytes ++ rest)).afterNoToken d rest).freeBuffer dst).setResult
            (.raised .blockStartMissing)).errorExit .blockStartMissing))

/-- 42_register_decoder.md R186: a CMD9 answered 0x00 and followed by a block leaves its 16 bytes in `CSD`. -/
def Obligations.CsdReadCapturesSixteenBytes : Prop :=
  ∀ (i : Instr) (s : State) (a : ReadAnswer 16) (rest : List Byte), (i = .cmd9 ∨ i = .readCSD) →
    s.busAnswers = none → a.fits s.cfg → s.script = a.bytes ++ rest →
      exec i s =
        .next (((s.afterAnswer 9 0 s.cfg.close a.answer (a.block.bytes ++ rest)).afterData .csd a.block rest).setResult
          .unit)

/-- 43_block_transfer.md R202: a block read leaves the 512 bytes in `SCRATCH`; the argument of CMD17 is the card address.
That `DIVISOR` is read as it stands in every state, also before bring-up has written it, is the model's choice (log 9). -/
def Obligations.BlockReadFillsScratch : Prop :=
  ∀ (i : Instr) (arg : U32) (s : State) (a : ReadAnswer 512) (rest : List Byte),
    (i = .cmd17 arg ∨ ∃ blk : U64, i = .readBlockAt blk ∧ blk.toNat * s.divisor.toNat = arg.toNat) →
    s.busAnswers = none → a.fits s.cfg → s.script = a.bytes ++ rest →
      exec i s =
        .next (((s.afterAnswer 17 arg s.cfg.close a.answer (a.block.bytes ++ rest)).afterData .scratch a.block
          rest).setResult .unit)

/-- 43_block_transfer.md R203-R205: a block write sends the gap, the token, `SCRATCH` and two fillers, takes the token and
the busy bytes, and releases. That `DIVISOR` is read as it stands in every state, also before bring-up has written it, is
the model's choice (log 9). -/
def Obligations.BlockWriteSendsScratch : Prop :=
  ∀ (i : Instr) (arg : U32) (s : State) (a : WriteAnswer) (rest : List Byte),
    (i = .cmd24 arg ∨ ∃ blk : U64, i = .writeBlockAt blk ∧ blk.toNat * s.divisor.toNat = arg.toNat) →
    s.busAnswers = none → a.fits s.cfg → s.script = a.bytes ++ rest →
      exec i s = .next ((s.afterWrite 24 arg a rest).setResult .unit)

/-- 42_register_decoder.md R186, 43_block_transfer.md R202 and R203: a CMD9, CMD17 or CMD24, sent by itself or by `readCSD`,
`readBlockAt` or `writeBlockAt`, that is answered by anything but 0x00 releases its bracket and raises ProtocolTimeout or
IllegalResponse; its buffer is then a free value (log 11). That `DIVISOR` is read as it stands in every state, also before
bring-up has written it, is the model's choice (log 9). -/
def Obligations.RejectedBlockCommandsRaise : Prop :=
  ∀ (i : Instr) (idx : CmdIndex) (arg : U32) (s : State) (b : Bracket) (rest : List Byte) (e : Err),
    ((i = .cmd9 ∧ idx = 9 ∧ arg = 0) ∨ (i = .readCSD ∧ idx = 9 ∧ arg = 0) ∨ (i = .cmd17 arg ∧ idx = 17) ∨
      (i = .cmd24 arg ∧ idx = 24) ∨
      (∃ blk : U64, ((i = .readBlockAt blk ∧ idx = 17) ∨ (i = .writeBlockAt blk ∧ idx = 24)) ∧
        blk.toNat * s.divisor.toNat = arg.toNat)) →
    s.busAnswers = none → b.fits s.cfg → b.answer.flags ≠ some 0 → s.script = b.bytes ++ rest →
    e = (if b.answer.flags = none then .protocolTimeout else .illegalResponse) →
      ∃ t : State,
        exec i s = .next ((t.setResult (.raised e)).errorExit e) ∧
        (if idx = 9 then t = (s.afterCommand idx arg s.cfg.close b rest).freeCsd
          else t = (s.afterCommand idx arg s.cfg.close b rest).freeScratch)

/-- 43_block_transfer.md R200: the card address is `blk * DIVISOR` where it fits 32 bits; where it does not, the model stops
before any bus event (60_exceptions.md R278). It holds of every state: that `blockAddress`, `readBlockAt` and `writeBlockAt`
read `DIVISOR` as it stands also before bring-up has written it, where 10_state.md R32 speaks of a model fault and
93_implementation_defined.md I1 of any value, is the model's choice (log 9). -/
def Obligations.BlockAddressScalesOrOverflows : Prop :=
  ∀ (blk : U64) (s : State),
    (blk.toNat * s.divisor.toNat < 2 ^ 32 →
      ∃ a : U32, a.toNat = blk.toNat * s.divisor.toNat ∧
        exec (.blockAddress blk) s = .next (s.setResult (.word a))) ∧
    (2 ^ 32 ≤ blk.toNat * s.divisor.toNat →
      exec (.blockAddress blk) s = .fault (.addressOverflow blk s) ∧
        exec (.readBlockAt blk) s = .fault (.addressOverflow blk s) ∧
        exec (.writeBlockAt blk) s = .fault (.addressOverflow blk s))

/-- 60_exceptions.md R278: a card address that does not fit (43_block_transfer.md R200) stops the model with no
`COMPLETION`, and with `SEL = 0` if `SEL` was 0 when the instruction began. `mergeSegment` and `fullBlock` stop at once.
READ, WRITE, ERASE and `mapper` over a range of which some block does not fit never succeed: they stop at the first such
block, with no bus event where it is the range's first, unless a block before it fails. That the primitives run alone, and
read `DIVISOR` and `SECTOR_COUNT` as they stand, is the model's choice (logs 7 and 9). -/
def Obligations.AddressOverflowStopsTheRequest : Prop :=
  (∀ (i : Instr) (s t : State) (blk : U64), s.sel = false → exec i s = .fault (.addressOverflow blk t) → t.sel = false) ∧
  (∀ (kind : MapKind) (blk : U64) (s : State), 2 ^ 32 ≤ blk.toNat * s.divisor.toNat →
    (∀ off n, 1 ≤ n → off + n ≤ 512 → exec (.mergeSegment kind blk off n) s = .fault (.addressOverflow blk s)) ∧
    ∃ t, exec (.fullBlock kind blk) s = .fault (.addressOverflow blk t) ∧ t.completion = s.completion ∧
      t.trace = s.trace ∧ t.sel = s.sel ∧ t.script = s.script ∧ t.mem = s.mem) ∧
  ∀ (o n : U64) (buf : Nat) (s : State), s.busAnswers = none → o.toNat + n.toNat < 2 ^ 64 →
    o.toNat + n.toNat ≤ s.sectorCount.toNat * 512 → 1 ≤ n.toNat → ¬ AddressesFit s o n →
    (∀ i : Instr, s.top = .idle → s.initialized = true → (i = .read o n buf ∨ i = .write o n buf ∨ i = .erase o n) →
      (∃ blk t, exec i s = .fault (.addressOverflow blk t) ∧ OverflowedAt s o n blk t) ∨
      (o.toNat / 512 * s.divisor.toNat < 2 ^ 32 ∧ ∃ t, exec i s = .next t ∧ t.completion.status = .ioFailure)) ∧
    ∀ kind : MapKind,
      (∃ blk t, exec (.mapper kind o n buf) s = .fault (.addressOverflow blk t) ∧ OverflowedAt s o n blk t) ∨
      (o.toNat / 512 * s.divisor.toNat < 2 ^ 32 ∧
        ∃ t e, exec (.mapper kind o n buf) s = .next t ∧ t.result = .raised e ∧ e.isIo = true)

/-- 43_block_transfer.md R204: the token decides by its low five bits; a reject deasserts select with no exchange and raises
WriteRejected, and `DRT` keeps the token (60_exceptions.md R275). -/
def Obligations.DataResponseAcceptsOrRejects : Prop :=
  ∀ (s : State) (b : Byte) (rest : List Byte), s.busAnswers = none → s.script = b :: rest →
    (b.extractLsb' 0 5 = 0b00101#5 →
      exec .checkDataResponse s = .next { s with
        drt := b, result := .unit, script := rest,
        trace := s.trace ++ [.exchange s.sel 0xFF b], position := s.position + 1 }) ∧
    (b.extractLsb' 0 5 ≠ 0b00101#5 →
      exec .checkDataResponse s = .next (State.errorExit .writeRejected { s with
        drt := b, result := .raised .writeRejected, script := rest,
        trace := s.trace ++ [.exchange s.sel 0xFF b],
        position := s.position + 1 + (if s.sel then 1 else 0), sel := false }))

/-- 43_block_transfer.md R205: zeros are skipped, any other byte ends the wait; after `N_BUSY` zeros the bracket is released
and ProtocolTimeout raised. -/
def Obligations.BusyWaitEndsOnANonZeroByte : Prop :=
  ∀ (s : State) (k : Nat) (rest : List Byte), s.busAnswers = none →
    (∀ b, b ≠ 0x00 → k < s.cfg.nBusy → s.script = List.replicate k 0x00 ++ [b] ++ rest →
      exec .waitNotBusy s = .next { s with
        loops := { s.loops with busy := k + 1 }, result := .unit, script := rest,
        trace := s.trace ++ exchanges s.sel (fillers (k + 1)) (List.replicate k 0x00 ++ [b]),
        position := s.position + (k + 1) }) ∧
    (∀ last, k = s.cfg.nBusy → s.script = List.replicate k 0x00 ++ [last] ++ rest →
      exec .waitNotBusy s = .next (State.errorExit .protocolTimeout { s with
        loops := { s.loops with busy := k }, result := .raised .protocolTimeout, script := rest,
        trace := s.trace ++ exchanges s.sel (fillers k) (List.replicate k 0x00) ++ released last,
        position := s.position + k + (if s.sel then 1 else 0) + 1, sel := false }))

/-- 43_block_transfer.md R203-R205: a block written by CMD24 or `writeBlockAt` that the card rejects, or that stays busy for
`N_BUSY` polls, raises its error with `SEL = 0` and no release exchange after a reject (60_exceptions.md R280). That
`DIVISOR` is read as it stands in every state, also before bring-up has written it, is the model's choice (log 9). -/
def Obligations.FailedBlockWriteRaises : Prop :=
  ∀ (i : Instr) (s : State) (arg : U32) (a : Answer) (sending rest : List Byte) (drt : Byte),
    (i = .cmd24 arg ∨ ∃ blk : U64, i = .writeBlockAt blk ∧ blk.toNat * s.divisor.toNat = arg.toNat) →
    s.busAnswers = none → s.top = .idle → a.fits s.cfg → a.flags = some 0 → sending.length = s.cfg.writeGap + 515 →
    (drt.extractLsb' 0 5 ≠ 0b00101#5 → s.script = a.bytes ++ sending ++ [drt] ++ rest →
      ∃ t, exec i s = .next t ∧ t.result = .raised .writeRejected ∧ t.sel = false ∧ t.drt = drt ∧
        t.script = rest ∧
        t.trace = s.trace ++ a.events 24 arg s.cfg.close ++
          exchanges true (writeBytes s.cfg s.scratch.toList ++ [0xFF]) (sending ++ [drt])) ∧
    (∀ last, drt.extractLsb' 0 5 = 0b00101#5 →
      s.script = a.bytes ++ sending ++ [drt] ++ List.replicate s.cfg.nBusy 0x00 ++ [last] ++ rest →
      ∃ t, exec i s = .next t ∧ t.result = .raised .protocolTimeout ∧ t.sel = false ∧ t.drt = drt ∧
        t.script = rest ∧
        t.trace = s.trace ++ a.events 24 arg s.cfg.close ++
          exchanges true (writeBytes s.cfg s.scratch.toList ++ fillers (1 + s.cfg.nBusy))
            (sending ++ [drt] ++ List.replicate s.cfg.nBusy 0x00) ++ released last)

/-! ## The register decoder -/

/-- 42_register_decoder.md R180: `extractBits` is the bit slice of the big-endian number, in every legal range. Nothing but
the returned value changes. -/
def Obligations.ExtractBitsIsTheBigEndianSlice : Prop :=
  ∀ (msb lsb : Nat) (s : State), lsb ≤ msb → msb ≤ 127 → msb - lsb + 1 ≤ 32 →
    ∃ v : U32, v.toNat = csdNumber s.csd / 2 ^ lsb % 2 ^ (msb - lsb + 1) ∧
      exec (.extractBits msb lsb) s = .next (s.setResult (.word v))

/-- 42_register_decoder.md R181: outside its domain `extractBits` is a model fault, and no other instruction can end in
that fault. -/
def Obligations.ExtractBitsOutsideItsDomainFaults : Prop :=
  (∀ (msb lsb : Nat) (s : State), (msb < lsb ∨ 127 < msb ∨ 32 < msb - lsb + 1) →
    exec (.extractBits msb lsb) s = .fault (.extractBitsDomain msb lsb s)) ∧
  ∀ (i : Instr) (msb lsb : Nat) (s t : State), exec i s = .fault (.extractBitsDomain msb lsb t) →
    i = .extractBits msb lsb

/-- 42_register_decoder.md R183 and R184: the two capacity formulas, on the fields of 30_encoding.md R114. -/
def Obligations.CapacityFormulas : Prop :=
  ∀ s : State, ∃ d0 d1 : Decoded,
    exec .decodeV0 s = .next (s.setResult (.decoded d0)) ∧ exec .decodeV1 s = .next (s.setResult (.decoded d1)) ∧
    d0.ok = true ∧
    d0.capacityBytes.toNat = (csdNumber s.csd / 2 ^ 62 % 2 ^ 12 + 1) * 2 ^ (csdNumber s.csd / 2 ^ 47 % 2 ^ 3 + 2) *
      2 ^ (csdNumber s.csd / 2 ^ 80 % 2 ^ 4) ∧
    d0.sectorCount.toNat = d0.capacityBytes.toNat / 512 ∧
    d1.ok = true ∧ d1.sectorCount.toNat = (csdNumber s.csd / 2 ^ 48 % 2 ^ 22 + 1) * 1024 ∧
    d1.capacityBytes.toNat = d1.sectorCount.toNat * 512

/-- 42_register_decoder.md R182 and R185: the structure version alone selects the layout; 2 and 3 fail with zeros. -/
def Obligations.StructureVersionSelectsTheLayout : Prop :=
  ∀ s : State,
    (csdNumber s.csd / 2 ^ 126 = 0 → ∃ d : Decoded, exec .decodeV0 s = .next (s.setResult (.decoded d)) ∧
      exec .decodeCapacity s = .next (s.setResult (.decoded d))) ∧
    (csdNumber s.csd / 2 ^ 126 = 1 → ∃ d : Decoded, exec .decodeV1 s = .next (s.setResult (.decoded d)) ∧
      exec .decodeCapacity s = .next (s.setResult (.decoded d))) ∧
    (2 ≤ csdNumber s.csd / 2 ^ 126 → exec .decodeCapacity s = .next (s.setResult (.decoded ⟨false, 0, 0⟩)))

/-- 42_register_decoder.md R187: the capacity returned is the sector count times 512 for every version-1 decode, and for a
version-0 decode whose `readBlockLen` is at least 7; and 10_state.md R33: a sector count is at most `2^32`. -/
def Obligations.CapacityIsSectorsTimes512 : Prop :=
  ∀ (s : State) (d : Decoded), exec .decodeCapacity s = .next (s.setResult (.decoded d)) → d.ok = true →
    d.sectorCount.toNat ≤ 2 ^ 32 ∧
    ((csdNumber s.csd / 2 ^ 126 = 1 ∨ 7 ≤ csdNumber s.csd / 2 ^ 80 % 2 ^ 4) →
      d.capacityBytes.toNat = d.sectorCount.toNat * 512)

/-! ## Bring-up and INIT -/

/-- 41_bringup.md R160-R166: a card that answers as the transitions to READY ask brings the engine there, with the exact bus
trace: `N_RESET_PRE` + 1 resets, the probe, the attempts of the path the probe selects, a wait before every V2 attempt
but the first, one more CMD58 on V2; `DIVISOR` is 512 on V1 and 1 on V2, whatever the OCR holds. -/
def Obligations.BringUpReachesReady : Prop :=
  ∀ (s : State) (a : BringUpAnswer) (rest : List Byte), s.busAnswers = none → a.fits s.cfg →
    s.script = a.bytes ++ rest →
      ∃ t, exec .bringUp s = .next t ∧ t.br = .ready ∧ t.divisor = a.path.divisor ∧
        t.trace = s.trace ++ a.events s.cfg ∧ t.sel = false ∧ t.script = rest ∧ t.result = .unit ∧ BringUpFrame s t

/-- 41_bringup.md R161, R162, R167 and R168: a checked reset not answered 0x01, or a probe answered neither 0x01 nor 0x05,
ends in FAILED, with ProtocolTimeout on a timeout and IllegalResponse on any other R1. -/
def Obligations.BringUpFailsAtItsDecisionPoints : Prop :=
  ∀ (s : State) (resets : List Bracket) (checked : Bracket) (rest : List Byte), s.busAnswers = none → s.top = .idle →
    resets.length = s.cfg.nResetPre → (∀ b ∈ resets, b.fits s.cfg) → checked.fits s.cfg →
    (checked.answer.flags ≠ some 0x01 → s.script = resets.flatMap Bracket.bytes ++ checked.bytes ++ rest →
      ∃ t, exec .bringUp s = .next t ∧ t.br = .failed ∧ t.sel = false ∧ t.script = rest ∧
        t.trace = s.trace ++ resetEvents s.cfg (resets ++ [checked]) ∧
        t.result = .raised (if checked.answer.flags = none then .protocolTimeout else .illegalResponse)) ∧
    (∀ probe : LongBracket, checked.answer.flags = some 0x01 → probe.fits s.cfg →
      probe.answer.flags ≠ some 0x01 → probe.answer.flags ≠ some 0x05 →
      s.script = resets.flatMap Bracket.bytes ++ checked.bytes ++ probe.bytes ++ rest →
      ∃ t, exec .bringUp s = .next t ∧ t.br = .failed ∧ t.sel = false ∧ t.script = rest ∧
        t.trace = s.trace ++ resetEvents s.cfg (resets ++ [checked]) ++
          probe.events 8 s.cfg.cmd8Arg s.cfg.cmd8Close ∧
        t.result = .raised (if probe.answer.flags = none then .protocolTimeout else .illegalResponse))

/-- 41_bringup.md R163, R164 and R168: `N_READY` attempts without `R1(0x00)` end in FAILED with ProtocolTimeout, on either
path; on V2 there is one wait fewer than attempts (70_reset_and_hazards.md R310). -/
def Obligations.BringUpFailsAfterItsAttempts : Prop :=
  ∀ (s : State) (resets : List Bracket) (checked : Bracket) (probe : LongBracket) (rest : List Byte),
    s.busAnswers = none → s.top = .idle →
    resets.length = s.cfg.nResetPre → (∀ b ∈ resets, b.fits s.cfg) → checked.fits s.cfg →
    checked.answer.flags = some 0x01 → probe.fits s.cfg →
    (∀ as : List V1Attempt, probe.answer.flags = some 0x05 → as.length = s.cfg.nReady →
      (∀ a ∈ as, a.fits s.cfg ∧ a.cmd41.answer.flags ≠ some 0) →
      s.script = resets.flatMap Bracket.bytes ++ checked.bytes ++ probe.bytes ++ as.flatMap V1Attempt.bytes ++ rest →
      ∃ t, exec .bringUp s = .next t ∧ t.br = .failed ∧ t.result = .raised .protocolTimeout ∧ t.sel = false ∧
        t.script = rest ∧
        t.trace = s.trace ++ resetEvents s.cfg (resets ++ [checked]) ++
          probe.events 8 s.cfg.cmd8Arg s.cfg.cmd8Close ++ as.flatMap (V1Attempt.events s.cfg)) ∧
    (∀ as : List V2Attempt, probe.answer.flags = some 0x01 → as.length = s.cfg.nReady →
      (∀ a ∈ as, a.fits s.cfg ∧ a.cmd41.answer.flags ≠ some 0) →
      s.script = resets.flatMap Bracket.bytes ++ checked.bytes ++ probe.bytes ++ as.flatMap V2Attempt.bytes ++ rest →
      ∃ t, exec .bringUp s = .next t ∧ t.br = .failed ∧ t.result = .raised .protocolTimeout ∧ t.sel = false ∧
        t.script = rest ∧
        t.trace = s.trace ++ resetEvents s.cfg (resets ++ [checked]) ++
          probe.events 8 s.cfg.cmd8Arg s.cfg.cmd8Close ++ v2Events s.cfg as)

/-- 45_facade.md R251: a card that answers every step of INIT opens the session, with the exact bus trace and the sector
count decoded from the CSD the card sent. -/
def Obligations.InitOpensTheSession : Prop :=
  ∀ (s : State) (a : InitAnswer) (rest : List Byte), s.top = .idle → s.busAnswers = none → a.fits s.cfg →
    s.script = a.bytes ++ rest →
      ∃ t, exec .init s = .next t ∧ t.initialized = true ∧ t.completion = ⟨.success, 0, 0, .none⟩ ∧ t.top = .idle ∧
        t.divisor = a.bringUp.path.divisor ∧ t.csd = a.csd.block.data ∧
        t.sectorCount = (decodeCapacity a.csd.block.data).sectorCount ∧ t.br = .ready ∧
        t.trace = s.trace ++ a.events s.cfg ∧ t.sel = false ∧ t.script = rest ∧ t.mem = s.mem ∧
        t.scratch = s.scratch ∧ t.map = s.map ∧ t.drt = s.drt ∧ t.req = s.req ∧ t.cfg = s.cfg

/-- 45_facade.md R251 and 10_state.md R31: INIT ends with the session open and SUCCESS, or closed, even if it was open
before, and IO_FAILURE with the error's cause. -/
def Obligations.InitEndsOpenOrClosed : Prop :=
  ∀ s t : State, exec .init s = .next t →
    (t.initialized = true ∧ t.completion = ⟨.success, 0, 0, .none⟩ ∧ (t.divisor = 1 ∨ t.divisor = 512) ∧
      t.br = .ready) ∨
    (t.initialized = false ∧ ∃ c : Cause, c ≠ .none ∧ c ≠ .writeRejected ∧ t.completion = ⟨.ioFailure, 0, 0, c⟩)

/-- 45_facade.md R251, 41_bringup.md R168 and 60_exceptions.md R271-R277: an INIT that fails in bring-up, in the CSD read,
at a CSD that does not decode or at CMD16 completes IO_FAILURE with the cause of that very step, makes no bus event after
it, and leaves the session closed. -/
def Obligations.InitFailureReportsItsCause : Prop :=
  ∀ (s : State) (f : InitFailure) (rest : List Byte), s.top = .idle → s.busAnswers = none → f.fits s.cfg →
    s.script = f.bytes ++ rest →
      ∃ t, exec .init s = .next t ∧ t.completion = ⟨.ioFailure, 0, 0, f.cause⟩ ∧ t.initialized = false ∧
        t.br = f.br ∧ t.trace = s.trace ++ f.events s.cfg ∧ t.top = .idle ∧ t.sel = false ∧ t.script = rest ∧
        t.mem = s.mem ∧ t.scratch = s.scratch ∧ t.map = s.map ∧ t.drt = s.drt ∧ t.req = s.req ∧ t.cfg = s.cfg

/-! ## STATUS and CAPACITY -/

/-- 45_facade.md R256: STATUS returns `INITIALIZED` in bit 0 and zeros above, and writes nothing else. The position it
leaves is the model's own counter (log 20): nothing is said of it. -/
def Obligations.StatusReportsInitialized : Prop :=
  ∀ s : State, s.top = .idle → ∃ k : Nat,
    exec .status s = .next { s with
      completion := ⟨.success, 0, if s.initialized then 1 else 0, .none⟩, position := k }

/-- 45_facade.md R255: a CSD that decodes gives the capacity and moves `SECTOR_COUNT`, whether or not the session is open;
one of version 2 or 3, a CMD9 the card rejects, or a CMD9 with no start token after it (60_exceptions.md R276) gives value 0
and leaves `SECTOR_COUNT`. -/
def Obligations.CapacityRereadsTheCsd : Prop :=
  ∀ (s : State) (rest : List Byte), s.top = .idle → s.busAnswers = none →
    (∀ a : ReadAnswer 16, a.fits s.cfg → s.script = a.bytes ++ rest →
      ∃ t, exec .capacity s = .next t ∧ t.trace = s.trace ++ a.events 9 0 s.cfg.close ∧ t.csd = a.block.data ∧
        t.initialized = s.initialized ∧ t.divisor = s.divisor ∧ t.top = .idle ∧ t.sel = false ∧
        t.script = rest ∧ t.mem = s.mem ∧ t.scratch = s.scratch ∧
        (if (decodeCapacity a.block.data).ok = true then
          t.completion = ⟨.success, 0, (decodeCapacity a.block.data).capacityBytes, .none⟩ ∧
            t.sectorCount = (decodeCapacity a.block.data).sectorCount
        else t.completion = ⟨.ioFailure, 0, 0, .csdDecodeFailed⟩ ∧ t.sectorCount = s.sectorCount)) ∧
    (∀ b : Bracket, b.fits s.cfg → b.answer.flags ≠ some 0 → s.script = b.bytes ++ rest →
      ∃ t, exec .capacity s = .next t ∧ t.trace = s.trace ++ b.events 9 0 s.cfg.close ∧
        t.completion = ⟨.ioFailure, 0, 0,
          if b.answer.flags = none then .protocolTimeout else .illegalResponse⟩ ∧
        t.sectorCount = s.sectorCount ∧ t.initialized = s.initialized ∧ t.divisor = s.divisor ∧ t.top = .idle ∧
        t.sel = false ∧ t.script = rest ∧ t.mem = s.mem ∧ t.scratch = s.scratch) ∧
    (∀ (a : Answer) (d : NoToken), a.fits s.cfg → a.flags = some 0 → d.fits s.cfg →
      s.script = a.bytes ++ d.bytes ++ rest →
      ∃ t, exec .capacity s = .next t ∧ t.trace = s.trace ++ a.events 9 0 s.cfg.close ++ d.events ∧
        t.completion = ⟨.ioFailure, 0, 0, .blockStartMissing⟩ ∧
        t.sectorCount = s.sectorCount ∧ t.initialized = s.initialized ∧ t.divisor = s.divisor ∧ t.top = .idle ∧
        t.sel = false ∧ t.script = rest ∧ t.mem = s.mem ∧ t.scratch = s.scratch)

/-! ## Byte ranges -/

/-- 60_exceptions.md R274: READ, WRITE and ERASE before a successful INIT complete NOT_INITIALIZED, with no bus event and no
host memory access where the host keeps its duties (70_reset_and_hazards.md R312; log 12 has the rest); INIT, CAPACITY and
STATUS never do. -/
def Obligations.RangeRequestsNeedASession : Prop :=
  (∀ (i : Instr) (o n : U64) (buf : Nat) (s : State), (i = .read o n buf ∨ i = .write o n buf ∨ i = .erase o n) →
    s.top = .idle → s.initialized = false →
      ∃ t, exec i s = .next t ∧ t.completion = ⟨.notInitialized, 0, 0, .none⟩ ∧ t.top = .idle ∧
        t.trace = s.trace ∧ t.sel = s.sel ∧ (i = .erase o n ∨ BufferKept s buf n → t.mem = s.mem) ∧
        t.script = s.script ∧ t.scratch = s.scratch ∧ t.map = s.map ∧ RangeFrame s t) ∧
  ∀ (i : Instr) (s t : State), (i = .init ∨ i = .capacity ∨ i = .status) → exec i s = .next t →
    t.completion.status ≠ .notInitialized

/-- 44_byte_range_mapper.md R221 and 60_exceptions.md R273: a request outside the card completes OUT_OF_BOUNDS with no bus
event and, where the host keeps its duties (70_reset_and_hazards.md R312; log 12 has the rest), no host memory access; the
sum does not wrap; no other request completes so. `SCRATCH` is unspecified once the mapper begins (10_state.md R41). -/
def Obligations.OutOfBoundsTouchesNothing : Prop :=
  (∀ (i : Instr) (o n : U64) (buf : Nat) (s : State), (i = .read o n buf ∨ i = .write o n buf ∨ i = .erase o n) →
    s.top = .idle → s.initialized = true →
    (2 ^ 64 ≤ o.toNat + n.toNat ∨ s.sectorCount.toNat * 512 < o.toNat + n.toNat) →
      ∃ t, exec i s = .next t ∧ t.completion = ⟨.outOfBounds, 0, 0, .none⟩ ∧ t.top = .idle ∧
        t.trace = s.trace ∧ t.sel = s.sel ∧ (i = .erase o n ∨ BufferKept s buf n → t.mem = s.mem) ∧
        t.script = s.script ∧ t.map = s.map ∧ RangeFrame s t) ∧
  ∀ (i : Instr) (s t : State), (i = .init ∨ i = .capacity ∨ i = .status) → exec i s = .next t →
    t.completion.status ≠ .outOfBounds

/-- 44_byte_range_mapper.md R222: a legal request of size 0 succeeds with count 0 and no access; the bounds come first, so
past the capacity even size 0 is out of bounds. Host memory is not accessed where the host keeps its duties
(70_reset_and_hazards.md R312; log 12 has the rest). -/
def Obligations.EmptyRangeDoesNothing : Prop :=
  ∀ (i : Instr) (o : U64) (buf : Nat) (s : State), (i = .read o 0 buf ∨ i = .write o 0 buf ∨ i = .erase o 0) →
    s.top = .idle → s.initialized = true →
      ∃ t, exec i s = .next t ∧
        t.completion =
          (if o.toNat ≤ s.sectorCount.toNat * 512 then ⟨.success, 0, 0, .none⟩ else ⟨.outOfBounds, 0, 0, .none⟩) ∧
        t.top = .idle ∧ t.trace = s.trace ∧ t.sel = s.sel ∧ (i = .erase o 0 ∨ BufferKept s buf 0 → t.mem = s.mem) ∧
        t.script = s.script ∧ t.map = s.map ∧ RangeFrame s t

/-- 44_byte_range_mapper.md R221: `checkBounds` returns inside the card and raises BoundsViolation outside, and touches
nothing else. It holds of every state: that `SECTOR_COUNT` is read as it stands also before its first write, where
10_state.md R33 speaks of a model fault and 93_implementation_defined.md I1 of any value, is the model's choice (log 9). -/
def Obligations.CheckBoundsDecides : Prop :=
  ∀ (o n : U64) (s : State),
    (o.toNat + n.toNat < 2 ^ 64 → o.toNat + n.toNat ≤ s.sectorCount.toNat * 512 →
      exec (.checkBounds o n) s = .next (s.setResult .unit)) ∧
    ((2 ^ 64 ≤ o.toNat + n.toNat ∨ s.sectorCount.toNat * 512 < o.toNat + n.toNat) →
      exec (.checkBounds o n) s = .next ((s.setResult (.raised .boundsViolation)).errorExit .boundsViolation))

/-- 44_byte_range_mapper.md R232, R233 (its READ half) and R235: on a card that answers every CMD17, READ returns exactly
the bytes of the range. -/
def Obligations.ReadReturnsTheCardBytes : Prop :=
  ∀ (o n : U64) (buf : Nat) (s : State) (as : List (ReadAnswer 512)) (rest : List Byte),
    s.top = .idle → RangeReady s o n → MemorySound s → BufferKept s buf n →
    as.length = touchedBlocks o n → (∀ a ∈ as, a.fits s.cfg) → s.script = as.flatMap ReadAnswer.bytes ++ rest →
      ∃ t, exec (.read o n buf) s = .next t ∧ t.completion = ⟨.success, n, 0, .none⟩ ∧ t.top = .idle ∧
        ReadDone s o n buf as rest t

/-- 44_byte_range_mapper.md R231, R232 and R233 (its WRITE and ERASE half): on a card that accepts every block, exactly the
blocks of the range are written, each with the source bytes inside the range and the card's own bytes outside. -/
def Obligations.WriteAndEraseMergeAtTheEnds : Prop :=
  ∀ (i : Instr) (kind : MapKind) (o n : U64) (buf : Nat) (s : State) (as : List BlockAnswer) (rest : List Byte),
    ((i = .write o n buf ∧ kind = .write ∧ BufferKept s buf n) ∨ (i = .erase o n ∧ kind = .erase)) →
    s.top = .idle → RangeReady s o n →
    as.length = touchedBlocks o n → (∀ a ∈ as, a.fits s.cfg) → MergesAtEnds as →
    s.script = as.flatMap BlockAnswer.bytes ++ rest →
      ∃ t, exec i s = .next t ∧ t.completion = ⟨.success, n, 0, .none⟩ ∧ t.top = .idle ∧
        WriteDone kind s o n buf as rest t

/-- 44_byte_range_mapper.md R229, R230 and R234, 60_exceptions.md R279-R282: a READ, WRITE or ERASE whose first `k` segments
complete and whose next one fails completes IO_FAILURE with the bytes of those `k` segments and the cause of the failing
one, makes no bus event after it, and a READ has the bytes it counts in the buffer. -/
def Obligations.RangeRequestsFailPartWay : Prop :=
  ∀ (o n : U64) (buf : Nat) (s : State) (rest : List Byte), s.top = .idle → RangeReady s o n →
    (∀ (as : List (ReadAnswer 512)) (f : ReadFailure), MemorySound s → BufferKept s buf n →
      as.length < touchedBlocks o n → (∀ a ∈ as, a.fits s.cfg) → f.fits s.cfg →
      s.script = as.flatMap ReadAnswer.bytes ++ f.bytes ++ rest →
      ∃ t, exec (.read o n buf) s = .next t ∧
        t.completion = ⟨.ioFailure, BitVec.ofNat 64 (bytesBefore o as.length), 0, f.cause⟩ ∧ t.top = .idle ∧
        t.sel = false ∧ t.script = rest ∧
        t.trace = s.trace ++ rangeReadEvents s (o.toNat / 512) as ++
          f.events 17 (cardArg s (o.toNat / 512 + as.length)) s.cfg.close ∧
        (∀ k, k < bytesBefore o as.length →
          Memory.read t.mem (buf + k) = (blockData as).getD (o.toNat % 512 + k) 0) ∧
        (∀ a, a < buf ∨ buf + n.toNat ≤ a → Memory.read t.mem a = Memory.read s.mem a) ∧ RangeFrame s t) ∧
    (∀ (i : Instr) (kind : MapKind) (as : List BlockAnswer) (f : BlockFailure),
      ((i = .write o n buf ∧ kind = .write ∧ BufferKept s buf n) ∨ (i = .erase o n ∧ kind = .erase)) →
      as.length < touchedBlocks o n → (∀ a ∈ as, a.fits s.cfg) → f.fits s.cfg →
      (∀ k : Nat, ∀ h : k < as.length, as[k].isMerge = true ↔ k = 0) →
      (f.isMerge = true ↔ as.length = 0 ∨ as.length + 1 = touchedBlocks o n) →
      s.script = as.flatMap BlockAnswer.bytes ++ f.bytes ++ rest →
      ∃ t, exec i s = .next t ∧
        t.completion = ⟨.ioFailure, BitVec.ofNat 64 (bytesBefore o as.length), 0, f.cause⟩ ∧ t.top = .idle ∧
        t.sel = false ∧ t.script = rest ∧
        t.trace = s.trace ++ rangeWriteEvents kind s o n buf (o.toNat / 512) as ++
          f.events s.cfg (cardArg s (o.toNat / 512 + as.length))
            (mergedBlock kind s o n buf (o.toNat / 512 + as.length) f.old) ∧
        t.mem = s.mem ∧ RangeFrame s t)

/-- 44_byte_range_mapper.md R220: the mapper run on its own does the same for each kind, and returns the size. -/
def Obligations.MapperReturnsTheSize : Prop :=
  ∀ (o n : U64) (buf : Nat) (s : State) (rest : List Byte), RangeReady s o n →
    (∀ as : List (ReadAnswer 512), MemorySound s → BufferKept s buf n →
      as.length = touchedBlocks o n → (∀ a ∈ as, a.fits s.cfg) → s.script = as.flatMap ReadAnswer.bytes ++ rest →
      ∃ t, exec (.mapper .read o n buf) s = .next t ∧ t.result = .count n ∧ ReadDone s o n buf as rest t) ∧
    (∀ (kind : MapKind) (as : List BlockAnswer), ((kind = .write ∧ BufferKept s buf n) ∨ kind = .erase) →
      as.length = touchedBlocks o n → (∀ a ∈ as, a.fits s.cfg) → MergesAtEnds as →
      s.script = as.flatMap BlockAnswer.bytes ++ rest →
      ∃ t, exec (.mapper kind o n buf) s = .next t ∧ t.result = .count n ∧ WriteDone kind s o n buf as rest t)

/-- 44_byte_range_mapper.md R227: one merge segment. READ copies `n` bytes of the block out; WRITE and ERASE write the block
back with `n` bytes replaced. That `DIVISOR` is read as it stands in every state, also before bring-up has written it, is
the model's choice (log 9). -/
def Obligations.MergeSegmentReadsThenWrites : Prop :=
  ∀ (kind : MapKind) (blk : U64) (off n : Nat) (s : State) (r : ReadAnswer 512) (rest : List Byte),
    s.busAnswers = none → blk.toNat * s.divisor.toNat < 2 ^ 32 → 1 ≤ n → off + n ≤ 512 →
    (kind ≠ .erase → s.accessSound (s.req.buf + s.map.done.toNat) n = true) → r.fits s.cfg →
    (kind = .read → MemorySound s → s.script = r.bytes ++ rest →
      ∃ t, exec (.mergeSegment kind blk off n) s = .next t ∧ t.result = .unit ∧
        t.trace = s.trace ++ r.events 17 (cardArg s blk.toNat) s.cfg.close ∧ t.scratch = r.block.data ∧
        (∀ k, k < n →
          Memory.read t.mem (s.req.buf + s.map.done.toNat + k) = r.block.data.toList.getD (off + k) 0) ∧
        (∀ a, a < s.req.buf + s.map.done.toNat ∨ s.req.buf + s.map.done.toNat + n ≤ a →
          Memory.read t.mem a = Memory.read s.mem a) ∧
        t.map = s.map ∧ t.req = s.req ∧ t.drt = s.drt ∧ t.sel = false ∧ t.script = rest ∧ RangeFrame s t) ∧
    (∀ w : WriteAnswer, kind ≠ .read → w.fits s.cfg → s.script = r.bytes ++ w.bytes ++ rest →
      ∃ t, exec (.mergeSegment kind blk off n) s = .next t ∧ t.result = .unit ∧
        t.trace = s.trace ++ (BlockAnswer.merge r w).events s.cfg (cardArg s blk.toNat)
          (segmentBytes kind s r.block.data.toList off n) ∧
        t.scratch.toList = segmentBytes kind s r.block.data.toList off n ∧ t.drt = w.drt ∧
        t.mem = s.mem ∧ t.map = s.map ∧ t.req = s.req ∧ t.sel = false ∧ t.script = rest ∧ RangeFrame s t)

/-- 44_byte_range_mapper.md R228: one body block, with no read for WRITE and ERASE. That `DIVISOR` is read as it stands in
every state, also before bring-up has written it, is the model's choice (log 9). -/
def Obligations.FullBlockMovesWholeBlocks : Prop :=
  ∀ (kind : MapKind) (blk : U64) (s : State) (rest : List Byte),
    s.busAnswers = none → blk.toNat * s.divisor.toNat < 2 ^ 32 →
    (kind ≠ .erase → s.accessSound (s.req.buf + s.map.done.toNat) 512 = true) →
    (∀ r : ReadAnswer 512, kind = .read → MemorySound s → r.fits s.cfg → s.script = r.bytes ++ rest →
      ∃ t, exec (.fullBlock kind blk) s = .next t ∧ t.result = .unit ∧
        t.trace = s.trace ++ r.events 17 (cardArg s blk.toNat) s.cfg.close ∧ t.scratch = r.block.data ∧
        (∀ k, k < 512 →
          Memory.read t.mem (s.req.buf + s.map.done.toNat + k) = r.block.data.toList.getD k 0) ∧
        (∀ a, a < s.req.buf + s.map.done.toNat ∨ s.req.buf + s.map.done.toNat + 512 ≤ a →
          Memory.read t.mem a = Memory.read s.mem a) ∧
        t.map = s.map ∧ t.req = s.req ∧ t.drt = s.drt ∧ t.sel = false ∧ t.script = rest ∧ RangeFrame s t) ∧
    (∀ w : WriteAnswer, kind ≠ .read → w.fits s.cfg → s.script = w.bytes ++ rest →
      ∃ t, exec (.fullBlock kind blk) s = .next t ∧ t.result = .unit ∧
        t.trace = s.trace ++ w.events s.cfg 24 (cardArg s blk.toNat) (segmentBytes kind s [] 0 512) ∧
        t.scratch.toList = segmentBytes kind s [] 0 512 ∧ t.drt = w.drt ∧
        t.mem = s.mem ∧ t.map = s.map ∧ t.req = s.req ∧ t.sel = false ∧ t.script = rest ∧ RangeFrame s t)

/-! ## Whole-machine rules -/

/-- 60_exceptions.md R282 and R279, 44_byte_range_mapper.md R229 and R230: READ, WRITE and ERASE report one outcome, decided
in this order: no session, out of bounds, empty, then success with the whole size or an I/O failure with the bytes of the
segments completed before it. -/
def Obligations.RangeRequestsReportOneOutcome : Prop :=
  ∀ (i : Instr) (o n : U64) (buf : Nat) (s t : State), (i = .read o n buf ∨ i = .write o n buf ∨ i = .erase o n) →
    exec i s = .next t →
    t.completion =
      (if s.initialized = false then ⟨.notInitialized, 0, 0, .none⟩
      else if 2 ^ 64 ≤ o.toNat + n.toNat ∨ s.sectorCount.toNat * 512 < o.toNat + n.toNat then
        ⟨.outOfBounds, 0, 0, .none⟩
      else if n = 0 then ⟨.success, 0, 0, .none⟩
      else if t.completion.status = .success then ⟨.success, n, 0, .none⟩
      else ⟨.ioFailure, t.map.done, 0, t.completion.cause⟩) ∧
    (t.completion.status = .ioFailure →
      t.completion.cause ≠ .none ∧ t.completion.cause ≠ .csdDecodeFailed ∧ t.map.done.toNat < n.toNat)

/-- 60_exceptions.md R284, 10_state.md R36 and 70_reset_and_hazards.md R315: no request but INIT changes `INITIALIZED` or
`DIVISOR`, and only INIT and a successful CAPACITY change `SECTOR_COUNT`. -/
def Obligations.OnlyInitAndCapacityMoveTheSession : Prop :=
  ∀ (i : Instr) (s t : State), exec i s = .next t →
    (i = .capacity ∨ i = .status ∨ (∃ o n buf, i = .read o n buf ∨ i = .write o n buf ∨ i = .erase o n)) →
    t.initialized = s.initialized ∧ t.divisor = s.divisor ∧
      (t.sectorCount = s.sectorCount ∨ (i = .capacity ∧ t.completion.status = .success))

/-- 10_state.md R63 and 44_byte_range_mapper.md R235: from IDLE, host memory changes only in a READ (or its mapper steps),
and only inside the buffer; WRITE and ERASE leave it as it was. The host's duties (70_reset_and_hazards.md R312) are the
premise; where they are broken memory is free (log 12). -/
def Obligations.HostMemoryChangesOnlyInAReadBuffer : Prop :=
  ∀ (i : Instr) (s t : State), exec i s = .next t → s.top = .idle →
    match i with
    | .read _ n buf | .mapper .read _ n buf =>
      BufferKept s buf n → ∀ a, a < buf ∨ buf + n.toNat ≤ a → Memory.read t.mem a = Memory.read s.mem a
    | .mergeSegment .read _ _ n =>
      s.accessSound (s.req.buf + s.map.done.toNat) n = true →
        ∀ a, a < s.req.buf + s.map.done.toNat ∨ s.req.buf + s.map.done.toNat + n ≤ a →
          Memory.read t.mem a = Memory.read s.mem a
    | .fullBlock .read _ =>
      s.accessSound (s.req.buf + s.map.done.toNat) 512 = true →
        ∀ a, a < s.req.buf + s.map.done.toNat ∨ s.req.buf + s.map.done.toNat + 512 ≤ a →
          Memory.read t.mem a = Memory.read s.mem a
    | .write _ n buf | .mapper .write _ n buf => BufferKept s buf n → t.mem = s.mem
    | _ => t.mem = s.mem

/-- 30_encoding.md R104: whatever the card returns, every frame an instruction puts on the bus is one of the ten. A reader
of the trace finds frames as R129 says. -/
def Obligations.OnlyTableFramesAreEmitted : Prop :=
  ∀ (i : Instr) (s t : State), exec i s = .next t →
    ∃ es, t.trace = s.trace ++ es ∧
      ∀ bytes, BusItem.frame bytes ∈ itemsIn s.cfg es → ∃ j, decode s.cfg (.frame bytes) = .ok j

/-- 10_state.md R52 and R53, 60_exceptions.md R280: every request ends with `TOP = IDLE` and `SEL = 0`, whatever the card
returns, as long as the bus answers and no card address overflows. -/
def Obligations.EveryRequestEnds : Prop :=
  ∀ (i : Instr) (s : State), Inv s → s.top = .idle → s.busAnswers = none →
    ((i = .init ∨ i = .capacity ∨ i = .status) ∨
      ∃ o n buf, (i = .read o n buf ∨ i = .write o n buf ∨ i = .erase o n) ∧
        (s.initialized = true → o.toNat + n.toNat ≤ s.sectorCount.toNat * 512 → 1 ≤ n.toNat → AddressesFit s o n)) →
      ∃ t, exec i s = .next t ∧ t.top = .idle ∧ t.sel = false

/-- 10_state.md R52: every loop has a finite budget, so every frame, byte and primitive of the bus side ends too, whatever
the card returns, with the operands its rule allows: a frame of 30_encoding.md R103, a data length of its buffer, a block
whose card address fits. That `DIVISOR` is read as it stands in every state, also before bring-up has written it, is the
model's choice (log 9). -/
def Obligations.EveryExchangeEnds : Prop :=
  ∀ (i : Instr) (s : State), s.busAnswers = none →
    (i = .cmd0 ∨ i = .cmd8 ∨ i = .cmd9 ∨ i = .cmd16 ∨ (∃ a, i = .cmd17 a ∨ i = .cmd24 a) ∨ i = .cmd55 ∨ i = .acmd41V1 ∨
      i = .acmd41V2 ∨ i = .cmd58 ∨ (∃ f, i = .r1 f) ∨ i = .startToken ∨ (∃ x, i = .dataResponseAccept x) ∨ i = .busy ∨
      i = .filler ∨
      (∃ idx arg close, i = .frame idx arg close ∧ emitted s.cfg idx arg close = true) ∨ i = .poll ∨ i = .release ∨
      (∃ idx arg, (i = .command idx arg ∨ i = .commandNoDeselect idx arg) ∧ emitted s.cfg idx arg s.cfg.close = true) ∨
      i = .probeInterfaceCondition ∨ i = .readOperatingConditionRegister ∨ i = .bringUp ∨ i = .readCSD ∨
      (∃ dst, i = .readData dst.length dst) ∨
      (∃ blk : U64, (i = .readBlockAt blk ∨ i = .writeBlockAt blk) ∧ blk.toNat * s.divisor.toNat < 2 ^ 32) ∨
      i = .checkDataResponse ∨ i = .waitNotBusy) →
      ∃ t, exec i s = .next t

/-- 60_exceptions.md R288: a request presented while the engine is busy is not accepted. -/
def Obligations.RequestsWhileBusyAreRefused : Prop :=
  ∀ (i : Instr) (s : State), s.top ≠ .idle →
    (i = .init ∨ i = .capacity ∨ i = .status ∨ ∃ o n buf, i = .read o n buf ∨ i = .write o n buf ∨ i = .erase o n) →
      exec i s = .refused .busy

/-- Operands outside a primitive's rule are refused by name: frames R103 does not list (30_encoding.md R104), a data length
its buffer does not have (43_block_transfer.md R201), a segment that leaves its block (44_byte_range_mapper.md R227).
The refusals are the model's choice (log 17). -/
def Obligations.OperandsOutsideTheRulesAreRefused : Prop :=
  ∀ s : State,
    (∀ idx arg close, emitted s.cfg idx arg close = false → exec (.frame idx arg close) s = .refused .frameNotEmitted) ∧
    (∀ idx arg, emitted s.cfg idx arg s.cfg.close = false →
      exec (.command idx arg) s = .refused .frameNotEmitted ∧
        exec (.commandNoDeselect idx arg) s = .refused .frameNotEmitted) ∧
    (∀ n dst, n ≠ DataBuffer.length dst → exec (.readData n dst) s = .refused .operandOutOfRange) ∧
    (∀ kind blk off n, (n = 0 ∨ 512 < off + n) →
      exec (.mergeSegment kind blk off n) s = .refused .operandOutOfRange)

/-- 93_implementation_defined.md I1 and 10_state.md R32, R33: `DIVISOR` and `SECTOR_COUNT` may hold any value while
`INITIALIZED = 0`, as no request reads them then. Whatever they hold, a request completes alike: the same bus events, result
and state, apart from what these two registers themselves hold where the request does not write them. INIT, CAPACITY and
STATUS read neither in an open session either. -/
def Obligations.ClosedSessionRequestsIgnoreTheSessionRegisters : Prop :=
  ∀ (i : Instr) (s t : State) (divisor : U32) (count : U64),
    (i = .init ∨ i = .capacity ∨ i = .status ∨
      (s.initialized = false ∧ ∃ o n buf, i = .read o n buf ∨ i = .write o n buf ∨ i = .erase o n)) →
    exec i s = .next t →
      ∃ t', exec i { s with divisor := divisor, sectorCount := count } = .next t' ∧
        (t'.divisor = t.divisor ∨ (t.divisor = s.divisor ∧ t'.divisor = divisor)) ∧
        (t'.sectorCount = t.sectorCount ∨ (t.sectorCount = s.sectorCount ∧ t'.sectorCount = count)) ∧
        { t' with divisor := t.divisor, sectorCount := t.sectorCount } = t

/-- 10_state.md R50 and 70_reset_and_hazards.md R316: run one sequencer step at a time, an instruction makes one bus event in
each bus step, the one it waits for, and none in a computation. An exchange or a wait is one event more in the trace, and a
`Sel` change shows in none of its own (R64). The position counts the bus steps. An instruction that ends after `n` bus steps
passes through a state after each of its `2 * n` first steps, and its last computation ends it as `exec` does, with no bus
event. `pending` and the position's form are the model's (log 20). -/
def Obligations.SequencerStepsComposeToTheInstruction : Prop :=
  (∀ (r : Running) (t : State), r.calls ≠ 0 ∨ r.waiting = true → r.now = some t →
    t.position = (if r.instr.isRequest then 0 else r.start.position) + r.calls ∧
    t.pending.isSome = r.waiting ∧ t.busAnswers = r.start.busAnswers.map (· - r.calls)) ∧
  (∀ (r : Running) (t u : State), r.now = some t → r.tick.now = some u →
    (r.waiting = false → u.trace = t.trace) ∧
    (r.waiting = true → r.start.busAnswers = some r.calls → u = t) ∧
    (r.waiting = true → r.start.busAnswers ≠ some r.calls → ∃ c, t.pending = some c ∧
      match c with
      | .sel v => u.trace = t.trace ∧ u.sel = v
      | .xfer tx => ∃ rx, u.trace = t.trace ++ [.exchange t.sel tx rx]
      | .receive rx => u.trace = t.trace ++ [.exchange t.sel 0xFF rx]
      | .wait ms => u.trace = t.trace ++ [.wait ms])) ∧
  ∀ (i : Instr) (s u : State), s.busAnswers = none → exec i s = .next u →
    ∃ n, (Running.begin i s).outcome n = .next { u with busAnswers := some 0 } ∧
      (∀ k, k ≤ 2 * n → (Running.tick^[k] (Running.begin i s)).now.isSome = true) ∧
      (∀ t, (Running.tick^[2 * n] (Running.begin i s)).now = some t → u.trace = t.trace) ∧
      (Running.tick^[2 * n + 1] (Running.begin i s)).now = none
end

