-- ==== Sys2Proof/Laws/Monad.lean ====
section
/-! SUPPORT. How a sub-step runs: one equation per way of building one, so that no later proof unfolds the monad. -/

namespace Sys2Proof.Laws

open Sys2Proof.Machine

variable {α β : Type}

@[simp] theorem run_pure (a : α) (s : State) : (pure a : M α) s = .ok a s := rfl

@[simp] theorem run_raise (e : Err) (s : State) : (raise e : M α) s = .error (.raised e) s := rfl

@[simp] theorem run_stop (f : State → Fault) (s : State) : (stop f : M α) s = .error (.fault (f s)) s := rfl

@[simp] theorem run_update (f : State → State) (s : State) : update f s = .ok () (f s) := rfl

@[simp] theorem run_look (f : State → α) (s : State) : look f s = .ok (f s) s := rfl

theorem run_bind (m : M α) (k : α → M β) (s : State) :
    (m >>= k) s = match m s with
      | .ok a t => k a t
      | .error e t => .error e t := by
  show EStateM.bind m k s = _
  unfold EStateM.bind
  cases m s <;> rfl

/-- A sub-step that returns is followed by its continuation. -/
theorem bind_ok {m : M α} {a : α} {s t : State} (h : m s = .ok a t) (k : α → M β) : (m >>= k) s = k a t := by
  rw [run_bind, h]

/-- A sub-step that ends otherwise ends what follows it too. -/
theorem bind_error {m : M α} {e : Stop} {s t : State} (h : m s = .error e t) (k : α → M β) :
    (m >>= k) s = .error e t := by
  rw [run_bind, h]

@[simp] theorem update_bind (f : State → State) (k : Unit → M β) (s : State) : (update f >>= k) s = k () (f s) :=
  bind_ok rfl k

@[simp] theorem look_bind (f : State → α) (k : α → M β) (s : State) : (look f >>= k) s = k (f s) s :=
  bind_ok rfl k

@[simp] theorem pure_bind_run (a : α) (k : α → M β) (s : State) : ((pure a : M α) >>= k) s = k a s :=
  bind_ok rfl k

/-- A sub-step built by `>>=` returns only through its two parts. -/
theorem bind_eq_ok {m : M α} {k : α → M β} {b : β} {s u : State} (h : (m >>= k) s = .ok b u) :
    ∃ a t, m s = .ok a t ∧ k a t = .ok b u := by
  rw [run_bind] at h
  cases hm : m s with
  | ok a t => exact ⟨a, t, rfl, by rw [hm] at h; exact h⟩
  | error e t => rw [hm] at h; cases h

theorem onRaise_ok {f : State → State} {m : M α} {a : α} {s t : State} (h : m s = .ok a t) :
    onRaise f m s = .ok a t := by
  unfold onRaise; rw [h]

theorem onRaise_raised {f : State → State} {m : M α} {e : Err} {s t : State} (h : m s = .error (.raised e) t) :
    onRaise f m s = .error (.raised e) (f t) := by
  unfold onRaise; rw [h]

theorem onRaise_fault {f : State → State} {m : M α} {g : Fault} {s t : State} (h : m s = .error (.fault g) t) :
    onRaise f m s = .error (.fault g) t := by
  unfold onRaise; rw [h]

theorem settled_ok {m : M α} {a : α} {s t : State} (h : m s = .ok a t) : settled m s = .ok a (settleDuties t) := by
  unfold settled; rw [onRaise_ok h]

theorem settled_raised {m : M α} {e : Err} {s t : State} (h : m s = .error (.raised e) t) :
    settled m s = .error (.raised e) (settleDuties t) := by
  unfold settled; rw [onRaise_raised h]

theorem settled_fault {m : M α} {g : Fault} {s t : State} (h : m s = .error (.fault g) t) :
    settled m s = .error (.fault g) t := by
  unfold settled; rw [onRaise_fault h]

/-- What is returned is passed through an update, and what is raised too. -/
theorem settled_eq (m : M α) : settled m = (onRaise settleDuties m >>= fun a =>
    update settleDuties >>= fun _ => pure a) := by
  funext s
  rw [run_bind]
  unfold settled
  cases onRaise settleDuties m s <;> rfl

theorem settledFor_erase (m : M α) : settledFor .erase m = m := rfl

theorem settledFor_buffer {kind : MapKind} (h : kind ≠ .erase) (m : M α) : settledFor kind m = settled m := by
  cases kind with
  | erase => exact absurd rfl h
  | read | write => rfl

/-- Nothing is settled where the host keeps its duties. -/
theorem settleDuties_sound {s : State} (h : s.bufferSound = true) : settleDuties s = s := if_pos h

/-! ## Bus calls -/

/-- A bus call that returns. -/
theorem busCall_returns {s : State} (h : s.busAnswers ≠ some 0) (c : BusCall) :
    busCall c s = .ok () (s.spendAnswer.perform c) := if_neg h

/-- A bus call that never returns. -/
theorem busCall_stuck {s : State} (h : s.busAnswers = some 0) (c : BusCall) :
    busCall c s = .error (.fault (.busNeverReturns (s.await c))) (s.await c) := if_pos h

theorem spendAnswer_all {s : State} (h : s.busAnswers = none) : s.spendAnswer = s := by
  cases s
  cases h
  rfl

/-- A bus call while every call returns. -/
theorem busCall_answered {s : State} (h : s.busAnswers = none) (c : BusCall) : busCall c s = .ok () (s.perform c) := by
  rw [busCall_returns (by rw [h]; exact nofun), spendAnswer_all h]

/-- An exchange whose call returns, whatever the reply. -/
theorem xfer_returns {s : State} (h : s.busAnswers ≠ some 0) (tx : Byte) :
    xfer tx s = .ok s.replyByte (s.spendAnswer.perform (.xfer tx)) := by
  unfold xfer
  rw [look_bind, bind_ok (busCall_returns h _), run_pure]

theorem xfer_stuck {s : State} (h : s.busAnswers = some 0) (tx : Byte) :
    xfer tx s = .error (.fault (.busNeverReturns (s.await (.xfer tx)))) (s.await (.xfer tx)) := by
  unfold xfer
  rw [look_bind, bind_error (busCall_stuck h _)]

/-- The state after `Sel(v)` while every call returns: no event where the level does not change. -/
def selected (v : Bool) (s : State) : State :=
  { s with sel := v, position := s.position + if s.sel = v then 0 else 1 }

theorem run_sel {s : State} (h : s.busAnswers = none) (v : Bool) : sel v s = .ok () (selected v s) := by
  unfold sel
  rw [look_bind]
  by_cases hv : s.sel = v
  · rw [if_pos hv, run_pure]
    subst hv
    simp [selected]
  · rw [if_neg hv, busCall_answered h]
    simp [selected, State.perform, State.driveSel, hv]

theorem sel_bind {s : State} (h : s.busAnswers = none) (v : Bool) (k : Unit → M β) :
    (sel v >>= k) s = k () (selected v s) := bind_ok (run_sel h v) k

/-! ## Running as an instruction -/

theorem runSubStep_ok {toResult : α → Result} {m : M α} {a : α} {s t : State} (h : m s = .ok a t) :
    runSubStep toResult m s = .next (t.setResult (toResult a)) := by
  unfold runSubStep; rw [h]

theorem runSubStep_raised {toResult : α → Result} {m : M α} {e : Err} {s t : State}
    (h : m s = .error (.raised e) t) : runSubStep toResult m s = .next ((t.setResult (.raised e)).errorExit e) := by
  unfold runSubStep; rw [h]

theorem runSubStep_fault {toResult : α → Result} {m : M α} {f : Fault} {s t : State}
    (h : m s = .error (.fault f) t) : runSubStep toResult m s = .fault f := by
  unfold runSubStep; rw [h]

/-- What a sub-step run on its own can do: return, raise, or stop with a fault. -/
theorem runSubStep_next {toResult : α → Result} {m : M α} {s u : State} (h : runSubStep toResult m s = .next u) :
    (∃ a t, m s = .ok a t ∧ u = t.setResult (toResult a)) ∨
      (∃ e t, m s = .error (.raised e) t ∧ u = (t.setResult (.raised e)).errorExit e) := by
  unfold runSubStep at h
  split at h
  · exact .inl ⟨_, _, ‹_›, by simpa using h.symm⟩
  · exact .inr ⟨_, _, ‹_›, by simpa using h.symm⟩
  · cases h

theorem serve_ok {op : HostOp} {m : M Completion} {c : Completion} {s t : State} (hi : s.top = .idle)
    (h : m (s.accept op) = .ok c t) : serve op m s = .next (t.complete c) := by
  unfold serve; rw [if_pos hi, h]

theorem serve_raised {op : HostOp} {m : M Completion} {e : Err} {s t : State} (hi : s.top = .idle)
    (h : m (s.accept op) = .error (.raised e) t) : serve op m s = .next (t.errorExit e) := by
  unfold serve; rw [if_pos hi, h]

theorem serve_fault {op : HostOp} {m : M Completion} {f : Fault} {s t : State} (hi : s.top = .idle)
    (h : m (s.accept op) = .error (.fault f) t) : serve op m s = .fault f := by
  unfold serve; rw [if_pos hi, h]

/-- What serving a request can do: it runs only in IDLE, and completes or takes its error exit. -/
theorem serve_next {op : HostOp} {m : M Completion} {s u : State} (h : serve op m s = .next u) :
    s.top = .idle ∧
      ((∃ c t, m (s.accept op) = .ok c t ∧ u = t.complete c) ∨
        (∃ e t, m (s.accept op) = .error (.raised e) t ∧ u = t.errorExit e)) := by
  unfold serve at h
  split at h
  · refine ⟨‹_›, ?_⟩
    split at h
    · exact .inl ⟨_, _, ‹_›, by simpa using h.symm⟩
    · exact .inr ⟨_, _, ‹_›, by simpa using h.symm⟩
    · cases h
  · cases h

end Sys2Proof.Laws
end

