-- ==== Sys2Proof/Laws/Bus.lean ====
section
/-! SUPPORT. What the bus primitives and the polling loops do when the card's bytes are listed: one lemma each. -/

namespace Sys2Proof.Laws

open Sys2Proof.Machine

/-- The state after exchanging some bytes at the current select level, with what the card will return next. -/
def bus (txs rxs rest : List Byte) (s : State) : State :=
  { s with
    trace := s.trace ++ exchanges s.sel txs rxs
    position := s.position + rxs.length
    script := rest }

theorem exchanges_append (v : Bool) {txs rxs : List Byte} (h : txs.length = rxs.length) (txs' rxs' : List Byte) :
    exchanges v (txs ++ txs') (rxs ++ rxs') = exchanges v txs rxs ++ exchanges v txs' rxs' :=
  List.zipWith_append h

@[simp] theorem exchanges_nil (v : Bool) (rxs : List Byte) : exchanges v [] rxs = [] := rfl

@[simp] theorem exchanges_cons (v : Bool) (tx rx : Byte) (txs rxs : List Byte) :
    exchanges v (tx :: txs) (rx :: rxs) = .exchange v tx rx :: exchanges v txs rxs := rfl

@[simp] theorem length_fillers (k : Nat) : (fillers k).length = k := List.length_replicate

@[simp] theorem fillers_zero : fillers 0 = [] := rfl

@[simp] theorem fillers_succ (k : Nat) : fillers (k + 1) = 0xFF :: fillers k := rfl

theorem fillers_add (j k : Nat) : fillers (j + k) = fillers j ++ fillers k :=
  List.replicate_append_replicate.symm

/-- One exchange whose reply is listed. -/
theorem xfer_listed {s : State} {b : Byte} {rest : List Byte} (ha : s.busAnswers = none) (hs : s.script = b :: rest)
    (tx : Byte) : xfer tx s = .ok b (bus [tx] [b] rest s) := by
  unfold xfer
  rw [look_bind, bind_ok (busCall_answered ha _), run_pure]
  simp [State.perform, State.replyByte, State.dropReply, State.logExchange, hs, bus, exchanges]

theorem xfer_bind_listed {α : Type} {s : State} {b : Byte} {rest : List Byte} (ha : s.busAnswers = none)
    (hs : s.script = b :: rest) (tx : Byte) (k : Byte → M α) :
    (xfer tx >>= k) s = k b (bus [tx] [b] rest s) :=
  bind_ok (xfer_listed ha hs tx) k

/-- An exchange in which the byte received is given. -/
theorem receive_given {s : State} (ha : s.busAnswers = none) (rx : Byte) :
    receive rx s = .ok () (bus [0xFF] [rx] s.script s) := by
  unfold receive
  rw [busCall_answered ha]
  simp [State.perform, State.logExchange, bus, exchanges, fillerByte]

theorem wait_runs {s : State} (ha : s.busAnswers = none) (ms : Nat) : wait ms s = .ok () (s.logWait ms) := by
  exact busCall_answered ha _

/-- Sending some bytes. -/
theorem sendAll_listed (txs : List Byte) {s : State} {rxs rest : List Byte} (ha : s.busAnswers = none)
    (hl : rxs.length = txs.length) (hs : s.script = rxs ++ rest) :
    sendAll txs s = .ok () (bus txs rxs rest s) := by
  induction txs generalizing s rxs with
  | nil =>
    obtain rfl : rxs = [] := List.length_eq_zero_iff.1 hl
    obtain rfl : s.script = rest := by simpa using hs
    simp [sendAll, bus]
  | cons tx txs ih =>
    obtain _ | ⟨rx, rxs⟩ := rxs
    · simp at hl
    · rw [sendAll, xfer_bind_listed ha hs, ih (by simpa [bus] using ha) (by simpa using hl) rfl]
      simp [bus, Nat.add_assoc, Nat.add_comm]

/-! ## Frames, polls and releases -/

theorem frame_listed {s : State} {during rest : List Byte} (ha : s.busAnswers = none) (hl : during.length = 6)
    (hs : s.script = during ++ rest) (idx : CmdIndex) (arg : U32) (close : Byte) :
    frame idx arg close s = .ok () (s.afterFrame idx arg close during rest) := by
  have h : sendAll (frameBytes idx arg close) (selected true (s.setCommand idx arg)) =
      .ok () (bus (frameBytes idx arg close) during rest (selected true (s.setCommand idx arg))) :=
    sendAll_listed _ ha hl hs
  unfold frame
  rw [update_bind, sel_bind (by exact ha), h]
  cases hsel : s.sel <;> simp [bus, State.afterFrame, State.setCommand, selected, hl, hsel]

theorem release_listed {s : State} {last : Byte} {rest : List Byte} (ha : s.busAnswers = none)
    (hs : s.script = last :: rest) : release s = .ok () (s.afterRelease last rest) := by
  unfold release
  rw [sel_bind ha, xfer_bind_listed (s := selected false s) ha hs]
  cases hsel : s.sel <;> simp [bus, State.afterRelease, selected, fillerByte, released, exchanges, hsel]

theorem responseOf_wait {b : Byte} (h : b.msb = true) : responseOf b = none := by
  revert h; revert b; decide

theorem responseOf_flags (f : BitVec 7) : responseOf (0#1 ++ f) = some f := by
  revert f; decide

/-- The poll loop on a response: `waits` bytes with bit 7 = 1, then the R1. -/
theorem pollLoop_response (waits : List Byte) {s : State} {f : BitVec 7} {rest : List Byte} {fuel : Nat}
    (ha : s.busAnswers = none) (hw : ∀ b ∈ waits, b.msb = true) (hf : waits.length < fuel)
    (hs : s.script = waits ++ (0#1 ++ f) :: rest) :
    pollLoop fuel s = .ok (.r1 f) { s with
      resp := .r1 f
      loops := { s.loops with poll := s.loops.poll + (waits.length + 1) }
      trace := s.trace ++ exchanges s.sel (fillers (waits.length + 1)) (waits ++ [0#1 ++ f])
      position := s.position + (waits.length + 1)
      script := rest } := by
  induction waits generalizing s fuel with
  | nil =>
    obtain _ | fuel := fuel
    · simp at hf
    · unfold pollLoop
      rw [update_bind, xfer_bind_listed (by exact ha) (by exact hs), responseOf_flags]
      simp [bus, State.setLoops, State.setResp, fillerByte]
  | cons b waits ih =>
    obtain _ | fuel := fuel
    · simp at hf
    · unfold pollLoop
      rw [update_bind, xfer_bind_listed (by exact ha) (by exact hs),
        responseOf_wait (hw b (List.mem_cons_self ..))]
      simp only
      rw [ih (by exact ha) (fun c hc => hw c (List.mem_cons_of_mem _ hc)) (by simpa using hf) rfl]
      simp [bus, State.setLoops, fillerByte]
      omega

/-- The poll loop when every byte has bit 7 = 1. -/
theorem pollLoop_silence (waits : List Byte) {s : State} {rest : List Byte} {fuel : Nat}
    (ha : s.busAnswers = none) (hw : ∀ b ∈ waits, b.msb = true) (hf : waits.length = fuel)
    (hs : s.script = waits ++ rest) :
    pollLoop fuel s = .ok .timeout { s with
      resp := .timeout
      loops := { s.loops with poll := s.loops.poll + waits.length }
      trace := s.trace ++ exchanges s.sel (fillers waits.length) waits
      position := s.position + waits.length
      script := rest } := by
  induction waits generalizing s fuel with
  | nil =>
    subst hf
    obtain rfl : s.script = rest := by simpa using hs
    simp [pollLoop, State.setResp]
  | cons b waits ih =>
    subst hf
    simp only [List.length_cons, pollLoop]
    rw [update_bind, xfer_bind_listed (by exact ha) (by exact hs), responseOf_wait (hw b (List.mem_cons_self ..))]
    simp only
    rw [ih (by exact ha) (fun c hc => hw c (List.mem_cons_of_mem _ hc)) rfl rfl]
    simp [bus, State.setLoops, fillerByte]
    omega

/-- `poll` on a response. -/
theorem poll_response {waits : List Byte} {s : State} {f : BitVec 7} {rest : List Byte}
    (ha : s.busAnswers = none) (hw : ∀ b ∈ waits, b.msb = true) (hf : waits.length < s.cfg.nCmd)
    (hs : s.script = waits ++ [0#1 ++ f] ++ rest) :
    poll s = .ok (.r1 f) (s.afterPoll (waits ++ [0#1 ++ f]) (.r1 f) rest) := by
  unfold poll
  rw [update_bind, look_bind, pollLoop_response waits (f := f) (rest := rest) (by exact ha) hw (by exact hf)
    (by simpa [State.setLoops] using hs)]
  simp [State.afterPoll, State.setLoops]

/-- `poll` on a timeout. -/
theorem poll_silence {waits : List Byte} {s : State} {rest : List Byte} (ha : s.busAnswers = none)
    (hw : ∀ b ∈ waits, b.msb = true) (hf : waits.length = s.cfg.nCmd) (hs : s.script = waits ++ rest) :
    poll s = .ok .timeout (s.afterPoll waits .timeout rest) := by
  unfold poll
  rw [update_bind, look_bind, pollLoop_silence waits (rest := rest) (by exact ha) hw (by exact hf) (by exact hs)]
  simp [State.afterPoll, State.setLoops]

theorem length_frameBytes (idx : CmdIndex) (arg : U32) (close : Byte) : (frameBytes idx arg close).length = 6 := rfl

/-- A frame and its poll, whatever the card answers. -/
theorem answer_listed {s : State} {a : Answer} {rest : List Byte} (ha : s.busAnswers = none) (hf : a.fits s.cfg)
    (hs : s.script = a.bytes ++ rest) (idx : CmdIndex) (arg : U32) (close : Byte) :
    ∃ t, frame idx arg close s = .ok () t ∧ poll t = .ok a.resp (s.afterAnswer idx arg close a rest) := by
  obtain ⟨during, waits, flags⟩ := a
  obtain ⟨hd, hw, hn⟩ := hf
  simp only at hd hw
  cases flags with
  | some f =>
    simp only [reduceCtorEq, if_false] at hn
    refine ⟨_, frame_listed ha hd (rest := waits ++ [0#1 ++ f] ++ rest) ?_ idx arg close, ?_⟩
    · simpa [Answer.bytes, Answer.polled] using hs
    · rw [poll_response (by exact ha) hw (by exact hn) rfl]
      simp only [State.afterPoll, State.afterFrame, State.afterAnswer, Answer.events, Answer.resp, Answer.bytes,
        Answer.polled, List.append_assoc]
      rw [exchanges_append _ (by rw [hd, length_frameBytes])]
      simp [hd, Nat.add_assoc]
  | none =>
    simp only [if_true] at hn
    refine ⟨_, frame_listed ha hd (rest := waits ++ rest) ?_ idx arg close, ?_⟩
    · simpa [Answer.bytes, Answer.polled] using hs
    · rw [poll_silence (by exact ha) hw (by exact hn) rfl]
      simp only [State.afterPoll, State.afterFrame, State.afterAnswer, Answer.events, Answer.resp, Answer.bytes,
        Answer.polled, List.append_assoc]
      rw [exchanges_append _ (by rw [hd, length_frameBytes])]
      simp [hd, Nat.add_assoc]

/-- `command`, whatever the card answers (40_protocol_engine.md R143). -/
theorem command_listed {s : State} {b : Bracket} {rest : List Byte} (ha : s.busAnswers = none) (hf : b.fits s.cfg)
    (hs : s.script = b.bytes ++ rest) (idx : CmdIndex) (arg : U32) :
    command idx arg s = .ok b.answer.resp (s.afterCommand idx arg s.cfg.close b rest) := by
  obtain ⟨t, hframe, hpoll⟩ := answer_listed (rest := b.last :: rest) ha hf (by simpa [Bracket.bytes] using hs)
    idx arg s.cfg.close
  have hr : release (s.afterAnswer idx arg s.cfg.close b.answer (b.last :: rest)) =
      .ok () (s.afterCommand idx arg s.cfg.close b rest) := release_listed ha rfl
  unfold command
  rw [look_bind, bind_ok hframe, bind_ok hpoll, bind_ok hr, run_pure]

/-- `commandNoDeselect` on a response. -/
theorem commandNoDeselect_response {s : State} {a : Answer} {rest : List Byte} (ha : s.busAnswers = none)
    (hf : a.fits s.cfg) (hr : a.flags ≠ none) (hs : s.script = a.bytes ++ rest) (idx : CmdIndex) (arg : U32) :
    commandNoDeselect idx arg s = .ok a.resp (s.afterAnswer idx arg s.cfg.close a rest) := by
  obtain ⟨t, hframe, hpoll⟩ := answer_listed ha hf hs idx arg s.cfg.close
  unfold commandNoDeselect
  rw [look_bind, bind_ok hframe, bind_ok hpoll]
  obtain ⟨f, hflags⟩ := Option.ne_none_iff_exists'.1 hr
  simp [Answer.resp, hflags]

/-- `commandNoDeselect` on a timeout. -/
theorem commandNoDeselect_silence {s : State} {b : Bracket} {rest : List Byte} (ha : s.busAnswers = none)
    (hf : b.fits s.cfg) (hr : b.answer.flags = none) (hs : s.script = b.bytes ++ rest) (idx : CmdIndex) (arg : U32) :
    commandNoDeselect idx arg s = .ok .timeout (s.afterCommand idx arg s.cfg.close b rest) := by
  obtain ⟨t, hframe, hpoll⟩ := answer_listed (rest := b.last :: rest) ha hf (by simpa [Bracket.bytes] using hs)
    idx arg s.cfg.close
  have hrel : release (s.afterAnswer idx arg s.cfg.close b.answer (b.last :: rest)) =
      .ok () (s.afterCommand idx arg s.cfg.close b rest) := release_listed ha rfl
  unfold commandNoDeselect
  rw [look_bind, bind_ok hframe, bind_ok hpoll]
  simp only [Answer.resp, hr]
  rw [bind_ok hrel, run_pure]

/-- The state after `k` trailing bytes. -/
def trailed (k : Nat) (bs rest : List Byte) (s : State) : State :=
  { s with
    loops := { s.loops with trail := k }
    trace := s.trace ++ exchanges s.sel (fillers bs.length) bs
    position := s.position + bs.length
    script := rest }

theorem trailingByte_listed {s : State} (ha : s.busAnswers = none) (k : Nat) (bs : List Byte) (b : Byte)
    (rest : List Byte) :
    trailingByte (trailed k bs (b :: rest) s) = .ok b (trailed (k + 1) (bs ++ [b]) rest s) := by
  unfold trailingByte
  rw [update_bind, xfer_listed (b := b) (rest := rest) (by exact ha) rfl]
  simp only [trailed, bus, State.setLoops, List.length_append, List.length_singleton, fillers_add]
  rw [exchanges_append _ (by simp)]
  simp [fillerByte, Nat.add_assoc]

/-- The four trailing bytes of CMD8 and CMD58. -/
theorem trailingBytes_listed {s : State} {b0 b1 b2 b3 : Byte} {rest : List Byte} (ha : s.busAnswers = none)
    (hs : s.script = b0 :: b1 :: b2 :: b3 :: rest) :
    trailingBytes s = .ok (b0, b1, b2, b3) (trailed 4 [b0, b1, b2, b3] rest s) := by
  have h0 : s.setLoops { s.loops with trail := 0 } = trailed 0 [] (b0 :: b1 :: b2 :: b3 :: rest) s := by
    simp [trailed, State.setLoops, ← hs]
  unfold trailingBytes
  rw [update_bind, h0, bind_ok (trailingByte_listed ha 0 [] b0 _), bind_ok (trailingByte_listed ha 1 _ b1 _),
    bind_ok (trailingByte_listed ha 2 _ b2 _), bind_ok (trailingByte_listed ha 3 _ b3 _), run_pure]
  rfl

/-- The bracket of CMD8 and CMD58 after its frame and poll, on a response. -/
theorem long_response {s : State} {b : LongBracket} {f : BitVec 7} {rest : List Byte} (ha : s.busAnswers = none)
    (hr : b.answer.flags = some f) (idx : CmdIndex) (arg : U32) (close : Byte) :
    ∃ t, trailingBytes (s.afterAnswer idx arg close b.answer (b.trailing ++ b.last :: rest)) =
        .ok (b.t0, b.t1, b.t2, b.t3) t ∧
      release t = .ok () (s.afterLong idx arg close b rest) ∧
      ∀ v, release (t.setOcr v) = .ok () ((s.afterLong idx arg close b rest).setOcr v) := by
  refine ⟨_, trailingBytes_listed (rest := b.last :: rest) (by exact ha)
    (by simp [State.afterAnswer, LongBracket.trailing, hr]), ?_, fun v => ?_⟩
  all_goals
    rw [release_listed (last := b.last) (rest := rest) (by exact ha) rfl]
    simp [State.afterLong, State.afterRelease, State.afterAnswer, State.setOcr, LongBracket.events, LongBracket.bytes,
      LongBracket.trailing, hr, trailed]
    omega

/-- The bracket of CMD8 and CMD58 after its frame and poll, on a timeout. -/
theorem long_silence {s : State} {b : LongBracket} {rest : List Byte} (ha : s.busAnswers = none)
    (hr : b.answer.flags = none) (idx : CmdIndex) (arg : U32) (close : Byte) :
    release (s.afterAnswer idx arg close b.answer (b.trailing ++ b.last :: rest)) =
      .ok () (s.afterLong idx arg close b rest) := by
  rw [release_listed (last := b.last) (rest := rest) (by exact ha)
    (by simp [State.afterAnswer, LongBracket.trailing, hr])]
  simp [State.afterRelease, State.afterAnswer, State.afterLong, LongBracket.events, LongBracket.bytes,
    LongBracket.trailing, Answer.resp, hr]
  omega

/-- `probeInterfaceCondition`, whatever the card answers (40_protocol_engine.md R145). -/
theorem probe_listed {s : State} {b : LongBracket} {rest : List Byte} (ha : s.busAnswers = none) (hf : b.fits s.cfg)
    (hs : s.script = b.bytes ++ rest) :
    probeInterfaceCondition s =
      .ok b.answer.resp (s.afterLong 8 s.cfg.cmd8Arg s.cfg.cmd8Close b rest) := by
  obtain ⟨t, hframe, hpoll⟩ := answer_listed (rest := b.trailing ++ b.last :: rest) ha hf
    (by simpa [LongBracket.bytes] using hs) 8 s.cfg.cmd8Arg s.cfg.cmd8Close
  unfold probeInterfaceCondition
  rw [look_bind, bind_ok hframe, bind_ok hpoll]
  cases hr : b.answer.flags with
  | some f =>
    obtain ⟨u, htrail, hrel, -⟩ := long_response (rest := rest) ha hr 8 s.cfg.cmd8Arg s.cfg.cmd8Close
    simp only [Answer.resp, hr]
    rw [bind_ok htrail, bind_ok hrel, run_pure]
  | none =>
    simp only [Answer.resp, hr]
    rw [bind_ok (long_silence ha hr _ _ _), run_pure]

/-- `readOperatingConditionRegister`, whatever the card answers (R146). -/
theorem readOcr_listed {s : State} {b : LongBracket} {rest : List Byte} (ha : s.busAnswers = none)
    (hf : b.fits s.cfg) (hs : s.script = b.bytes ++ rest) :
    readOperatingConditionRegister s =
      .ok (b.answer.resp, b.ocr s.ocr) ((s.afterLong 58 0 s.cfg.close b rest).setOcr (b.ocr s.ocr)) := by
  obtain ⟨t, hframe, hpoll⟩ := answer_listed (rest := b.trailing ++ b.last :: rest) ha hf
    (by simpa [LongBracket.bytes] using hs) 58 0 s.cfg.close
  unfold readOperatingConditionRegister
  rw [look_bind, bind_ok hframe, bind_ok hpoll]
  cases hr : b.answer.flags with
  | some f =>
    obtain ⟨u, htrail, -, hrel⟩ := long_response (rest := rest) ha hr 58 0 s.cfg.close
    simp only [Answer.resp, hr]
    rw [bind_ok htrail]
    simp only
    rw [update_bind, bind_ok (hrel _), look_bind, run_pure]
    simp [LongBracket.ocr, hr, assembleOcr, State.setOcr]
  | none =>
    simp only [Answer.resp, hr]
    rw [bind_ok (long_silence ha hr _ _ _), look_bind, run_pure]
    simp [LongBracket.ocr, hr, State.afterLong, State.setOcr]

/-! ## Data phases -/

/-- The token loop on bytes that are no token, then the token. -/
theorem tokenLoop_found (skipped : List Byte) {s : State} {rest : List Byte} {fuel : Nat}
    (ha : s.busAnswers = none) (hw : ∀ b ∈ skipped, b ≠ 0xFE) (hf : skipped.length < fuel)
    (hs : s.script = skipped ++ 0xFE :: rest) :
    tokenLoop fuel s = .ok true { s with
      found := true
      loops := { s.loops with token := s.loops.token + (skipped.length + 1) }
      trace := s.trace ++ exchanges s.sel (fillers (skipped.length + 1)) (skipped ++ [0xFE])
      position := s.position + (skipped.length + 1)
      script := rest } := by
  induction skipped generalizing s fuel with
  | nil =>
    obtain _ | fuel := fuel
    · simp at hf
    · unfold tokenLoop
      rw [update_bind, xfer_bind_listed (by exact ha) (by exact hs)]
      simp [bus, State.setLoops, State.setFound, fillerByte, isStartToken, startTokenByte]
  | cons b skipped ih =>
    obtain _ | fuel := fuel
    · simp at hf
    · have hb : isStartToken b = false := decide_eq_false (hw b (List.mem_cons_self ..))
      unfold tokenLoop
      rw [update_bind, xfer_bind_listed (by exact ha) (by exact hs), hb]
      simp only [Bool.false_eq_true, if_false]
      rw [ih (by exact ha) (fun c hc => hw c (List.mem_cons_of_mem _ hc)) (by simpa using hf) rfl]
      simp [bus, State.setLoops, fillerByte]
      omega

/-- The token loop when its budget passes without a token. -/
theorem tokenLoop_missing (skipped : List Byte) {s : State} {rest : List Byte} {fuel : Nat}
    (ha : s.busAnswers = none) (hw : ∀ b ∈ skipped, b ≠ 0xFE) (hf : skipped.length = fuel)
    (hs : s.script = skipped ++ rest) :
    tokenLoop fuel s = .ok false { s with
      loops := { s.loops with token := s.loops.token + skipped.length }
      trace := s.trace ++ exchanges s.sel (fillers skipped.length) skipped
      position := s.position + skipped.length
      script := rest } := by
  induction skipped generalizing s fuel with
  | nil =>
    subst hf
    obtain rfl : s.script = rest := by simpa using hs
    simp [tokenLoop]
  | cons b skipped ih =>
    subst hf
    have hb : isStartToken b = false := decide_eq_false (hw b (List.mem_cons_self ..))
    simp only [List.length_cons, tokenLoop]
    rw [update_bind, xfer_bind_listed (by exact ha) (by exact hs), hb]
    simp only [Bool.false_eq_true, if_false]
    rw [ih (by exact ha) (fun c hc => hw c (List.mem_cons_of_mem _ hc)) rfl rfl]
    simp [bus, State.setLoops, fillerByte]
    omega

end Sys2Proof.Laws
end

