-- ==== Sys2Proof/Laws/BringUp.lean ====
section
/-! SUPPORT. What bring-up does when the card's bytes are listed: each part leaves the registers of R170 alone, adds its
events to the trace and takes its bytes from the script. -/

namespace Sys2Proof.Laws

open Sys2Proof.Machine

/-- The engine has run from `s` to `t` inside bring-up, with these bus events and this script left. -/
structure Ran (s t : State) (es : List BusEvent) (rest : List Byte) : Prop where
  frame : BringUpFrame s t
  divisor : t.divisor = s.divisor
  br : t.br = s.br
  trace : t.trace = s.trace ++ es
  script : t.script = rest
  bus : t.busAnswers = none

theorem BringUpFrame.refl (s : State) : BringUpFrame s s := by constructor <;> rfl

theorem BringUpFrame.trans {s t u : State} (h : BringUpFrame s t) (k : BringUpFrame t u) : BringUpFrame s u where
  initialized := k.initialized.trans h.initialized
  sectorCount := k.sectorCount.trans h.sectorCount
  csd := k.csd.trans h.csd
  scratch := k.scratch.trans h.scratch
  map := k.map.trans h.map
  found := k.found.trans h.found
  drt := k.drt.trans h.drt
  completion := k.completion.trans h.completion
  cfg := k.cfg.trans h.cfg
  top := k.top.trans h.top
  req := k.req.trans h.req
  mem := k.mem.trans h.mem
  inbox := k.inbox.trans h.inbox
  hostKeepsDuties := k.hostKeepsDuties.trans h.hostKeepsDuties

theorem Ran.trans {s t u : State} {es fs : List BusEvent} {mid rest : List Byte} (h : Ran s t es mid)
    (k : Ran t u fs rest) : Ran s u (es ++ fs) rest where
  frame := BringUpFrame.trans h.frame k.frame
  divisor := k.divisor.trans h.divisor
  br := k.br.trans h.br
  trace := by rw [k.trace, h.trace, List.append_assoc]
  script := k.script
  bus := k.bus

/-- A register write that bring-up is free to make. -/
theorem Ran.loops {s : State} (ha : s.busAnswers = none) (l : LoopCounters) : Ran s (s.setLoops l) [] s.script :=
  ⟨by constructor <;> rfl, rfl, rfl, (List.append_nil _).symm, rfl, ha⟩

theorem Ran.command {s : State} {b : Bracket} {rest : List Byte} (ha : s.busAnswers = none) (hf : b.fits s.cfg)
    (hs : s.script = b.bytes ++ rest) (idx : CmdIndex) (arg : U32) :
    ∃ t, Machine.command idx arg s = .ok b.answer.resp t ∧ Ran s t (b.events idx arg s.cfg.close) rest ∧
      t.sel = false ∧ t.loops.attempt = s.loops.attempt := by
  refine ⟨_, command_listed ha hf hs idx arg, ⟨by constructor <;> rfl, rfl, rfl, ?_, rfl, ha⟩, rfl, rfl⟩
  simp [State.afterCommand, State.afterRelease, State.afterAnswer, Bracket.events]

theorem Ran.probe {s : State} {b : LongBracket} {rest : List Byte} (ha : s.busAnswers = none) (hf : b.fits s.cfg)
    (hs : s.script = b.bytes ++ rest) :
    ∃ t, probeInterfaceCondition s = .ok b.answer.resp t ∧
      Ran s t (b.events 8 s.cfg.cmd8Arg s.cfg.cmd8Close) rest ∧ t.sel = false :=
  ⟨_, probe_listed ha hf hs, ⟨by constructor <;> rfl, rfl, rfl, rfl, rfl, ha⟩, rfl⟩

theorem Ran.readOcr {s : State} {b : LongBracket} {rest : List Byte} (ha : s.busAnswers = none) (hf : b.fits s.cfg)
    (hs : s.script = b.bytes ++ rest) :
    ∃ r t, readOperatingConditionRegister s = .ok r t ∧ Ran s t (b.events 58 0 s.cfg.close) rest ∧ t.sel = false ∧
      t.loops.attempt = s.loops.attempt :=
  ⟨_, _, readOcr_listed ha hf hs, ⟨by constructor <;> rfl, rfl, rfl, rfl, rfl, ha⟩, rfl, rfl⟩

/-- CMD55 and CMD41 (30_encoding.md R131). -/
theorem Ran.acmd41 {s : State} {b c : Bracket} {rest : List Byte} (ha : s.busAnswers = none) (hb : b.fits s.cfg)
    (hc : c.fits s.cfg) (hs : s.script = b.bytes ++ c.bytes ++ rest) (arg : U32) :
    ∃ t, Machine.acmd41 arg s = .ok c.answer.resp t ∧
      Ran s t (b.events 55 0 s.cfg.close ++ c.events 41 arg s.cfg.close) rest ∧ t.sel = false ∧
      t.loops.attempt = s.loops.attempt := by
  obtain ⟨t, h1, r1, -, l1⟩ := Ran.command (rest := c.bytes ++ rest) ha hb (by simpa using hs) 55 0
  have hcfg := r1.frame.cfg
  obtain ⟨u, h2, r2, s2, l2⟩ := Ran.command (rest := rest) r1.bus (hcfg ▸ hc) r1.script 41 arg
  rw [hcfg] at r2
  exact ⟨u, (bind_ok h1 _).trans h2, r1.trans r2, s2, l2.trans l1⟩

/-- The unconditional resets (41_bringup.md R161). -/
theorem Ran.resetLoop (resets : List Bracket) {s : State} {rest : List Byte} (ha : s.busAnswers = none)
    (hf : ∀ b ∈ resets, b.fits s.cfg) (hs : s.script = resets.flatMap Bracket.bytes ++ rest) :
    ∃ t, Machine.resetLoop resets.length s = .ok () t ∧ Ran s t (resetEvents s.cfg resets) rest := by
  induction resets generalizing s with
  | nil =>
    obtain rfl : s.script = rest := by simpa using hs
    exact ⟨s, rfl, BringUpFrame.refl s, rfl, rfl, (List.append_nil _).symm, rfl, ha⟩
  | cons b resets ih =>
    obtain ⟨t, h1, r1, -, -⟩ := Ran.command (s := s.setLoops { s.loops with reset := s.loops.reset + 1 })
      (rest := resets.flatMap Bracket.bytes ++ rest) ha (hf b (List.mem_cons_self ..)) (by simpa [State.setLoops] using hs) 0 0
    have r1 : Ran s t (b.events 0 0 s.cfg.close) _ := (Ran.loops ha _).trans r1
    have hcfg := r1.frame.cfg
    obtain ⟨u, h2, r2⟩ := ih r1.bus (fun c hc => hcfg ▸ hf c (List.mem_cons_of_mem _ hc)) r1.script
    refine ⟨u, ?_, ?_⟩
    · simp only [List.length_cons, Machine.resetLoop]
      rw [update_bind, bind_ok h1, h2]
    · rw [hcfg] at r2
      exact r1.trans r2

/-- The response of an answer is R1(0x00) only when its flags are. -/
theorem resp_eq_r1 {a : Answer} {f : BitVec 7} : a.resp = .r1 f ↔ a.flags = some f := by
  unfold Answer.resp
  cases a.flags <;> simp

/-- How the two attempt loops end: in READY with the divisor of the path, or in FAILED. -/
structure Settled (s t : State) (br : BringUpState) (es : List BusEvent) (rest : List Byte) : Prop where
  frame : BringUpFrame s t
  br : t.br = br
  trace : t.trace = s.trace ++ es
  script : t.script = rest
  bus : t.busAnswers = none
  sel : t.sel = false

theorem Ran.settled {s t u : State} {es fs : List BusEvent} {mid rest : List Byte} {br : BringUpState}
    (h : Ran s t es mid) (k : Settled t u br fs rest) : Settled s u br (es ++ fs) rest where
  frame := BringUpFrame.trans h.frame k.frame
  br := k.br
  trace := by rw [k.trace, h.trace, List.append_assoc]
  script := k.script
  bus := k.bus
  sel := k.sel

/-- One attempt of V1, from the counter on. -/
theorem Ran.v1Attempt {s : State} {a : V1Attempt} {rest : List Byte} (ha : s.busAnswers = none) (hf : a.fits s.cfg)
    (hs : s.script = a.bytes ++ rest) :
    ∃ t, Machine.acmd41 0 (s.setLoops { s.loops with attempt := s.loops.attempt + 1 }) = .ok a.cmd41.answer.resp t ∧
      Ran s t (a.events s.cfg) rest ∧ t.sel = false := by
  obtain ⟨t, h, r, hsel, -⟩ := Ran.acmd41 (s := s.setLoops { s.loops with attempt := s.loops.attempt + 1 }) (rest := rest)
    ha hf.1 hf.2 (by simpa [State.setLoops, V1Attempt.bytes] using hs) 0
  exact ⟨t, h, (Ran.loops ha _).trans r, hsel⟩

/-- The V1 loop that ends in READY (R163). -/
theorem v1Loop_ready (failed : List V1Attempt) {s : State} {ready : V1Attempt} {rest : List Byte} {fuel : Nat}
    (ha : s.busAnswers = none) (hn : failed.length < fuel)
    (hf : ∀ a ∈ failed, a.fits s.cfg ∧ a.cmd41.answer.flags ≠ some 0) (hr : ready.fits s.cfg)
    (hz : ready.cmd41.answer.flags = some 0)
    (hs : s.script = failed.flatMap V1Attempt.bytes ++ ready.bytes ++ rest) :
    ∃ t, v1Loop fuel s = .ok () t ∧
      Settled s t .ready (failed.flatMap (V1Attempt.events s.cfg) ++ ready.events s.cfg) rest ∧
      t.divisor = 512 := by
  induction failed generalizing s fuel with
  | nil =>
    obtain _ | fuel := fuel
    · simp at hn
    · obtain ⟨t, h, r, hsel⟩ := Ran.v1Attempt (rest := rest) ha hr (by simpa using hs)
      have hresp : ready.cmd41.answer.resp = r1Ready := resp_eq_r1.2 hz
      refine ⟨(t.setDivisor 512).setBr .ready, ?_, ?_, rfl⟩
      · unfold v1Loop
        rw [update_bind, bind_ok h, hresp]
        rfl
      · have k : Settled t ((t.setDivisor 512).setBr .ready) .ready [] rest :=
          ⟨by constructor <;> rfl, rfl, (List.append_nil _).symm, r.script, r.bus, hsel⟩
        simpa using r.settled k
  | cons a failed ih =>
    obtain _ | fuel := fuel
    · simp at hn
    · have hfa := hf a (List.mem_cons_self ..)
      obtain ⟨t, h, r, -⟩ := Ran.v1Attempt (rest := failed.flatMap V1Attempt.bytes ++ ready.bytes ++ rest) ha hfa.1
        (by simpa using hs)
      have hresp : a.cmd41.answer.resp ≠ r1Ready := fun hc => hfa.2 (resp_eq_r1.1 hc)
      have hcfg := r.frame.cfg
      obtain ⟨u, h2, k, hd⟩ := ih (fuel := fuel) r.bus (by simpa using hn)
        (fun c hc => hcfg ▸ hf c (List.mem_cons_of_mem _ hc)) (hcfg ▸ hr) r.script
      rw [hcfg] at k
      refine ⟨u, ?_, by simpa using r.settled k, hd⟩
      unfold v1Loop
      rw [update_bind, bind_ok h, if_neg hresp, h2]

/-- The V1 loop that spends its attempts (R163, R168). -/
theorem v1Loop_failed (as : List V1Attempt) {s : State} {rest : List Byte} (ha : s.busAnswers = none)
    (hf : ∀ a ∈ as, a.fits s.cfg ∧ a.cmd41.answer.flags ≠ some 0) (hsel : s.sel = false)
    (hs : s.script = as.flatMap V1Attempt.bytes ++ rest) :
    ∃ t, v1Loop as.length s = .error (.raised .protocolTimeout) t ∧
      Settled s t .failed (as.flatMap (V1Attempt.events s.cfg)) rest := by
  induction as generalizing s with
  | nil =>
    obtain rfl : s.script = rest := by simpa using hs
    exact ⟨s.setBr .failed, rfl, by constructor <;> rfl, rfl, (List.append_nil _).symm, rfl, ha, hsel⟩
  | cons a as ih =>
    have hfa := hf a (List.mem_cons_self ..)
    obtain ⟨t, h, r, hsel'⟩ := Ran.v1Attempt (rest := as.flatMap V1Attempt.bytes ++ rest) ha hfa.1 (by simpa using hs)
    have hresp : a.cmd41.answer.resp ≠ r1Ready := fun hc => hfa.2 (resp_eq_r1.1 hc)
    have hcfg := r.frame.cfg
    obtain ⟨u, h2, k⟩ := ih r.bus (fun c hc => hcfg ▸ hf c (List.mem_cons_of_mem _ hc)) hsel' r.script
    rw [hcfg] at k
    refine ⟨u, ?_, by simpa using r.settled k⟩
    simp only [List.length_cons, v1Loop]
    rw [update_bind, bind_ok h, if_neg hresp, h2]

/-- The wait of an attempt (R164, R310): none before the first. -/
def attemptWait (p : Params) (first : Bool) : List BusEvent := if first then [] else [.wait p.v2WaitMs]

/-- What follows the answer to CMD41 on the V2 path: one more CMD58 and READY, or the next attempt. -/
def v2After (fuel : Nat) (r : Resp) : M Unit :=
  if r = r1Ready then do
    let _ ← readOperatingConditionRegister
    update (State.setDivisor 1)
    update (State.setBr .ready)
  else v2Loop fuel

/-- CMD58, CMD55 and CMD41 of one attempt. -/
theorem v2Commands_listed {s : State} {a : V2Attempt} {rest : List Byte} (ha : s.busAnswers = none)
    (hf : a.fits s.cfg) (hs : s.script = a.bytes ++ rest) (k : Resp → M Unit) :
    ∃ t, (do
        let _ ← readOperatingConditionRegister
        let r ← Machine.acmd41 (← look fun s => s.cfg.hcsArg)
        k r) s = k a.cmd41.answer.resp t ∧
      Ran s t (a.events s.cfg) rest ∧ t.sel = false ∧ t.loops.attempt = s.loops.attempt := by
  obtain ⟨r, t, h1, r1, -, l1⟩ := Ran.readOcr (rest := a.cmd55.bytes ++ a.cmd41.bytes ++ rest) ha hf.1
    (by simpa [V2Attempt.bytes] using hs)
  have hcfg := r1.frame.cfg
  obtain ⟨u, h2, r2, s2, l2⟩ := Ran.acmd41 r1.bus (hcfg ▸ hf.2.1) (hcfg ▸ hf.2.2) r1.script t.cfg.hcsArg
  refine ⟨u, ?_, ?_, s2, l2.trans l1⟩
  · rw [bind_ok h1, look_bind, bind_ok h2]
  · rw [hcfg] at r2
    simpa [V2Attempt.events] using r1.trans r2

/-- One attempt of V2 (R164). -/
theorem v2Loop_attempt {s : State} {a : V2Attempt} {rest : List Byte} (ha : s.busAnswers = none) (hf : a.fits s.cfg)
    (hs : s.script = a.bytes ++ rest) (fuel : Nat) :
    ∃ t, v2Loop (fuel + 1) s = v2After fuel a.cmd41.answer.resp t ∧
      Ran s t (attemptWait s.cfg (decide (s.loops.attempt = 0)) ++ a.events s.cfg) rest ∧ t.sel = false ∧
      t.loops.attempt = s.loops.attempt + 1 := by
  have h0 := Ran.loops ha { s.loops with attempt := s.loops.attempt + 1 }
  generalize hu : s.setLoops { s.loops with attempt := s.loops.attempt + 1 } = u at h0
  have hua : u.loops.attempt = s.loops.attempt + 1 := by rw [← hu]; rfl
  have hcfg := h0.frame.cfg
  by_cases hz : s.loops.attempt = 0
  · obtain ⟨t, h, r, hsel, hl⟩ := v2Commands_listed h0.bus (hcfg ▸ hf) (h0.script.trans hs) (v2After fuel)
    refine ⟨t, ?_, ?_, hsel, hl.trans hua⟩
    · unfold v2Loop
      rw [update_bind, look_bind, hu, if_neg (by omega)]
      exact h
    · rw [hcfg] at r
      simpa [attemptWait, hz] using h0.trans r
  · have hw : Ran u (u.logWait u.cfg.v2WaitMs) [.wait s.cfg.v2WaitMs] u.script :=
      ⟨by constructor <;> rfl, rfl, rfl, by rw [← hcfg]; rfl, rfl, h0.bus⟩
    have hwcfg := hw.frame.cfg
    obtain ⟨t, h, r, hsel, hl⟩ := v2Commands_listed (s := u.logWait u.cfg.v2WaitMs) hw.bus (hwcfg ▸ hcfg ▸ hf)
      (hw.script.trans (h0.script.trans hs)) (v2After fuel)
    refine ⟨t, ?_, ?_, hsel, hl.trans hua⟩
    · unfold v2Loop
      rw [update_bind, look_bind, hu, if_pos (by omega), look_bind, bind_ok (wait_runs h0.bus _)]
      exact h
    · have he : a.events (u.logWait u.cfg.v2WaitMs).cfg = a.events s.cfg := by rw [hwcfg, hcfg]
      rw [he] at r
      simpa [attemptWait, hz] using h0.trans (hw.trans r)

/-- The events of several attempts when some came before: a wait before each. -/
theorem v2Events_cons (p : Params) (a : V2Attempt) (as : List V2Attempt) :
    v2Events p (a :: as) = a.events p ++ as.flatMap fun b => .wait p.v2WaitMs :: b.events p := by
  induction as generalizing a with
  | nil => simp [v2Events]
  | cons b as ih => simp [v2Events, ih]

/-- The events of the attempts from `n` attempts on. -/
def v2From (p : Params) (n : Nat) (as : List V2Attempt) : List BusEvent :=
  if n = 0 then v2Events p as else as.flatMap fun b => .wait p.v2WaitMs :: b.events p

theorem v2From_cons (p : Params) (n : Nat) (a : V2Attempt) (as : List V2Attempt) :
    v2From p n (a :: as) = attemptWait p (decide (n = 0)) ++ a.events p ++ v2From p (n + 1) as := by
  unfold v2From attemptWait
  by_cases hn : n = 0
  · simp [hn, v2Events_cons]
  · simp [hn]

/-- The V2 loop that ends in READY, after one more CMD58 (R164). -/
theorem v2Loop_ready (failed : List V2Attempt) {s : State} {ready : V2Attempt} {latch : LongBracket}
    {rest : List Byte} {fuel : Nat} (ha : s.busAnswers = none) (hn : failed.length < fuel)
    (hf : ∀ a ∈ failed, a.fits s.cfg ∧ a.cmd41.answer.flags ≠ some 0) (hr : ready.fits s.cfg)
    (hz : ready.cmd41.answer.flags = some 0) (hl : latch.fits s.cfg)
    (hs : s.script = failed.flatMap V2Attempt.bytes ++ ready.bytes ++ latch.bytes ++ rest) :
    ∃ t, v2Loop fuel s = .ok () t ∧
      Settled s t .ready (v2From s.cfg s.loops.attempt (failed ++ [ready]) ++ latch.events 58 0 s.cfg.close) rest ∧
      t.divisor = 1 := by
  induction failed generalizing s fuel with
  | nil =>
    obtain _ | fuel := fuel
    · simp at hn
    · obtain ⟨t, h, r, -, -⟩ := v2Loop_attempt (rest := latch.bytes ++ rest) ha hr (by simpa using hs) fuel
      have hresp : ready.cmd41.answer.resp = r1Ready := resp_eq_r1.2 hz
      have hcfg := r.frame.cfg
      obtain ⟨x, u, h2, r2, hsel, -⟩ := Ran.readOcr r.bus (hcfg ▸ hl) r.script
      rw [hcfg] at r2
      refine ⟨(u.setDivisor 1).setBr .ready, ?_, ?_, rfl⟩
      · rw [h, hresp]
        unfold v2After
        rw [if_pos rfl, bind_ok h2]
        rfl
      · have k : Settled u ((u.setDivisor 1).setBr .ready) .ready [] rest :=
          ⟨by constructor <;> rfl, rfl, (List.append_nil _).symm, r2.script, r2.bus, hsel⟩
        have k2 := (r.trans r2).settled k
        rw [List.nil_append, v2From_cons]
        simpa [v2From] using k2
  | cons a failed ih =>
    obtain _ | fuel := fuel
    · simp at hn
    · have hfa := hf a (List.mem_cons_self ..)
      obtain ⟨t, h, r, -, hat⟩ := v2Loop_attempt
        (rest := failed.flatMap V2Attempt.bytes ++ ready.bytes ++ latch.bytes ++ rest) ha hfa.1 (by simpa using hs) fuel
      have hresp : a.cmd41.answer.resp ≠ r1Ready := fun hc => hfa.2 (resp_eq_r1.1 hc)
      have hcfg := r.frame.cfg
      obtain ⟨u, h2, k, hd⟩ := ih (fuel := fuel) r.bus (by simpa using hn)
        (fun c hc => hcfg ▸ hf c (List.mem_cons_of_mem _ hc)) (hcfg ▸ hr) (hcfg ▸ hl) r.script
      rw [hcfg, hat] at k
      refine ⟨u, ?_, ?_, hd⟩
      · rw [h]
        unfold v2After
        rw [if_neg hresp, h2]
      · rw [List.cons_append, v2From_cons]
        simpa using r.settled k

/-- The V2 loop that spends its attempts (R164, R168). -/
theorem v2Loop_failed (as : List V2Attempt) {s : State} {rest : List Byte} (ha : s.busAnswers = none)
    (hf : ∀ a ∈ as, a.fits s.cfg ∧ a.cmd41.answer.flags ≠ some 0) (hsel : s.sel = false)
    (hs : s.script = as.flatMap V2Attempt.bytes ++ rest) :
    ∃ t, v2Loop as.length s = .error (.raised .protocolTimeout) t ∧
      Settled s t .failed (v2From s.cfg s.loops.attempt as) rest := by
  induction as generalizing s with
  | nil =>
    obtain rfl : s.script = rest := by simpa using hs
    exact ⟨s.setBr .failed, rfl, by constructor <;> rfl, rfl, by simp [v2From, v2Events, State.setBr], rfl, ha, hsel⟩
  | cons a as ih =>
    have hfa := hf a (List.mem_cons_self ..)
    obtain ⟨t, h, r, hsel', hat⟩ := v2Loop_attempt (rest := as.flatMap V2Attempt.bytes ++ rest) ha hfa.1
      (by simpa using hs) as.length
    have hresp : a.cmd41.answer.resp ≠ r1Ready := fun hc => hfa.2 (resp_eq_r1.1 hc)
    have hcfg := r.frame.cfg
    obtain ⟨u, h2, k⟩ := ih r.bus (fun c hc => hcfg ▸ hf c (List.mem_cons_of_mem _ hc)) hsel' r.script
    rw [hcfg, hat] at k
    refine ⟨u, ?_, ?_⟩
    · rw [List.length_cons, h]
      unfold v2After
      rw [if_neg hresp, h2]
    · rw [v2From_cons]
      simpa using r.settled k

/-- From the entry of bring-up to the answer of the checked reset (R161). -/
theorem resets_listed {s : State} {resets : List Bracket} {checked : Bracket} {rest : List Byte}
    (ha : s.busAnswers = none) (hn : resets.length = s.cfg.nResetPre) (hf : ∀ b ∈ resets, b.fits s.cfg)
    (hc : checked.fits s.cfg) (hs : s.script = resets.flatMap Bracket.bytes ++ checked.bytes ++ rest)
    (k : Resp → M Unit) :
    ∃ t, (do
        update (State.setBr .reset)
        update fun s => s.setLoops { s.loops with reset := 0 }
        Machine.resetLoop (← look fun s => s.cfg.nResetPre)
        let r ← command 0 0
        k r) s = k checked.answer.resp t ∧
      BringUpFrame s t ∧ t.trace = s.trace ++ resetEvents s.cfg (resets ++ [checked]) ∧ t.script = rest ∧
      t.busAnswers = none ∧ t.sel = false := by
  generalize hu : (s.setBr .reset).setLoops { (s.setBr .reset).loops with reset := 0 } = u
  have hframe : BringUpFrame s u := by subst hu; constructor <;> rfl
  have hcfg := hframe.cfg
  obtain ⟨t, h1, r1⟩ := Ran.resetLoop (s := u) resets (rest := checked.bytes ++ rest) (by subst hu; exact ha)
    (fun b hb => hcfg ▸ hf b hb) (by subst hu; simpa [State.setLoops, State.setBr] using hs)
  have hcfg1 := r1.frame.cfg
  obtain ⟨v, h2, r2, hsel, -⟩ := Ran.command (rest := rest) r1.bus (hcfg1 ▸ hcfg ▸ hc) r1.script 0 0
  have r3 := r1.trans r2
  refine ⟨v, ?_, BringUpFrame.trans hframe r3.frame, ?_, r3.script, r3.bus, hsel⟩
  · rw [update_bind, update_bind, hu, look_bind, hcfg, ← hn, bind_ok h1, bind_ok h2]
  · rw [r3.trace, hcfg1, hcfg]
    have : u.trace = s.trace := by subst hu; rfl
    simp [this, resetEvents]

/-- A card that takes every transition to READY (R160). -/
theorem bringUp_ready {s : State} {a : BringUpAnswer} {rest : List Byte} (ha : s.busAnswers = none)
    (hf : a.fits s.cfg) (hs : s.script = a.bytes ++ rest) :
    ∃ t, bringUp s = .ok () t ∧ t.br = .ready ∧ t.divisor = a.path.divisor ∧
        t.trace = s.trace ++ a.events s.cfg ∧ t.sel = false ∧ t.script = rest ∧ t.busAnswers = none ∧ BringUpFrame s t := by
  obtain ⟨resets, checked, probe, path⟩ := a
  obtain ⟨hn, hfr, hfc, hflags, hfp, hpflags, hpath⟩ := hf
  obtain ⟨t, h1, fr1, tr1, sc1, ba1, sel1⟩ := resets_listed (checked := checked) (rest := probe.bytes ++ path.bytes ++ rest) ha hn hfr hfc
    (by simpa [BringUpAnswer.bytes] using hs) (fun r => if r = r1Idle then do
    update (State.setBr .versionProbe)
    versionProbe
  else failBringUp (rejection r))
  have e1 : checked.answer.resp = r1Idle := resp_eq_r1.2 hflags
  rw [e1, if_pos rfl, update_bind] at h1
  have hcfg1 := fr1.cfg
  obtain ⟨u, h2, r2, sel2⟩ := Ran.probe (s := t.setBr .versionProbe) (rest := path.bytes ++ rest) ba1 (show probe.fits t.cfg from hcfg1 ▸ hfp) (by simpa [State.setBr] using sc1)
  have hcfg2 : u.cfg = s.cfg := r2.frame.cfg.trans hcfg1
  have fr2 : BringUpFrame s u := BringUpFrame.trans fr1 (BringUpFrame.trans (by constructor <;> rfl) r2.frame)
  have tr2 : u.trace = s.trace ++ (resetEvents s.cfg (resets ++ [checked]) ++ probe.events 8 s.cfg.cmd8Arg s.cfg.cmd8Close) := by
    rw [r2.trace]
    show t.trace ++ LongBracket.events 8 t.cfg.cmd8Arg t.cfg.cmd8Close probe = _
    rw [tr1, hcfg1, List.append_assoc]
  have hb : bringUp s = versionProbe (t.setBr .versionProbe) := h1
  cases path with
  | v1 failed ready =>
    obtain ⟨hp1, hp2, hp3, hp4⟩ := hpath
    have e2 : probe.answer.resp = r1IdleIllegal := resp_eq_r1.2 hpflags
    have q := Ran.loops (s := u.setBr .v1Path) r2.bus { u.loops with attempt := 0 }
    obtain ⟨w, h3, k, hd⟩ := v1Loop_ready failed (s := (u.setBr .v1Path).setLoops { u.loops with attempt := 0 }) (ready := ready) (rest := rest) (fuel := u.cfg.nReady)
      r2.bus (by rw [hcfg2]; exact hp1) (fun c hc => (show c.fits u.cfg ∧ _ from hcfg2 ▸ hp2 c hc)) (show ready.fits u.cfg from hcfg2 ▸ hp3) hp4
      (by simpa [State.setBr, State.setLoops, PathAnswer.bytes] using r2.script)
    refine ⟨w, ?_, k.br, hd, ?_, k.sel, k.script, k.bus, BringUpFrame.trans fr2 (BringUpFrame.trans (by constructor <;> rfl) k.frame)⟩
    · rw [hb]; unfold versionProbe
      rw [bind_ok h2, e2, if_neg (by decide), if_pos rfl, update_bind]
      unfold v1Path
      rw [update_bind, look_bind]
      exact h3
    · rw [k.trace]
      show u.trace ++ (List.flatMap (V1Attempt.events u.cfg) failed ++ V1Attempt.events u.cfg ready) = _
      rw [tr2, hcfg2]
      simp [BringUpAnswer.events, PathAnswer.events]
  | v2 failed ready latch =>
    obtain ⟨hp1, hp2, hp3, hp4, hp5⟩ := hpath
    have e2 : probe.answer.resp = r1Idle := resp_eq_r1.2 hpflags
    obtain ⟨w, h3, k, hd⟩ := v2Loop_ready failed (s := (u.setBr .v2Path).setLoops { u.loops with attempt := 0 }) (ready := ready) (latch := latch) (rest := rest) (fuel := u.cfg.nReady)
      r2.bus (by rw [hcfg2]; exact hp1) (fun c hc => (show c.fits u.cfg ∧ _ from hcfg2 ▸ hp2 c hc)) (show ready.fits u.cfg from hcfg2 ▸ hp3) hp4 (show latch.fits u.cfg from hcfg2 ▸ hp5)
      (by simpa [State.setBr, State.setLoops, PathAnswer.bytes] using r2.script)
    refine ⟨w, ?_, k.br, hd, ?_, k.sel, k.script, k.bus, BringUpFrame.trans fr2 (BringUpFrame.trans (by constructor <;> rfl) k.frame)⟩
    · rw [hb]; unfold versionProbe
      rw [bind_ok h2, e2, if_pos rfl, update_bind]
      unfold v2Path
      rw [update_bind, look_bind]
      exact h3
    · rw [k.trace]
      show u.trace ++ (v2From u.cfg 0 (failed ++ [ready]) ++ latch.events 58 0 u.cfg.close) = _
      rw [tr2, hcfg2]
      simp [BringUpAnswer.events, PathAnswer.events, v2From]

/-- After the checked reset and the probe (R161, R162). -/
theorem probed_listed {s : State} {resets : List Bracket} {checked : Bracket} {probe : LongBracket} {rest : List Byte}
    (ha : s.busAnswers = none) (hr : ResetsFit s.cfg resets checked) (hc : checked.answer.flags = some 0x01)
    (hp : probe.fits s.cfg)
    (hs : s.script = resets.flatMap Bracket.bytes ++ checked.bytes ++ probe.bytes ++ rest) :
    ∃ u, bringUp s = (if probe.answer.resp = r1Idle then do
          update (State.setBr .v2Path)
          v2Path
        else if probe.answer.resp = r1IdleIllegal then do
          update (State.setBr .v1Path)
          v1Path
        else failBringUp (rejection probe.answer.resp)) u ∧
      BringUpFrame s u ∧ u.sel = false ∧ u.script = rest ∧ u.busAnswers = none ∧
      u.trace = s.trace ++ resetEvents s.cfg (resets ++ [checked]) ++ probe.events 8 s.cfg.cmd8Arg s.cfg.cmd8Close := by
  obtain ⟨t, h1, fr1, tr1, sc1, ba1, sel1⟩ := resets_listed (rest := probe.bytes ++ rest) ha hr.1 hr.2.1 hr.2.2
    (by simpa using hs) (fun r => if r = r1Idle then do
      update (State.setBr .versionProbe)
      versionProbe
    else failBringUp (rejection r))
  rw [if_pos (show checked.answer.resp = r1Idle from resp_eq_r1.2 hc), update_bind] at h1
  have hb : bringUp s = versionProbe (t.setBr .versionProbe) := h1
  have hcfg1 := fr1.cfg
  obtain ⟨u, h2, r2, sel2⟩ := Ran.probe (s := t.setBr .versionProbe) (rest := rest) ba1
    (show probe.fits t.cfg from hcfg1 ▸ hp) (by simpa [State.setBr] using sc1)
  refine ⟨u, ?_, BringUpFrame.trans fr1 (BringUpFrame.trans (by constructor <;> rfl) r2.frame), sel2, r2.script, r2.bus, ?_⟩
  · rw [hb]
    unfold versionProbe
    rw [bind_ok h2]
  · rw [r2.trace]
    show t.trace ++ LongBracket.events 8 t.cfg.cmd8Arg t.cfg.cmd8Close probe = _
    rw [tr1, hcfg1]

theorem rejection_cause (a : Answer) : (rejection a.resp).cause = a.cause := by
  unfold Answer.resp Answer.cause
  cases a.flags <;> simp [rejection, Err.cause]

/-- A card that takes a transition to FAILED (R160, R168). -/
theorem bringUp_fails {s : State} {f : BringUpFailure} {rest : List Byte} (ha : s.busAnswers = none) (hf : f.fits s.cfg)
    (hs : s.script = f.bytes ++ rest) :
    ∃ e t, bringUp s = .error (.raised e) t ∧ e.cause = f.cause ∧ t.br = .failed ∧ t.trace = s.trace ++ f.events s.cfg ∧
      t.sel = false ∧ t.script = rest ∧ t.busAnswers = none ∧ BringUpFrame s t := by
  cases f with
  | reset resets checked =>
    obtain ⟨hr, hc⟩ := hf
    obtain ⟨t, h1, fr1, tr1, sc1, ba1, sel1⟩ := resets_listed (rest := rest) ha hr.1 hr.2.1 hr.2.2 hs (fun r => if r = r1Idle then do
        update (State.setBr .versionProbe)
        versionProbe
      else failBringUp (rejection r))
    rw [if_neg (show ¬ checked.answer.resp = r1Idle from fun h => hc (resp_eq_r1.1 h))] at h1
    exact ⟨_, _, h1.trans rfl, rejection_cause _, rfl, tr1, sel1, sc1, ba1, BringUpFrame.trans fr1 (by constructor <;> rfl)⟩
  | probe resets checked probed =>
    obtain ⟨hr, hc, hp, h1, h5⟩ := hf
    obtain ⟨u, hu, fr, hsel, hsc, hba, htr⟩ := probed_listed (rest := rest) ha hr hc hp hs
    rw [if_neg (show ¬ probed.answer.resp = r1Idle from fun h => h1 (resp_eq_r1.1 h)),
      if_neg (show ¬ probed.answer.resp = r1IdleIllegal from fun h => h5 (resp_eq_r1.1 h))] at hu
    exact ⟨_, _, hu.trans rfl, rejection_cause _, rfl, htr.trans (List.append_assoc _ _ _), hsel, hsc, hba,
      BringUpFrame.trans fr (by constructor <;> rfl)⟩
  | v1 resets checked probed as =>
    obtain ⟨hr, hc, hp, h5, hl, hfa⟩ := hf
    obtain ⟨u, hu, fr, hsel, hsc, hba, htr⟩ := probed_listed (rest := as.flatMap V1Attempt.bytes ++ rest) ha hr hc hp
      (by simpa [BringUpFailure.bytes] using hs)
    have hcfg := fr.cfg
    obtain ⟨w, h3, k⟩ := v1Loop_failed as (s := (u.setBr .v1Path).setLoops { u.loops with attempt := 0 }) (rest := rest) hba
      (fun c hc => (show c.fits u.cfg ∧ _ from hcfg ▸ hfa c hc)) hsel hsc
    have e5 : probed.answer.resp = r1IdleIllegal := resp_eq_r1.2 h5
    rw [if_neg (by rw [e5]; decide), if_pos e5, update_bind] at hu
    refine ⟨.protocolTimeout, w, ?_, rfl, k.br, ?_, k.sel, k.script, k.bus,
      BringUpFrame.trans fr (BringUpFrame.trans (by constructor <;> rfl) k.frame)⟩
    · rw [hu]
      unfold v1Path
      rw [update_bind, look_bind]
      show v1Loop u.cfg.nReady _ = _
      rw [hcfg, ← hl]
      exact h3
    · rw [k.trace]
      show u.trace ++ List.flatMap (V1Attempt.events u.cfg) as = _
      rw [htr, hcfg]
      simp [BringUpFailure.events]
  | v2 resets checked probed as =>
    obtain ⟨hr, hc, hp, h1, hl, hfa⟩ := hf
    obtain ⟨u, hu, fr, hsel, hsc, hba, htr⟩ := probed_listed (rest := as.flatMap V2Attempt.bytes ++ rest) ha hr hc hp
      (by simpa [BringUpFailure.bytes] using hs)
    have hcfg := fr.cfg
    obtain ⟨w, h3, k⟩ := v2Loop_failed as (s := (u.setBr .v2Path).setLoops { u.loops with attempt := 0 }) (rest := rest) hba
      (fun c hc => (show c.fits u.cfg ∧ _ from hcfg ▸ hfa c hc)) hsel hsc
    rw [if_pos (show probed.answer.resp = r1Idle from resp_eq_r1.2 h1), update_bind] at hu
    refine ⟨.protocolTimeout, w, ?_, rfl, k.br, ?_, k.sel, k.script, k.bus,
      BringUpFrame.trans fr (BringUpFrame.trans (by constructor <;> rfl) k.frame)⟩
    · rw [hu]
      unfold v2Path
      rw [update_bind, look_bind]
      show v2Loop u.cfg.nReady _ = _
      rw [hcfg, ← hl]
      exact h3
    · rw [k.trace]
      show u.trace ++ v2From u.cfg 0 as = _
      rw [htr, hcfg]
      simp [v2From, BringUpFailure.events]

end Sys2Proof.Laws
end

