-- ==== Sys2Proof/Laws/Buffers.lean ====
section
/-! SUPPORT. Byte buffers: what a byte store, an overlay and a slice do to the list of bytes. -/

namespace Sys2Proof.Laws

open Sys2Proof.Machine

theorem toList_setByte {n : Nat} (v : Vector Byte n) (k : Nat) (b : Byte) :
    (setByte v k b).toList = v.toList.set k b := rfl

/-- An overlay replaces exactly the bytes it covers. -/
theorem toList_overlay {n : Nat} (bs : List Byte) (v : Vector Byte n) (off : Nat) (h : off + bs.length ≤ n) :
    (overlay v off bs).toList = v.toList.take off ++ bs ++ v.toList.drop (off + bs.length) := by
  induction bs generalizing v off with
  | nil => simp [overlay]
  | cons b bs ih =>
    have hlen : off < v.toList.length := by simp only [List.length_cons] at h; simp; omega
    rw [overlay, ih _ _ (by simp only [List.length_cons] at h; omega), toList_setByte]
    have hoff : off - min off n = 0 := by simp only [List.length_cons] at h; omega
    rw [List.take_set, List.drop_set_of_lt (by omega), List.take_succ_eq_append_getElem hlen,
      List.set_append_right _ _ (by simp)]
    simp [hoff, Nat.add_assoc, Nat.add_comm 1]

/-- An overlay of the whole buffer is the bytes themselves. -/
theorem overlay_all {n : Nat} (v : Vector Byte n) (w : Vector Byte n) : overlay v 0 w.toList = w := by
  apply Vector.toList_inj.1
  rw [toList_overlay _ _ _ (by simp)]
  simp

theorem length_slice {m : Nat} (v : Vector Byte m) (off n : Nat) (h : off + n ≤ m) : (slice v off n).length = n := by
  simp [slice]; omega

theorem getElem_slice {m : Nat} (v : Vector Byte m) (off n k : Nat) (h : k < (slice v off n).length) :
    (slice v off n)[k] = v.toList.getD (off + k) 0 := by
  have hk : off + k < v.toList.length := by
    simp only [slice, List.length_take, List.length_drop] at h
    omega
  rw [List.getD_eq_getElem _ _ hk]
  simp [slice]

end Sys2Proof.Laws
end

