-- ==== Sys2Proof/Laws/Data.lean ====
section
/-! SUPPORT. What the data phases do when the card's bytes are listed: one lemma each. -/

namespace Sys2Proof.Laws

open Sys2Proof.Machine

/-! ## Reads -/

/-- The bytes `k` and up of a data buffer are replaced. -/
def overlayBuffer (dst : DataBuffer) (k : Nat) (bytes : List Byte) (s : State) : State :=
  match dst with
  | .csd => { s with csd := overlay s.csd k bytes }
  | .scratch => { s with scratch := overlay s.scratch k bytes }

theorem receivePayload_listed (dst : DataBuffer) (data : List Byte) {s : State} {rest : List Byte} {k : Nat}
    (ha : s.busAnswers = none) (hk : s.loops.payload = k) (hs : s.script = data ++ rest) :
    receivePayload dst data.length k s = .ok () (overlayBuffer dst k data { s with
      loops := { s.loops with payload := k + data.length }
      trace := s.trace ++ exchanges s.sel (fillers data.length) data
      position := s.position + data.length
      script := rest }) := by
  induction data generalizing s k with
  | nil =>
    obtain rfl : s.script = rest := by simpa using hs
    subst hk
    cases dst <;> simp [receivePayload, overlayBuffer, overlay]
  | cons b data ih =>
    simp only [List.length_cons, receivePayload]
    rw [xfer_bind_listed ha hs, update_bind, update_bind]
    refine (ih (k := k + 1) (by cases dst <;> exact ha) rfl (by cases dst <;> rfl)).trans ?_
    cases dst <;>
      simp [overlayBuffer, overlay, bus, State.setBufferByte, State.setCsd, State.setScratch, State.setLoops,
        fillerByte] <;> omega

theorem checksumBytes_listed {s : State} {c0 c1 : Byte} {rest : List Byte} (ha : s.busAnswers = none)
    (hs : s.script = c0 :: c1 :: rest) : checksumBytes s = .ok () (bus [0xFF, 0xFF] [c0, c1] rest s) := by
  unfold checksumBytes
  rw [xfer_bind_listed ha hs, xfer_bind_listed (by exact ha) rfl, run_pure]
  simp [bus, fillerByte]

theorem tokenPoll_found {s : State} {skipped rest : List Byte} (ha : s.busAnswers = none)
    (hw : ∀ b ∈ skipped, b ≠ 0xFE) (hf : skipped.length < s.cfg.nToken) (hs : s.script = skipped ++ 0xFE :: rest) :
    tokenPoll s = .ok true { s with
      found := true
      loops := { s.loops with token := skipped.length + 1 }
      trace := s.trace ++ exchanges s.sel (fillers (skipped.length + 1)) (skipped ++ [0xFE])
      position := s.position + (skipped.length + 1)
      script := rest } := by
  unfold tokenPoll
  rw [update_bind, update_bind, look_bind, tokenLoop_found skipped (rest := rest) (by exact ha) hw (by exact hf)
    (by exact hs)]
  simp [State.setLoops, State.setFound]

theorem tokenPoll_missing {s : State} {skipped rest : List Byte} (ha : s.busAnswers = none)
    (hw : ∀ b ∈ skipped, b ≠ 0xFE) (hf : skipped.length = s.cfg.nToken) (hs : s.script = skipped ++ rest) :
    tokenPoll s = .ok false { s with
      found := false
      loops := { s.loops with token := skipped.length }
      trace := s.trace ++ exchanges s.sel (fillers skipped.length) skipped
      position := s.position + skipped.length
      script := rest } := by
  unfold tokenPoll
  rw [update_bind, update_bind, look_bind, tokenLoop_missing skipped (rest := rest) (by exact ha) hw (by exact hf)
    (by exact hs)]
  simp [State.setLoops, State.setFound]

/-- The bytes of a block are those of its three parts. -/
theorem body_events {n : Nat} (d : DataBlock n) :
    exchanges true (fillers d.body.length) d.body =
      exchanges true (fillers (d.skipped.length + 1)) (d.skipped ++ [0xFE]) ++
        (exchanges true (fillers d.data.toList.length) d.data.toList ++ exchanges true [0xFF, 0xFF] [d.c0, d.c1]) := by
  rw [← exchanges_append _ (by simp), ← exchanges_append _ (by simp)]
  simp only [DataBlock.body, List.append_assoc]
  congr 1
  rw [show ([0xFF, 0xFF] : List Byte) = fillers 2 from rfl, ← fillers_add, ← fillers_add]
  congr 1
  simp
  omega

/-- `readData` on a data block (43_block_transfer.md R201). -/
theorem readData_listed {s : State} {dst : DataBuffer} {d : DataBlock dst.length} {rest : List Byte}
    (ha : s.busAnswers = none) (hf : d.fits s.cfg) (hs : s.script = d.bytes ++ rest) :
    readData dst.length dst s = .ok () (s.afterData dst d rest) := by
  have htok := tokenPoll_found (s := selected true s) (skipped := d.skipped)
    (rest := d.data.toList ++ d.c0 :: d.c1 :: d.last :: rest) (by exact ha) hf.2 hf.1
    (by simpa [DataBlock.bytes, DataBlock.body, selected] using hs)
  unfold readData
  rw [sel_bind ha, bind_ok htok]
  simp only [if_true]
  rw [update_bind]
  generalize hu : State.setLoops _ _ = u
  have hpay := receivePayload_listed dst d.data.toList (s := u) (k := 0) (rest := d.c0 :: d.c1 :: d.last :: rest)
    (by subst hu; exact ha) (by subst hu; rfl) (by subst hu; rfl)
  rw [Vector.length_toList] at hpay
  rw [bind_ok hpay, bind_ok (checksumBytes_listed (c0 := d.c0) (c1 := d.c1) (rest := d.last :: rest)
      (by subst hu; cases dst <;> exact ha) (by cases dst <;> rfl)),
    release_listed (last := d.last) (rest := rest) (by subst hu; cases dst <;> exact ha) (by cases dst <;> rfl)]
  have hlen : d.body.length = d.skipped.length + 1 + (dst.length + 2) := by simp [DataBlock.body]; omega
  have hev := body_events d
  subst hu
  cases dst with
  | csd =>
    have hov : overlay s.csd 0 d.data.toList = d.data := overlay_all s.csd d.data
    cases hsel : s.sel <;>
      simp [State.afterData, State.withPayload, State.afterRelease, overlayBuffer, bus, State.setLoops,
        selected, hov, DataBlock.events, hev, hsel, DataBlock.bytes] <;> (congr 1; omega)
  | scratch =>
    have hov : overlay s.scratch 0 d.data.toList = d.data := overlay_all s.scratch d.data
    cases hsel : s.sel <;>
      simp [State.afterData, State.withPayload, State.afterRelease, overlayBuffer, bus, State.setLoops,
        selected, hov, DataBlock.events, hev, hsel, DataBlock.bytes] <;> (congr 1; omega)

/-- `readData` without a token (R201). -/
theorem readData_missing {s : State} {n : Nat} {dst : DataBuffer} {d : NoToken} {rest : List Byte}
    (ha : s.busAnswers = none) (hf : d.fits s.cfg) (hs : s.script = d.bytes ++ rest) :
    readData n dst s = .error (.raised .blockStartMissing) (s.afterNoToken d rest) := by
  have htok := tokenPoll_missing (s := selected true s) (skipped := d.skipped) (rest := d.last :: rest) (by exact ha)
    hf.2 hf.1 (by simpa [NoToken.bytes, selected] using hs)
  unfold readData
  rw [sel_bind ha, bind_ok htok]
  simp only [Bool.false_eq_true, if_false]
  rw [bind_ok (release_listed (last := d.last) (rest := rest) (by exact ha) rfl), run_raise]
  cases hsel : s.sel <;>
    simp [State.afterNoToken, State.afterRelease, selected, NoToken.events, NoToken.bytes, hsel] <;> omega

/-- The R1 check on a response other than 0x00, or on a timeout. -/
def refusedError (flags : Option (BitVec 7)) : Err := if flags = none then .protocolTimeout else .illegalResponse

/-- A command whose answer does not open the data phase: its bracket is closed and its error raised. -/
theorem refused_listed {s : State} {b : Bracket} {rest : List Byte} (ha : s.busAnswers = none) (hf : b.fits s.cfg)
    (hr : b.answer.flags ≠ some 0) (hs : s.script = b.bytes ++ rest) (idx : CmdIndex) (arg : U32) :
    (commandNoDeselect idx arg >>= requireReady) s =
      .error (.raised (refusedError b.answer.flags)) (s.afterCommand idx arg s.cfg.close b rest) := by
  cases hflags : b.answer.flags with
  | none =>
    rw [bind_ok (commandNoDeselect_silence ha hf hflags hs idx arg)]
    simp [requireReady, refusedError]
  | some f =>
    have hf0 : f ≠ 0 := fun h => hr (by rw [hflags, h])
    rw [bind_ok (commandNoDeselect_response (rest := b.last :: rest) ha hf (by simp [hflags])
      (by simpa [Bracket.bytes] using hs) idx arg)]
    simp only [Answer.resp, hflags, requireReady, if_neg hf0]
    rw [bind_ok (release_listed (last := b.last) (rest := rest) (by exact ha) rfl), run_raise]
    simp [refusedError, State.afterCommand]

theorem refused_bind_listed {s : State} {b : Bracket} {rest : List Byte} (ha : s.busAnswers = none)
    (hf : b.fits s.cfg) (hr : b.answer.flags ≠ some 0) (hs : s.script = b.bytes ++ rest) (idx : CmdIndex) (arg : U32)
    {α : Type} (k : M α) :
    (do let r ← commandNoDeselect idx arg
        requireReady r
        k) s =
      .error (.raised (refusedError b.answer.flags)) (s.afterCommand idx arg s.cfg.close b rest) := by
  have h := refused_listed ha hf hr hs idx arg
  rw [run_bind] at h ⊢
  cases hc : commandNoDeselect idx arg s with
  | error e t => rw [hc] at h; simpa using h
  | ok r t => rw [hc] at h; exact bind_error h _

/-- A command answered 0x00 goes on with its data phase. -/
theorem ready_bind_listed {s : State} {a : Answer} {rest : List Byte} (ha : s.busAnswers = none) (hf : a.fits s.cfg)
    (hr : a.flags = some 0) (hs : s.script = a.bytes ++ rest) (idx : CmdIndex) (arg : U32) {α : Type} (k : M α) :
    (do let r ← commandNoDeselect idx arg
        requireReady r
        k) s = k (s.afterAnswer idx arg s.cfg.close a rest) := by
  rw [bind_ok (commandNoDeselect_response ha hf (by simp [hr]) hs idx arg)]
  simp only [Answer.resp, hr, requireReady, if_true]
  rw [pure_bind_run]

/-- A block read at a card address (43_block_transfer.md R202). -/
theorem readBlockFrom_listed {s : State} {a : ReadAnswer 512} {rest : List Byte} (ha : s.busAnswers = none)
    (hf : a.fits s.cfg) (hs : s.script = a.bytes ++ rest) (arg : U32) :
    readBlockFrom arg s = .ok () ((s.afterAnswer 17 arg s.cfg.close a.answer (a.block.bytes ++ rest)).afterData .scratch
      a.block rest) := by
  refine onRaise_ok ?_
  rw [ready_bind_listed (rest := a.block.bytes ++ rest) ha hf.1 hf.2.1 (by simpa [ReadAnswer.bytes] using hs)]
  exact readData_listed (dst := .scratch) (by exact ha) (by exact hf.2.2) rfl

/-- The CSD read (42_register_decoder.md R186). -/
theorem readCSD_listed {s : State} {a : ReadAnswer 16} {rest : List Byte} (ha : s.busAnswers = none)
    (hf : a.fits s.cfg) (hs : s.script = a.bytes ++ rest) :
    readCSD s = .ok () ((s.afterAnswer 9 0 s.cfg.close a.answer (a.block.bytes ++ rest)).afterData .csd a.block rest) := by
  refine onRaise_ok ?_
  rw [ready_bind_listed (rest := a.block.bytes ++ rest) ha hf.1 hf.2.1 (by simpa [ReadAnswer.bytes] using hs)]
  exact readData_listed (dst := .csd) (by exact ha) (by exact hf.2.2) rfl

/-- A CMD9 the card does not answer with 0x00: `CSD` is free from then on (R186). -/
theorem readCSD_refused {s : State} {b : Bracket} {rest : List Byte} (ha : s.busAnswers = none) (hf : b.fits s.cfg)
    (hr : b.answer.flags ≠ some 0) (hs : s.script = b.bytes ++ rest) :
    readCSD s = .error (.raised (refusedError b.answer.flags)) (s.afterCommand 9 0 s.cfg.close b rest).freeCsd :=
  onRaise_raised (refused_bind_listed ha hf hr hs 9 0 _)

/-! ## Writes -/

theorem gapLoop_listed (gap : List Byte) {s : State} {rest : List Byte} (ha : s.busAnswers = none)
    (hs : s.script = gap ++ rest) :
    gapLoop gap.length s = .ok () { s with
      loops := { s.loops with gap := s.loops.gap + gap.length }
      trace := s.trace ++ exchanges s.sel (fillers gap.length) gap
      position := s.position + gap.length
      script := rest } := by
  induction gap generalizing s with
  | nil =>
    obtain rfl : s.script = rest := by simpa using hs
    simp [gapLoop]
  | cons b gap ih =>
    simp only [List.length_cons, gapLoop]
    rw [update_bind, xfer_bind_listed (by exact ha) (by exact hs)]
    refine (ih (by exact ha) rfl).trans ?_
    simp [bus, State.setLoops, fillerByte]
    omega

theorem sendPayload_listed (txs : List Byte) {s : State} {rxs rest : List Byte} (ha : s.busAnswers = none)
    (hl : rxs.length = txs.length) (hs : s.script = rxs ++ rest) :
    sendPayload txs s = .ok () { s with
      loops := { s.loops with payload := s.loops.payload + txs.length }
      trace := s.trace ++ exchanges s.sel txs rxs
      position := s.position + txs.length
      script := rest } := by
  induction txs generalizing s rxs with
  | nil =>
    obtain rfl : rxs = [] := List.length_eq_zero_iff.1 hl
    obtain rfl : s.script = rest := by simpa using hs
    simp [sendPayload]
  | cons tx txs ih =>
    obtain _ | ⟨rx, rxs⟩ := rxs
    · simp at hl
    · simp only [sendPayload]
      rw [xfer_bind_listed ha hs, update_bind]
      refine (ih (rxs := rxs) (by exact ha) (by simpa using hl) rfl).trans ?_
      simp [bus, State.setLoops]
      omega

/-- An accepting token (R204). -/
theorem checkDataResponse_accept {s : State} {b : Byte} {rest : List Byte} (ha : s.busAnswers = none)
    (hb : b.extractLsb' 0 5 = 0b00101#5) (hs : s.script = b :: rest) :
    checkDataResponse s = .ok () ((bus [0xFF] [b] rest s).setDrt b) := by
  have hacc : isAccepted b = true := decide_eq_true hb
  unfold checkDataResponse
  rw [xfer_bind_listed ha hs, update_bind, hacc]
  rfl

/-- A rejecting token: the select goes low with no exchange (R204). -/
theorem checkDataResponse_reject {s : State} {b : Byte} {rest : List Byte} (ha : s.busAnswers = none)
    (hb : b.extractLsb' 0 5 ≠ 0b00101#5) (hs : s.script = b :: rest) :
    checkDataResponse s =
      .error (.raised .writeRejected) (selected false ((bus [0xFF] [b] rest s).setDrt b)) := by
  have hacc : isAccepted b = false := decide_eq_false hb
  unfold checkDataResponse
  rw [xfer_bind_listed ha hs, update_bind, hacc, if_neg (by decide), sel_bind (by exact ha), run_raise]
  rfl

theorem busyLoop_ends (k : Nat) {s : State} {b : Byte} {rest : List Byte} {fuel : Nat} (ha : s.busAnswers = none)
    (hb : b ≠ 0x00) (hf : k < fuel) (hs : s.script = List.replicate k 0x00 ++ b :: rest) :
    busyLoop fuel s = .ok () { s with
      loops := { s.loops with busy := s.loops.busy + (k + 1) }
      trace := s.trace ++ exchanges s.sel (fillers (k + 1)) (List.replicate k 0x00 ++ [b])
      position := s.position + (k + 1)
      script := rest } := by
  induction k generalizing s fuel with
  | zero =>
    obtain _ | fuel := fuel
    · simp at hf
    · have hbusy : isBusy b = false := decide_eq_false hb
      unfold busyLoop
      rw [update_bind, xfer_bind_listed (by exact ha) (by exact hs), hbusy]
      simp [bus, State.setLoops, fillerByte]
  | succ k ih =>
    obtain _ | fuel := fuel
    · simp at hf
    · unfold busyLoop
      rw [update_bind, xfer_bind_listed (b := 0x00) (rest := List.replicate k 0x00 ++ b :: rest) (by exact ha)
        (by simpa [List.replicate_succ, State.setLoops] using hs), show isBusy (0x00 : Byte) = true from rfl]
      simp only [if_true]
      refine (ih (by exact ha) (by omega) rfl).trans ?_
      simp [bus, State.setLoops, fillerByte, List.replicate_succ]
      omega

theorem busyLoop_spent (k : Nat) {s : State} {last : Byte} {rest : List Byte} (ha : s.busAnswers = none)
    (hs : s.script = List.replicate k 0x00 ++ last :: rest) :
    busyLoop k s = .error (.raised .protocolTimeout) (State.afterRelease last rest { s with
      loops := { s.loops with busy := s.loops.busy + k }
      trace := s.trace ++ exchanges s.sel (fillers k) (List.replicate k 0x00)
      position := s.position + k
      script := last :: rest }) := by
  induction k generalizing s with
  | zero =>
    unfold busyLoop
    rw [bind_ok (release_listed ha hs), run_raise]
    simp [State.afterRelease]
  | succ k ih =>
    unfold busyLoop
    rw [update_bind, xfer_bind_listed (b := 0x00) (rest := List.replicate k 0x00 ++ last :: rest) (by exact ha)
      (by simpa [List.replicate_succ, State.setLoops] using hs), show isBusy (0x00 : Byte) = true from rfl]
    simp only [if_true]
    refine (ih (by exact ha) rfl).trans ?_
    simp [bus, State.setLoops, fillerByte, List.replicate_succ, State.afterRelease]
    omega

/-- A list of `g + 515` bytes is a gap of `g`, a byte, 512 bytes and two more. -/
theorem split_sending {sending : List Byte} {g : Nat} (h : sending.length = g + 515) :
    ∃ (gap : List Byte) (tok : Byte) (pay : List Byte) (c0 c1 : Byte),
      sending = gap ++ tok :: (pay ++ [c0, c1]) ∧ gap.length = g ∧ pay.length = 512 := by
  have hd : (sending.drop g).length = 515 := by simp; omega
  obtain ⟨tok, r, hr⟩ := List.exists_cons_of_length_eq_add_one hd
  have hrl : r.length = 514 := by rw [hr] at hd; simpa using hd
  have htl : (r.drop 512).length = 2 := by simp; omega
  obtain ⟨c0, c1, hc⟩ := List.length_eq_two.1 htl
  refine ⟨sending.take g, tok, r.take 512, c0, c1, ?_, by simp; omega, by simp; omega⟩
  rw [← hc, List.take_append_drop, ← hr, List.take_append_drop]

theorem sendBlock_events (p : Params) (payload : List Byte) {gap pay : List Byte} (tok c0 c1 : Byte)
    (hgap : gap.length = p.writeGap) (hpay : payload.length = pay.length) :
    exchanges true (writeBytes p payload) (gap ++ tok :: (pay ++ [c0, c1])) =
      exchanges true (fillers gap.length) gap ++
        .exchange true 0xFE tok :: (exchanges true payload pay ++ exchanges true [0xFF, 0xFF] [c0, c1]) := by
  unfold writeBytes
  rw [List.append_assoc, List.append_assoc, exchanges_append _ (by simp [hgap]), hgap]
  congr 1
  show exchanges true (0xFE :: (payload ++ [0xFF, 0xFF])) _ = _
  rw [exchanges_cons, exchanges_append _ hpay]

/-- What the engine sends in a block write (R203): gap, token, payload, checksum. -/
theorem sendBlock_listed {s : State} {sending rest : List Byte} (ha : s.busAnswers = none)
    (hl : sending.length = s.cfg.writeGap + 515) (hs : s.script = sending ++ rest) {α : Type} (k : M α) :
    (do
      sel true
      update fun s => s.setLoops { s.loops with gap := 0 }
      gapLoop (← look fun s => s.cfg.writeGap)
      let _ ← xfer startTokenByte
      update fun s => s.setLoops { s.loops with payload := 0 }
      sendPayload (← look fun s => s.scratch.toList)
      checksumBytes
      k) s =
    k { s with
      loops := { s.loops with gap := s.cfg.writeGap, payload := 512 }
      trace := s.trace ++ exchanges true (writeBytes s.cfg s.scratch.toList) sending
      position := s.position + (if s.sel then 0 else 1) + sending.length
      sel := true
      script := rest } := by
  obtain ⟨gap, tok, pay, c0, c1, rfl, hgap, hpay⟩ := split_sending hl
  have h1 := gapLoop_listed gap (s := (selected true s).setLoops { s.loops with gap := 0 })
    (rest := tok :: (pay ++ c0 :: c1 :: rest)) (by exact ha) (by simpa [State.setLoops, selected] using hs)
  rw [hgap] at h1
  rw [sel_bind ha, update_bind, look_bind]
  refine (bind_ok h1 _).trans ?_
  refine (xfer_bind_listed (b := tok) (rest := pay ++ c0 :: c1 :: rest) (by exact ha) rfl _ _).trans ?_
  rw [update_bind, look_bind]
  refine (bind_ok (sendPayload_listed _ (rxs := pay) (rest := c0 :: c1 :: rest) (by exact ha) (by simpa using hpay)
    rfl) _).trans ?_
  refine (bind_ok (checksumBytes_listed (c0 := c0) (c1 := c1) (rest := rest) (by exact ha) rfl) _).trans ?_
  have hev := sendBlock_events (pay := pay) s.cfg s.scratch.toList tok c0 c1 hgap (by simp [hpay])
  congr 1
  cases hsel : s.sel <;>
    simp [bus, State.setLoops, selected, hsel, hev, startTokenByte, hgap, hpay] <;> omega

theorem waitNotBusy_ends {s : State} {k : Nat} {b : Byte} {rest : List Byte} (ha : s.busAnswers = none)
    (hb : b ≠ 0x00) (hf : k < s.cfg.nBusy) (hs : s.script = List.replicate k 0x00 ++ b :: rest) :
    waitNotBusy s = .ok () { s with
      loops := { s.loops with busy := k + 1 }
      trace := s.trace ++ exchanges s.sel (fillers (k + 1)) (List.replicate k 0x00 ++ [b])
      position := s.position + (k + 1)
      script := rest } := by
  unfold waitNotBusy
  rw [update_bind, look_bind]
  refine (busyLoop_ends k (rest := rest) (by exact ha) hb hf (by exact hs)).trans ?_
  simp [State.setLoops]

theorem waitNotBusy_spent {s : State} {last : Byte} {rest : List Byte} (ha : s.busAnswers = none)
    (hs : s.script = List.replicate s.cfg.nBusy 0x00 ++ last :: rest) :
    waitNotBusy s = .error (.raised .protocolTimeout) (State.afterRelease last rest { s with
      loops := { s.loops with busy := s.cfg.nBusy }
      trace := s.trace ++ exchanges s.sel (fillers s.cfg.nBusy) (List.replicate s.cfg.nBusy 0x00)
      position := s.position + s.cfg.nBusy
      script := last :: rest }) := by
  unfold waitNotBusy
  rw [update_bind, look_bind]
  refine (busyLoop_spent s.cfg.nBusy (last := last) (rest := rest) (by exact ha) (by exact hs)).trans ?_
  simp [State.setLoops]

theorem length_listening (a : WriteAnswer) : a.listening.length = 1 + (a.zeros + 1) := by
  simp [WriteAnswer.listening]; omega

/-- The events of a write after its answer, in the two parts the engine makes them. -/
theorem write_events (p : Params) (payload : List Byte) (a : WriteAnswer) (hl : a.sending.length = p.writeGap + 515)
    (hp : payload.length = 512) :
    exchanges true (writeBytes p payload ++ fillers a.listening.length) (a.sending ++ a.listening) =
      exchanges true (writeBytes p payload) a.sending ++
        (.exchange true 0xFF a.drt :: exchanges true (fillers (a.zeros + 1)) (List.replicate a.zeros 0x00 ++ [a.awake])) := by
  rw [exchanges_append _ (by simp [writeBytes, hl, hp])]
  congr 1
  rw [length_listening, fillers_add]
  rfl

/-- The state of a block write when the engine starts to listen for the token. -/
def afterSending (arg : U32) (a : Answer) (sending rest : List Byte) (s : State) : State :=
  { s with
    cmdIdx := 24
    cmdArg := arg
    resp := .r1 0
    loops := { s.loops with poll := a.polled.length, gap := s.cfg.writeGap, payload := 512 }
    trace := s.trace ++ a.events 24 arg s.cfg.close ++ exchanges true (writeBytes s.cfg s.scratch.toList) sending
    position := s.position + (if s.sel then 0 else 1) + a.bytes.length + sending.length
    sel := true
    script := rest }

/-- A block write goes on, once its CMD24 is answered 0x00 and the block sent, with the token. -/
theorem writeBlockTo_sends {s : State} {a : Answer} {sending rest : List Byte} (ha : s.busAnswers = none)
    (hfit : a.fits s.cfg) (hflags : a.flags = some 0) (hlen : sending.length = s.cfg.writeGap + 515)
    (hs : s.script = a.bytes ++ sending ++ rest) (arg : U32) :
    writeBlockTo arg s = onRaise State.freeScratch (fun _ =>
      (do
        checkDataResponse
        waitNotBusy
        release) (afterSending arg a sending rest s)) s := by
  have h : ∀ k : M Unit,
      (do
        let r ← commandNoDeselect 24 arg
        requireReady r
        sel true
        update fun s => s.setLoops { s.loops with gap := 0 }
        gapLoop (← look fun s => s.cfg.writeGap)
        let _ ← xfer startTokenByte
        update fun s => s.setLoops { s.loops with payload := 0 }
        sendPayload (← look fun s => s.scratch.toList)
        checksumBytes
        k) s = k (afterSending arg a sending rest s) := by
    intro k
    rw [ready_bind_listed (rest := sending ++ rest) ha hfit hflags (by simpa using hs)]
    refine (sendBlock_listed (s := s.afterAnswer 24 arg s.cfg.close a _) (sending := sending) (rest := rest) ha hlen rfl
      k).trans ?_
    congr 1
    simp [afterSending, State.afterAnswer, Answer.resp, hflags]
  unfold writeBlockTo onRaise
  simp only
  rw [h]

/-- A block write at a card address (43_block_transfer.md R203-R205). -/
theorem writeBlockTo_listed {s : State} {a : WriteAnswer} {rest : List Byte} (ha : s.busAnswers = none)
    (hf : a.fits s.cfg) (hs : s.script = a.bytes ++ rest) (arg : U32) :
    writeBlockTo arg s = .ok () (s.afterWrite 24 arg a rest) := by
  obtain ⟨hfit, hflags, hlen, hdrt, hzeros, hawake⟩ := hf
  rw [writeBlockTo_sends (sending := a.sending) (rest := a.listening ++ a.last :: rest) ha hfit hflags hlen
    (by simpa [WriteAnswer.bytes] using hs)]
  refine onRaise_ok ?_
  refine (bind_ok (checkDataResponse_accept (b := a.drt)
    (rest := List.replicate a.zeros 0x00 ++ a.awake :: a.last :: rest) (by exact ha) hdrt
    (by simp [WriteAnswer.listening, afterSending])) _).trans ?_
  refine (bind_ok (waitNotBusy_ends (k := a.zeros) (rest := a.last :: rest) (by exact ha) hawake (by exact hzeros) rfl)
    _).trans ?_
  refine (release_listed (last := a.last) (rest := rest) (by exact ha) rfl).trans ?_
  have hev := write_events s.cfg s.scratch.toList a hlen (by simp)
  have hll := length_listening a
  cases hsel : s.sel <;>
    simp [State.afterWrite, State.afterRelease, afterSending, bus, State.setDrt, hsel, WriteAnswer.events, hev,
      WriteAnswer.bytes] <;> omega

/-- A block the card rejects (R204). -/
theorem writeBlockTo_rejected {s : State} {a : Answer} {sending rest : List Byte} {drt : Byte}
    (ha : s.busAnswers = none) (hfit : a.fits s.cfg) (hflags : a.flags = some 0)
    (hlen : sending.length = s.cfg.writeGap + 515) (hd : drt.extractLsb' 0 5 ≠ 0b00101#5)
    (hs : s.script = a.bytes ++ sending ++ drt :: rest) (arg : U32) :
    writeBlockTo arg s = .error (.raised .writeRejected)
      (selected false ((bus [0xFF] [drt] rest (afterSending arg a sending (drt :: rest) s)).setDrt drt)).freeScratch := by
  rw [writeBlockTo_sends ha hfit hflags hlen hs]
  exact onRaise_raised (bind_error (checkDataResponse_reject (by exact ha) hd rfl) _)

/-- A block after which the card stays busy (R205). -/
theorem writeBlockTo_busy {s : State} {a : Answer} {sending rest : List Byte} {drt last : Byte}
    (ha : s.busAnswers = none) (hfit : a.fits s.cfg) (hflags : a.flags = some 0)
    (hlen : sending.length = s.cfg.writeGap + 515) (hd : drt.extractLsb' 0 5 = 0b00101#5)
    (hs : s.script = a.bytes ++ sending ++ drt :: (List.replicate s.cfg.nBusy 0x00 ++ last :: rest)) (arg : U32) :
    ∃ t, writeBlockTo arg s = .error (.raised .protocolTimeout) (State.freeScratch t) ∧
      t = State.afterRelease last rest { afterSending arg a sending rest s with
        drt := drt
        loops := { (afterSending arg a sending rest s).loops with busy := s.cfg.nBusy }
        trace := (afterSending arg a sending rest s).trace ++
          exchanges true (fillers (1 + s.cfg.nBusy)) (drt :: List.replicate s.cfg.nBusy 0x00)
        position := (afterSending arg a sending rest s).position + (1 + s.cfg.nBusy) } := by
  rw [writeBlockTo_sends ha hfit hflags hlen hs]
  refine ⟨_, onRaise_raised ((bind_ok (checkDataResponse_accept (b := drt)
    (rest := List.replicate s.cfg.nBusy 0x00 ++ last :: rest) (by exact ha) hd rfl) _).trans
    (bind_error (waitNotBusy_spent (last := last) (rest := rest) (by exact ha) rfl) _)), ?_⟩
  simp [State.afterRelease, State.setDrt, bus, afterSending, Nat.add_comm 1, Nat.add_assoc]

/-! ## Card addresses -/

theorem readDivisor_holds (s : State) : readDivisor s = .ok s.divisor s := rfl

theorem readSectorCount_holds (s : State) : readSectorCount s = .ok s.sectorCount s := rfl

/-- The card address of a block, where it fits (43_block_transfer.md R200). -/
theorem blockAddress_fits {s : State} {blk : U64}
    (h : blk.toNat * s.divisor.toNat < 2 ^ 32) : blockAddress blk s = .ok (cardArg s blk.toNat) s := by
  have hlt : cardAddress blk s.divisor < 2 ^ 32 := h
  unfold blockAddress
  rw [bind_ok (readDivisor_holds s), if_pos hlt]
  rfl

/-- Where it does not fit, the model stops before any bus event (60_exceptions.md R278). -/
theorem blockAddress_overflows {s : State} {blk : U64}
    (h : 2 ^ 32 ≤ blk.toNat * s.divisor.toNat) :
    blockAddress blk s = .error (.fault (.addressOverflow blk s)) s := by
  have hlt : ¬ cardAddress blk s.divisor < 2 ^ 32 := Nat.not_lt.2 h
  unfold blockAddress
  rw [bind_ok (readDivisor_holds s), if_neg hlt, run_stop]

/-- The argument is the address itself. -/
theorem cardArg_eq {s : State} {blk : Nat} {arg : U32} (h : blk * s.divisor.toNat = arg.toNat) :
    cardArg s blk = arg := by
  unfold cardArg
  rw [h]
  simp

theorem readBlockAt_listed {s : State} {a : ReadAnswer 512} {rest : List Byte} {blk : U64}
    (ha : s.busAnswers = none) (hd : blk.toNat * s.divisor.toNat < 2 ^ 32)
    (hf : a.fits s.cfg) (hs : s.script = a.bytes ++ rest) :
    readBlockAt blk s = .ok () ((s.afterAnswer 17 (cardArg s blk.toNat) s.cfg.close a.answer
      (a.block.bytes ++ rest)).afterData .scratch a.block rest) := by
  unfold readBlockAt
  rw [bind_ok (blockAddress_fits hd)]
  exact readBlockFrom_listed ha hf hs _

theorem writeBlockAt_listed {s : State} {a : WriteAnswer} {rest : List Byte} {blk : U64}
    (ha : s.busAnswers = none) (hd : blk.toNat * s.divisor.toNat < 2 ^ 32)
    (hf : a.fits s.cfg) (hs : s.script = a.bytes ++ rest) :
    writeBlockAt blk s = .ok () (s.afterWrite 24 (cardArg s blk.toNat) a rest) := by
  unfold writeBlockAt
  rw [bind_ok (blockAddress_fits hd)]
  exact writeBlockTo_listed ha hf hs _

end Sys2Proof.Laws
end

