-- ==== Sys2Proof/Laws/PerInstr.lean ====
section
/-! SUPPORT. Decoding what an instruction is spelled as gives it back, one lemma per constructor. -/

namespace Sys2Proof.Laws

/-! ## The pieces of a frame -/

theorem frame_index (idx : CmdIndex) : ((0x40 : Byte) ||| idx.setWidth 8).extractLsb' 0 6 = idx := by
  revert idx; decide

theorem frame_start (idx : CmdIndex) : ((0x40 : Byte) ||| idx.setWidth 8).extractLsb' 6 2 = 0b01#2 := by
  revert idx; decide

/-- The four argument bytes, most significant first, are the argument. -/
theorem argument_bytes (arg : U32) :
    arg.extractLsb' 24 8 ++ arg.extractLsb' 16 8 ++ arg.extractLsb' 8 8 ++ arg.extractLsb' 0 8 = arg := by
  ext i hi
  simp only [BitVec.getElem_append, BitVec.getElem_extractLsb']
  split
  · rw [BitVec.getLsbD_eq_getElem (by omega)]; congr 1; omega
  · split
    · rw [BitVec.getLsbD_eq_getElem (by omega)]; congr 1; omega
    · split
      · rw [BitVec.getLsbD_eq_getElem (by omega)]; congr 1; omega
      · rw [BitVec.getLsbD_eq_getElem (by omega)]; congr 1; omega

/-- Decoding the bytes of a frame looks its row up. -/
theorem decodeFrame_frameBytes (p : Params) (idx : CmdIndex) (arg : U32) (close : Byte) :
    decodeFrame p (frameBytes idx arg close) =
      match frameRow p idx arg close with
      | some i => .ok i
      | none => .error .notEmitted := by
  unfold decodeFrame frameBytes
  simp only [frame_start, frame_index, argument_bytes, ne_eq, not_true_eq_false, if_false] <;> rfl

theorem response_split (f : BitVec 7) :
    (0#1 ++ f).extractLsb' 7 1 = 0#1 ∧ (0#1 ++ f).extractLsb' 0 7 = f := by
  revert f; decide

theorem accept_split (x : BitVec 3) :
    (x ++ acceptBits).extractLsb' 0 5 = acceptBits ∧ (x ++ acceptBits).extractLsb' 5 3 = x := by
  revert x; decide

/-! ## One lemma per instruction -/

namespace RoundTrip

/-- The instruction is what its own words decode to, for every choice of parameters R13 allows. -/
def Statement (i : Instr) : Prop :=
  ∀ p : Params, p.wf = true → ∀ w : Input, encode p i = some w → decode p w = .ok i

/-- A frame whose row is the instruction. -/
theorem of_frame {p : Params} {i : Instr} {w : Input} {idx : CmdIndex} {arg : U32} {close : Byte}
    (henc : encode p i = some (.frame (frameBytes idx arg close))) (hrow : frameRow p idx arg close = some i)
    (h : encode p i = some w) : decode p w = .ok i := by
  obtain rfl : Input.frame (frameBytes idx arg close) = w := Option.some.inj (henc.symm.trans h)
  show decodeFrame p (frameBytes idx arg close) = .ok i
  rw [decodeFrame_frameBytes, hrow]

/-- An instruction without an encoding. -/
theorem of_none {p : Params} {i : Instr} {w : Input} (henc : encode p i = none) (h : encode p i = some w) :
    decode p w = .ok i := by
  rw [henc] at h; cases h

/-- An instruction whose words decode by computation. -/
theorem of_words {p : Params} {i : Instr} {w v : Input} (henc : encode p i = some v) (hdec : decode p v = .ok i)
    (h : encode p i = some w) : decode p w = .ok i := by
  obtain rfl : v = w := Option.some.inj (henc.symm.trans h)
  exact hdec

theorem hcs_ne_zero {p : Params} (h : p.wf = true) : p.hcsArg ≠ 0 := by
  simp only [Params.wf, Bool.and_eq_true, decide_eq_true_eq] at h
  exact h.2

theorem cmd0 : Statement .cmd0 := fun p _ _ => of_frame rfl (by simp [frameRow])
theorem cmd8 : Statement .cmd8 := fun p _ _ => of_frame rfl (by simp [frameRow])
theorem cmd9 : Statement .cmd9 := fun p _ _ => of_frame rfl (by simp [frameRow])
theorem cmd16 : Statement .cmd16 := fun p _ _ => of_frame rfl (by simp [frameRow])
theorem cmd17 (arg : U32) : Statement (.cmd17 arg) := fun p _ _ => of_frame rfl (by simp [frameRow])
theorem cmd24 (arg : U32) : Statement (.cmd24 arg) := fun p _ _ => of_frame rfl (by simp [frameRow])
theorem cmd55 : Statement .cmd55 := fun p _ _ => of_frame rfl (by simp [frameRow])
theorem acmd41V1 : Statement .acmd41V1 := fun p _ _ => of_frame rfl (by simp [frameRow])
theorem acmd41V2 : Statement .acmd41V2 :=
  fun p hp _ => of_frame rfl (by have h := hcs_ne_zero hp; simpa [frameRow] using h)
theorem cmd58 : Statement .cmd58 := fun p _ _ => of_frame rfl (by simp [frameRow])
theorem r1 (flags : BitVec 7) : Statement (.r1 flags) :=
  fun p _ _ => of_words rfl (by simp [decode, decodeByte, response_split])
theorem startToken : Statement .startToken := fun _ _ _ => of_words rfl rfl
theorem dataResponseAccept (ignored : BitVec 3) : Statement (.dataResponseAccept ignored) :=
  fun p _ _ => of_words rfl (by simp [decode, decodeByte, accept_split])
theorem busy : Statement .busy := fun _ _ _ => of_words rfl rfl
theorem filler : Statement .filler := fun _ _ _ => of_words rfl rfl
theorem init : Statement .init := fun _ _ _ => of_words rfl rfl
theorem read (offset size : U64) (buf : Nat) : Statement (.read offset size buf) :=
  fun _ _ _ => of_words rfl (by simp [decode, decodeRequest])
theorem write (offset size : U64) (buf : Nat) : Statement (.write offset size buf) :=
  fun _ _ _ => of_words rfl (by simp [decode, decodeRequest])
theorem erase (offset size : U64) : Statement (.erase offset size) :=
  fun _ _ _ => of_words rfl (by simp [decode, decodeRequest])
theorem capacity : Statement .capacity := fun _ _ _ => of_words rfl rfl
theorem status : Statement .status := fun _ _ _ => of_words rfl rfl
theorem frame (idx : CmdIndex) (arg : U32) (close : Byte) : Statement (.frame idx arg close) :=
  fun _ _ _ => of_none rfl
theorem poll : Statement .poll := fun _ _ _ => of_none rfl
theorem release : Statement .release := fun _ _ _ => of_none rfl
theorem command (idx : CmdIndex) (arg : U32) : Statement (.command idx arg) := fun _ _ _ => of_none rfl
theorem commandNoDeselect (idx : CmdIndex) (arg : U32) : Statement (.commandNoDeselect idx arg) :=
  fun _ _ _ => of_none rfl
theorem probeInterfaceCondition : Statement .probeInterfaceCondition := fun _ _ _ => of_none rfl
theorem readOperatingConditionRegister : Statement .readOperatingConditionRegister := fun _ _ _ => of_none rfl
theorem bringUp : Statement .bringUp := fun _ _ _ => of_none rfl
theorem extractBits (msb lsb : Nat) : Statement (.extractBits msb lsb) := fun _ _ _ => of_none rfl
theorem decodeCapacity : Statement .decodeCapacity := fun _ _ _ => of_none rfl
theorem decodeV0 : Statement .decodeV0 := fun _ _ _ => of_none rfl
theorem decodeV1 : Statement .decodeV1 := fun _ _ _ => of_none rfl
theorem readCSD : Statement .readCSD := fun _ _ _ => of_none rfl
theorem blockAddress (blk : U64) : Statement (.blockAddress blk) := fun _ _ _ => of_none rfl
theorem readData (n : Nat) (dst : DataBuffer) : Statement (.readData n dst) := fun _ _ _ => of_none rfl
theorem readBlockAt (blk : U64) : Statement (.readBlockAt blk) := fun _ _ _ => of_none rfl
theorem writeBlockAt (blk : U64) : Statement (.writeBlockAt blk) := fun _ _ _ => of_none rfl
theorem checkDataResponse : Statement .checkDataResponse := fun _ _ _ => of_none rfl
theorem waitNotBusy : Statement .waitNotBusy := fun _ _ _ => of_none rfl
theorem mapper (kind : MapKind) (offset size : U64) (buf : Nat) : Statement (.mapper kind offset size buf) :=
  fun _ _ _ => of_none rfl
theorem checkBounds (offset size : U64) : Statement (.checkBounds offset size) := fun _ _ _ => of_none rfl
theorem mergeSegment (kind : MapKind) (blk : U64) (off n : Nat) : Statement (.mergeSegment kind blk off n) :=
  fun _ _ _ => of_none rfl
theorem fullBlock (kind : MapKind) (blk : U64) : Statement (.fullBlock kind blk) := fun _ _ _ => of_none rfl

end RoundTrip

end Sys2Proof.Laws
end

