-- ==== Sys2Proof/Laws/Encoding.lean ====
section
/-! SUPPORT. From words to instructions: whatever the decoder reads is spelled by the words it was read from. -/

namespace Sys2Proof.Laws

/-- The bytes of an argument built from four bytes are those bytes. -/
theorem argument_split (b1 b2 b3 b4 : Byte) :
    (b1 ++ b2 ++ b3 ++ b4).extractLsb' 24 8 = b1 ∧ (b1 ++ b2 ++ b3 ++ b4).extractLsb' 16 8 = b2 ∧
    (b1 ++ b2 ++ b3 ++ b4).extractLsb' 8 8 = b3 ∧ (b1 ++ b2 ++ b3 ++ b4).extractLsb' 0 8 = b4 := by
  refine ⟨?_, ?_, ?_, ?_⟩ <;>
  · ext i hi
    simp only [BitVec.getElem_extractLsb', BitVec.getLsbD_append]
    split <;> (try split) <;> (try split) <;> first | omega | skip
    all_goals (first | rw [← BitVec.getLsbD_eq_getElem hi]; congr 1; omega)

/-- Six bytes whose first has bits 7:6 = 01 are the frame of what they are read as. -/
theorem frameBytes_of_bytes (b0 b1 b2 b3 b4 : Byte) (h : b0.extractLsb' 6 2 = 0b01#2) (close : Byte) :
    frameBytes (b0.extractLsb' 0 6) (b1 ++ b2 ++ b3 ++ b4) close = [b0, b1, b2, b3, b4, close] := by
  unfold frameBytes
  have h0 : ((0x40 : Byte) ||| (b0.extractLsb' 0 6).setWidth 8) = b0 := by
    revert h
    revert b0
    decide
  obtain ⟨a1, a2, a3, a4⟩ := argument_split b1 b2 b3 b4
  rw [h0, a1, a2, a3, a4]

/-- A frame that is a row of the table is that row's spelling. -/
theorem frameRow_encode {p : Params} {idx : CmdIndex} {arg : U32} {close : Byte} {j : Instr}
    (h : frameRow p idx arg close = some j) :
    encode p j = some (.frame (frameBytes idx arg close)) := by
  unfold frameRow at h
  split at h
  · split at h
    · rename_i h1 h2; obtain ⟨rfl, rfl⟩ := h2; subst h1; cases h; rfl
    · cases h
  · split at h
    · cases h
    · rename_i h0 hc
      have hc : close = p.close := by simpa using hc
      subst hc
      split at h
      · rename_i h1; subst h1; cases h; rfl
      split at h
      · rename_i h1; subst h1; cases h; rfl
      split at h
      · rename_i h1; obtain ⟨rfl, rfl⟩ := h1; cases h; rfl
      split at h
      · rename_i h1; obtain ⟨rfl, rfl⟩ := h1; cases h; rfl
      split at h
      · rename_i h1; obtain ⟨rfl, rfl⟩ := h1; cases h; rfl
      split at h
      · rename_i h1; obtain ⟨rfl, rfl⟩ := h1; cases h; rfl
      split at h
      · rename_i h1; obtain ⟨rfl, rfl⟩ := h1; cases h; rfl
      split at h
      · rename_i h1; obtain ⟨rfl, rfl⟩ := h1; cases h; rfl
      split at h
      · rename_i h1; obtain ⟨rfl, rfl⟩ := h1; cases h; rfl
      cases h

/-- What the decoder gives has a spelling: a primitive is never decoded. -/
theorem decode_spelled {p : Params} {w : Input} {i : Instr} (h : decode p w = .ok i) : (encode p i).isSome = true := by
  cases w with
  | request w =>
    simp only [decode, decodeRequest] at h
    split at h
    · cases h
    · split at h <;> cases h <;> rfl
  | frame bytes =>
    simp only [decode, decodeFrame] at h
    split at h
    · split at h
      · cases h
      · split at h
        · rename_i hj
          cases h
          rw [frameRow_encode hj]
          rfl
        · cases h
    · cases h
  | byte ctx b =>
    cases ctx <;> simp only [decode, decodeByte] at h <;> split at h <;> cases h <;> rfl

end Sys2Proof.Laws
end

