-- ==== Sys2Proof/Laws/Errors.lean ====
section
/-! SUPPORT. Which errors a sub-step can raise (60_exceptions.md R271-R277): one lemma per sub-step. -/

namespace Sys2Proof.Laws

open Sys2Proof.Machine

variable {α β : Type} {E : Err → Prop}

/-- Every error the sub-step raises satisfies `E`. -/
def Raises (E : Err → Prop) (m : M α) : Prop := ∀ s e t, m s = .error (.raised e) t → E e

namespace Raises

theorem pure (a : α) : Raises E (pure a : M α) := fun _ _ _ h => by cases h

theorem raise {e : Err} (h : E e) : Raises E (raise e : M α) := fun _ _ _ h' => by cases h'; exact h

theorem stop (f : State → Fault) : Raises E (stop f : M α) := fun _ _ _ h => by cases h

theorem update (f : State → State) : Raises E (update f) := fun _ _ _ h => by cases h

theorem look (f : State → α) : Raises E (look f) := fun _ _ _ h => by cases h

theorem bind {m : M α} {k : α → M β} (hm : Raises E m) (hk : ∀ a, Raises E (k a)) : Raises E (m >>= k) := by
  intro s e t h
  rw [run_bind] at h
  cases h1 : m s with
  | ok a u =>
    rw [h1] at h
    exact hk a u e t h
  | error x u =>
    rw [h1] at h
    cases h
    exact hm s e t h1

theorem ite {c : Prop} [Decidable c] {m n : M α} (hm : Raises E m) (hn : Raises E n) :
    Raises E (if c then m else n) := by
  split
  · exact hm
  · exact hn

theorem onRaise {f : State → State} {m : M α} (hm : Raises E m) : Raises E (onRaise f m) := by
  intro s e t h
  unfold Machine.onRaise at h
  cases h1 : m s with
  | ok a u =>
    rw [h1] at h
    cases h
  | error x u =>
    rw [h1] at h
    cases x with
    | raised e' =>
      cases h
      exact hm s _ u h1
    | fault f => cases h

theorem settled {m : M α} (hm : Raises E m) : Raises E (settled m) := by
  intro s e t h
  unfold Machine.settled at h
  cases h1 : Machine.onRaise settleDuties m s with
  | ok a u =>
    rw [h1] at h
    cases h
  | error x u =>
    rw [h1] at h
    cases h
    exact hm.onRaise s e _ h1

theorem settledFor {kind : MapKind} {m : M α} (hm : Raises E m) : Raises E (settledFor kind m) := by
  cases kind with
  | erase => exact hm
  | read | write => exact hm.settled

theorem busCall (c : BusCall) : Raises E (busCall c) := by
  intro s e t h
  unfold Machine.busCall at h
  split at h <;> cases h

theorem xfer (tx : Byte) : Raises E (xfer tx) := (look _).bind fun _ => (busCall _).bind fun _ => pure _

theorem wait (ms : Nat) : Raises E (wait ms) := busCall _

theorem sel (v : Bool) : Raises E (sel v) := (look _).bind fun _ => ite (pure _) (busCall _)

theorem sendAll (bs : List Byte) : Raises E (sendAll bs) := by
  induction bs with
  | nil => exact pure _
  | cons b bs ih => exact (xfer b).bind fun _ => ih

theorem frame (idx : CmdIndex) (arg : U32) (close : Byte) : Raises E (frame idx arg close) :=
  (update _).bind fun _ => (sel _).bind fun _ => sendAll _

theorem pollLoop (fuel : Nat) : Raises E (pollLoop fuel) := by
  induction fuel with
  | zero => exact (update _).bind fun _ => pure _
  | succ fuel ih =>
    refine (update _).bind fun _ => (xfer _).bind fun rx => ?_
    split
    · exact (update _).bind fun _ => pure _
    · exact ih

theorem poll : Raises E poll := (update _).bind fun _ => (look _).bind fun n => pollLoop n

theorem release : Raises E release := (sel _).bind fun _ => (xfer _).bind fun _ => pure _

theorem command (idx : CmdIndex) (arg : U32) : Raises E (command idx arg) :=
  (look _).bind fun _ => (frame _ _ _).bind fun _ => poll.bind fun _ => release.bind fun _ => pure _

theorem commandNoDeselect (idx : CmdIndex) (arg : U32) : Raises E (commandNoDeselect idx arg) := by
  refine (look _).bind fun _ => (frame _ _ _).bind fun _ => poll.bind fun r => ?_
  cases r with
  | timeout => exact release.bind fun _ => pure _
  | r1 f => exact pure _

theorem trailingByte : Raises E trailingByte := (update _).bind fun _ => xfer _

theorem trailingBytes : Raises E trailingBytes :=
  (update _).bind fun _ => trailingByte.bind fun _ => trailingByte.bind fun _ => trailingByte.bind fun _ =>
    trailingByte.bind fun _ => pure _

theorem probeInterfaceCondition : Raises E probeInterfaceCondition := by
  refine (look _).bind fun _ => (frame _ _ _).bind fun _ => poll.bind fun r => ?_
  cases r with
  | timeout => exact release.bind fun _ => pure _
  | r1 f => exact trailingBytes.bind fun _ => release.bind fun _ => pure _

theorem readOcr : Raises E readOperatingConditionRegister := by
  refine (look _).bind fun _ => (frame _ _ _).bind fun _ => poll.bind fun r => ?_
  cases r with
  | timeout => exact release.bind fun _ => (look _).bind fun _ => pure _
  | r1 f => exact trailingBytes.bind fun _ => (update _).bind fun _ => release.bind fun _ => (look _).bind fun _ => pure _

theorem tokenLoop (fuel : Nat) : Raises E (tokenLoop fuel) := by
  induction fuel with
  | zero => exact pure _
  | succ fuel ih =>
    exact (update _).bind fun _ => (xfer _).bind fun _ => ite ((update _).bind fun _ => pure _) ih

theorem tokenPoll : Raises E tokenPoll :=
  (update _).bind fun _ => (update _).bind fun _ => (look _).bind fun n => tokenLoop n

theorem receivePayload (dst : DataBuffer) (fuel k : Nat) : Raises E (receivePayload dst fuel k) := by
  induction fuel generalizing k with
  | zero => exact pure _
  | succ fuel ih => exact (xfer _).bind fun _ => (update _).bind fun _ => (update _).bind fun _ => ih _

theorem checksumBytes : Raises E checksumBytes := (xfer _).bind fun _ => (xfer _).bind fun _ => pure _

/-- A missing token is the only error of a data block (R276). -/
theorem readData (h : E .blockStartMissing) (n : Nat) (dst : DataBuffer) : Raises E (readData n dst) :=
  (sel _).bind fun _ => tokenPoll.bind fun _ =>
    ite ((update _).bind fun _ => (receivePayload _ _ _).bind fun _ => checksumBytes.bind fun _ => release)
      (release.bind fun _ => raise h)

theorem requireReady (h1 : E .protocolTimeout) (h2 : E .illegalResponse) (r : Resp) : Raises E (requireReady r) := by
  cases r with
  | timeout => exact raise h1
  | r1 f => exact ite (pure _) (release.bind fun _ => raise h2)

theorem readBlockFrom (h1 : E .protocolTimeout) (h2 : E .illegalResponse) (h3 : E .blockStartMissing) (a : U32) :
    Raises E (readBlockFrom a) :=
  onRaise ((commandNoDeselect _ _).bind fun _ => (requireReady h1 h2 _).bind fun _ => readData h3 _ _)

theorem readCSD (h1 : E .protocolTimeout) (h2 : E .illegalResponse) (h3 : E .blockStartMissing) : Raises E readCSD :=
  onRaise ((commandNoDeselect _ _).bind fun _ => (requireReady h1 h2 _).bind fun _ => readData h3 _ _)

theorem checkDataResponse (h : E .writeRejected) : Raises E checkDataResponse :=
  (xfer _).bind fun _ => (update _).bind fun _ => ite (pure _) ((sel _).bind fun _ => raise h)

theorem busyLoop (h : E .protocolTimeout) (fuel : Nat) : Raises E (busyLoop fuel) := by
  induction fuel with
  | zero => exact release.bind fun _ => raise h
  | succ fuel ih => exact (update _).bind fun _ => (xfer _).bind fun _ => ite ih (pure _)

theorem waitNotBusy (h : E .protocolTimeout) : Raises E waitNotBusy :=
  (update _).bind fun _ => (look _).bind fun n => busyLoop h n

theorem gapLoop (fuel : Nat) : Raises E (gapLoop fuel) := by
  induction fuel with
  | zero => exact pure _
  | succ fuel ih => exact (update _).bind fun _ => (xfer _).bind fun _ => ih

theorem sendPayload (bs : List Byte) : Raises E (sendPayload bs) := by
  induction bs with
  | nil => exact pure _
  | cons b bs ih => exact (xfer b).bind fun _ => (update _).bind fun _ => ih

theorem writeBlockTo (h1 : E .protocolTimeout) (h2 : E .illegalResponse) (h3 : E .writeRejected) (a : U32) :
    Raises E (writeBlockTo a) :=
  onRaise ((commandNoDeselect _ _).bind fun _ => (requireReady h1 h2 _).bind fun _ => (sel _).bind fun _ =>
    (update _).bind fun _ => (look _).bind fun n => (gapLoop n).bind fun _ => (xfer _).bind fun _ => (update _).bind fun _ =>
      (look _).bind fun bs => (sendPayload bs).bind fun _ => checksumBytes.bind fun _ => (checkDataResponse h3).bind fun _ =>
        (waitNotBusy h1).bind fun _ => release)

theorem blockAddress (blk : U64) : Raises E (blockAddress blk) :=
  (look _).bind fun _ => ite (pure _) (stop _)

/-! ### The mapper raises I/O errors only, once the bounds are checked -/

/-- The I/O errors a byte-range request can meet. -/
def Io (e : Err) : Prop :=
  e = .protocolTimeout ∨ e = .illegalResponse ∨ e = .writeRejected ∨ e = .blockStartMissing

theorem readBlockAt (blk : U64) : Raises Io (readBlockAt blk) :=
  (blockAddress _).bind fun a => readBlockFrom (.inl rfl) (.inr (.inl rfl)) (.inr (.inr (.inr rfl))) a

theorem writeBlockAt (blk : U64) : Raises Io (writeBlockAt blk) :=
  (blockAddress _).bind fun a => writeBlockTo (.inl rfl) (.inr (.inl rfl)) (.inr (.inr (.inl rfl))) a

theorem mergeSegment (kind : MapKind) (blk : U64) (off n : Nat) : Raises Io (mergeSegment kind blk off n) := by
  refine (readBlockAt blk).bind fun _ => ?_
  cases kind with
  | read => exact (look _).bind fun _ => (look _).bind fun _ => update _
  | write => exact (look _).bind fun _ => (update _).bind fun _ => writeBlockAt blk
  | erase => exact (update _).bind fun _ => writeBlockAt blk

theorem fullBlock (kind : MapKind) (blk : U64) : Raises Io (fullBlock kind blk) := by
  cases kind with
  | read => exact (readBlockAt blk).bind fun _ => (look _).bind fun _ => (look _).bind fun _ => update _
  | write => exact (look _).bind fun _ => (update _).bind fun _ => writeBlockAt blk
  | erase => exact (update _).bind fun _ => writeBlockAt blk

theorem bodyLoop (kind : MapKind) (fuel : Nat) : Raises Io (bodyLoop kind fuel) := by
  induction fuel with
  | zero => exact pure _
  | succ fuel ih =>
    exact (look _).bind fun _ => ite ((look _).bind fun _ => (fullBlock _ _).bind fun _ => (update _).bind fun _ => ih) (pure _)

theorem segments (kind : MapKind) (offset size : U64) : Raises Io (segments kind offset size) :=
  ((update _).bind fun _ => (look _).bind fun _ => (mergeSegment _ _ _ _).bind fun _ => update _).bind fun _ =>
    (look _).bind fun _ => (bodyLoop _ _).bind fun _ => (look _).bind fun _ =>
      ite ((update _).bind fun _ => (look _).bind fun _ => (mergeSegment _ _ _ _).bind fun _ => update _) (pure _)

theorem transfer (kind : MapKind) (offset size : U64) : Raises Io (transfer kind offset size) := by
  have hs := segments kind offset size
  cases kind with
  | read => exact hs.onRaise
  | write => exact hs
  | erase => exact hs

/-! ### Bring-up and INIT -/

/-- The errors of bring-up (41_bringup.md R168). -/
def BringUp (e : Err) : Prop := e = .protocolTimeout ∨ e = .illegalResponse

/-- The errors of INIT and CAPACITY. -/
def Session (e : Err) : Prop :=
  e = .protocolTimeout ∨ e = .illegalResponse ∨ e = .blockStartMissing ∨ e = .csdDecodeFailed

theorem failBringUp {e : Err} (h : E e) : Raises E (failBringUp e) := (update _).bind fun _ => raise h

theorem rejection_bringUp (r : Resp) : BringUp (rejection r) := by
  cases r with
  | timeout => exact .inl rfl
  | r1 f => exact .inr rfl

theorem resetLoop (fuel : Nat) : Raises E (resetLoop fuel) := by
  induction fuel with
  | zero => exact pure _
  | succ fuel ih => exact (update _).bind fun _ => (command _ _).bind fun _ => ih

theorem acmd41 (a : U32) : Raises E (acmd41 a) := (command _ _).bind fun _ => command _ _

theorem v1Loop (fuel : Nat) : Raises BringUp (v1Loop fuel) := by
  induction fuel with
  | zero => exact failBringUp (.inl rfl)
  | succ fuel ih =>
    exact (update _).bind fun _ => (acmd41 _).bind fun _ => ite ((update _).bind fun _ => update _) ih

theorem v2Loop (fuel : Nat) : Raises BringUp (v2Loop fuel) := by
  induction fuel with
  | zero => exact failBringUp (.inl rfl)
  | succ fuel ih =>
    have hready : ∀ r : Resp, Raises BringUp (if r = r1Ready then do
        let _ ← readOperatingConditionRegister
        Machine.update (State.setDivisor 1)
        Machine.update (State.setBr .ready)
      else Machine.v2Loop fuel : M Unit) :=
      fun _ => ite (readOcr.bind fun _ => (update _).bind fun _ => update _) ih
    refine (update _).bind fun _ => (look _).bind fun k => ?_
    split
    · exact (look _).bind fun _ => (wait _).bind fun _ => readOcr.bind fun _ => (look _).bind fun _ =>
        (acmd41 _).bind hready
    · exact readOcr.bind fun _ => (look _).bind fun _ => (acmd41 _).bind hready

theorem versionProbe : Raises BringUp versionProbe :=
  probeInterfaceCondition.bind fun _ => ite
    ((update _).bind fun _ => (update _).bind fun _ => (look _).bind fun n => v2Loop n)
    (ite ((update _).bind fun _ => (update _).bind fun _ => (look _).bind fun n => v1Loop n)
      (failBringUp (rejection_bringUp _)))

theorem bringUp : Raises BringUp bringUp :=
  (update _).bind fun _ => (update _).bind fun _ => (look _).bind fun n => (resetLoop n).bind fun _ =>
    (command _ _).bind fun _ => ite ((update _).bind fun _ => versionProbe) (failBringUp (rejection_bringUp _))

theorem weaken {E' : Err → Prop} {m : M α} (h : Raises E m) (he : ∀ e, E e → E' e) : Raises E' m :=
  fun s e t hm => he e (h s e t hm)

theorem refreshSectorCount : Raises Session refreshSectorCount :=
  (look _).bind fun _ => ite ((update _).bind fun _ => pure _) (raise (.inr (.inr (.inr rfl))))

theorem initOp : Raises Session initOp :=
  (update _).bind fun _ => (bringUp.weaken fun _ h => h.elim .inl fun h => .inr (.inl h)).bind fun _ =>
    (readCSD (.inl rfl) (.inr (.inl rfl)) (.inr (.inr (.inl rfl)))).bind fun _ => refreshSectorCount.bind fun _ =>
      (command _ _).bind fun r =>
        (ite (pure _) (raise ((rejection_bringUp r).elim .inl fun h => .inr (.inl h)))).bind fun _ =>
          (update _).bind fun _ => pure _

theorem capacityOp : Raises Session capacityOp :=
  (readCSD (.inl rfl) (.inr (.inl rfl)) (.inr (.inr (.inl rfl)))).bind fun _ => refreshSectorCount.bind fun _ => pure _

end Raises

end Sys2Proof.Laws
end

