-- ==== Sys2Proof/Laws/Register.lean ====
section
/-! SUPPORT. The register decoder: its bit fields are slices of the big-endian number (42_register_decoder.md R180). -/

namespace Sys2Proof.Laws

open Sys2Proof.Machine

/-- Bit `p` of a big-endian number is bit `p % 8` of the byte `p / 8` from the end. -/
theorem testBit_bytes (l : List Byte) (p : Nat) :
    (l.reverse.foldl (fun n (b : Byte) => n * 256 + b.toNat) 0).testBit p = (l.getD (p / 8) 0).getLsbD (p % 8) := by
  induction l generalizing p with
  | nil => simp
  | cons b l ih =>
    rw [List.reverse_cons, List.foldl_append, List.foldl_cons, List.foldl_nil, Nat.mul_comm,
      show (256 : Nat) = 2 ^ 8 from rfl, Nat.testBit_two_pow_mul_add _ b.isLt]
    by_cases hp : p < 8
    · have h0 : p / 8 = 0 := by omega
      have h1 : p % 8 = p := by omega
      simp only [hp, if_true, h0, h1, List.getD_cons_zero]
      rfl
    · have h0 : p / 8 = (p - 8) / 8 + 1 := by omega
      have h1 : p % 8 = (p - 8) % 8 := by omega
      simp only [hp, if_false, h0, h1, List.getD_cons_succ]
      exact ih (p - 8)

/-- Bit `p` of the register (R180) is bit `p` of its number. -/
theorem testBit_csdNumber (reg : Vector Byte 16) {p : Nat} (hp : p < 128) :
    (csdNumber reg).testBit p = registerBit reg p := by
  have h := testBit_bytes reg.toList.reverse p
  rw [List.reverse_reverse] at h
  refine h.trans ?_
  have hlt : p / 8 < reg.toList.reverse.length := by simp; omega
  rw [List.getD_eq_getElem _ _ hlt]
  unfold registerBit
  congr 1
  simp only [List.getElem_reverse, Vector.length_toList, Vector.getElem_toList]

/-- A run of bits of the register is a slice of its number. -/
theorem bitsValue_eq_slice (reg : Vector Byte 16) (lsb n : Nat) (h : lsb + n ≤ 128) :
    bitsValue reg lsb n = csdNumber reg / 2 ^ lsb % 2 ^ n := by
  induction n with
  | zero => simp [bitsValue, Nat.mod_one]
  | succ n ih =>
    rw [bitsValue, ih (by omega), ← testBit_csdNumber reg (by omega), Nat.pow_succ, Nat.mod_mul,
      Nat.testBit_eq_decide_div_mod_eq, Nat.div_div_eq_div_mul, ← Nat.pow_add, Nat.mul_comm (2 ^ n)]
    congr 1
    have h2 := Nat.mod_two_eq_zero_or_one (csdNumber reg / 2 ^ (lsb + n))
    rcases h2 with h2 | h2 <;> simp [h2]

/-- A field of the CSD as a number. -/
theorem toNat_bitField (reg : Vector Byte 16) {msb lsb : Nat} (hl : lsb ≤ msb) (hm : msb ≤ 127)
    (hw : msb - lsb + 1 ≤ 32) :
    (bitField reg msb lsb).toNat = csdNumber reg / 2 ^ lsb % 2 ^ (msb - lsb + 1) := by
  unfold bitField
  rw [bitsValue_eq_slice _ _ _ (by omega), BitVec.toNat_ofNat]
  exact Nat.mod_eq_of_lt (Nat.lt_of_lt_of_le (Nat.mod_lt _ (Nat.two_pow_pos _)) (Nat.pow_le_pow_right (by omega) hw))

theorem csdNumber_lt (reg : Vector Byte 16) : csdNumber reg < 2 ^ 128 := by
  have key : ∀ (l : List Byte) (n : Nat),
      l.foldl (fun n (b : Byte) => n * 256 + b.toNat) n < (n + 1) * 256 ^ l.length := by
    intro l
    induction l with
    | nil => intro n; simp
    | cons b l ih =>
      intro n
      have hb := b.isLt
      refine Nat.lt_of_lt_of_le (ih _) ?_
      rw [List.length_cons, Nat.pow_succ, Nat.mul_comm (256 ^ _) 256, ← Nat.mul_assoc]
      exact Nat.mul_le_mul_right _ (by show n * 256 + b.toNat + 1 ≤ _; omega)
  have h := key reg.toList 0
  refine Nat.lt_of_lt_of_eq h ?_
  rw [Vector.length_toList]
  norm_num

/-- The structure version is the number's two top bits. -/
theorem toNat_csdStructure (reg : Vector Byte 16) : (csdStructure reg).toNat = csdNumber reg / 2 ^ 126 := by
  unfold csdStructure
  rw [toNat_bitField reg (by omega) (by omega) (by omega)]
  have := csdNumber_lt reg
  exact Nat.mod_eq_of_lt (by omega)

/-! ## The capacity formulas -/

theorem toNat_readBlockLen (reg : Vector Byte 16) : (readBlockLen reg).toNat = csdNumber reg / 2 ^ 80 % 2 ^ 4 :=
  toNat_bitField reg (by omega) (by omega) (by omega)

theorem toNat_cSize (reg : Vector Byte 16) : (cSize reg).toNat = csdNumber reg / 2 ^ 62 % 2 ^ 12 :=
  toNat_bitField reg (by omega) (by omega) (by omega)

theorem toNat_cSizeMult (reg : Vector Byte 16) : (cSizeMult reg).toNat = csdNumber reg / 2 ^ 47 % 2 ^ 3 :=
  toNat_bitField reg (by omega) (by omega) (by omega)

theorem toNat_hcCSize (reg : Vector Byte 16) : (hcCSize reg).toNat = csdNumber reg / 2 ^ 48 % 2 ^ 22 :=
  toNat_bitField reg (by omega) (by omega) (by omega)

/-- The version-0 capacity, with no overflow of u64 (R183). -/
theorem toNat_capacityV0 (reg : Vector Byte 16) :
    (capacityV0 reg).toNat = ((cSize reg).toNat + 1) * 2 ^ ((cSizeMult reg).toNat + 2) * 2 ^ (readBlockLen reg).toNat := by
  have h1 : (cSize reg).toNat < 2 ^ 12 := by rw [toNat_cSize]; exact Nat.mod_lt _ (by omega)
  have h2 : (cSizeMult reg).toNat < 2 ^ 3 := by rw [toNat_cSizeMult]; exact Nat.mod_lt _ (by omega)
  have h3 : (readBlockLen reg).toNat < 2 ^ 4 := by rw [toNat_readBlockLen]; exact Nat.mod_lt _ (by omega)
  have p2 : 2 ^ ((cSizeMult reg).toNat + 2) ≤ 2 ^ 9 := Nat.pow_le_pow_right (by omega) (by omega)
  have p3 : 2 ^ (readBlockLen reg).toNat ≤ 2 ^ 15 := Nat.pow_le_pow_right (by omega) (by omega)
  have m2 : ((cSize reg).toNat + 1) * 2 ^ ((cSizeMult reg).toNat + 2) ≤ 2 ^ 12 * 2 ^ 9 := Nat.mul_le_mul (by omega) p2
  have m3 := Nat.mul_le_mul m2 p3
  have e1 : (1 : U64).toNat = 1 := rfl
  unfold capacityV0
  simp only [BitVec.toNat_mul, BitVec.toNat_add, BitVec.toNat_shiftLeft, BitVec.toNat_setWidth, BitVec.toNat_ofNat,
    Nat.shiftLeft_eq, e1]
  rw [Nat.mod_eq_of_lt (a := 1) (by omega), Nat.one_mul, Nat.one_mul,
    Nat.mod_eq_of_lt (a := (cSize reg).toNat) (by omega), Nat.mod_eq_of_lt (a := (cSize reg).toNat + 1) (by omega),
    Nat.mod_eq_of_lt (a := 2 ^ ((cSizeMult reg).toNat + 2)) (by omega),
    Nat.mod_eq_of_lt (a := 2 ^ (readBlockLen reg).toNat) (by omega),
    Nat.mod_eq_of_lt (a := ((cSize reg).toNat + 1) * _) (by omega), Nat.mod_eq_of_lt (by omega)]

/-- The version-1 sector count (R184). -/
theorem toNat_sectorsV1 (reg : Vector Byte 16) : (sectorsV1 reg).toNat = ((hcCSize reg).toNat + 1) * 1024 := by
  have h1 : (hcCSize reg).toNat < 2 ^ 22 := by rw [toNat_hcCSize]; exact Nat.mod_lt _ (by omega)
  have e1 : (1 : U64).toNat = 1 := rfl
  have e2 : (1024 : U64).toNat = 1024 := rfl
  unfold sectorsV1
  rw [BitVec.toNat_mul, BitVec.toNat_add, BitVec.toNat_setWidth, e1, e2, Nat.mod_eq_of_lt (a := (hcCSize reg).toNat),
    Nat.mod_eq_of_lt (a := (hcCSize reg).toNat + 1), Nat.mod_eq_of_lt]
  all_goals omega

/-- A sector count that decodes is in the legal range of 10_state.md R33. -/
theorem sectorCount_le (reg : Vector Byte 16) : (decodeCapacity reg).sectorCount.toNat ≤ 2 ^ 32 := by
  have h1 : (hcCSize reg).toNat < 2 ^ 22 := by rw [toNat_hcCSize]; exact Nat.mod_lt _ (by omega)
  have h2 : (cSize reg).toNat < 2 ^ 12 := by rw [toNat_cSize]; exact Nat.mod_lt _ (by omega)
  have h3 : (cSizeMult reg).toNat < 2 ^ 3 := by rw [toNat_cSizeMult]; exact Nat.mod_lt _ (by omega)
  have h4 : (readBlockLen reg).toNat < 2 ^ 4 := by rw [toNat_readBlockLen]; exact Nat.mod_lt _ (by omega)
  unfold decodeCapacity
  split
  · have p2 : 2 ^ ((cSizeMult reg).toNat + 2) ≤ 2 ^ 9 := Nat.pow_le_pow_right (by omega) (by omega)
    have p3 : 2 ^ (readBlockLen reg).toNat ≤ 2 ^ 15 := Nat.pow_le_pow_right (by omega) (by omega)
    have m2 : ((cSize reg).toNat + 1) * 2 ^ ((cSizeMult reg).toNat + 2) ≤ 2 ^ 12 * 2 ^ 9 :=
      Nat.mul_le_mul (by omega) p2
    have m3 := Nat.mul_le_mul m2 p3
    have e : (512 : U64).toNat = 512 := rfl
    simp only [decodeV0, BitVec.toNat_udiv, toNat_capacityV0, e]
    omega
  · split
    · simp only [decodeV1, toNat_sectorsV1]; omega
    · simp

end Sys2Proof.Laws
end

