-- ==== Sys2Proof/Laws/Keeps.lean ====
section
/-! SUPPORT. What a sub-step keeps, whatever the card returns: a property that every single move of the engine keeps is
kept by every sub-step made of those moves. One lemma per sub-step. -/

namespace Sys2Proof.Laws

open Sys2Proof.Machine

variable {α β : Type} {P : State → Prop} {R : Fault → State → Prop}

/-- `P` holds where a sub-step returns or raises; where it stops with a fault, `P` and what `R` says of that fault. -/
def EndsIn (P : State → Prop) (R : Fault → State → Prop) : EStateM.Result Stop State α → Prop
  | .ok _ t => P t
  | .error (.raised _) t => P t
  | .error (.fault f) t => P t ∧ R f t

/-- A sub-step keeps a property, in whatever way it ends; `R` holds of every fault it stops with. -/
def Keeps (P : State → Prop) (R : Fault → State → Prop) (m : M α) : Prop := ∀ s, P s → EndsIn P R (m s)

theorem Keeps.ok {m : M α} (h : Keeps P R m) {s t : State} {a : α} (hs : P s) (hm : m s = .ok a t) : P t := by
  have := h s hs
  rwa [hm] at this

theorem Keeps.raised {m : M α} (h : Keeps P R m) {s t : State} {e : Err} (hs : P s)
    (hm : m s = .error (.raised e) t) : P t := by
  have := h s hs
  rwa [hm] at this

theorem Keeps.fault {m : M α} (h : Keeps P R m) {s t : State} {f : Fault} (hs : P s)
    (hm : m s = .error (.fault f) t) : P t ∧ R f t := by
  have := h s hs
  rwa [hm] at this

theorem Keeps.pure (a : α) : Keeps P R (pure a : M α) := fun _ h => h

theorem Keeps.raise (e : Err) : Keeps P R (raise e : M α) := fun _ h => h

theorem Keeps.stop {f : State → Fault} (hf : ∀ s, P s → R (f s) s) : Keeps P R (stop f : M α) :=
  fun s h => ⟨h, hf s h⟩

theorem Keeps.look (f : State → α) : Keeps P R (look f) := fun _ h => h

theorem Keeps.update {f : State → State} (hf : ∀ s, P s → P (f s)) : Keeps P R (update f) := hf

theorem Keeps.bind {m : M α} {k : α → M β} (hm : Keeps P R m) (hk : ∀ a, Keeps P R (k a)) : Keeps P R (m >>= k) := by
  intro s hs
  rw [run_bind]
  have h := hm s hs
  revert h
  cases m s with
  | ok a t => exact fun h => hk a t h
  | error e t =>
    cases e with
    | raised e => exact fun h => h
    | fault f => exact fun h => h

theorem Keeps.ite {c : Prop} [Decidable c] {m n : M α} (hm : Keeps P R m) (hn : Keeps P R n) :
    Keeps P R (if c then m else n) := by
  split
  · exact hm
  · exact hn

theorem Keeps.onRaise {f : State → State} {m : M α} (hm : Keeps P R m) (hf : ∀ s, P s → P (f s)) :
    Keeps P R (onRaise f m) := by
  intro s hs
  have h := hm s hs
  unfold Machine.onRaise
  revert h
  cases m s with
  | ok a t => exact fun h => h
  | error e t =>
    cases e with
    | raised e => exact hf t
    | fault f => exact fun h => h

theorem Keeps.settled {m : M α} (hm : Keeps P R m) (hf : ∀ s, P s → P (settleDuties s)) : Keeps P R (settled m) := by
  intro s hs
  have h := (hm.onRaise hf) s hs
  unfold Machine.settled
  revert h
  cases Machine.onRaise settleDuties m s with
  | ok a t => exact hf t
  | error e t => exact fun h => h

theorem Keeps.settledFor {kind : MapKind} {m : M α} (hm : Keeps P R m)
    (hf : kind ≠ .erase → ∀ s, P s → P (settleDuties s)) : Keeps P R (settledFor kind m) := by
  by_cases hk : kind = .erase
  · subst hk
    exact hm
  · rw [settledFor_buffer hk]
    exact hm.settled (hf hk)

theorem Keeps.busCall {c : BusCall}
    (hr : ∀ s, P s → s.busAnswers = some 0 → P (s.await c) ∧ R (.busNeverReturns (s.await c)) (s.await c))
    (hf : ∀ s, P s → s.busAnswers ≠ some 0 → P (s.spendAnswer.perform c)) : Keeps P R (busCall c) := by
  intro s hs
  by_cases h : s.busAnswers = some 0
  · rw [busCall_stuck h]
    exact hr s hs h
  · rw [busCall_returns h]
    exact hf s hs h

/-! ## The moves of the bus side -/

/-- A property that every move of the Protocol Engine, the Block Transfer Primitive and `readCSD` keeps. -/
structure BusMoves (P : State → Prop) (R : Fault → State → Prop) : Prop where
  silent : ∀ c s, P s → s.busAnswers = some 0 → P (s.await c) ∧ R (.busNeverReturns (s.await c)) (s.await c)
  perform : ∀ c s, P s → s.busAnswers ≠ some 0 → P (s.spendAnswer.perform c)
  command : ∀ idx arg s, P s → P (s.setCommand idx arg)
  resp : ∀ r s, P s → P (s.setResp r)
  ocr : ∀ v s, P s → P (s.setOcr v)
  csd : ∀ v s, P s → P (s.setCsd v)
  scratch : ∀ v s, P s → P (s.setScratch v)
  loops : ∀ v s, P s → P (s.setLoops v)
  found : ∀ v s, P s → P (s.setFound v)
  drt : ∀ v s, P s → P (s.setDrt v)
  freeCsd : ∀ s, P s → P s.freeCsd
  freeScratch : ∀ s, P s → P s.freeScratch

namespace Keeps

variable (h : BusMoves P R)
include h

theorem setLoops (f : State → LoopCounters) : Keeps P R (Machine.update fun s => s.setLoops (f s)) :=
  Keeps.update fun s => h.loops _ s

theorem call (c : BusCall) : Keeps P R (Machine.busCall c) := Keeps.busCall (h.silent c) (h.perform c)

theorem sel (v : Bool) : Keeps P R (Machine.sel v) :=
  (Keeps.look _).bind fun _ => Keeps.ite (Keeps.pure ()) (call h _)

theorem xfer (tx : Byte) : Keeps P R (Machine.xfer tx) :=
  (Keeps.look _).bind fun _ => (call h _).bind fun _ => Keeps.pure _

theorem receive (rx : Byte) : Keeps P R (Machine.receive rx) := call h _

theorem wait (ms : Nat) : Keeps P R (Machine.wait ms) := call h _

theorem sendAll (bs : List Byte) : Keeps P R (Machine.sendAll bs) := by
  induction bs with
  | nil => exact Keeps.pure ()
  | cons b bs ih => exact (xfer h b).bind fun _ => ih

theorem frame (idx : CmdIndex) (arg : U32) (close : Byte) : Keeps P R (Machine.frame idx arg close) :=
  (Keeps.update (h.command idx arg)).bind fun _ => (sel h true).bind fun _ => sendAll h _

theorem pollLoop (fuel : Nat) : Keeps P R (Machine.pollLoop fuel) := by
  induction fuel with
  | zero => exact (Keeps.update (h.resp _)).bind fun _ => Keeps.pure _
  | succ fuel ih =>
    refine (setLoops h _).bind fun _ => (xfer h _).bind fun rx => ?_
    split
    · exact (Keeps.update (h.resp _)).bind fun _ => Keeps.pure _
    · exact ih

theorem poll : Keeps P R Machine.poll :=
  (setLoops h _).bind fun _ => (Keeps.look _).bind fun n => pollLoop h n

theorem release : Keeps P R Machine.release :=
  (sel h false).bind fun _ => (xfer h _).bind fun _ => Keeps.pure ()

theorem command (idx : CmdIndex) (arg : U32) : Keeps P R (Machine.command idx arg) :=
  (Keeps.look _).bind fun _ => (frame h _ _ _).bind fun _ => (poll h).bind fun _ => (release h).bind fun _ => Keeps.pure _

theorem commandNoDeselect (idx : CmdIndex) (arg : U32) : Keeps P R (Machine.commandNoDeselect idx arg) := by
  refine (Keeps.look _).bind fun _ => (frame h _ _ _).bind fun _ => (poll h).bind fun r => ?_
  cases r with
  | timeout => exact (release h).bind fun _ => Keeps.pure _
  | r1 f => exact Keeps.pure _

theorem trailingByte : Keeps P R Machine.trailingByte := (setLoops h _).bind fun _ => xfer h _

theorem trailingBytes : Keeps P R Machine.trailingBytes :=
  (setLoops h _).bind fun _ => (trailingByte h).bind fun _ => (trailingByte h).bind fun _ =>
    (trailingByte h).bind fun _ => (trailingByte h).bind fun _ => Keeps.pure _

theorem probeInterfaceCondition : Keeps P R Machine.probeInterfaceCondition := by
  refine (Keeps.look _).bind fun _ => (frame h _ _ _).bind fun _ => (poll h).bind fun r => ?_
  cases r with
  | timeout => exact (release h).bind fun _ => Keeps.pure _
  | r1 f => exact (trailingBytes h).bind fun _ => (release h).bind fun _ => Keeps.pure _

theorem readOcr : Keeps P R Machine.readOperatingConditionRegister := by
  refine (Keeps.look _).bind fun _ => (frame h _ _ _).bind fun _ => (poll h).bind fun r => ?_
  cases r with
  | timeout => exact (release h).bind fun _ => (Keeps.look _).bind fun _ => Keeps.pure _
  | r1 f =>
    exact (trailingBytes h).bind fun _ => (Keeps.update (h.ocr _)).bind fun _ => (release h).bind fun _ =>
      (Keeps.look _).bind fun _ => Keeps.pure _

theorem tokenLoop (fuel : Nat) : Keeps P R (Machine.tokenLoop fuel) := by
  induction fuel with
  | zero => exact Keeps.pure _
  | succ fuel ih =>
    exact (setLoops h _).bind fun _ => (xfer h _).bind fun rx =>
      Keeps.ite ((Keeps.update (h.found _)).bind fun _ => Keeps.pure _) ih

theorem tokenPoll : Keeps P R Machine.tokenPoll :=
  (Keeps.update (h.found _)).bind fun _ => (setLoops h _).bind fun _ => (Keeps.look _).bind fun n => tokenLoop h n

theorem setBufferByte (dst : DataBuffer) (k : Nat) (b : Byte) : Keeps P R (Machine.update (State.setBufferByte dst k b)) := by
  cases dst with
  | csd => exact Keeps.update fun s => h.csd _ s
  | scratch => exact Keeps.update fun s => h.scratch _ s

theorem receivePayload (dst : DataBuffer) (fuel k : Nat) : Keeps P R (Machine.receivePayload dst fuel k) := by
  induction fuel generalizing k with
  | zero => exact Keeps.pure _
  | succ fuel ih =>
    exact (xfer h _).bind fun rx => (setBufferByte h dst k rx).bind fun _ => (setLoops h _).bind fun _ => ih (k + 1)

theorem checksumBytes : Keeps P R Machine.checksumBytes :=
  (xfer h _).bind fun _ => (xfer h _).bind fun _ => Keeps.pure _

theorem readData (n : Nat) (dst : DataBuffer) : Keeps P R (Machine.readData n dst) :=
  (sel h true).bind fun _ => (tokenPoll h).bind fun _ =>
    Keeps.ite
      ((setLoops h _).bind fun _ => (receivePayload h dst n 0).bind fun _ => (checksumBytes h).bind fun _ => release h)
      ((release h).bind fun _ => Keeps.raise _)

theorem requireReady (r : Resp) : Keeps P R (Machine.requireReady r) := by
  cases r with
  | timeout => exact Keeps.raise _
  | r1 f => exact Keeps.ite (Keeps.pure _) ((release h).bind fun _ => Keeps.raise _)

theorem readBlockFrom (a : U32) : Keeps P R (Machine.readBlockFrom a) :=
  Keeps.onRaise ((commandNoDeselect h 17 a).bind fun r => (requireReady h r).bind fun _ => readData h 512 .scratch)
    h.freeScratch

theorem checkDataResponse : Keeps P R Machine.checkDataResponse :=
  (xfer h _).bind fun b => (Keeps.update (h.drt b)).bind fun _ =>
    Keeps.ite (Keeps.pure _) ((sel h false).bind fun _ => Keeps.raise _)

theorem busyLoop (fuel : Nat) : Keeps P R (Machine.busyLoop fuel) := by
  induction fuel with
  | zero => exact (release h).bind fun _ => Keeps.raise _
  | succ fuel ih => exact (setLoops h _).bind fun _ => (xfer h _).bind fun rx => Keeps.ite ih (Keeps.pure _)

theorem waitNotBusy : Keeps P R Machine.waitNotBusy :=
  (setLoops h _).bind fun _ => (Keeps.look _).bind fun n => busyLoop h n

theorem gapLoop (fuel : Nat) : Keeps P R (Machine.gapLoop fuel) := by
  induction fuel with
  | zero => exact Keeps.pure _
  | succ fuel ih => exact (setLoops h _).bind fun _ => (xfer h _).bind fun _ => ih

theorem sendPayload (bs : List Byte) : Keeps P R (Machine.sendPayload bs) := by
  induction bs with
  | nil => exact Keeps.pure _
  | cons b bs ih => exact (xfer h b).bind fun _ => (setLoops h _).bind fun _ => ih

theorem writeBlockTo (a : U32) : Keeps P R (Machine.writeBlockTo a) :=
  Keeps.onRaise
    ((commandNoDeselect h 24 a).bind fun r => (requireReady h r).bind fun _ => (sel h true).bind fun _ =>
      (setLoops h _).bind fun _ => (Keeps.look _).bind fun n => (gapLoop h n).bind fun _ => (xfer h _).bind fun _ =>
        (setLoops h _).bind fun _ => (Keeps.look _).bind fun bs => (sendPayload h bs).bind fun _ =>
          (checksumBytes h).bind fun _ => (checkDataResponse h).bind fun _ => (waitNotBusy h).bind fun _ => release h)
    h.freeScratch

theorem readCSD : Keeps P R Machine.readCSD :=
  Keeps.onRaise ((commandNoDeselect h 9 0).bind fun r => (requireReady h r).bind fun _ => readData h 16 .csd) h.freeCsd

theorem freeBuffer (dst : DataBuffer) (s : State) (hs : P s) : P (s.freeBuffer dst) := by
  cases dst with
  | csd => exact h.freeCsd s hs
  | scratch => exact h.freeScratch s hs

theorem responseByte (f : BitVec 7) : Keeps P R (Machine.responseByte f) :=
  (setLoops h _).bind fun _ => (receive h _).bind fun _ => (Keeps.update (h.resp _)).bind fun _ => Keeps.pure _

theorem tokenByte : Keeps P R Machine.tokenByte :=
  (setLoops h _).bind fun _ => (receive h _).bind fun _ => Keeps.update (h.found _)

theorem acceptByte (x : BitVec 3) : Keeps P R (Machine.acceptByte x) :=
  (receive h _).bind fun _ => Keeps.update (h.drt _)

theorem busyByte : Keeps P R Machine.busyByte :=
  (setLoops h _).bind fun _ => (receive h _).bind fun _ => (Keeps.look _).bind fun _ => (Keeps.look _).bind fun _ =>
    Keeps.ite (Keeps.pure _) ((release h).bind fun _ => Keeps.raise _)

end Keeps

/-! ## Bring-up and INIT -/

/-- A property that every move of `bringUp` keeps. -/
structure BringUpMoves (P : State → Prop) (R : Fault → State → Prop) : Prop extends BusMoves P R where
  br : ∀ b s, P s → P (s.setBr b)
  divisor : ∀ d s, P s → d = 1 ∨ d = 512 → P (s.setDivisor d)

namespace Keeps

variable (h : BringUpMoves P R)
include h

theorem failBringUp (e : Err) : Keeps P R (Machine.failBringUp e) :=
  (Keeps.update (h.br _)).bind fun _ => Keeps.raise _

theorem resetLoop (fuel : Nat) : Keeps P R (Machine.resetLoop fuel) := by
  induction fuel with
  | zero => exact Keeps.pure _
  | succ fuel ih => exact (setLoops h.toBusMoves _).bind fun _ => (command h.toBusMoves 0 0).bind fun _ => ih

theorem acmd41 (arg : U32) : Keeps P R (Machine.acmd41 arg) :=
  (command h.toBusMoves 55 0).bind fun _ => command h.toBusMoves 41 arg

theorem v1Loop (fuel : Nat) : Keeps P R (Machine.v1Loop fuel) := by
  induction fuel with
  | zero => exact failBringUp h _
  | succ fuel ih =>
    exact (setLoops h.toBusMoves _).bind fun _ => (acmd41 h 0).bind fun _ =>
      Keeps.ite ((Keeps.update fun s hs => h.divisor _ s hs (.inr rfl)).bind fun _ => Keeps.update (h.br _)) ih

theorem v1Path : Keeps P R Machine.v1Path :=
  (setLoops h.toBusMoves _).bind fun _ => (Keeps.look _).bind fun n => v1Loop h n

theorem v2Loop (fuel : Nat) : Keeps P R (Machine.v2Loop fuel) := by
  induction fuel with
  | zero => exact failBringUp h _
  | succ fuel ih =>
    have hrest : ∀ hcs : U32, Keeps P R (do
        let r ← Machine.acmd41 hcs
        if r = r1Ready then do
          let _ ← readOperatingConditionRegister
          Machine.update (State.setDivisor 1)
          Machine.update (State.setBr .ready)
        else Machine.v2Loop fuel) := fun hcs =>
      (acmd41 h hcs).bind fun _ => Keeps.ite
        ((readOcr h.toBusMoves).bind fun _ => (Keeps.update fun s hs => h.divisor _ s hs (.inl rfl)).bind fun _ =>
          Keeps.update (h.br _)) ih
    refine (setLoops h.toBusMoves _).bind fun _ => (Keeps.look _).bind fun k => ?_
    split
    · exact (Keeps.look _).bind fun ms => (wait h.toBusMoves ms).bind fun _ => (readOcr h.toBusMoves).bind fun _ =>
        (Keeps.look _).bind fun hcs => hrest hcs
    · exact (readOcr h.toBusMoves).bind fun _ => (Keeps.look _).bind fun hcs => hrest hcs

theorem v2Path : Keeps P R Machine.v2Path :=
  (setLoops h.toBusMoves _).bind fun _ => (Keeps.look _).bind fun n => v2Loop h n

theorem versionProbe : Keeps P R Machine.versionProbe :=
  (probeInterfaceCondition h.toBusMoves).bind fun _ =>
    Keeps.ite ((Keeps.update (h.br _)).bind fun _ => v2Path h)
      (Keeps.ite ((Keeps.update (h.br _)).bind fun _ => v1Path h) (failBringUp h _))

theorem bringUp : Keeps P R Machine.bringUp :=
  (Keeps.update (h.br _)).bind fun _ => (setLoops h.toBusMoves _).bind fun _ => (Keeps.look _).bind fun n =>
    (resetLoop h n).bind fun _ => (command h.toBusMoves 0 0).bind fun _ =>
      Keeps.ite ((Keeps.update (h.br _)).bind fun _ => versionProbe h) (failBringUp h _)

end Keeps

/-! ## The mapper -/

/-- A property that every move of one segment keeps: block `blk` is transferred, and READ stores at most `n` bytes from the
segment's host address on. -/
structure SegmentMoves (P : State → Prop) (R : Fault → State → Prop) (kind : MapKind) (blk : U64) (n : Nat) :
    Prop extends BusMoves P R where
  overflow : ∀ s, P s → ¬ cardAddress blk s.divisor < 2 ^ 32 → R (.addressOverflow blk s) s
  store : kind = .read → ∀ bs s, P s → bs.length ≤ n → s.accessSound (segmentAddress s) bs.length = true →
    P (s.setMem (s.mem.writeBytes (segmentAddress s) bs))
  storeFree : kind = .read → ∀ k s, P s → k ≤ n → s.accessSound (segmentAddress s) k ≠ true → P s.freeHostMemory

namespace Keeps

theorem blockAddress {blk : U64} (ho : ∀ s, P s → ¬ cardAddress blk s.divisor < 2 ^ 32 → R (.addressOverflow blk s) s) :
    Keeps P R (Machine.blockAddress blk) := by
  intro s hs
  unfold Machine.blockAddress Machine.readDivisor
  rw [look_bind]
  by_cases hf : cardAddress blk s.divisor < 2 ^ 32
  · simp only [hf, if_true]
    exact hs
  · simp only [hf, if_false]
    exact ⟨hs, ho s hs hf⟩

section

variable {kind : MapKind} {blk : U64} {n : Nat} (h : SegmentMoves P R kind blk n)
include h

theorem readBlockAt : Keeps P R (Machine.readBlockAt blk) :=
  (blockAddress h.overflow).bind fun a => readBlockFrom h.toBusMoves a

theorem writeBlockAt : Keeps P R (Machine.writeBlockAt blk) :=
  (blockAddress h.overflow).bind fun a => writeBlockTo h.toBusMoves a

/-- The store of a READ segment. -/
theorem storeSegment (hk : kind = .read) (f : State → List Byte) (hf : ∀ s, (f s).length ≤ n) : Keeps P R (do
    Machine.memWrite (← Machine.look segmentAddress) (← Machine.look f)) := by
  intro s hs
  rw [look_bind, look_bind]
  unfold Machine.memWrite
  rw [run_update]
  show P (if _ then _ else _)
  split
  · exact h.store hk (f s) s hs (hf s) ‹_›
  · exact h.storeFree hk _ s hs (hf s) ‹_›

theorem loadScratch (off a k : Nat) : Keeps P R (Machine.loadScratch off a k) := Keeps.update fun s hs => by
  split
  · exact h.scratch _ s hs
  · exact h.freeScratch s hs

theorem mergeSegment (off : Nat) : Keeps P R (Machine.mergeSegment kind blk off n) := by
  refine (readBlockAt h).bind fun _ => ?_
  cases kind with
  | read => exact storeSegment h rfl (fun s => slice s.scratch off n) fun s => by simp [slice]
  | write =>
    exact (Keeps.look _).bind fun a => (loadScratch h off a n).bind fun _ => writeBlockAt h
  | erase => exact (Keeps.update fun s => h.scratch _ s).bind fun _ => writeBlockAt h

theorem fullBlock (hn : 512 ≤ n) : Keeps P R (Machine.fullBlock kind blk) := by
  cases kind with
  | read => exact (readBlockAt h).bind fun _ => storeSegment h rfl (fun s => s.scratch.toList) fun s => by simpa using hn
  | write =>
    exact (Keeps.look _).bind fun a => (loadScratch h 0 a 512).bind fun _ => writeBlockAt h
  | erase => exact (Keeps.update fun s => h.scratch _ s).bind fun _ => writeBlockAt h

end

end Keeps

/-- A property that every move of the mapper keeps. -/
structure MapperMoves (P : State → Prop) (R : Fault → State → Prop) : Prop extends BusMoves P R where
  overflow : ∀ blk s, P s → ¬ cardAddress blk s.divisor < 2 ^ 32 → R (.addressOverflow blk s) s
  map : ∀ v s, P s → P (s.setMap v)
  req : ∀ v s, P s → P (s.setReq v)
  store : ∀ a bs s, P s → s.accessSound a bs.length = true → P (s.setMem (s.mem.writeBytes a bs))
  freeHostRange : ∀ lo hi s, P s → P (s.freeHostRange lo hi)

theorem MapperMoves.segment (h : MapperMoves P R) (kind : MapKind) (blk : U64) (n : Nat) :
    SegmentMoves P R kind blk n where
  toBusMoves := h.toBusMoves
  overflow := h.overflow blk
  store := fun _ bs s hs _ hb => h.store _ bs s hs hb
  storeFree := fun _ _ s hs _ _ => h.freeHostRange _ _ s hs

namespace Keeps

theorem checkBounds (offset size : U64) :
    Keeps P R (Machine.checkBounds offset size) :=
  (Keeps.look _).bind fun _ => Keeps.ite (Keeps.pure _) (Keeps.raise _)

variable (h : MapperMoves P R)
include h

theorem bodyLoop (kind : MapKind) (fuel : Nat) : Keeps P R (Machine.bodyLoop kind fuel) := by
  induction fuel with
  | zero => exact Keeps.pure _
  | succ fuel ih =>
    exact (Keeps.look _).bind fun _ => Keeps.ite
      ((Keeps.look _).bind fun blk => (fullBlock (h.segment kind blk 512) le_rfl).bind fun _ =>
        (Keeps.update fun s => h.map _ s).bind fun _ => ih) (Keeps.pure _)

theorem headSegment (kind : MapKind) (offset size : U64) : Keeps P R (Machine.headSegment kind offset size) :=
  (Keeps.update fun s => h.map _ s).bind fun _ => (Keeps.look _).bind fun _ =>
    (mergeSegment (h.segment kind _ _) _).bind fun _ => Keeps.update fun s => h.map _ s

theorem tailSegment (kind : MapKind) : Keeps P R (Machine.tailSegment kind) :=
  (Keeps.look _).bind fun _ => Keeps.ite
    ((Keeps.update fun s => h.map _ s).bind fun _ => (Keeps.look _).bind fun _ =>
      (mergeSegment (h.segment kind _ _) _).bind fun _ => Keeps.update fun s => h.map _ s) (Keeps.pure _)

theorem segments (kind : MapKind) (offset size : U64) : Keeps P R (Machine.segments kind offset size) :=
  (headSegment h kind offset size).bind fun _ => (Keeps.look _).bind fun n => (bodyLoop h kind n).bind fun _ =>
    tailSegment h kind

theorem transfer (kind : MapKind) (offset size : U64) : Keeps P R (Machine.transfer kind offset size) := by
  have hs := segments h kind offset size
  cases kind with
  | read => exact hs.onRaise fun s => h.freeHostRange _ _ s
  | write => exact hs
  | erase => exact hs

theorem settleDuties (s : State) (hs : P s) : P (Machine.settleDuties s) := by
  unfold Machine.settleDuties
  split
  · exact hs
  · exact h.freeHostRange _ _ s hs

theorem mapRange (kind : MapKind) (offset size : U64) : Keeps P R (Machine.mapRange kind offset size) :=
  (checkBounds offset size).bind fun _ => Keeps.ite (Keeps.pure _)
    ((transfer h kind offset size).bind fun _ => Keeps.look _)

theorem mapper (kind : MapKind) (offset size : U64) (buf : Nat) : Keeps P R (Machine.mapper kind offset size buf) :=
  (Keeps.update fun s => h.req _ s).bind fun _ => (Keeps.update h.freeScratch).bind fun _ =>
    (mapRange h kind offset size).settledFor fun _ => settleDuties h

theorem rangeOp (kind : MapKind) (offset size : U64) (buf : Nat) : Keeps P R (Machine.rangeOp kind offset size buf) :=
  (Keeps.update fun s => h.req _ s).bind fun _ => (Keeps.look _).bind fun _ =>
    Keeps.ite ((mapper h kind offset size buf).bind fun _ => Keeps.pure _)
      ((Keeps.raise _).settledFor fun _ => settleDuties h)

end Keeps

/-! ## Whole requests and instructions -/

/-- A sub-step that returns where `P` held leaves `Q`. -/
def Returns (P : State → Prop) (m : M α) (Q : α → State → Prop) : Prop :=
  ∀ s a t, P s → m s = .ok a t → Q a t

theorem Returns.bind {m : M α} {k : α → M β} {Q : α → State → Prop} {R : β → State → Prop} (hm : Returns P m Q)
    (hk : ∀ a, Returns (Q a) (k a) R) : Returns P (m >>= k) R := by
  intro s b u hs hu
  obtain ⟨a, t, h1, h2⟩ := bind_eq_ok hu
  exact hk a t b u (hm s a t hs h1) h2

theorem Returns.update {f : State → State} {Q : Unit → State → Prop} (h : ∀ s, P s → Q () (f s)) :
    Returns P (Machine.update f) Q := by
  intro s a t hs ht
  cases ht
  exact h s hs

theorem Returns.anywhere {m : M α} {Q : α → State → Prop} (h : ∀ s a t, m s = .ok a t → Q a t) : Returns P m Q :=
  fun s a t _ => h s a t

/-- What bring-up has established when it returns (41_bringup.md R163, R164, R166). -/
def BroughtUp (t : State) : Prop := t.br = .ready ∧ (t.divisor = 1 ∨ t.divisor = 512)

theorem failBringUp_returns (e : Err) (s : State) (a : Unit) (t : State) : failBringUp e s ≠ .ok a t := by
  intro h
  obtain ⟨_, _, _, h⟩ := bind_eq_ok h
  cases h

theorem v1Loop_returns (fuel : Nat) (s : State) (a : Unit) (t : State) (h : v1Loop fuel s = .ok a t) : BroughtUp t := by
  induction fuel generalizing s with
  | zero => exact absurd h (failBringUp_returns _ s a t)
  | succ fuel ih =>
    obtain ⟨_, s1, _, h⟩ := bind_eq_ok h
    obtain ⟨r, s2, _, h⟩ := bind_eq_ok h
    split at h
    · cases h
      exact ⟨rfl, .inr rfl⟩
    · exact ih _ h

theorem v2Loop_returns (fuel : Nat) (s : State) (a : Unit) (t : State) (h : v2Loop fuel s = .ok a t) : BroughtUp t := by
  induction fuel generalizing s with
  | zero => exact absurd h (failBringUp_returns _ s a t)
  | succ fuel ih =>
    have hrest : ∀ (s1 : State), (do
        let _ ← readOperatingConditionRegister
        let r ← acmd41 (← look fun s => s.cfg.hcsArg)
        if r = r1Ready then do
          let _ ← readOperatingConditionRegister
          update (State.setDivisor 1)
          update (State.setBr .ready)
        else v2Loop fuel : M Unit) s1 = .ok a t → BroughtUp t := by
      intro s1 h
      obtain ⟨_, s2, _, h⟩ := bind_eq_ok h
      obtain ⟨_, s3, _, h⟩ := bind_eq_ok h
      obtain ⟨r, s4, _, h⟩ := bind_eq_ok h
      split at h
      · obtain ⟨_, s5, _, h⟩ := bind_eq_ok h
        cases h
        exact ⟨rfl, .inl rfl⟩
      · exact ih _ h
    obtain ⟨_, s1, _, h⟩ := bind_eq_ok h
    obtain ⟨_, s2, _, h⟩ := bind_eq_ok h
    split at h
    · obtain ⟨_, s3, _, h⟩ := bind_eq_ok h
      obtain ⟨_, s4, _, h⟩ := bind_eq_ok h
      exact hrest _ h
    · exact hrest _ h

theorem bringUp_returns (s : State) (a : Unit) (t : State) (h : bringUp s = .ok a t) : BroughtUp t := by
  obtain ⟨_, s1, _, h⟩ := bind_eq_ok h
  obtain ⟨_, s2, _, h⟩ := bind_eq_ok h
  obtain ⟨_, s3, _, h⟩ := bind_eq_ok h
  obtain ⟨_, s4, _, h⟩ := bind_eq_ok h
  obtain ⟨r, s5, _, h⟩ := bind_eq_ok h
  split at h
  · obtain ⟨_, s6, _, h⟩ := bind_eq_ok h
    obtain ⟨r', s7, _, h⟩ := bind_eq_ok h
    split at h
    · obtain ⟨_, s8, _, h⟩ := bind_eq_ok h
      obtain ⟨_, s9, _, h⟩ := bind_eq_ok h
      obtain ⟨_, s10, _, h⟩ := bind_eq_ok h
      exact v2Loop_returns _ _ _ _ h
    · split at h
      · obtain ⟨_, s8, _, h⟩ := bind_eq_ok h
        obtain ⟨_, s9, _, h⟩ := bind_eq_ok h
        obtain ⟨_, s10, _, h⟩ := bind_eq_ok h
        exact v1Loop_returns _ _ _ _ h
      · exact absurd h (failBringUp_returns _ _ _ _)
  · exact absurd h (failBringUp_returns _ _ _ _)

/-- The move that opens a session: everything R31-R33 ask of an open one. -/
def Openable (s : State) : Prop :=
  BroughtUp s ∧ s.sectorCount.toNat ≤ 2 ^ 32

/-- A property that every move of INIT and CAPACITY keeps, up to their completion. -/
structure SessionMoves (P : State → Prop) (R : Fault → State → Prop) : Prop extends BringUpMoves P R where
  sectorCount : ∀ v s, P s → v.toNat ≤ 2 ^ 32 → P (s.setSectorCount v)
  shut : ∀ s, P s → P (s.setInitialized false)
  opened : ∀ s, P s → Openable s → P (s.setInitialized true)

/-- A property `P` that every move inside every instruction keeps, and what it is worth where the instruction ends, `Q`. -/
structure AllMoves (P Q : State → Prop) (R : Fault → State → Prop) : Prop extends SessionMoves P R, MapperMoves P R where
  domain : ∀ msb lsb s, P s → extractDomain msb lsb = false → R (.extractBitsDomain msb lsb s) s
  freeSession : ∀ s, P s → s.initialized = false → P s.freeSession
  result : ∀ r s, P s → P (s.setResult r)
  ends : ∀ s, P s → Q s
  complete : ∀ c s, P s → (c.status ≠ .ioFailure → c.cause = .none) → Q (s.complete c)

/-- The session facts that INIT establishes step by step are bus-side independent. -/
theorem openable_moves : BusMoves Openable fun _ _ => True := by
  constructor
  case perform => exact fun c s h _ => by cases c <;> exact h
  case silent => exact fun _ _ h _ => ⟨h, trivial⟩
  all_goals (intros; trivial)

theorem broughtUp_moves : BusMoves BroughtUp fun _ _ => True := by
  constructor
  case perform => exact fun c s h _ => by cases c <;> exact h
  case silent => exact fun _ _ h _ => ⟨h, trivial⟩
  all_goals (intros; trivial)

theorem refreshSectorCount_returns :
    Returns BroughtUp refreshSectorCount fun d t => Openable t ∧ d = decodeCapacity t.csd := by
  intro s d t hs h
  obtain ⟨d', s1, h1, h⟩ := bind_eq_ok h
  cases h1
  split at h
  · cases h
    exact ⟨⟨hs, sectorCount_le _⟩, rfl⟩
  · cases h

/-- `Q` holds in the state an instruction leaves, `P` in the one it stops in, with what `R` says of the fault. -/
def Leaves (P Q : State → Prop) (R : Fault → State → Prop) : Host.Outcome State Fault Refusal → Prop
  | .next t => Q t
  | .fault f => ∃ t, P t ∧ R f t
  | .refused _ => True

namespace Keeps

section

variable (h : SessionMoves P R)
include h

theorem refreshSectorCount : Keeps P R Machine.refreshSectorCount := by
  intro s hs
  unfold Machine.refreshSectorCount
  rw [look_bind]
  split
  · exact h.sectorCount _ s hs (sectorCount_le _)
  · exact hs

theorem capacityOp : Keeps P R Machine.capacityOp :=
  (readCSD h.toBusMoves).bind fun _ => (refreshSectorCount h).bind fun _ => Keeps.pure _

omit h in
theorem requireBlockLength (r : Resp) : Keeps P R (Machine.requireBlockLength r) := Keeps.ite (Keeps.pure _) (Keeps.raise _)

omit h in
theorem statusOp : Keeps P R Machine.statusOp := (Keeps.look _).bind fun _ => Keeps.pure _

omit h in
theorem weaken {Q : State → Prop} {r : EStateM.Result Stop State α} (hr : EndsIn Q R r) (hqp : ∀ s, Q s → P s) :
    EndsIn P R r := by
  revert hr
  cases r with
  | ok a t => exact hqp t
  | error e t =>
    cases e with
    | raised e => exact hqp t
    | fault f => exact fun hr => ⟨hqp t hr.1, hr.2⟩

omit h in
theorem and {Q : State → Prop} {R' : Fault → State → Prop} {m : M α} (hp : Keeps P R m) (hq : Keeps Q R' m) : Keeps (fun s => P s ∧ Q s) R m := by
  intro s hs
  have h1 := hp s hs.1
  have h2 := hq s hs.2
  revert h1 h2
  cases m s with
  | ok a t => exact fun h1 h2 => ⟨h1, h2⟩
  | error e t =>
    cases e with
    | raised e => exact fun h1 h2 => ⟨h1, h2⟩
    | fault f => exact fun h1 h2 => ⟨⟨h1.1, h2.1⟩, h1.2⟩

omit h in
/-- What a sub-step returns may be used by what follows it, and a stronger property that it kept. -/
theorem sequence {Q : State → Prop} {m : M α} {k : α → M β} {s : State} (hm : EndsIn Q R (m s)) (hqp : ∀ t, Q t → P t)
    (hk : ∀ a t, Q t → m s = .ok a t → EndsIn P R (k a t)) : EndsIn P R ((m >>= k) s) := by
  rw [run_bind]
  revert hm hk
  cases m s with
  | ok a t => exact fun hm hk => hk a t hm rfl
  | error e t =>
    cases e with
    | raised e => exact fun hm _ => hqp t hm
    | fault f => exact fun hm _ => ⟨hqp t hm.1, hm.2⟩

theorem initOp : Keeps P R Machine.initOp := by
  intro s hs
  refine sequence (Q := P) (h.shut s hs) (fun _ h => h) fun _ s1 hs1 _ => ?_
  refine sequence (Q := P) (bringUp h.toBringUpMoves s1 hs1) (fun _ h => h) fun a2 s2 hs2 h2 => ?_
  refine sequence (Q := fun t => P t ∧ BroughtUp t)
    ((readCSD h.toBusMoves).and (readCSD broughtUp_moves) s2 ⟨hs2, bringUp_returns s1 a2 s2 h2⟩) (fun _ h => h.1)
    fun _ s3 hs3 _ => ?_
  refine sequence (Q := P) (refreshSectorCount h s3 hs3.1) (fun _ h => h) fun d s4 hs4 h4 => ?_
  refine sequence (Q := fun t => P t ∧ Openable t) ((command h.toBusMoves 16 512).and (command openable_moves 16 512) s4
    ⟨hs4, (refreshSectorCount_returns s3 d s4 hs3.2 h4).1⟩) (fun _ h => h.1) fun r s5 hs5 _ => ?_
  refine sequence (requireBlockLength (P := fun t => P t ∧ Openable t) (R := R) r s5 hs5) (fun _ h => h.1) fun _ s6 hs6 _ => ?_
  exact h.opened s6 hs6.1 hs6.2

end

variable {Q : State → Prop} (h : AllMoves P Q R)
include h

theorem errorExit (e : Err) (s : State) (hs : P s) : Q (s.errorExit e) := by
  have hc : e.status ≠ .ioFailure → e.cause = .none := by cases e <;> simp [Err.status, Err.cause]
  unfold State.errorExit
  split
  · exact h.ends s hs
  · exact h.complete _ _ (h.freeSession _ (h.shut s hs) rfl) (by simp)
  · split
    · exact h.complete _ _ (h.freeHostRange _ _ s hs) hc
    · exact h.complete _ _ hs hc
  · exact h.complete _ _ hs hc
  · exact h.complete _ _ hs hc
  · exact h.complete _ _ hs (by simp)
  · exact h.ends s hs

theorem subStep {toResult : α → Result} {m : M α} {s : State} (hm : Keeps P R m) (hs : P s) :
    Leaves P Q R (Machine.runSubStep toResult m s) := by
  have hk := hm s hs
  unfold Machine.runSubStep
  revert hk
  cases m s with
  | ok a t => exact fun hk => h.ends _ (h.result _ t hk)
  | error e t =>
    cases e with
    | raised e => exact fun hk => errorExit h e _ (h.result _ t hk)
    | fault f => exact fun hk => ⟨t, hk⟩

/-- A completion that names a cause only beside an I/O failure. -/
theorem serve {op : HostOp} {m : M Completion} {s : State} (hm : Keeps P R m)
    (hc : ∀ s c t, m s = .ok c t → c.status ≠ .ioFailure → c.cause = .none) (hs : P (s.accept op)) :
    Leaves P Q R (Machine.serve op m s) := by
  have hk := hm _ hs
  have hc := hc (s.accept op)
  unfold Machine.serve
  split
  · revert hk hc
    cases m (s.accept op) with
    | ok c t => exact fun hk hc => h.complete _ _ hk (hc c t rfl)
    | error e t =>
      cases e with
      | raised e => exact fun hk _ => errorExit h e _ hk
      | fault f => exact fun hk _ => ⟨t, hk⟩
  · trivial

end Keeps

/-! A request that returns has succeeded. -/

theorem initOp_returns (s : State) (c : Completion) (t : State) (h : initOp s = .ok c t) : c = succeed 0 0 := by
  obtain ⟨_, _, _, h⟩ := bind_eq_ok h
  obtain ⟨_, _, _, h⟩ := bind_eq_ok h
  obtain ⟨_, _, _, h⟩ := bind_eq_ok h
  obtain ⟨_, _, _, h⟩ := bind_eq_ok h
  obtain ⟨_, _, _, h⟩ := bind_eq_ok h
  obtain ⟨_, _, _, h⟩ := bind_eq_ok h
  obtain ⟨_, _, _, h⟩ := bind_eq_ok h
  cases h
  rfl

theorem capacityOp_returns (s : State) (c : Completion) (t : State) (h : capacityOp s = .ok c t) :
    ∃ v, c = succeed 0 v := by
  obtain ⟨_, _, _, h⟩ := bind_eq_ok h
  obtain ⟨d, _, _, h⟩ := bind_eq_ok h
  cases h
  exact ⟨_, rfl⟩

theorem settledFor_raise_returns {kind : MapKind} {e : Err} (s : State) (a : α) (t : State) :
    settledFor kind (raise e : M α) s ≠ .ok a t := by
  cases kind <;> exact nofun

theorem rangeOp_returns (kind : MapKind) (o n : U64) (buf : Nat) (s : State) (c : Completion) (t : State)
    (h : rangeOp kind o n buf s = .ok c t) : ∃ k, c = succeed k 0 := by
  obtain ⟨_, _, _, h⟩ := bind_eq_ok h
  obtain ⟨b, _, _, h⟩ := bind_eq_ok h
  split at h
  · obtain ⟨k, _, _, h⟩ := bind_eq_ok h
    cases h
    exact ⟨k, rfl⟩
  · exact absurd h (settledFor_raise_returns _ _ _)

theorem succeed_names_no_cause {c : Completion} {k v : U64} (h : c = succeed k v) :
    c.status ≠ .ioFailure → c.cause = .none := by
  subst h
  exact fun _ => rfl

/-- Every instruction keeps what every move keeps, from where it begins: a request once it is accepted. -/
theorem exec_leaves {Q : State → Prop} (h : AllMoves P Q R) (i : Instr) {s : State} (hs : i.isRequest = false → P s)
    (ha : i.isRequest = true → ∀ op, P (s.accept op)) : Leaves P Q R (exec i s) := by
  have hb := h.toBusMoves
  have hu := h.toBringUpMoves
  have hm := h.toMapperMoves
  cases i with
  | cmd0 => exact (Keeps.command hb _ _).subStep h (hs rfl)
  | cmd8 => exact (Keeps.probeInterfaceCondition hb).subStep h (hs rfl)
  | cmd9 => exact (Keeps.readCSD hb).subStep h (hs rfl)
  | cmd16 => exact (Keeps.command hb _ _).subStep h (hs rfl)
  | cmd17 a => exact (Keeps.readBlockFrom hb a).subStep h (hs rfl)
  | cmd24 a => exact (Keeps.writeBlockTo hb a).subStep h (hs rfl)
  | cmd55 => exact (Keeps.command hb _ _).subStep h (hs rfl)
  | acmd41V1 => exact (Keeps.command hb _ _).subStep h (hs rfl)
  | acmd41V2 => exact (Keeps.command hb _ _).subStep h (hs rfl)
  | cmd58 => exact (Keeps.readOcr hb).subStep h (hs rfl)
  | r1 f => exact (Keeps.responseByte hb f).subStep h (hs rfl)
  | startToken => exact (Keeps.tokenByte hb).subStep h (hs rfl)
  | dataResponseAccept x => exact (Keeps.acceptByte hb x).subStep h (hs rfl)
  | busy => exact (Keeps.busyByte hb).subStep h (hs rfl)
  | filler => exact (Keeps.xfer hb _).subStep h (hs rfl)
  | init => exact (Keeps.initOp h.toSessionMoves).serve h (fun s c t hc => succeed_names_no_cause (initOp_returns s c t hc)) (ha rfl _)
  | read o n b =>
    exact (Keeps.rangeOp hm .read o n b).serve h
      (fun s c t hc => let ⟨_, e⟩ := rangeOp_returns _ _ _ _ s c t hc; succeed_names_no_cause e) (ha rfl _)
  | write o n b =>
    exact (Keeps.rangeOp hm .write o n b).serve h
      (fun s c t hc => let ⟨_, e⟩ := rangeOp_returns _ _ _ _ s c t hc; succeed_names_no_cause e) (ha rfl _)
  | erase o n =>
    exact (Keeps.rangeOp hm .erase o n 0).serve h
      (fun s c t hc => let ⟨_, e⟩ := rangeOp_returns _ _ _ _ s c t hc; succeed_names_no_cause e) (ha rfl _)
  | capacity =>
    exact (Keeps.capacityOp h.toSessionMoves).serve h
      (fun s c t hc => let ⟨_, e⟩ := capacityOp_returns s c t hc; succeed_names_no_cause e) (ha rfl _)
  | status =>
    exact (Keeps.statusOp).serve h (fun s c t hc => by cases hc; exact fun _ => rfl) (ha rfl _)
  | frame idx arg close =>
    change Leaves P Q R (execFrame idx arg close s)
    unfold execFrame
    split
    · exact (Keeps.frame hb _ _ _).subStep h (hs rfl)
    · trivial
  | poll => exact (Keeps.poll hb).subStep h (hs rfl)
  | release => exact (Keeps.release hb).subStep h (hs rfl)
  | command idx arg =>
    change Leaves P Q R (execCommand idx arg s)
    unfold execCommand
    split
    · exact (Keeps.command hb _ _).subStep h (hs rfl)
    · trivial
  | commandNoDeselect idx arg =>
    change Leaves P Q R (execCommandNoDeselect idx arg s)
    unfold execCommandNoDeselect
    split
    · exact (Keeps.commandNoDeselect hb _ _).subStep h (hs rfl)
    · trivial
  | probeInterfaceCondition => exact (Keeps.probeInterfaceCondition hb).subStep h (hs rfl)
  | readOperatingConditionRegister => exact (Keeps.readOcr hb).subStep h (hs rfl)
  | bringUp => exact (Keeps.bringUp hu).subStep h (hs rfl)
  | extractBits msb lsb =>
    refine Keeps.subStep (m := extractBits msb lsb) h ?_ (hs rfl)
    intro u hu
    unfold Machine.extractBits
    split
    · exact hu
    · exact ⟨hu, h.domain msb lsb u hu (by simpa using ‹¬ extractDomain msb lsb = true›)⟩
  | decodeCapacity => exact (Keeps.look fun s => Machine.decodeCapacity s.csd).subStep h (hs rfl)
  | decodeV0 => exact (Keeps.look fun s => Machine.decodeV0 s.csd).subStep h (hs rfl)
  | decodeV1 => exact (Keeps.look fun s => Machine.decodeV1 s.csd).subStep h (hs rfl)
  | readCSD => exact (Keeps.readCSD hb).subStep h (hs rfl)
  | blockAddress blk => exact (Keeps.blockAddress (hm.overflow blk)).subStep h (hs rfl)
  | readData n dst =>
    change Leaves P Q R (execReadData n dst s)
    unfold execReadData
    split
    · exact ((Keeps.readData hb _ _).onRaise (Keeps.freeBuffer hb dst)).subStep h (hs rfl)
    · trivial
  | readBlockAt blk => exact (Keeps.readBlockAt (hm.segment .read blk 0)).subStep h (hs rfl)
  | writeBlockAt blk => exact (Keeps.writeBlockAt (hm.segment .read blk 0)).subStep h (hs rfl)
  | checkDataResponse => exact (Keeps.checkDataResponse hb).subStep h (hs rfl)
  | waitNotBusy => exact (Keeps.waitNotBusy hb).subStep h (hs rfl)
  | mapper kind o n b => exact (Keeps.mapper hm kind o n b).subStep h (hs rfl)
  | checkBounds o n => exact (Keeps.checkBounds o n).subStep h (hs rfl)
  | mergeSegment kind blk off n =>
    change Leaves P Q R (execMergeSegment kind blk off n s)
    unfold execMergeSegment
    split
    · exact (Keeps.mergeSegment (hm.segment kind blk n) off).subStep h (hs rfl)
    · trivial
  | fullBlock kind blk => exact (Keeps.fullBlock (hm.segment kind blk 512) le_rfl).subStep h (hs rfl)

theorem exec_keeps (h : AllMoves P P R) (i : Instr) {s t : State} (hs : P s) (ha : ∀ op, P (s.accept op))
    (ht : exec i s = .next t) : P t := by
  have := exec_leaves h i (fun _ => hs) fun _ => ha
  rwa [ht] at this

end Sys2Proof.Laws
end

