-- ==== Sys2Proof/Laws/Memory.lean ====
section
/-! SUPPORT. Host buffer memory: read after write, and the canonical form that every memory operation keeps. -/

namespace Sys2Proof.Laws

open Sys2Proof.Machine

/-- The canonical form, as a proposition. -/
theorem wf_iff (m : Memory) :
    m.wf = true ↔ m.Pairwise (fun c d => c.1 < d.1) ∧ ∀ c ∈ m, c.2 ≠ Memory.unlisted := by
  simp [Memory.wf]

theorem reset_memory_wf : Memory.wf State.reset.mem = true := rfl

theorem wf_tail {c : Host.Cell} {m : Memory} (h : Memory.wf (c :: m) = true) : Memory.wf m = true := by
  rw [wf_iff] at h ⊢
  exact ⟨(List.pairwise_cons.1 h.1).2, fun d hd => h.2 d (List.mem_cons_of_mem _ hd)⟩

/-- An address below every listed one reads as unlisted. -/
theorem read_of_lt_all {m : Memory} {a : Nat} (h : ∀ c ∈ m, a < c.1) : Memory.read m a = Memory.unlisted := by
  induction m with
  | nil => rfl
  | cons c m ih =>
    have hc := h c (List.mem_cons_self ..)
    have : c.1 ≠ a := by omega
    simp only [Memory.read, this, if_false]
    exact ih fun d hd => h d (List.mem_cons_of_mem _ hd)

/-- A cell of the memory after a write is an old one or the one written. -/
theorem mem_write {m : Memory} {a : Nat} {b : Byte} {c : Host.Cell} (h : c ∈ Memory.write m a b) :
    c ∈ m ∨ (c = (a, b) ∧ b ≠ Memory.unlisted) := by
  induction m with
  | nil =>
    unfold Memory.write at h
    split at h
    · cases h
    · exact .inr ⟨by simpa using h, ‹_›⟩
  | cons d m ih =>
    obtain ⟨x, v⟩ := d
    unfold Memory.write at h
    split at h
    · rcases List.mem_cons.1 h with h | h
      · exact .inl (by simp [h])
      · rcases ih h with h | h
        · exact .inl (List.mem_cons_of_mem _ h)
        · exact .inr h
    · split at h
      · split at h
        · exact .inl (List.mem_cons_of_mem _ h)
        · rcases List.mem_cons.1 h with h | h
          · exact .inr ⟨h, ‹_›⟩
          · exact .inl (List.mem_cons_of_mem _ h)
      · split at h
        · exact .inl h
        · rcases List.mem_cons.1 h with h | h
          · exact .inr ⟨h, ‹_›⟩
          · exact .inl h

/-- A write keeps the canonical form. -/
theorem write_wf {m : Memory} (h : m.wf = true) (a : Nat) (b : Byte) : (Memory.write m a b).wf = true := by
  induction m with
  | nil =>
    unfold Memory.write
    split
    · rfl
    · simp [wf_iff, *]
  | cons d m ih =>
    obtain ⟨x, v⟩ := d
    have htail := wf_tail h
    have hpair := (List.pairwise_cons.1 ((wf_iff _).1 h).1).1
    have hv := ((wf_iff _).1 h).2 (x, v) (List.mem_cons_self ..)
    unfold Memory.write
    split
    · rename_i hlt
      have hw := (wf_iff _).1 (ih htail)
      refine (wf_iff _).2 ⟨List.pairwise_cons.2 ⟨fun c hc => ?_, hw.1⟩, fun c hc => ?_⟩
      · rcases mem_write hc with h | ⟨rfl, -⟩
        · exact hpair c h
        · exact hlt
      · rcases List.mem_cons.1 hc with rfl | hc
        · exact hv
        · exact hw.2 c hc
    · split
      · split
        · exact htail
        · rename_i heq hb
          refine (wf_iff _).2 ⟨List.pairwise_cons.2 ⟨fun c hc => ?_, ((wf_iff _).1 htail).1⟩, fun c hc => ?_⟩
          · have := hpair c hc
            simp only at this ⊢
            omega
          · rcases List.mem_cons.1 hc with rfl | hc
            · exact hb
            · exact ((wf_iff _).1 htail).2 c hc
      · split
        · exact h
        · rename_i hb
          refine (wf_iff _).2 ⟨List.pairwise_cons.2 ⟨fun c hc => ?_, ((wf_iff _).1 h).1⟩, fun c hc => ?_⟩
          · rcases List.mem_cons.1 hc with rfl | hc
            · simp only; omega
            · have := hpair c hc
              simp only at this ⊢
              omega
          · rcases List.mem_cons.1 hc with rfl | hc
            · exact hb
            · exact ((wf_iff _).1 h).2 c hc

/-- A write leaves every other address alone. -/
theorem read_write_other (m : Memory) {a a' : Nat} (b : Byte) (h : a' ≠ a) :
    Memory.read (Memory.write m a b) a' = Memory.read m a' := by
  induction m with
  | nil =>
    unfold Memory.write
    split
    · rfl
    · simp [Memory.read, Ne.symm h]
  | cons d m ih =>
    obtain ⟨x, v⟩ := d
    unfold Memory.write
    split
    · simp only [Memory.read, ih]
    · split
      · rename_i heq
        have hne : x ≠ a' := by omega
        split <;> simp [Memory.read, hne, Ne.symm h]
      · split
        · rfl
        · simp [Memory.read, Ne.symm h]

/-- A read after a write to the same address gives the byte written. -/
theorem read_write_same {m : Memory} (hwf : m.wf = true) (a : Nat) (b : Byte) :
    Memory.read (Memory.write m a b) a = b := by
  induction m with
  | nil =>
    unfold Memory.write
    split
    · simp [Memory.read, *]
    · simp [Memory.read]
  | cons d m ih =>
    obtain ⟨x, v⟩ := d
    have hpair := (List.pairwise_cons.1 ((wf_iff _).1 hwf).1).1
    unfold Memory.write
    split
    · have hne : x ≠ a := by omega
      simp only [Memory.read, hne, if_false]
      exact ih (wf_tail hwf)
    · split
      · rename_i heq
        split
        · rename_i hb
          rw [hb]
          exact read_of_lt_all fun c hc => heq ▸ hpair c hc
        · simp [Memory.read]
      · split
        · rename_i hlt hne hb
          rw [hb]
          refine read_of_lt_all fun c hc => ?_
          rcases List.mem_cons.1 hc with rfl | hc
          · simp only; omega
          · have := hpair c hc
            simp only at this
            omega
        · simp [Memory.read]

/-! ## Runs of bytes -/

theorem writeBytes_wf {m : Memory} (h : m.wf = true) (a : Nat) (bs : List Byte) :
    (Memory.writeBytes m a bs).wf = true := by
  induction bs generalizing m a with
  | nil => exact h
  | cons b bs ih => exact ih (write_wf h a b) (a + 1)

theorem mem_writeBytes {m : Memory} {a : Nat} {bs : List Byte} {c : Host.Cell}
    (h : c ∈ Memory.writeBytes m a bs) : c ∈ m ∨ (a ≤ c.1 ∧ c.1 < a + bs.length) := by
  induction bs generalizing m a with
  | nil => exact .inl h
  | cons b bs ih =>
    rcases ih (a := a + 1) h with h | h
    · rcases mem_write h with h | ⟨rfl, -⟩
      · exact .inl h
      · exact .inr (by simp)
    · exact .inr (by simp only [List.length_cons]; omega)

/-- A run of writes leaves every address outside it alone. -/
theorem read_writeBytes_other (m : Memory) (a : Nat) (bs : List Byte) {a' : Nat}
    (h : a' < a ∨ a + bs.length ≤ a') : Memory.read (Memory.writeBytes m a bs) a' = Memory.read m a' := by
  induction bs generalizing m a with
  | nil => rfl
  | cons b bs ih =>
    simp only [List.length_cons] at h
    show Memory.read (Memory.writeBytes (Memory.write m a b) (a + 1) bs) a' = _
    rw [ih _ _ (by omega), read_write_other _ _ (by omega)]

/-- Byte `k` of a run reads back. -/
theorem read_writeBytes {m : Memory} (hwf : m.wf = true) (a : Nat) (bs : List Byte) (k : Nat)
    (h : k < bs.length) : Memory.read (Memory.writeBytes m a bs) (a + k) = bs[k] := by
  induction bs generalizing m a k with
  | nil => cases h
  | cons b bs ih =>
    show Memory.read (Memory.writeBytes (Memory.write m a b) (a + 1) bs) (a + k) = _
    cases k with
    | zero =>
      rw [read_writeBytes_other _ _ _ (by omega)]
      simpa using read_write_same hwf a b
    | succ k =>
      have := ih (write_wf hwf a b) (a + 1) k (by simpa using h)
      rw [show a + (k + 1) = a + 1 + k by omega, this]
      rfl

theorem length_readBytes (m : Memory) (a n : Nat) : (Memory.readBytes m a n).length = n := by
  induction n generalizing a with
  | zero => rfl
  | succ n ih => simp [Memory.readBytes, ih]

theorem getElem_readBytes (m : Memory) (a n k : Nat) (h : k < (Memory.readBytes m a n).length) :
    (Memory.readBytes m a n)[k] = Memory.read m (a + k) := by
  induction n generalizing a k with
  | zero => cases h
  | succ n ih =>
    cases k with
    | zero => rfl
    | succ k =>
      have hk : k < (Memory.readBytes m (a + 1) n).length := by
        simpa [Memory.readBytes, length_readBytes] using h
      have := ih (a + 1) k hk
      simp only [Memory.readBytes, List.getElem_cons_succ, this]
      congr 1; omega

/-! ## Replacing a range -/

theorem foldl_write_wf {m : Memory} (h : m.wf = true) (cells : List Host.Cell) :
    Memory.wf (cells.foldl (fun m c => Memory.write m c.1 c.2) m) = true := by
  induction cells generalizing m with
  | nil => exact h
  | cons c cells ih => exact ih (write_wf h c.1 c.2)

theorem mem_foldl_write {m : Memory} {cells : List Host.Cell} {c : Host.Cell}
    (h : c ∈ cells.foldl (fun m c => Memory.write m c.1 c.2) m) : c ∈ m ∨ c ∈ cells := by
  induction cells generalizing m with
  | nil => exact .inl h
  | cons d cells ih =>
    rcases ih h with h | h
    · rcases mem_write h with h | ⟨rfl, -⟩
      · exact .inl h
      · exact .inr (List.mem_cons_self ..)
    · exact .inr (List.mem_cons_of_mem _ h)

theorem read_foldl_write_other (m : Memory) (cells : List Host.Cell) {a : Nat} (h : ∀ c ∈ cells, c.1 ≠ a) :
    Memory.read (cells.foldl (fun m c => Memory.write m c.1 c.2) m) a = Memory.read m a := by
  induction cells generalizing m with
  | nil => rfl
  | cons c cells ih =>
    rw [List.foldl_cons, ih _ fun d hd => h d (List.mem_cons_of_mem _ hd),
      read_write_other _ _ (Ne.symm (h c (List.mem_cons_self ..)))]

/-- Dropping cells at other addresses does not change what an address reads as. -/
theorem read_filter (m : Memory) (p : Host.Cell → Bool) {a : Nat} (h : ∀ c ∈ m, c.1 = a → p c = true) :
    Memory.read (m.filter p) a = Memory.read m a := by
  induction m with
  | nil => rfl
  | cons c m ih =>
    have htail : Memory.read (m.filter p) a = Memory.read m a := ih fun d hd => h d (List.mem_cons_of_mem _ hd)
    obtain ⟨x, v⟩ := c
    by_cases hp : p (x, v) = true
    · rw [List.filter_cons_of_pos hp]
      simp only [Memory.read, htail]
    · rw [List.filter_cons_of_neg hp, htail]
      have hne : x ≠ a := fun hx => hp (h (x, v) (List.mem_cons_self ..) hx)
      simp [Memory.read, hne]

theorem replaceRange_wf {m : Memory} (h : m.wf = true) (lo hi : Nat) (cells : List Host.Cell) :
    (Memory.replaceRange m lo hi cells).wf = true := by
  refine foldl_write_wf ?_ _
  rw [wf_iff] at h ⊢
  exact ⟨h.1.filter _, fun c hc => h.2 c (List.mem_of_mem_filter hc)⟩

theorem mem_replaceRange {m : Memory} {lo hi : Nat} {cells : List Host.Cell} {c : Host.Cell}
    (h : c ∈ Memory.replaceRange m lo hi cells) : c ∈ m ∨ (lo ≤ c.1 ∧ c.1 < hi) := by
  rcases mem_foldl_write h with h | h
  · exact .inl (List.mem_of_mem_filter h)
  · exact .inr (by simpa using (List.mem_filter.1 h).2)

/-- Addresses outside the range keep their bytes. -/
theorem read_replaceRange_other (m : Memory) (lo hi : Nat) (cells : List Host.Cell) {a : Nat}
    (h : a < lo ∨ hi ≤ a) : Memory.read (Memory.replaceRange m lo hi cells) a = Memory.read m a := by
  unfold Memory.replaceRange
  rw [read_foldl_write_other, read_filter]
  · intro c _ hc
    simp only [Bool.not_eq_true', Bool.and_eq_false_iff, decide_eq_false_iff_not]
    omega
  · intro c hc
    have := (List.mem_filter.1 hc).2
    simp only [Bool.and_eq_true, decide_eq_true_eq] at this
    omega

end Sys2Proof.Laws
end

