-- ==== Sys2Proof/Laws/Segment.lean ====
section
/-! SUPPORT. One segment of a READ, WRITE or ERASE, when the card's bytes are listed. -/

namespace Sys2Proof.Laws

open Sys2Proof.Machine

/-- What a segment leaves alone. -/
theorem RangeFrame.refl (s : State) : RangeFrame s s := by
  constructor <;> rfl

theorem RangeFrame.trans {s t u : State} (h : RangeFrame s t) (k : RangeFrame t u) : RangeFrame s u where
  initialized := k.initialized.trans h.initialized
  divisor := k.divisor.trans h.divisor
  sectorCount := k.sectorCount.trans h.sectorCount
  csd := k.csd.trans h.csd
  ocr := k.ocr.trans h.ocr
  br := k.br.trans h.br
  cfg := k.cfg.trans h.cfg
  inbox := k.inbox.trans h.inbox
  hostKeepsDuties := k.hostKeepsDuties.trans h.hostKeepsDuties

/-- A READ segment has run: `n` bytes of the block from `off` on are in host memory at `a`. -/
structure SegmentRead (s : State) (r : ReadAnswer 512) (blk off n : Nat) (rest : List Byte) (t : State) : Prop where
  trace : t.trace = s.trace ++ r.events 17 (cardArg s blk) s.cfg.close
  scratch : t.scratch = r.block.data
  stored : ∀ k, k < n → Memory.read t.mem (segmentAddress s + k) = r.block.data.toList.getD (off + k) 0
  kept : ∀ a, a < segmentAddress s ∨ segmentAddress s + n ≤ a → Memory.read t.mem a = Memory.read s.mem a
  sound : MemorySound t
  map : t.map = s.map
  req : t.req = s.req
  drt : t.drt = s.drt
  sel : t.sel = false
  script : t.script = rest
  bus : t.busAnswers = none
  unchanged : RangeFrame s t

/-- The store of a READ segment. -/
theorem store_listed {s t : State} {r : ReadAnswer 512} {blk off n : Nat} {rest bytes : List Byte}
    (ht : t = (s.afterAnswer 17 (cardArg s blk) s.cfg.close r.answer (r.block.bytes ++ rest)).afterData .scratch r.block rest)
    (ha : s.busAnswers = none) (hm : MemorySound s) (hn : bytes.length = n)
    (hb : s.accessSound (segmentAddress s) n = true) (hv : ∀ k (h : k < bytes.length), bytes[k] = r.block.data.toList.getD (off + k) 0) :
    ∃ u, (do memWrite (← look segmentAddress) (← look fun _ => bytes) : M Unit) t = .ok () u ∧
      SegmentRead s r blk off n rest u := by
  subst hn
  have hbt : t.accessSound (segmentAddress t) bytes.length = true := by subst ht; exact hb
  have hmem : t.mem = s.mem := by subst ht; rfl
  refine ⟨t.setMem (t.mem.writeBytes (segmentAddress t) bytes), ?_, ?_⟩
  · rw [look_bind, look_bind]
    unfold memWrite
    rw [run_update, if_pos hbt]
  have haddr : segmentAddress t = segmentAddress s := by subst ht; rfl
  rw [haddr, hmem]
  have hsound : MemorySound (t.setMem (s.mem.writeBytes (segmentAddress s) bytes)) := by
    refine ⟨writeBytes_wf hm.1 _ _, fun c hc => ?_⟩
    have hcfg : t.cfg = s.cfg := by subst ht; rfl
    show c.1 < 2 ^ t.cfg.hostAddr
    rw [hcfg]
    rcases mem_writeBytes hc with hc | hc
    · exact hm.2 c hc
    · simp only [State.accessSound, State.hostBytesSound, Bool.and_eq_true, decide_eq_true_eq] at hb
      omega
  refine ⟨?_, ?_, ?_, ?_, hsound, ?_, ?_, ?_, ?_, ?_, ?_, ?_⟩
  · subst ht
    show s.trace ++ Answer.events 17 _ _ _ ++ r.block.events = _
    simp [ReadAnswer.events]
  · subst ht; rfl
  · intro k hk
    rw [← hv k hk]
    exact read_writeBytes hm.1 _ _ k hk
  · exact fun a h => read_writeBytes_other _ _ _ h
  · subst ht; rfl
  · subst ht; rfl
  · subst ht; rfl
  · subst ht; rfl
  · subst ht; rfl
  · subst ht; exact ha
  · subst ht; constructor <;> rfl

theorem mergeSegment_read {s : State} {r : ReadAnswer 512} {blk : U64} {off n : Nat} {rest : List Byte}
    (ha : s.busAnswers = none) (hd : blk.toNat * s.divisor.toNat < 2 ^ 32)
    (hn : off + n ≤ 512) (hb : s.accessSound (segmentAddress s) n = true) (hm : MemorySound s) (hf : r.fits s.cfg)
    (hs : s.script = r.bytes ++ rest) :
    ∃ t, mergeSegment .read blk off n s = .ok () t ∧ SegmentRead s r blk.toNat off n rest t := by
  unfold mergeSegment
  rw [bind_ok (readBlockAt_listed ha hd hf hs)]
  obtain ⟨u, h1, h2⟩ := store_listed (bytes := slice r.block.data off n) (off := off) rfl ha hm (length_slice _ _ _ hn) hb
    fun k hk => getElem_slice _ _ _ _ hk
  exact ⟨u, h1, h2⟩

theorem fullBlock_read {s : State} {r : ReadAnswer 512} {blk : U64} {rest : List Byte}
    (ha : s.busAnswers = none) (hd : blk.toNat * s.divisor.toNat < 2 ^ 32)
    (hb : s.accessSound (segmentAddress s) 512 = true) (hm : MemorySound s) (hf : r.fits s.cfg)
    (hs : s.script = r.bytes ++ rest) :
    ∃ t, fullBlock .read blk s = .ok () t ∧ SegmentRead s r blk.toNat 0 512 rest t := by
  show ∃ t, (readBlockAt blk >>= _) s = _ ∧ _
  rw [bind_ok (readBlockAt_listed ha hd hf hs)]
  obtain ⟨u, h1, h2⟩ := store_listed (bytes := r.block.data.toList) (off := 0) rfl ha hm (by simp) hb
    fun k hk => by rw [Nat.zero_add, List.getD_eq_getElem _ _ hk]
  exact ⟨u, h1, h2⟩

/-- A WRITE or ERASE segment has run: the block written is `payload`. -/
structure SegmentWritten (s : State) (events : List BusEvent) (payload : List Byte) (drt : Byte) (rest : List Byte)
    (t : State) : Prop where
  trace : t.trace = s.trace ++ events
  scratch : t.scratch.toList = payload
  drt : t.drt = drt
  mem : t.mem = s.mem
  map : t.map = s.map
  req : t.req = s.req
  sel : t.sel = false
  script : t.script = rest
  bus : t.busAnswers = none
  unchanged : RangeFrame s t

/-- The source bytes of a segment in a buffer. -/
theorem overlay_source {v : Vector Byte 512} {src : List Byte} {kind : MapKind} {s : State} {off n : Nat}
    (hl : src.length = n) (hn : off + n ≤ 512)
    (hv : ∀ k (h : k < src.length), src[k] = sourceByte kind s (segmentAddress s) k) :
    (overlay v off src).toList = segmentBytes kind s v.toList off n := by
  subst hl
  rw [toList_overlay _ _ _ hn]
  apply List.ext_getElem
  · simp [segmentBytes]
    omega
  · intro j h1 h2
    have hj : j < 512 := by simpa [segmentBytes] using h2
    have hlen : v.toList.length = 512 := by simp
    simp only [segmentBytes, List.getElem_map, List.getElem_range]
    by_cases hlt : j < off
    · rw [if_neg (by omega), List.getD_eq_getElem _ _ (by omega)]
      simp only [List.append_assoc]
      rw [List.getElem_append_left (by simp; omega)]
      simp
    · by_cases hin : j < off + src.length
      · rw [if_pos (by omega)]
        simp only [List.append_assoc]
        rw [List.getElem_append_right (by simp; omega), List.getElem_append_left (by simp; omega), hv _ (by simp; omega)]
        have : j - (List.take off v.toList).length = j - off := by simp; omega
        rw [this]
        rfl
      · rw [if_neg (by omega), List.getD_eq_getElem _ _ (by omega), List.getElem_append_right (by simp; omega)]
        simp only [List.getElem_drop, List.length_append, List.length_take]
        congr 1
        simp
        omega

/-- Loads the source of a WRITE segment. -/
theorem loadScratch_sound {s : State} {off a n : Nat} (hb : s.accessSound a n = true) :
    loadScratch off a n s = .ok () (s.setScratch (overlay s.scratch off (s.mem.readBytes a n))) := by
  unfold loadScratch
  rw [run_update, if_pos hb]

/-- Puts the source bytes of a segment into `SCRATCH` and writes the block. -/
theorem writeSegment_listed {s t : State} {src : List Byte} {kind : MapKind} {w : WriteAnswer} {blk : U64} {off n : Nat}
    {rest : List Byte} {pre : List BusEvent} (hl : src.length = n) (hn : off + n ≤ 512)
    (hv : ∀ k (h : k < src.length), src[k] = sourceByte kind s (segmentAddress s) k) (ha : t.busAnswers = none)
    (hf : RangeFrame s t) (hmem : t.mem = s.mem) (hmap : t.map = s.map) (hreq : t.req = s.req)
    (htr : t.trace = s.trace ++ pre)
    (hd : blk.toNat * s.divisor.toNat < 2 ^ 32) (hfit : w.fits s.cfg)
    (hs : t.script = w.bytes ++ rest) :
    ∃ u, (do
        update fun s => s.setScratch (overlay s.scratch off src)
        writeBlockAt blk : M Unit) t = .ok () u ∧
      SegmentWritten s
        (pre ++ w.events s.cfg 24 (cardArg s blk.toNat) (segmentBytes kind s t.scratch.toList off n))
        (segmentBytes kind s t.scratch.toList off n) w.drt rest u := by
  rw [update_bind]
  have hdiv : t.divisor = s.divisor := hf.divisor
  have hcfg : t.cfg = s.cfg := hf.cfg
  have harg : cardArg (t.setScratch (overlay t.scratch off src)) blk.toNat = cardArg s blk.toNat := by
    show BitVec.ofNat 32 (blk.toNat * t.divisor.toNat) = _
    rw [hdiv]
    rfl
  have h := writeBlockAt_listed (s := t.setScratch (overlay t.scratch off src)) (a := w) (rest := rest) (blk := blk) ha
    (by show blk.toNat * t.divisor.toNat < _; rw [hdiv]; exact hd)
    (by show w.fits t.cfg; rw [hcfg]; exact hfit) hs
  rw [harg] at h
  refine ⟨_, h, ?_, overlay_source hl hn hv, rfl, hmem, hmap, hreq, rfl, rfl, ha, ?_⟩
  · show t.trace ++ w.events t.cfg 24 _ (overlay t.scratch off src).toList = _
    rw [overlay_source hl hn hv, hcfg, htr, List.append_assoc]
  · exact RangeFrame.trans hf (by constructor <;> rfl)

theorem length_eraseFill (n : Nat) : (eraseFill n).length = n := List.length_replicate

theorem source_write {s : State} {n : Nat} (k : Nat) (h : k < (s.mem.readBytes (segmentAddress s) n).length) :
    (s.mem.readBytes (segmentAddress s) n)[k] = sourceByte .write s (segmentAddress s) k := by
  rw [getElem_readBytes]
  rfl

theorem source_erase {s : State} {n : Nat} (k : Nat) (h : k < (eraseFill n).length) :
    (eraseFill n)[k] = sourceByte .erase s (segmentAddress s) k := by
  simp [eraseFill, sourceByte]

theorem mergeSegment_written {kind : MapKind} {s : State} {r : ReadAnswer 512} {w : WriteAnswer} {blk : U64} {off n : Nat}
    {rest : List Byte} (hk : kind ≠ .read)
    (ha : s.busAnswers = none) (hd : blk.toNat * s.divisor.toNat < 2 ^ 32)
    (hn : off + n ≤ 512) (hb : kind ≠ .erase → s.accessSound (segmentAddress s) n = true) (hf : r.fits s.cfg)
    (hfw : w.fits s.cfg) (hs : s.script = r.bytes ++ w.bytes ++ rest) :
    ∃ t, mergeSegment kind blk off n s = .ok () t ∧
      SegmentWritten s
        ((BlockAnswer.merge r w).events s.cfg (cardArg s blk.toNat) (segmentBytes kind s r.block.data.toList off n))
        (segmentBytes kind s r.block.data.toList off n) w.drt rest t := by
  have hread := readBlockAt_listed (a := r) (rest := w.bytes ++ rest) ha hd hf (by simpa using hs)
  generalize hu : State.afterData .scratch r.block _ _ = u at hread
  have hscr : u.scratch = r.block.data := by subst hu; rfl
  have htr : u.trace = s.trace ++ r.events 17 (cardArg s blk.toNat) s.cfg.close := by
    subst hu
    show s.trace ++ Answer.events 17 _ _ _ ++ r.block.events = _
    simp [ReadAnswer.events]
  have hfr : RangeFrame s u := by subst hu; constructor <;> rfl
  have step := fun src hl hv => writeSegment_listed (s := s) (t := u) (src := src) (kind := kind) (w := w) (blk := blk)
    (off := off) (n := n) (rest := rest) hl hn hv (by subst hu; exact ha) hfr (by subst hu; rfl) (by subst hu; rfl)
    (by subst hu; rfl) htr hd hfw (by subst hu; rfl)
  rw [hscr] at step
  cases kind with
  | read => exact absurd rfl hk
  | write =>
    obtain ⟨v, h1, h2⟩ := step (s.mem.readBytes (segmentAddress s) n) (length_readBytes _ _ _) source_write
    refine ⟨v, ?_, h2⟩
    show (readBlockAt blk >>= _) s = _
    rw [bind_ok hread]
    have hb' : u.accessSound (segmentAddress u) n = true := by subst hu; exact hb (by decide)
    have hm : u.mem.readBytes (segmentAddress u) n = s.mem.readBytes (segmentAddress s) n := by subst hu; rfl
    show (look segmentAddress >>= _) u = _
    rw [look_bind, bind_ok (loadScratch_sound hb'), hm]
    exact h1
  | erase =>
    obtain ⟨v, h1, h2⟩ := step (eraseFill n) (length_eraseFill _) source_erase
    refine ⟨v, ?_, h2⟩
    show (readBlockAt blk >>= _) s = _
    rw [bind_ok hread]
    exact h1

/-- A segment that covers its block takes nothing from it. -/
theorem segmentBytes_full (kind : MapKind) (s : State) (data data' : List Byte) :
    segmentBytes kind s data 0 512 = segmentBytes kind s data' 0 512 := by
  unfold segmentBytes
  refine List.map_congr_left fun j hj => ?_
  have h : 0 ≤ j ∧ j < 0 + 512 := ⟨Nat.zero_le j, by simpa using hj⟩
  rw [if_pos h, if_pos h]

theorem fullBlock_written {kind : MapKind} {s : State} {w : WriteAnswer} {blk : U64} {rest : List Byte} (hk : kind ≠ .read)
    (ha : s.busAnswers = none) (hd : blk.toNat * s.divisor.toNat < 2 ^ 32)
    (hb : kind ≠ .erase → s.accessSound (segmentAddress s) 512 = true) (hfw : w.fits s.cfg)
    (hs : s.script = w.bytes ++ rest) :
    ∃ t, fullBlock kind blk s = .ok () t ∧
      SegmentWritten s (w.events s.cfg 24 (cardArg s blk.toNat) (segmentBytes kind s [] 0 512))
        (segmentBytes kind s [] 0 512) w.drt rest t := by
  have step := fun src hl hv => writeSegment_listed (s := s) (t := s) (src := src) (kind := kind) (w := w) (blk := blk)
    (off := 0) (n := 512) (rest := rest) (pre := []) hl le_rfl hv ha (RangeFrame.refl s) rfl rfl rfl (by simp) hd hfw hs
  rw [segmentBytes_full kind s s.scratch.toList []] at step
  cases kind with
  | read => exact absurd rfl hk
  | write =>
    obtain ⟨v, h1, h2⟩ := step (s.mem.readBytes (segmentAddress s) 512) (length_readBytes _ _ _) source_write
    refine ⟨v, ?_, h2⟩
    show (look segmentAddress >>= _) s = _
    rw [look_bind, bind_ok (loadScratch_sound (hb (by decide)))]
    exact h1
  | erase =>
    obtain ⟨v, h1, h2⟩ := step (eraseFill 512) (length_eraseFill _) source_erase
    exact ⟨v, h1, h2⟩

end Sys2Proof.Laws
end

