-- ==== Sys2Proof/Laws/Range.lean ====
section
/-! SUPPORT. The mapper's head, body and tail: the walk over the blocks of a request, once for every kind. -/

namespace Sys2Proof.Laws

open Sys2Proof.Machine

/-- A segment of `k` bytes from byte `off` of block `b` on, which is byte `d` of the request
(44_byte_range_mapper.md R223-R226). -/
structure Place (o n : U64) (d b off k : Nat) : Prop where
  position : o.toNat + d = 512 * b + off
  inBlock : off + k ≤ 512
  nonempty : 1 ≤ k
  inRequest : d + k ≤ n.toNat
  front : d = 0 ∨ off = 0
  back : off + k = 512 ∨ d + k = n.toNat

section

variable {A : Type} {kind : MapKind} {o n : U64} {J : Nat → Nat → List A → State → Prop}

/-- The registers of the mapper between two segments: `d` bytes done, block `b` next (R220). -/
def Between (n : U64) (d b : Nat) (t : State) : Prop :=
  t.map.done.toNat = d ∧ t.map.rem.toNat = n.toNat - d ∧ t.map.blk.toNat = b

theorem advance_between {d b k : Nat} {t : State} {v : U64} (h : Between n d b t) (hv : v.toNat = k) (hk : d + k ≤ n.toNat)
    (hb : b + 1 < 2 ^ 64) : Between n (d + k) (b + 1) (advance v t) := by
  obtain ⟨h1, h2, h3⟩ := h
  have hn := n.isLt
  refine ⟨?_, ?_, ?_⟩
  · show (t.map.done + v).toNat = _
    rw [BitVec.toNat_add, h1, hv, Nat.mod_eq_of_lt (by omega)]
  · show (t.map.rem - v).toNat = _
    rw [BitVec.toNat_sub_of_le (by rw [BitVec.le_def]; omega), h2, hv]
    omega
  · show (t.map.blk + 1).toNat = _
    rw [BitVec.toNat_add, h3]
    exact Nat.mod_eq_of_lt hb

theorem firstBlock_toNat (o : U64) : (firstBlock o).toNat = o.toNat / 512 := by
  show (o / 512).toNat = _
  rw [BitVec.toNat_udiv]
  rfl

theorem skewOf_toNat (o : U64) : (skewOf o).toNat = o.toNat % 512 := by
  have h : (firstBlock o * 512).toNat = o.toNat / 512 * 512 := by
    have := o.isLt
    rw [BitVec.toNat_mul, firstBlock_toNat, show (512 : U64).toNat = 512 from rfl]
    exact Nat.mod_eq_of_lt (by omega)
  unfold skewOf
  rw [BitVec.toNat_sub_of_le (by rw [BitVec.le_def]; omega), h]
  omega

theorem headLength_toNat (n o : U64) :
    (headLength n (skewOf o)).toNat = min n.toNat (512 - o.toNat % 512) := by
  have h : (512 - skewOf o).toNat = 512 - o.toNat % 512 := by
    rw [BitVec.toNat_sub_of_le (by rw [BitVec.le_def, skewOf_toNat]; have : (512 : U64).toNat = 512 := rfl; omega), skewOf_toNat]
    rfl
  unfold headLength minU64
  split
  · rename_i hle
    rw [h] at hle
    omega
  · rename_i hle
    rw [h] at hle ⊢
    omega

/-- The body: `as` has the answers of the whole blocks that are left and, if bytes are left after them, of the tail. -/
theorem bodyLoop_run (hset : ∀ d b as t m, J d b as t → J d b as (t.setMap m))
    (hfull : ∀ d b a as t (blk : U64), J d b (a :: as) t → t.map.done.toNat = d → blk.toNat = b → Place o n d b 0 512 →
      d ≠ 0 → as ≠ [] → ∃ u, fullBlock kind blk t = .ok () u ∧ u.map = t.map ∧ J (d + 512) (b + 1) as u)
    (ho : o.toNat + n.toNat < 2 ^ 64) (fuel d b : Nat) (as : List A) (t : State) (hj : J d b as t) (hm : Between n d b t)
    (hd : d ≠ 0) (hpos : o.toNat + d = 512 * b) (hle : d ≤ n.toNat) (hl : as.length = (n.toNat - d + 511) / 512)
    (hfuel : (n.toNat - d) / 512 ≤ fuel) :
    ∃ u d' b' as', bodyLoop kind fuel t = .ok () u ∧ J d' b' as' u ∧ Between n d' b' u ∧ d' ≠ 0 ∧
      o.toNat + d' = 512 * b' ∧ d' ≤ n.toNat ∧ n.toNat - d' ≤ 512 ∧ as'.length = (n.toNat - d' + 511) / 512 := by
  induction fuel generalizing d b as t with
  | zero =>
    refine ⟨t, d, b, as, rfl, hj, hm, hd, hpos, hle, ?_, hl⟩
    omega
  | succ fuel ih =>
    unfold bodyLoop
    rw [look_bind]
    by_cases hrem : 512 < t.map.rem.toNat
    · rw [if_pos hrem, look_bind]
      have h2 := hm.2.1
      cases as with
      | nil =>
        simp at hl
        omega
      | cons a as =>
        have has : as ≠ [] := by
          rintro rfl
          simp at hl
          omega
        obtain ⟨u, h3, h4, h5⟩ := hfull d b a as t t.map.blk hj hm.1 hm.2.2
          ⟨hpos, by omega, by omega, by omega, .inr rfl, .inl rfl⟩ hd has
        have hmu : Between n d b u := by
          unfold Between
          rw [h4]
          exact hm
        rw [bind_ok h3, update_bind]
        simp only [List.length_cons] at hl
        exact ih (d + 512) (b + 1) as _ (hset _ _ _ _ _ h5) (advance_between hmu rfl (by omega) (by omega)) (by omega)
          (by omega) (by omega) (by omega) (by omega)
    · rw [if_neg hrem, run_pure]
      have h2 := hm.2.1
      exact ⟨t, d, b, as, rfl, hj, hm, hd, hpos, hle, by omega, hl⟩

/-- The walk over all the blocks of a request. -/
theorem segments_run (hset : ∀ d b as t m, J d b as t → J d b as (t.setMap m))
    (hmerge : ∀ d b off k a as t (blk : U64), J d b (a :: as) t → t.map.done.toNat = d → blk.toNat = b →
      Place o n d b off k → (d = 0 ∨ as = []) →
      ∃ u, mergeSegment kind blk off k t = .ok () u ∧ u.map = t.map ∧ J (d + k) (b + 1) as u)
    (hfull : ∀ d b a as t (blk : U64), J d b (a :: as) t → t.map.done.toNat = d → blk.toNat = b → Place o n d b 0 512 →
      d ≠ 0 → as ≠ [] → ∃ u, fullBlock kind blk t = .ok () u ∧ u.map = t.map ∧ J (d + 512) (b + 1) as u)
    (ho : o.toNat + n.toNat < 2 ^ 64) (hn : 1 ≤ n.toNat) {as : List A} (hl : as.length = touchedBlocks o n) {s : State}
    (hs : J 0 (o.toNat / 512) as s) :
    ∃ u b, segments kind o n s = .ok () u ∧ u.map.done = n ∧ J n.toNat b [] u := by
  unfold segments
  unfold touchedBlocks blockBytes at hl
  cases as with
  | nil => simp at hl
  | cons a as =>
    simp only [List.length_cons] at hl
    have hk := headLength_toNat n o
    generalize hkd : min n.toNat (512 - o.toNat % 512) = k at hk
    -- the head
    have hhead : ∃ u, headSegment kind o n s = .ok () u ∧ Between n k (o.toNat / 512 + 1) u ∧
        J k (o.toNat / 512 + 1) as u := by
      unfold headSegment
      rw [update_bind, look_bind]
      obtain ⟨u, h1, h2, h3⟩ := hmerge 0 (o.toNat / 512) (o.toNat % 512) k a as
        (s.setMap ⟨0, n, firstBlock o, skewOf o, headLength n (skewOf o)⟩) (firstBlock o)
        (hset _ _ _ _ _ hs) rfl (firstBlock_toNat o)
        ⟨by omega, by omega, by omega, by omega, .inl rfl, by omega⟩ (.inl rfl)
      have h1' : mergeSegment kind (firstBlock o) (skewOf o).toNat (headLength n (skewOf o)).toNat
          (s.setMap ⟨0, n, firstBlock o, skewOf o, headLength n (skewOf o)⟩) = .ok () u := by
        rw [skewOf_toNat, hk]
        exact h1
      have hb : Between n 0 (o.toNat / 512) u := by
        unfold Between
        rw [h2]
        exact ⟨rfl, rfl, firstBlock_toNat o⟩
      have hadv := advance_between hb hk (by omega) (by have := o.isLt; omega)
      rw [Nat.zero_add] at hadv h3
      exact ⟨_, (bind_ok h1' _).trans rfl, hadv, hset _ _ _ _ _ h3⟩
    obtain ⟨u, h1, h2, h3⟩ := hhead
    rw [bind_ok h1, look_bind]
    have hk1 : 1 ≤ k := by omega
    have hkn : k ≤ n.toNat := by omega
    have hrem := h2.2.1
    by_cases hall : k = n.toNat
    · -- the head is the whole request
      have hnil : as = [] := by
        apply List.eq_nil_of_length_eq_zero
        have : o.toNat % 512 + n.toNat ≤ 512 := by omega
        omega
      subst hnil
      have hr0 : u.map.rem.toNat = 0 := by omega
      have hbody : bodyLoop kind (u.map.rem.toNat / 512) u = .ok () u := by
        rw [hr0]
        rfl
      have htail : tailSegment kind u = .ok () u := by
        unfold tailSegment
        rw [look_bind, if_neg (by omega), run_pure]
      rw [bind_ok hbody, htail]
      refine ⟨u, o.toNat / 512 + 1, rfl, BitVec.eq_of_toNat_eq (by rw [h2.1, hall]), hall ▸ h3⟩
    · have hpos : o.toNat + k = 512 * (o.toNat / 512 + 1) := by omega
      obtain ⟨v, d, b, bs, g1, g2, g3, g4, g5, g6, g7, g8⟩ := bodyLoop_run hset hfull ho (u.map.rem.toNat / 512) k
        (o.toNat / 512 + 1) as u h3 h2 (by omega) hpos hkn (by omega) (by omega)
      rw [bind_ok g1]
      unfold tailSegment
      rw [look_bind]
      have hr := g3.2.1
      by_cases hz : 0 < v.map.rem.toNat
      · rw [if_pos hz, update_bind, look_bind]
        cases bs with
        | nil =>
          simp at g8
          omega
        | cons a bs =>
          have hbs : bs = [] := by
            apply List.eq_nil_of_length_eq_zero
            simp only [List.length_cons] at g8
            omega
          subst hbs
          obtain ⟨w, w1, w2, w3⟩ := hmerge d b 0 (n.toNat - d) a [] (v.setMap { v.map with segN := v.map.rem }) v.map.blk
            (hset _ _ _ _ _ g2) g3.1 g3.2.2 ⟨by omega, by omega, by omega, by omega, .inr rfl, by omega⟩ (.inr rfl)
          have w1' : mergeSegment kind v.map.blk 0 v.map.rem.toNat (v.setMap { v.map with segN := v.map.rem }) = .ok () w := by
            rw [hr]
            exact w1
          refine ⟨_, b + 1, (bind_ok w1' _).trans rfl, ?_, ?_⟩
          · show w.map.done + v.map.rem = n
            rw [w2]
            apply BitVec.eq_of_toNat_eq
            show (v.map.done + v.map.rem).toNat = _
            rw [BitVec.toNat_add, g3.1, hr, Nat.mod_eq_of_lt (by omega)]
            omega
          · have : d + (n.toNat - d) = n.toNat := by omega
            rw [this] at w3
            exact hset _ _ _ _ _ w3
      · rw [if_neg hz, run_pure]
        have hd : d = n.toNat := by omega
        have hbs : bs = [] := by
          apply List.eq_nil_of_length_eq_zero
          omega
        subst hbs
        exact ⟨v, b, rfl, BitVec.eq_of_toNat_eq (by rw [g3.1, hd]), hd ▸ g2⟩

end

end Sys2Proof.Laws
end

