-- ==== Sys2Proof/Laws/RangeData.lean ====
section
/-! SUPPORT. What READ, WRITE and ERASE leave when the card's bytes are listed: the walk of Laws/Range.lean with the
content of every block. -/

namespace Sys2Proof.Laws

open Sys2Proof.Machine

theorem length_blockData (as : List (ReadAnswer 512)) : (blockData as).length = 512 * as.length := by
  induction as with
  | nil => rfl
  | cons a as ih =>
    simp only [blockData, List.flatMap_cons, List.length_append, List.length_cons, Vector.length_toList] at ih ⊢
    omega

/-- Byte `j` of a block is byte `512 * i + j` of the payload bytes. -/
theorem getD_blockData (pre : List (ReadAnswer 512)) (a : ReadAnswer 512) (as : List (ReadAnswer 512)) {j : Nat}
    (hj : j < 512) : (blockData (pre ++ a :: as)).getD (512 * pre.length + j) 0 = a.block.data.toList.getD j 0 := by
  have hp := length_blockData pre
  have : blockData (pre ++ a :: as) = blockData pre ++ (a.block.data.toList ++ blockData as) := by simp [blockData]
  rw [this, List.getD_eq_getElem?_getD, List.getElem?_append_right (by omega), hp, Nat.add_sub_cancel_left,
    List.getElem?_append_left (by simpa using hj), ← List.getD_eq_getElem?_getD]

/-- A card address depends on the divisor alone. -/
theorem cardArg_congr {s t : State} (h : t.divisor = s.divisor) (b : Nat) : cardArg t b = cardArg s b := by
  unfold cardArg
  rw [h]

/-- A segment's block lies in the request, so its card address fits. -/
theorem Place.address {s : State} {o n : U64} {d b off k : Nat} (h : Place o n d b off k) (hf : AddressesFit s o n) :
    b * s.divisor.toNat < 2 ^ 32 := by
  obtain ⟨h1, h2, h3, h4, _, _⟩ := h
  refine Nat.lt_of_le_of_lt (Nat.mul_le_mul_right _ ?_) hf
  have : 512 * b ≤ o.toNat + n.toNat - 1 := by omega
  exact (Nat.le_div_iff_mul_le (by omega)).2 (by omega)

/-- A buffer the host keeps is sound while its request is served. -/
theorem bufferSound_kept {s t : State} {o n : U64} {buf : Nat} (hb : BufferKept s buf n)
    (hk : t.hostKeepsDuties = s.hostKeepsDuties) (hc : t.cfg = s.cfg) (hreq : t.req = ⟨o, n, buf⟩) :
    t.bufferSound = true := by
  unfold State.bufferSound State.hostBytesSound
  rw [hk, hb.1, hc, hreq]
  simpa using hb.2

/-- A segment's host bytes lie in the buffer. -/
theorem Place.bytes {s t : State} {o n : U64} {d b off k buf : Nat} (h : Place o n d b off k) (hb : BufferKept s buf n)
    (hf : RangeFrame s t) (hreq : t.req = ⟨o, n, buf⟩) (hd : t.map.done.toNat = d) :
    t.accessSound (segmentAddress t) k = true := by
  have h1 := h.inRequest
  have h2 := hb.2
  unfold State.accessSound
  rw [bufferSound_kept hb hf.hostKeepsDuties hf.cfg hreq, Bool.and_true]
  unfold State.hostBytesSound segmentAddress
  rw [hf.hostKeepsDuties, hb.1, hf.cfg, hreq, hd]
  simp only [Bool.true_and, decide_eq_true_eq]
  omega

/-! ## READ -/

/-- A READ with `d` bytes done and the answers `as` to come. -/
structure ReadSoFar (s : State) (o n : U64) (buf : Nat) (all : List (ReadAnswer 512)) (rest : List Byte) (d b : Nat)
    (as : List (ReadAnswer 512)) (t : State) : Prop where
  split : ∃ pre, all = pre ++ as ∧ b = o.toNat / 512 + pre.length
  trace : t.trace ++ rangeReadEvents s b as = s.trace ++ rangeReadEvents s (o.toNat / 512) all
  stored : ∀ k, k < d → Memory.read t.mem (buf + k) = (blockData all).getD (o.toNat % 512 + k) 0
  kept : ∀ a, a < buf ∨ buf + n.toNat ≤ a → Memory.read t.mem a = Memory.read s.mem a
  sound : MemorySound t
  script : t.script = as.flatMap ReadAnswer.bytes ++ rest
  bus : t.busAnswers = none
  sel : d ≠ 0 → t.sel = false
  req : t.req = ⟨o, n, buf⟩
  unchanged : RangeFrame s t

theorem ReadSoFar.advance {s t u : State} {o n : U64} {buf d b off k : Nat} {all as : List (ReadAnswer 512)}
    {a : ReadAnswer 512} {rest : List Byte} (h : ReadSoFar s o n buf all rest d b (a :: as) t) (hp : Place o n d b off k)
    (hd : t.map.done.toNat = d) (hu : SegmentRead t a b off k (as.flatMap ReadAnswer.bytes ++ rest) u) :
    ReadSoFar s o n buf all rest (d + k) (b + 1) as u := by
  obtain ⟨pre, hall, hb⟩ := h.split
  have haddr : segmentAddress t = buf + d := by
    unfold segmentAddress
    rw [h.req, hd]
  have hpos : o.toNat % 512 + d = 512 * pre.length + off := by
    have := hp.position
    omega
  refine ⟨⟨pre ++ [a], by rw [hall]; simp, by simp; omega⟩, ?_, ?_, ?_, hu.sound, hu.script, hu.bus, fun _ => hu.sel,
    hu.req.trans h.req, RangeFrame.trans h.unchanged hu.unchanged⟩
  · rw [← h.trace, hu.trace, cardArg_congr h.unchanged.divisor, h.unchanged.cfg]
    simp [rangeReadEvents]
  · intro j hj
    by_cases hjd : j < d
    · rw [← h.stored j hjd]
      exact hu.kept _ (.inl (by omega))
    · have hs := hu.stored (j - d) (by omega)
      rw [haddr] at hs
      have e1 : buf + d + (j - d) = buf + j := by omega
      have e2 : o.toNat % 512 + j = 512 * pre.length + (off + (j - d)) := by omega
      rw [e1] at hs
      rw [hs, hall, e2, getD_blockData _ _ _ (by have := hp.inBlock; omega)]
  · intro x hx
    rw [← h.kept x hx]
    refine hu.kept x ?_
    have := hp.inRequest
    omega

theorem segments_read {s t : State} {o n : U64} {buf : Nat} {as : List (ReadAnswer 512)} {rest : List Byte}
    (hr : RangeReady s o n) (hb : BufferKept s buf n) (hf : ∀ a ∈ as, a.fits s.cfg) (hl : as.length = touchedBlocks o n)
    (ht : ReadSoFar s o n buf as rest 0 (o.toNat / 512) as t) :
    ∃ u, segments .read o n t = .ok () u ∧ u.map.done = n ∧ ∃ b, ReadSoFar s o n buf as rest n.toNat b [] u := by
  have hfits : ∀ {d b a bs} {t : State}, ReadSoFar s o n buf as rest d b (a :: bs) t → a.fits t.cfg := by
    intro d b a bs t h
    obtain ⟨pre, hall, _⟩ := h.split
    rw [h.unchanged.cfg]
    exact hf a (by rw [hall]; simp)
  have haddr : ∀ {d b a bs off k} {t : State} {blk : U64}, ReadSoFar s o n buf as rest d b (a :: bs) t → blk.toNat = b →
      Place o n d b off k → blk.toNat * t.divisor.toNat < 2 ^ 32 := by
    intro d b a bs off k t blk h hblk hp
    rw [h.unchanged.divisor, hblk]
    exact hp.address hr.addresses
  obtain ⟨u, b, h1, h2, h3⟩ := segments_run (J := ReadSoFar s o n buf as rest) (kind := .read) (as := as)
    (fun d b bs t m h => ⟨h.split, h.trace, h.stored, h.kept, h.sound, h.script, h.bus, h.sel, h.req,
      RangeFrame.trans h.unchanged (by constructor <;> rfl)⟩)
    (fun d b off k a bs t blk h hd hblk hp _ => by
      obtain ⟨u, h1, h2⟩ := mergeSegment_read (r := a) (blk := blk) (off := off) (n := k)
        (rest := bs.flatMap ReadAnswer.bytes ++ rest) h.bus
        (haddr h hblk hp) hp.inBlock
        (hp.bytes hb h.unchanged h.req hd) h.sound (hfits h) (by rw [h.script]; simp)
      rw [hblk] at h2
      exact ⟨u, h1, h2.map, h.advance hp hd h2⟩)
    (fun d b a bs t blk h hd hblk hp _ _ => by
      obtain ⟨u, h1, h2⟩ := fullBlock_read (r := a) (blk := blk) (rest := bs.flatMap ReadAnswer.bytes ++ rest) h.bus
        (haddr h hblk hp)
        (hp.bytes hb h.unchanged h.req hd) h.sound (hfits h) (by rw [h.script]; simp)
      rw [hblk] at h2
      exact ⟨u, h1, h2.map, h.advance hp hd h2⟩)
    hr.legal.1 hr.nonempty hl ht
  exact ⟨u, h1, h2, b, h3⟩

/-! ## WRITE and ERASE -/

/-- A WRITE or ERASE with `d` bytes done and the answers `as` to come. -/
structure WriteSoFar (kind : MapKind) (s : State) (o n : U64) (buf : Nat) (all : List BlockAnswer) (rest : List Byte)
    (d b : Nat) (as : List BlockAnswer) (t : State) : Prop where
  split : ∃ pre, all = pre ++ as ∧ b = o.toNat / 512 + pre.length ∧ (pre = [] ↔ d = 0)
  trace : t.trace ++ rangeWriteEvents kind s o n buf b as = s.trace ++ rangeWriteEvents kind s o n buf (o.toNat / 512) all
  mem : t.mem = s.mem
  script : t.script = as.flatMap BlockAnswer.bytes ++ rest
  bus : t.busAnswers = none
  sel : d ≠ 0 → t.sel = false
  req : t.req = ⟨o, n, buf⟩
  unchanged : RangeFrame s t

/-- The block a segment writes is the merged block of the whole request. -/
theorem segment_merged {kind : MapKind} {s t : State} {o n : U64} {buf d b off k : Nat} {old : Nat → Byte}
    {data : List Byte} (hp : Place o n d b off k) (hd : t.map.done.toNat = d) (hmem : t.mem = s.mem) (hreq : t.req.buf = buf)
    (hold : off ≠ 0 ∨ k ≠ 512 → ∀ j, data.getD j 0 = old j) :
    segmentBytes kind t data off k = mergedBlock kind s o n buf b old := by
  obtain ⟨h1, h2, h3, h4, h5, h6⟩ := hp
  unfold segmentBytes mergedBlock
  refine List.map_congr_left fun j hj => ?_
  have hj : j < 512 := by simpa using hj
  by_cases hin : off ≤ j ∧ j < off + k
  · rw [if_pos hin, if_pos (by omega), hreq, hd]
    cases kind with
    | erase => rfl
    | read =>
      show Memory.read t.mem _ = Memory.read s.mem _
      rw [hmem]
      congr 1
      omega
    | write =>
      show Memory.read t.mem _ = Memory.read s.mem _
      rw [hmem]
      congr 1
      omega
  · rw [if_neg hin, if_neg (by omega)]
    exact hold (by omega) j

theorem WriteSoFar.advance {kind : MapKind} {s t u : State} {o n : U64} {buf d b off k : Nat} {all as : List BlockAnswer}
    {a : BlockAnswer} {rest payload : List Byte} {drt : Byte} (h : WriteSoFar kind s o n buf all rest d b (a :: as) t)
    (hp : Place o n d b off k) (hpay : payload = mergedBlock kind s o n buf b a.old)
    (hu : SegmentWritten t (a.events t.cfg (cardArg t b) payload) payload drt (as.flatMap BlockAnswer.bytes ++ rest) u) :
    WriteSoFar kind s o n buf all rest (d + k) (b + 1) as u := by
  obtain ⟨pre, hall, hb, hpre⟩ := h.split
  have := hp.nonempty
  refine ⟨⟨pre ++ [a], by rw [hall]; simp, by simp; omega, by simp; omega⟩, ?_, hu.mem.trans h.mem, hu.script, hu.bus,
    fun _ => hu.sel, by rw [hu.req, h.req], RangeFrame.trans h.unchanged hu.unchanged⟩
  rw [← h.trace, hu.trace, cardArg_congr h.unchanged.divisor, h.unchanged.cfg, hpay]
  simp [rangeWriteEvents]

/-- Which answer comes next: a merge at the ends, a write alone between them. -/
theorem WriteSoFar.isMerge {kind : MapKind} {s t : State} {o n : U64} {buf d b : Nat} {all as : List BlockAnswer}
    {a : BlockAnswer} {rest : List Byte} (h : WriteSoFar kind s o n buf all rest d b (a :: as) t) (hm : MergesAtEnds all) :
    a.isMerge = true ↔ d = 0 ∨ as = [] := by
  obtain ⟨pre, hall, hb, hpre⟩ := h.split
  subst hall
  have hlen : pre.length < (pre ++ a :: as).length := by simp
  have h1 := hm pre.length hlen
  have h2 : (pre ++ a :: as)[pre.length] = a := by simp
  rw [h2] at h1
  rw [h1, ← hpre]
  simp

theorem segments_written {kind : MapKind} {s t : State} {o n : U64} {buf : Nat} {as : List BlockAnswer} {rest : List Byte}
    (hk : kind ≠ .read) (hr : RangeReady s o n) (hb : kind ≠ .erase → BufferKept s buf n) (hf : ∀ a ∈ as, a.fits s.cfg)
    (hm : MergesAtEnds as) (hl : as.length = touchedBlocks o n)
    (ht : WriteSoFar kind s o n buf as rest 0 (o.toNat / 512) as t) :
    ∃ u, segments kind o n t = .ok () u ∧ u.map.done = n ∧ ∃ b, WriteSoFar kind s o n buf as rest n.toNat b [] u := by
  have hfits : ∀ {d b a bs} {t : State}, WriteSoFar kind s o n buf as rest d b (a :: bs) t → a.fits t.cfg := by
    intro d b a bs t h
    obtain ⟨pre, hall, _⟩ := h.split
    rw [h.unchanged.cfg]
    exact hf a (by rw [hall]; simp)
  have haddr : ∀ {d b a bs off k} {t : State} {blk : U64}, WriteSoFar kind s o n buf as rest d b (a :: bs) t →
      blk.toNat = b → Place o n d b off k → blk.toNat * t.divisor.toNat < 2 ^ 32 := by
    intro d b a bs off k t blk h hblk hp
    rw [h.unchanged.divisor, hblk]
    exact hp.address hr.addresses
  obtain ⟨u, b, h1, h2, h3⟩ := segments_run (J := WriteSoFar kind s o n buf as rest) (kind := kind) (as := as)
    (fun d b bs t m h => ⟨h.split, h.trace, h.mem, h.script, h.bus, h.sel, h.req,
      RangeFrame.trans h.unchanged (by constructor <;> rfl)⟩)
    (fun d b off k a bs t blk h hd hblk hp hend => by
      have hmerge := (h.isMerge hm).2 hend
      have hfit := hfits h
      cases a with
      | full w => cases hmerge
      | merge r w =>
        obtain ⟨u, h1, h2⟩ := mergeSegment_written (kind := kind) (r := r) (w := w) (blk := blk) (off := off) (n := k)
          (rest := bs.flatMap BlockAnswer.bytes ++ rest) hk h.bus
          (haddr h hblk hp) hp.inBlock
          (fun he => hp.bytes (hb he) h.unchanged h.req hd) hfit.1 hfit.2
          (by rw [h.script]; simp [BlockAnswer.bytes])
        rw [hblk] at h2
        exact ⟨u, h1, h2.map, h.advance hp (segment_merged hp hd h.mem (by rw [h.req]) fun _ _ => rfl) h2⟩)
    (fun d b a bs t blk h hd hblk hp h0 hne => by
      have hfull : ¬ a.isMerge = true := fun hc => by
        rcases (h.isMerge hm).1 hc with h | h
        · exact h0 h
        · exact hne h
      have hfit := hfits h
      cases a with
      | merge r w => exact absurd rfl hfull
      | full w =>
        obtain ⟨u, h1, h2⟩ := fullBlock_written (kind := kind) (w := w) (blk := blk)
          (rest := bs.flatMap BlockAnswer.bytes ++ rest) hk h.bus
          (haddr h hblk hp) (fun he => hp.bytes (hb he) h.unchanged h.req hd)
          hfit (by rw [h.script]; simp [BlockAnswer.bytes])
        rw [hblk] at h2
        exact ⟨u, h1, h2.map, h.advance hp (segment_merged hp hd h.mem (by rw [h.req]) fun he => by omega) h2⟩)
    hr.legal.1 hr.nonempty hl ht
  exact ⟨u, h1, h2, b, h3⟩

/-! ## The mapper and the requests -/

theorem rangeLegal_iff {o n sc : U64} :
    rangeLegal o n sc = true ↔ o.toNat + n.toNat < 2 ^ 64 ∧ o.toNat + n.toNat ≤ sc.toNat * 512 := by
  unfold rangeLegal capacityBound blockBytes
  rw [Bool.and_eq_true, decide_eq_true_eq, decide_eq_true_eq]

theorem checkBounds_legal {s : State} {o n : U64}
    (h : o.toNat + n.toNat < 2 ^ 64 ∧ o.toNat + n.toNat ≤ s.sectorCount.toNat * 512) :
    checkBounds o n s = .ok () s := by
  unfold checkBounds
  rw [bind_ok (readSectorCount_holds s), if_pos (rangeLegal_iff.2 h), run_pure]

theorem checkBounds_illegal {s : State} {o n : U64}
    (h : 2 ^ 64 ≤ o.toNat + n.toNat ∨ s.sectorCount.toNat * 512 < o.toNat + n.toNat) :
    checkBounds o n s = .error (.raised .boundsViolation) s := by
  have hl : ¬ rangeLegal o n s.sectorCount = true := fun hc => by
    have := rangeLegal_iff.1 hc
    omega
  unfold checkBounds
  rw [bind_ok (readSectorCount_holds s), if_neg hl, run_raise]

/-- The state in which the mapper begins its transfer. -/
abbrev mapperStart (o n : U64) (buf : Nat) (s : State) : State := (s.setReq ⟨o, n, buf⟩).freeScratch

/-- The mapper of a legal, non-empty request is its transfer. -/
theorem mapRange_transfer {kind : MapKind} {o n : U64} {s : State}
    (h : o.toNat + n.toNat < 2 ^ 64 ∧ o.toNat + n.toNat ≤ s.sectorCount.toNat * 512) (hn : 1 ≤ n.toNat) :
    mapRange kind o n s = (transfer kind o n >>= fun _ => look fun s => s.map.done) s := by
  have hne : ¬ n = 0 := by
    rintro rfl
    simp at hn
  unfold mapRange
  rw [bind_ok (checkBounds_legal h), if_neg hne]

/-- `transfer` returns as its segments do. -/
theorem transfer_ok {kind : MapKind} {o n : U64} {s u : State} (h : segments kind o n s = .ok () u) :
    transfer kind o n s = .ok () u := by
  cases kind with
  | read => exact onRaise_ok h
  | write | erase => exact h

/-- Nothing is settled where the host keeps its duties. -/
theorem mapper_ok {kind : MapKind} {o n : U64} {buf : Nat} {s u : State} {k : U64}
    (h : mapRange kind o n (mapperStart o n buf s) = .ok k u) (hu : kind ≠ .erase → u.bufferSound = true) :
    mapper kind o n buf s = .ok k u := by
  unfold mapper
  rw [update_bind, update_bind]
  by_cases he : kind = .erase
  · subst he
    exact h
  · rw [settledFor_buffer he, settled_ok h, settleDuties_sound (hu he)]

theorem mapper_raised {kind : MapKind} {o n : U64} {buf : Nat} {s u : State} {e : Err}
    (h : mapRange kind o n (mapperStart o n buf s) = .error (.raised e) u) (hu : kind ≠ .erase → u.bufferSound = true) :
    mapper kind o n buf s = .error (.raised e) u := by
  unfold mapper
  rw [update_bind, update_bind]
  by_cases he : kind = .erase
  · subst he
    exact h
  · rw [settledFor_buffer he, settled_raised h, settleDuties_sound (hu he)]

/-- The mapper of a legal, non-empty request whose segments all complete. -/
theorem mapper_run {kind : MapKind} {o n : U64} {buf : Nat} {s u : State}
    (h : o.toNat + n.toNat < 2 ^ 64 ∧ o.toNat + n.toNat ≤ s.sectorCount.toNat * 512) (hn : 1 ≤ n.toNat)
    (hs : segments kind o n (mapperStart o n buf s) = .ok () u) (hu : kind ≠ .erase → u.bufferSound = true) :
    mapper kind o n buf s = .ok u.map.done u := by
  exact mapper_ok ((mapRange_transfer (s := mapperStart o n buf s) h hn).trans (bind_ok (transfer_ok hs) _)) hu

/-- READ's mapper on a card that answers every CMD17. -/
theorem mapper_read {s : State} {o n : U64} {buf : Nat} {as : List (ReadAnswer 512)} {rest : List Byte}
    (hr : RangeReady s o n) (hm : MemorySound s) (hb : BufferKept s buf n) (hl : as.length = touchedBlocks o n)
    (hf : ∀ a ∈ as, a.fits s.cfg) (hs : s.script = as.flatMap ReadAnswer.bytes ++ rest) :
    ∃ u, mapper .read o n buf s = .ok n u ∧ ReadDone s o n buf as rest u := by
  obtain ⟨u, h1, h2, b, h3⟩ := segments_read (t := mapperStart o n buf s) (rest := rest) hr hb hf hl
    ⟨⟨[], rfl, rfl⟩, rfl, fun k hk => absurd hk (by omega), fun _ _ => rfl, hm, hs, hr.bus, fun h => absurd rfl h, rfl,
      by constructor <;> rfl⟩
  have hsound : u.bufferSound = true := bufferSound_kept hb h3.unchanged.hostKeepsDuties h3.unchanged.cfg h3.req
  refine ⟨u, ?_, ?_⟩
  · rw [mapper_run hr.legal hr.nonempty h1 fun _ => hsound, h2]
  · have hn := hr.nonempty
    exact ⟨by simpa [rangeReadEvents] using h3.trace, h3.stored, h3.kept, h2, h3.sel (by omega), by simpa using h3.script,
      h3.unchanged⟩

/-- The mapper of WRITE and ERASE on a card that accepts every block. -/
theorem mapper_written {kind : MapKind} {s : State} {o n : U64} {buf : Nat} {as : List BlockAnswer} {rest : List Byte}
    (hk : kind ≠ .read) (hr : RangeReady s o n) (hb : kind ≠ .erase → BufferKept s buf n)
    (hl : as.length = touchedBlocks o n) (hf : ∀ a ∈ as, a.fits s.cfg) (hm : MergesAtEnds as)
    (hs : s.script = as.flatMap BlockAnswer.bytes ++ rest) :
    ∃ u, mapper kind o n buf s = .ok n u ∧ WriteDone kind s o n buf as rest u := by
  obtain ⟨u, h1, h2, b, h3⟩ := segments_written (t := mapperStart o n buf s) (rest := rest) hk hr hb hf hm hl
    ⟨⟨[], rfl, rfl, by simp⟩, rfl, rfl, hs, hr.bus, fun h => absurd rfl h, rfl, by constructor <;> rfl⟩
  have hsound : kind ≠ .erase → u.bufferSound = true := fun he =>
    bufferSound_kept (hb he) h3.unchanged.hostKeepsDuties h3.unchanged.cfg h3.req
  refine ⟨u, ?_, ?_⟩
  · rw [mapper_run hr.legal hr.nonempty h1 hsound, h2]
  · have hn := hr.nonempty
    exact ⟨by simpa [rangeWriteEvents] using h3.trace, h3.mem, h2, h3.sel (by omega), by simpa using h3.script,
      h3.unchanged⟩

theorem rangeOp_ok {kind : MapKind} {o n : U64} {buf : Nat} {s u : State} {k : U64} (hi : s.initialized = true)
    (h : mapper kind o n buf (s.setReq ⟨o, n, buf⟩) = .ok k u) : rangeOp kind o n buf s = .ok (succeed k 0) u := by
  have hi' : (s.setReq ⟨o, n, buf⟩).initialized = true := hi
  unfold rangeOp
  rw [update_bind, look_bind, if_pos hi', bind_ok h, run_pure]

theorem RangeReady.moved {s : State} {o n : U64} (h : RangeReady s o n) (op : HostOp) (r : Request) :
    RangeReady ((s.accept op).setReq r) o n :=
  ⟨h.session, h.legal, h.nonempty, h.addresses, h.bus⟩

/-- The events of a READ depend on the divisor and the parameters alone. -/
theorem readEvents_congr (s s' : State) (h1 : s'.divisor = s.divisor) (h2 : s'.cfg = s.cfg) (b : Nat)
    (as : List (ReadAnswer 512)) : rangeReadEvents s' b as = rangeReadEvents s b as := by
  induction as generalizing b with
  | nil => rfl
  | cons a as ih => simp [rangeReadEvents, ih, cardArg_congr h1, h2]

/-- The events of a WRITE depend on host memory too. -/
theorem writeEvents_congr (s s' : State) (h1 : s'.divisor = s.divisor) (h2 : s'.cfg = s.cfg) (h3 : s'.mem = s.mem)
    (kind : MapKind) (o n : U64) (buf b : Nat) (as : List BlockAnswer) :
    rangeWriteEvents kind s' o n buf b as = rangeWriteEvents kind s o n buf b as := by
  have hm : ∀ blk a, mergedBlock kind s' o n buf blk a = mergedBlock kind s o n buf blk a := by
    intro blk a
    unfold mergedBlock
    refine List.map_congr_left fun j hj => ?_
    cases kind <;> simp [sourceByte, h3]
  induction as generalizing b with
  | nil => rfl
  | cons a as ih => simp [rangeWriteEvents, ih, cardArg_congr h1, h2, hm]

/-- ERASE has no buffer. -/
theorem eraseEvents_buf (s : State) (o n : U64) (buf buf' b : Nat) (as : List BlockAnswer) :
    rangeWriteEvents .erase s o n buf b as = rangeWriteEvents .erase s o n buf' b as := by
  have hm : ∀ blk a, mergedBlock .erase s o n buf blk a = mergedBlock .erase s o n buf' blk a := fun _ _ => rfl
  induction as generalizing b with
  | nil => rfl
  | cons a as ih => simp [rangeWriteEvents, ih, hm]

/-- The error exit of READ, WRITE and ERASE for a kind that is no I/O failure. -/
theorem errorExit_range {s : State} {op : HostOp} (h : s.top = .busy op) (hop : op = .read ∨ op = .write ∨ op = .erase)
    {e : Err} (hio : e.isIo = false) : s.errorExit e = s.complete (s.rangeCompletion e) := by
  unfold State.errorExit
  rw [h]
  obtain rfl | rfl | rfl := hop <;> simp [hio]

end Sys2Proof.Laws
end

