-- ==== Sys2Proof/Laws/Walk.lean ====
section
/-! SUPPORT. The walk of the mapper over the blocks of a request, whatever the card returns: how many bytes are done where
it returns and where it raises, and what a property kept by every segment is worth. -/

namespace Sys2Proof.Laws

open Sys2Proof.Machine

variable {α β : Type} {C E : State → Prop} {J : Nat → State → Prop} {R : Fault → State → Prop} {o n : U64} {kind : MapKind}

/-- How a part of the walk ends: `Q` where it returns; where it raises, `E` and fewer bytes done than the size; where it
stops with a fault, `R`. -/
def Walks (E : State → Prop) (R : Fault → State → Prop) (n : U64) (Q : State → Prop) :
    EStateM.Result Stop State α → Prop
  | .ok _ t => Q t
  | .error (.raised _) t => E t ∧ t.map.done.toNat < n.toNat
  | .error (.fault f) t => R f t

theorem Walks.bind {m : M α} {k : α → M β} {Q Q' : State → Prop} {s : State} (hm : Walks E R n Q (m s))
    (hk : ∀ a t, Q t → Walks E R n Q' (k a t)) : Walks E R n Q' ((m >>= k) s) := by
  rw [run_bind]
  revert hm
  cases m s with
  | ok a t => exact hk a t
  | error e t =>
    cases e with
    | raised e => exact fun h => h
    | fault f => exact fun h => h

/-- A segment that keeps a property and the mapper's registers. -/
theorem Walks.segment {m : M Unit} {s : State} (hk : Keeps (fun t => C t ∧ t.map = s.map) R m) (hs : C s)
    (hd : s.map.done.toNat < n.toNat) : Walks C R n (fun t => C t ∧ t.map = s.map) (m s) := by
  have h := hk s ⟨hs, rfl⟩
  revert h
  cases m s with
  | ok a t => exact fun h => h
  | error e t =>
    cases e with
    | raised e => exact fun h => ⟨h.1, by rw [h.2]; exact hd⟩
    | fault f => exact fun h => h.2

/-- What every segment of the walk does; `J b` holds before the segment of block `b`. -/
structure WalkSteps (J : Nat → State → Prop) (E : State → Prop) (R : Fault → State → Prop) (kind : MapKind) (o n : U64) :
    Prop where
  map : ∀ b v s, J b s → J b (s.setMap v)
  merge : ∀ d b off k (blk : U64) t, J b t → t.map.done.toNat = d → blk.toNat = b → Place o n d b off k →
    Walks E R n (fun u => J (b + 1) u ∧ u.map = t.map) (mergeSegment kind blk off k t)
  full : ∀ d b (blk : U64) t, J b t → t.map.done.toNat = d → blk.toNat = b → Place o n d b 0 512 →
    Walks E R n (fun u => J (b + 1) u ∧ u.map = t.map) (fullBlock kind blk t)

theorem Between.congr {d b : Nat} {t u : State} (h : Between n d b t) (hm : u.map = t.map) : Between n d b u := by
  unfold Between
  rw [hm]
  exact h

theorem bodyLoop_walks (h : WalkSteps J E R kind o n) (ho : o.toNat + n.toNat < 2 ^ 64) (fuel d b : Nat) (t : State)
    (hj : J b t) (hm : Between n d b t) (hd : d ≠ 0) (hpos : o.toNat + d = 512 * b) (hle : d ≤ n.toNat)
    (hfuel : (n.toNat - d) / 512 ≤ fuel) :
    Walks E R n (fun u => ∃ d' b', J b' u ∧ Between n d' b' u ∧ d' ≠ 0 ∧ o.toNat + d' = 512 * b' ∧ d' ≤ n.toNat ∧
      n.toNat - d' ≤ 512) (bodyLoop kind fuel t) := by
  induction fuel generalizing d b t with
  | zero => exact ⟨d, b, hj, hm, hd, hpos, hle, by omega⟩
  | succ fuel ih =>
    have h2 := hm.2.1
    unfold bodyLoop
    rw [look_bind]
    by_cases hrem : 512 < t.map.rem.toNat
    · rw [if_pos hrem, look_bind]
      have hp : Place o n d b 0 512 := ⟨hpos, by omega, by omega, by omega, .inr rfl, .inl rfl⟩
      refine Walks.bind (h.full d b t.map.blk t hj hm.1 hm.2.2 hp) fun _ u hu => ?_
      rw [update_bind]
      exact ih (d + 512) (b + 1) _ (h.map _ _ _ hu.1) (advance_between (hm.congr hu.2) rfl (by omega) (by omega)) (by omega)
        (by omega) (by omega) (by omega)
    · rw [if_neg hrem, run_pure]
      exact ⟨d, b, hj, hm, hd, hpos, hle, by omega⟩

/-- The whole walk: all the blocks and bytes where it returns, fewer bytes where it raises (44_byte_range_mapper.md R229,
R230). -/
theorem segments_walks (h : WalkSteps J E R kind o n) (ho : o.toNat + n.toNat < 2 ^ 64) (hn : 1 ≤ n.toNat) {s : State}
    (hs : J (o.toNat / 512) s) :
    Walks E R n (fun u => u.map.done = n ∧ ∃ b, J b u ∧ o.toNat + n.toNat ≤ 512 * b) (segments kind o n s) := by
  unfold segments
  have hk := headLength_toNat n o
  generalize hkd : min n.toNat (512 - o.toNat % 512) = k at hk
  have hlt := o.isLt
  -- the head
  refine Walks.bind (Q := fun u => J (o.toNat / 512 + 1) u ∧ Between n k (o.toNat / 512 + 1) u) ?_ fun _ u hu => ?_
  · unfold headSegment
    rw [update_bind, look_bind]
    have hp : Place o n 0 (o.toNat / 512) (o.toNat % 512) k :=
      ⟨by omega, by omega, by omega, by omega, .inl rfl, by omega⟩
    have hb : Between n 0 (o.toNat / 512)
        (s.setMap ⟨0, n, firstBlock o, skewOf o, headLength n (skewOf o)⟩) := ⟨rfl, rfl, firstBlock_toNat o⟩
    have hseg := h.merge 0 _ _ k (firstBlock o) _ (h.map _ ⟨0, n, firstBlock o, skewOf o, headLength n (skewOf o)⟩ _ hs) rfl
      (firstBlock_toNat o) hp
    rw [← skewOf_toNat, ← hk] at hseg
    refine Walks.bind hseg fun _ u hu => ?_
    have hadv := advance_between (hb.congr hu.2) hk (by omega) (by omega)
    rw [Nat.zero_add] at hadv
    exact ⟨h.map _ _ _ hu.1, hadv⟩
  have hrem := hu.2.2.1
  rw [look_bind]
  by_cases hall : k = n.toNat
  · have hbody : bodyLoop kind (u.map.rem.toNat / 512) u = .ok () u := by
      have hr0 : u.map.rem.toNat = 0 := by omega
      rw [hr0]
      rfl
    have htail : tailSegment kind u = .ok () u := by
      unfold tailSegment
      rw [look_bind, if_neg (by omega), run_pure]
    rw [bind_ok hbody, htail]
    exact ⟨BitVec.eq_of_toNat_eq (by rw [hu.2.1, hall]), _, hu.1, by omega⟩
  · refine Walks.bind (bodyLoop_walks h ho _ k (o.toNat / 512 + 1) u hu.1 hu.2 (by omega) (by omega) (by omega)
      (by rw [hrem])) fun _ v hv => ?_
    obtain ⟨d, b, hjv, hbv, hd0, hpos, hdn, h512⟩ := hv
    have hr := hbv.2.1
    unfold tailSegment
    rw [look_bind]
    by_cases hz : 0 < v.map.rem.toNat
    · rw [if_pos hz, update_bind, look_bind]
      have hp : Place o n d b 0 (n.toNat - d) := ⟨hpos, by omega, by omega, by omega, .inr rfl, by omega⟩
      have hseg := h.merge d b 0 _ v.map.blk _ (h.map _ { v.map with segN := v.map.rem } _ hjv) hbv.1 hbv.2.2 hp
      rw [← hr] at hseg
      refine Walks.bind hseg fun _ w hw => ⟨?_, b + 1, h.map _ _ _ hw.1, by omega⟩
      show w.map.done + v.map.rem = n
      have hn2 := n.isLt
      rw [hw.2]
      apply BitVec.eq_of_toNat_eq
      show (v.map.done + v.map.rem).toNat = _
      rw [BitVec.toNat_add, hbv.1, hr, Nat.mod_eq_of_lt (by omega)]
      omega
    · rw [if_neg hz, run_pure]
      have : d = n.toNat := by omega
      exact ⟨BitVec.eq_of_toNat_eq (by rw [hbv.1, this]), b, hjv, by omega⟩

theorem freeUnread_done (s : State) : s.freeUnread.map.done = s.map.done := rfl

theorem settleDuties_done (s : State) : (settleDuties s).map.done = s.map.done := by
  unfold settleDuties
  split <;> rfl

/-- A `raise` passed through an update that keeps the property and `DONE`. -/
theorem Walks.onRaise {m : M α} {f : State → State} {Q : State → Prop} {s : State} (hm : Walks E R n Q (m s))
    (hf : ∀ t, E t → E (f t)) (hd : ∀ t : State, (f t).map.done = t.map.done) :
    Walks E R n Q (Machine.onRaise f m s) := by
  unfold Machine.onRaise
  revert hm
  cases m s with
  | ok a t => exact fun h => h
  | error e t =>
    cases e with
    | raised e => exact fun h => ⟨hf _ h.1, by rw [hd]; exact h.2⟩
    | fault f => exact fun h => h

/-- The transfer: as the walk. -/
theorem transfer_walks (h : WalkSteps J E R kind o n) (hu : kind = .read → ∀ s, E s → E s.freeUnread)
    (ho : o.toNat + n.toNat < 2 ^ 64) (hn : 1 ≤ n.toNat) {s : State} (hs : J (o.toNat / 512) s) :
    Walks E R n (fun u => u.map.done = n ∧ ∃ b, J b u ∧ o.toNat + n.toNat ≤ 512 * b) (transfer kind o n s) := by
  have hw := segments_walks h ho hn hs
  cases kind with
  | read => exact hw.onRaise (hu rfl) freeUnread_done
  | write | erase => exact hw

/-- How the mapper ends on a legal, non-empty request: `Q` holds with the whole size, `E` after an I/O error with fewer
bytes done. -/
def MapperEnds (Q E : State → Prop) (R : Fault → State → Prop) (n : U64) : EStateM.Result Stop State U64 → Prop
  | .ok k t => k = n ∧ t.map.done = n ∧ Q t
  | .error (.raised e) t => Raises.Io e ∧ t.map.done.toNat < n.toNat ∧ E t
  | .error (.fault f) t => R f t

/-- The mapper on a legal, non-empty request, from what its segments do. -/
theorem mapper_walks {buf : Nat} {s : State} {Q : State → Prop}
    (h : o.toNat + n.toNat < 2 ^ 64 ∧ o.toNat + n.toNat ≤ s.sectorCount.toNat * 512) (hn : 1 ≤ n.toNat)
    (hm : WalkSteps J E R kind o n) (hu : kind = .read → ∀ s, E s → E s.freeUnread)
    (he : kind ≠ .erase → ∀ s, E s → E (settleDuties s)) (hq : kind ≠ .erase → ∀ s, Q s → Q (settleDuties s))
    (hall : ∀ b u, J b u → o.toNat + n.toNat ≤ 512 * b → Q u) (hs : J (o.toNat / 512) (mapperStart o n buf s)) :
    MapperEnds Q E R n (mapper kind o n buf s) := by
  have hw1 := transfer_walks hm hu h.1 hn hs
  have hio := Raises.transfer kind o n (mapperStart o n buf s)
  have hx := mapRange_transfer (kind := kind) (s := mapperStart o n buf s) h hn
  unfold mapper
  rw [update_bind, update_bind]
  have hrange : MapperEnds Q E R n (mapRange kind o n (mapperStart o n buf s)) := by
    rw [hx, run_bind]
    revert hw1 hio
    cases transfer kind o n (mapperStart o n buf s) with
    | ok a t => exact fun ⟨hd, b, hj, hb⟩ _ => ⟨hd, hd, hall b t hj hb⟩
    | error x t =>
      cases x with
      | raised e => exact fun h he => ⟨he e t rfl, h.2, h.1⟩
      | fault f => exact fun h _ => h
  by_cases hk : kind = .erase
  · subst hk
    exact hrange
  · rw [settledFor_buffer hk]
    revert hrange
    show MapperEnds Q E R n (mapRange kind o n (mapperStart o n buf s)) → _
    cases hy : mapRange kind o n (mapperStart o n buf s) with
    | ok k t =>
      rw [settled_ok hy]
      exact fun h => ⟨h.1, (settleDuties_done t).trans h.2.1, hq hk t h.2.2⟩
    | error x t =>
      cases x with
      | raised e =>
        rw [settled_raised hy]
        exact fun h => ⟨h.1, by rw [settleDuties_done]; exact h.2.1, he hk t h.2.2⟩
      | fault f =>
        rw [settled_fault hy]
        exact fun h => h

/-! ## A property that every segment keeps -/

/-- What every segment of the walk keeps. -/
structure WalkMoves (C : State → Prop) (R : Fault → State → Prop) (kind : MapKind) (o n : U64) : Prop where
  map : ∀ v s, C s → C (s.setMap v)
  free : ∀ s, C s → C s.freeScratch
  unread : kind = .read → ∀ s, C s → C s.freeUnread
  settle : kind ≠ .erase → ∀ s, C s → C (settleDuties s)
  segment : ∀ d b off k (blk : U64) (m : MapperRegs), m.done.toNat = d → blk.toNat = b → Place o n d b off k →
    SegmentMoves (fun t => C t ∧ t.map = m) R kind blk k

theorem WalkMoves.steps (h : WalkMoves C R kind o n) : WalkSteps (fun _ => C) C R kind o n where
  map _ := h.map
  merge d b off k blk t hc hd hb hp :=
    Walks.segment (Keeps.mergeSegment (h.segment d b off k blk t.map hd hb hp) off) hc
      (by have := hp.nonempty; have := hp.inRequest; omega)
  full d b blk t hc hd hb hp :=
    Walks.segment (Keeps.fullBlock (h.segment d b 0 512 blk t.map hd hb hp) le_rfl) hc (by have := hp.inRequest; omega)

/-- The mapper on a legal, non-empty request: the whole size, or an I/O error with fewer bytes done. -/
theorem mapper_ends {buf : Nat} {s : State}
    (h : o.toNat + n.toNat < 2 ^ 64 ∧ o.toNat + n.toNat ≤ s.sectorCount.toNat * 512)
    (hn : 1 ≤ n.toNat) (hm : WalkMoves C R kind o n) (hs : C (s.setReq ⟨o, n, buf⟩)) :
    MapperEnds C C R n (mapper kind o n buf s) :=
  mapper_walks h hn hm.steps hm.unread hm.settle hm.settle (fun _ _ hc _ => hc) (hm.free _ hs)

end Sys2Proof.Laws
end

