-- ==== Sys2Proof/Laws/Ends.lean ====
section
/-! SUPPORT. While the bus answers every call, the bus side stops with no fault, and a request ends in IDLE. -/

namespace Sys2Proof.Laws

open Sys2Proof.Machine

variable {α : Type} {P : State → Prop}

/-- No sub-step of the bus side stops while every bus call returns. -/
theorem answered_moves : SessionMoves (fun s => s.busAnswers = none) fun _ _ => False := by
  constructor
  · constructor
    · constructor
      case silent =>
        intro c s h h0
        rw [h] at h0
        cases h0
      case perform =>
        intro c s h _
        rw [spendAnswer_all h]
        cases c <;> exact h
      all_goals (intros; assumption)
    all_goals (intros; assumption)
  all_goals (intros; assumption)

/-- A sub-step that stops with no fault answers a next state. -/
theorem runSubStep_ends {toResult : α → Result} {m : M α} {s : State} (h : Keeps P (fun _ _ => False) m) (hs : P s) :
    ∃ t, runSubStep toResult m s = .next t := by
  have h := h s hs
  unfold runSubStep
  revert h
  cases m s with
  | ok a t => exact fun _ => ⟨_, rfl⟩
  | error e t =>
    cases e with
    | raised e => exact fun _ => ⟨_, rfl⟩
    | fault f => exact fun h => h.2.elim

/-- The error exit of every request but STATUS, which raises nothing, is IDLE. -/
theorem errorExit_top {s : State} {op : HostOp} {e : Err} (h : s.top = .busy op) (ho : op ≠ .status) :
    (s.errorExit e).top = .idle := by
  unfold State.errorExit
  rw [h]
  cases op with
  | read =>
    dsimp only
    split <;> rfl
  | status => exact absurd rfl ho
  | _ => rfl

/-- Outside READ the error exit leaves host memory alone. -/
theorem errorExit_mem {s : State} {op : HostOp} {e : Err} (h : s.top = .busy op) (ho : op ≠ .read) :
    (s.errorExit e).mem = s.mem := by
  unfold State.errorExit
  rw [h]
  cases op with
  | read => exact absurd rfl ho
  | _ => rfl

/-- A `raise` with no request running changes nothing more. -/
theorem errorExit_idle {s : State} {e : Err} (h : s.top = .idle) : s.errorExit e = s := by
  unfold State.errorExit
  rw [h]

/-- A request that stops with no fault ends in IDLE. -/
theorem serve_ends {op : HostOp} {m : M Completion} {s : State} (hi : s.top = .idle) (ho : op ≠ .status)
    (htop : Keeps (fun t => t.top = .busy op) (fun _ _ => True) m)
    (h : ∀ f t, m (s.accept op) ≠ .error (.fault f) t) : ∃ t, serve op m s = .next t ∧ t.top = .idle := by
  have hk := htop (s.accept op) rfl
  revert hk h
  cases hm : m (s.accept op) with
  | ok a t => exact fun _ _ => ⟨_, serve_ok hi hm, rfl⟩
  | error e t =>
    cases e with
    | raised e => exact fun _ hk => ⟨_, serve_raised hi hm, errorExit_top hk ho⟩
    | fault f => exact fun h => (h f t rfl).elim

/-- What a sub-step that ends in a state came to. -/
def ended (r : Except Stop α) (s : State) : EStateM.Result Stop State α :=
  match r with
  | .ok a => .ok a s
  | .error x => .error x s

/-- A sub-step that ends with a property that settling keeps, settled. -/
theorem settledFor_ends {kind : MapKind} {m : M α} {s u : State} {r : Except Stop α} (hm : m s = ended r u) (hu : P u)
    (hset : kind ≠ .erase → ∀ t, P t → P (settleDuties t)) : ∃ t, P t ∧ settledFor kind m s = ended r t := by
  by_cases hk : kind = .erase
  · subst hk
    exact ⟨u, hu, hm⟩
  · rw [settledFor_buffer hk]
    match r, hm with
    | .ok a, hm => exact ⟨_, hset hk _ hu, settled_ok hm⟩
    | .error (.raised e), hm => exact ⟨_, hset hk _ hu, settled_raised hm⟩
    | .error (.fault f), hm => exact ⟨_, hu, settled_fault hm⟩

/-- Whatever the operands: a property every segment of the walk keeps holds where the mapper returns and where it raises;
where it raises an I/O error, fewer bytes are done than the size. -/
theorem mapper_stays {C : State → Prop} {kind : MapKind} {o n : U64} {buf : Nat} {s : State}
    (hm : WalkMoves C (fun _ _ => True) kind o n) (hs : C (s.setReq ⟨o, n, buf⟩)) :
    (∀ k t, mapper kind o n buf s = .ok k t → C t) ∧
    (∀ e t, mapper kind o n buf s = .error (.raised e) t → C t ∧ (e.isIo = true → t.map.done.toNat < n.toNat)) := by
  have hu : C (mapperStart o n buf s) := hm.free _ hs
  -- a mapper that ends before its transfer
  have short : ∀ r : Except Stop U64, (∀ e, r = .error (.raised e) → e.isIo = false) →
      mapRange kind o n (mapperStart o n buf s) = ended r (mapperStart o n buf s) →
      (∀ k t, mapper kind o n buf s = .ok k t → C t) ∧
      (∀ e t, mapper kind o n buf s = .error (.raised e) t → C t ∧ (e.isIo = true → t.map.done.toNat < n.toNat)) := by
    intro r hr hx
    obtain ⟨t, ht, hy⟩ := settledFor_ends (kind := kind) hx hu hm.settle
    rw [show mapper kind o n buf s = ended r t from hy]
    cases r with
    | ok a =>
      refine ⟨fun k v h => ?_, fun e v h => nomatch h⟩
      obtain ⟨-, rfl⟩ := EStateM.Result.ok.inj h
      exact ht
    | error x =>
      refine ⟨fun k v h => (nomatch h), fun e v h => ?_⟩
      obtain ⟨rfl, rfl⟩ := EStateM.Result.error.inj h
      exact ⟨ht, fun hi => by rw [hr e rfl] at hi; cases hi⟩
  by_cases hl : o.toNat + n.toNat < 2 ^ 64 ∧ o.toNat + n.toNat ≤ s.sectorCount.toNat * 512
  · by_cases hn : 1 ≤ n.toNat
    · have h := mapper_ends (buf := buf) hl hn hm hs
      refine ⟨fun k t hx => ?_, fun e t hx => ?_⟩
      · rw [hx] at h
        exact h.2.2
      · rw [hx] at h
        exact ⟨h.2.2, fun _ => h.2.1⟩
    · have hn0 : n = 0 := BitVec.eq_of_toNat_eq (by simpa using hn)
      subst hn0
      refine short (.ok 0) nofun ?_
      unfold mapRange
      rw [bind_ok (checkBounds_legal (s := mapperStart o 0 buf s) hl), if_pos rfl]
      rfl
  · refine short (.error (.raised .boundsViolation)) (fun e h => by cases h; rfl) ?_
    refine bind_error (checkBounds_illegal (s := mapperStart o n buf s) ?_) _
    show _ ∨ s.sectorCount.toNat * 512 < _
    omega

end Sys2Proof.Laws
end

