-- ==== Sys2Proof/Laws/Failures.lean ====
section
/-! SUPPORT. What a failing read, write or segment leaves when the card's bytes are listed, and the walk of a READ, WRITE or
ERASE up to the segment that fails. -/

namespace Sys2Proof.Laws

open Sys2Proof.Machine

/-! ## Reads -/

/-- The error a failing read raises. -/
def readError : ReadFailure → Err
  | .rejected b => refusedError b.answer.flags
  | .noToken _ _ => .blockStartMissing

theorem refusedError_cause (a : Answer) : (refusedError a.flags).cause = a.cause := by
  unfold refusedError Answer.cause
  split <;> rfl

theorem refusedError_io (flags : Option (BitVec 7)) : (refusedError flags).isIo = true := by
  unfold refusedError
  split <;> rfl

theorem readError_cause (f : ReadFailure) : (readError f).cause = f.cause := by
  cases f with
  | rejected b => exact refusedError_cause _
  | noToken a d => rfl

theorem readError_io (f : ReadFailure) : (readError f).isIo = true := by
  cases f with
  | rejected b => exact refusedError_io _
  | noToken a d => rfl

/-- The state a failing read leaves, its buffer apart. -/
def afterReadFailure (idx : CmdIndex) (arg : U32) (f : ReadFailure) (rest : List Byte) (s : State) : State :=
  match f with
  | .rejected b => s.afterCommand idx arg s.cfg.close b rest
  | .noToken a d => (s.afterAnswer idx arg s.cfg.close a (d.bytes ++ rest)).afterNoToken d rest

/-- A command, the R1 check and the data phase, failing. -/
theorem read_fails {s : State} {f : ReadFailure} {rest : List Byte} (ha : s.busAnswers = none) (hf : f.fits s.cfg)
    (hs : s.script = f.bytes ++ rest) (idx : CmdIndex) (arg : U32) (n : Nat) (dst : DataBuffer) :
    (do let r ← commandNoDeselect idx arg
        requireReady r
        readData n dst) s = .error (.raised (readError f)) (afterReadFailure idx arg f rest s) := by
  cases f with
  | rejected b => exact refused_bind_listed ha hf.1 hf.2 hs idx arg _
  | noToken a d =>
    rw [ready_bind_listed (rest := d.bytes ++ rest) ha hf.1 hf.2.1 (by simpa [ReadFailure.bytes] using hs)]
    exact readData_missing (by exact ha) (by exact hf.2.2) rfl

theorem readCSD_fails {s : State} {f : ReadFailure} {rest : List Byte} (ha : s.busAnswers = none) (hf : f.fits s.cfg)
    (hs : s.script = f.bytes ++ rest) :
    readCSD s = .error (.raised (readError f)) (afterReadFailure 9 0 f rest s).freeCsd :=
  onRaise_raised (read_fails ha hf hs 9 0 16 .csd)

theorem readBlockFrom_fails {s : State} {f : ReadFailure} {rest : List Byte} (ha : s.busAnswers = none) (hf : f.fits s.cfg)
    (hs : s.script = f.bytes ++ rest) (arg : U32) :
    readBlockFrom arg s = .error (.raised (readError f)) (afterReadFailure 17 arg f rest s).freeScratch :=
  onRaise_raised (read_fails ha hf hs 17 arg 512 .scratch)

theorem readBlockAt_fails {s : State} {f : ReadFailure} {rest : List Byte} {blk : U64} (ha : s.busAnswers = none)
    (hd : blk.toNat * s.divisor.toNat < 2 ^ 32) (hf : f.fits s.cfg)
    (hs : s.script = f.bytes ++ rest) :
    readBlockAt blk s =
      .error (.raised (readError f)) (afterReadFailure 17 (cardArg s blk.toNat) f rest s).freeScratch := by
  unfold readBlockAt
  rw [bind_ok (blockAddress_fits hd)]
  exact readBlockFrom_fails ha hf hs _

/-! ## What a failing step leaves alone -/

/-- A step of the bus side has failed: its events are made, the bracket is closed, nothing but the command registers, the
buffers and the loop counters has changed. -/
structure Failed (s : State) (es : List BusEvent) (rest : List Byte) (t : State) : Prop where
  trace : t.trace = s.trace ++ es
  script : t.script = rest
  sel : t.sel = false
  mem : t.mem = s.mem
  map : t.map = s.map
  req : t.req = s.req
  top : t.top = s.top
  bus : t.busAnswers = s.busAnswers
  unchanged : RangeFrame s t

/-- What came before it. -/
theorem Failed.after {s t u : State} {es fs : List BusEvent} {rest : List Byte} (h : Failed t fs rest u)
    (htrace : t.trace = s.trace ++ es) (hmem : t.mem = s.mem) (hmap : t.map = s.map) (hreq : t.req = s.req)
    (htop : t.top = s.top) (hbus : t.busAnswers = s.busAnswers) (hf : RangeFrame s t) : Failed s (es ++ fs) rest u :=
  ⟨by rw [h.trace, htrace, List.append_assoc], h.script, h.sel, h.mem.trans hmem, h.map.trans hmap, h.req.trans hreq,
    h.top.trans htop, h.bus.trans hbus, RangeFrame.trans hf h.unchanged⟩

theorem readFailure_failed (idx : CmdIndex) (arg : U32) (f : ReadFailure) (rest : List Byte) (s : State) :
    Failed s (f.events idx arg s.cfg.close) rest (afterReadFailure idx arg f rest s).freeScratch := by
  cases f with
  | rejected b =>
    refine ⟨?_, rfl, rfl, rfl, rfl, rfl, rfl, rfl, by constructor <;> rfl⟩
    show s.trace ++ b.answer.events idx arg s.cfg.close ++ released b.last = _
    simp [ReadFailure.events, Bracket.events]
  | noToken a d =>
    refine ⟨?_, rfl, rfl, rfl, rfl, rfl, rfl, rfl, by constructor <;> rfl⟩
    show s.trace ++ a.events idx arg s.cfg.close ++ d.events = _
    simp [ReadFailure.events]

/-! ## Writes -/

/-- The error a failing write raises. -/
def writeError : WriteFailure → Err
  | .rejected b => refusedError b.answer.flags
  | .refused _ _ _ => .writeRejected
  | .busy _ _ _ _ _ => .protocolTimeout

theorem writeError_cause (f : WriteFailure) : (writeError f).cause = f.cause := by
  cases f with
  | rejected b => exact refusedError_cause _
  | refused | busy => rfl

theorem writeError_io (f : WriteFailure) : (writeError f).isIo = true := by
  cases f with
  | rejected b => exact refusedError_io _
  | refused | busy => rfl

/-- A block write that fails. -/
theorem writeBlockTo_fails {s : State} {f : WriteFailure} {rest : List Byte} (ha : s.busAnswers = none) (hf : f.fits s.cfg)
    (hs : s.script = f.bytes ++ rest) (arg : U32) :
    ∃ t, writeBlockTo arg s = .error (.raised (writeError f)) t ∧
      Failed s (f.events s.cfg 24 arg s.scratch.toList) rest t := by
  cases f with
  | rejected b =>
    refine ⟨_, onRaise_raised (refused_bind_listed ha hf.1 hf.2 hs 24 arg _), ?_⟩
    refine ⟨?_, rfl, rfl, rfl, rfl, rfl, rfl, rfl, by constructor <;> rfl⟩
    show s.trace ++ b.answer.events 24 arg s.cfg.close ++ released b.last = _
    simp [WriteFailure.events, Bracket.events]
  | refused a sending drt =>
    obtain ⟨h1, h2, h3, h4⟩ := hf
    have hw : (writeBytes s.cfg s.scratch.toList).length = sending.length := by simp [writeBytes, h3]
    refine ⟨_, writeBlockTo_rejected ha h1 h2 h3 h4 (by simpa [WriteFailure.bytes] using hs) arg, ?_⟩
    refine ⟨?_, rfl, rfl, rfl, rfl, rfl, rfl, rfl, by constructor <;> rfl⟩
    simp only [WriteFailure.events]
    rw [exchanges_append _ hw]
    simp [State.freeScratch, selected, State.setDrt, bus, afterSending]
  | busy a sending drt zeros last =>
    obtain ⟨h1, h2, h3, h4, rfl⟩ := hf
    have hw : (writeBytes s.cfg s.scratch.toList).length = sending.length := by simp [writeBytes, h3]
    obtain ⟨t, h, rfl⟩ := writeBlockTo_busy (s := s) (rest := rest) ha h1 h2 h3 h4
      (by simpa [WriteFailure.bytes] using hs) arg
    refine ⟨_, h, ?_⟩
    refine ⟨?_, rfl, rfl, rfl, rfl, rfl, rfl, rfl, by constructor <;> rfl⟩
    simp only [WriteFailure.events, List.append_assoc]
    rw [exchanges_append _ hw]
    simp [State.freeScratch, State.afterRelease, afterSending]

theorem writeBlockAt_fails {s : State} {f : WriteFailure} {rest : List Byte} {blk : U64} (ha : s.busAnswers = none)
    (hd : blk.toNat * s.divisor.toNat < 2 ^ 32) (hf : f.fits s.cfg)
    (hs : s.script = f.bytes ++ rest) :
    ∃ t, writeBlockAt blk s = .error (.raised (writeError f)) t ∧
      Failed s (f.events s.cfg 24 (cardArg s blk.toNat) s.scratch.toList) rest t := by
  unfold writeBlockAt
  rw [bind_ok (blockAddress_fits hd)]
  exact writeBlockTo_fails ha hf hs _

/-! ## Segments -/

theorem mergeSegment_read_fails {kind : MapKind} {s : State} {f : ReadFailure} {blk : U64} {rest : List Byte} (off n : Nat)
    (ha : s.busAnswers = none) (hd : blk.toNat * s.divisor.toNat < 2 ^ 32)
    (hf : f.fits s.cfg) (hs : s.script = f.bytes ++ rest) :
    ∃ t, mergeSegment kind blk off n s = .error (.raised (readError f)) t ∧
      Failed s (f.events 17 (cardArg s blk.toNat) s.cfg.close) rest t :=
  ⟨_, bind_error (readBlockAt_fails ha hd hf hs) _, readFailure_failed _ _ _ _ _⟩

theorem fullBlock_read_fails {s : State} {f : ReadFailure} {blk : U64} {rest : List Byte}
    (ha : s.busAnswers = none) (hd : blk.toNat * s.divisor.toNat < 2 ^ 32)
    (hf : f.fits s.cfg) (hs : s.script = f.bytes ++ rest) :
    ∃ t, fullBlock .read blk s = .error (.raised (readError f)) t ∧
      Failed s (f.events 17 (cardArg s blk.toNat) s.cfg.close) rest t :=
  ⟨_, bind_error (readBlockAt_fails ha hd hf hs) _, readFailure_failed _ _ _ _ _⟩

/-- Puts the source bytes of a segment into `SCRATCH`; the block write fails. -/
theorem writeSegment_fails {s t : State} {src : List Byte} {kind : MapKind} {f : WriteFailure} {blk : U64} {off n : Nat}
    {rest : List Byte} {pre : List BusEvent} (hl : src.length = n) (hn : off + n ≤ 512)
    (hv : ∀ k (h : k < src.length), src[k] = sourceByte kind s (segmentAddress s) k) (ha : t.busAnswers = s.busAnswers)
    (hb : s.busAnswers = none) (hf : RangeFrame s t) (hmem : t.mem = s.mem) (hmap : t.map = s.map) (hreq : t.req = s.req)
    (htop : t.top = s.top) (htr : t.trace = s.trace ++ pre)
    (hd : blk.toNat * s.divisor.toNat < 2 ^ 32) (hfit : f.fits s.cfg)
    (hs : t.script = f.bytes ++ rest) :
    ∃ u, (do
        update fun s => s.setScratch (overlay s.scratch off src)
        writeBlockAt blk : M Unit) t = .error (.raised (writeError f)) u ∧
      Failed s (pre ++ f.events s.cfg 24 (cardArg s blk.toNat) (segmentBytes kind s t.scratch.toList off n)) rest u := by
  rw [update_bind]
  have hdiv : t.divisor = s.divisor := hf.divisor
  have hcfg : t.cfg = s.cfg := hf.cfg
  obtain ⟨u, h1, h2⟩ := writeBlockAt_fails (s := t.setScratch (overlay t.scratch off src)) (f := f) (rest := rest) (blk := blk)
    (ha.trans hb) (by show blk.toNat * t.divisor.toNat < _; rw [hdiv]; exact hd)
    (by show f.fits t.cfg; rw [hcfg]; exact hfit) hs
  refine ⟨u, h1, ?_⟩
  have h3 := h2.after (s := s) (es := pre) htr hmem hmap hreq htop ha (RangeFrame.trans hf (by constructor <;> rfl))
  have harg : cardArg (t.setScratch (overlay t.scratch off src)) blk.toNat = cardArg s blk.toNat := by
    show BitVec.ofNat 32 (blk.toNat * t.divisor.toNat) = _
    rw [hdiv]
    rfl
  have hscr : (t.setScratch (overlay t.scratch off src)).scratch.toList = segmentBytes kind s t.scratch.toList off n :=
    overlay_source hl hn hv
  rw [harg, hscr, show (t.setScratch (overlay t.scratch off src)).cfg = s.cfg from hcfg] at h3
  exact h3

theorem mergeSegment_write_fails {kind : MapKind} {s : State} {r : ReadAnswer 512} {f : WriteFailure} {blk : U64}
    {off n : Nat} {rest : List Byte} (hk : kind ≠ .read)
    (ha : s.busAnswers = none) (hd : blk.toNat * s.divisor.toNat < 2 ^ 32)
    (hn : off + n ≤ 512) (hb : kind ≠ .erase → s.accessSound (segmentAddress s) n = true) (hf : r.fits s.cfg)
    (hfw : f.fits s.cfg) (hs : s.script = r.bytes ++ f.bytes ++ rest) :
    ∃ t, mergeSegment kind blk off n s = .error (.raised (writeError f)) t ∧
      Failed s (r.events 17 (cardArg s blk.toNat) s.cfg.close ++
        f.events s.cfg 24 (cardArg s blk.toNat) (segmentBytes kind s r.block.data.toList off n)) rest t := by
  have hread := readBlockAt_listed (a := r) (rest := f.bytes ++ rest) ha hd hf (by simpa using hs)
  generalize hu : State.afterData .scratch r.block _ _ = u at hread
  have hscr : u.scratch = r.block.data := by subst hu; rfl
  have htr : u.trace = s.trace ++ r.events 17 (cardArg s blk.toNat) s.cfg.close := by
    subst hu
    show s.trace ++ Answer.events 17 _ _ _ ++ r.block.events = _
    simp [ReadAnswer.events]
  have hfr : RangeFrame s u := by subst hu; constructor <;> rfl
  have step := fun src hl hv => writeSegment_fails (s := s) (t := u) (src := src) (kind := kind) (f := f) (blk := blk)
    (off := off) (n := n) (rest := rest) hl hn hv (by subst hu; rfl) ha hfr (by subst hu; rfl) (by subst hu; rfl)
    (by subst hu; rfl) (by subst hu; rfl) htr hd hfw (by subst hu; rfl)
  rw [hscr] at step
  cases kind with
  | read => exact absurd rfl hk
  | write =>
    obtain ⟨v, h1, h2⟩ := step (s.mem.readBytes (segmentAddress s) n) (length_readBytes _ _ _) source_write
    refine ⟨v, ?_, h2⟩
    show (readBlockAt blk >>= _) s = _
    rw [bind_ok hread]
    have hb' : u.accessSound (segmentAddress u) n = true := by subst hu; exact hb (by decide)
    have hm : u.mem.readBytes (segmentAddress u) n = s.mem.readBytes (segmentAddress s) n := by subst hu; rfl
    show (look segmentAddress >>= _) u = _
    rw [look_bind, bind_ok (loadScratch_sound hb'), hm]
    exact h1
  | erase =>
    obtain ⟨v, h1, h2⟩ := step (eraseFill n) (length_eraseFill _) source_erase
    refine ⟨v, ?_, h2⟩
    show (readBlockAt blk >>= _) s = _
    rw [bind_ok hread]
    exact h1

theorem fullBlock_write_fails {kind : MapKind} {s : State} {f : WriteFailure} {blk : U64} {rest : List Byte} (hk : kind ≠ .read)
    (ha : s.busAnswers = none) (hd : blk.toNat * s.divisor.toNat < 2 ^ 32)
    (hb : kind ≠ .erase → s.accessSound (segmentAddress s) 512 = true) (hfw : f.fits s.cfg)
    (hs : s.script = f.bytes ++ rest) :
    ∃ t, fullBlock kind blk s = .error (.raised (writeError f)) t ∧
      Failed s (f.events s.cfg 24 (cardArg s blk.toNat) (segmentBytes kind s [] 0 512)) rest t := by
  have step := fun src hl hv => writeSegment_fails (s := s) (t := s) (src := src) (kind := kind) (f := f) (blk := blk)
    (off := 0) (n := 512) (rest := rest) (pre := []) hl le_rfl hv rfl ha (RangeFrame.refl s) rfl rfl rfl rfl (by simp) hd
    hfw hs
  rw [segmentBytes_full kind s s.scratch.toList []] at step
  cases kind with
  | read => exact absurd rfl hk
  | write =>
    obtain ⟨v, h1, h2⟩ := step (s.mem.readBytes (segmentAddress s) 512) (length_readBytes _ _ _) source_write
    refine ⟨v, ?_, h2⟩
    show (look segmentAddress >>= _) s = _
    rw [look_bind, bind_ok (loadScratch_sound (hb (by decide)))]
    exact h1
  | erase =>
    obtain ⟨v, h1, h2⟩ := step (eraseFill 512) (length_eraseFill _) source_erase
    exact ⟨v, h1, h2⟩

/-! ## The walk up to the segment that fails -/

section

variable {A : Type} {kind : MapKind} {o n : U64} {e : Err} {J : Nat → Nat → List A → State → Prop} {X : State → Prop}

/-- What the walk up to a failing segment uses: a segment whose answer is listed completes, and the one after them fails. -/
structure Failing (kind : MapKind) (o n : U64) (e : Err) (J : Nat → Nat → List A → State → Prop) (X : State → Prop) : Prop where
  set : ∀ d b as t m, J d b as t → J d b as (t.setMap m)
  head : ∀ b off k a as t (blk : U64), J 0 b (a :: as) t → t.map.done.toNat = 0 → blk.toNat = b → Place o n 0 b off k →
    ∃ u, mergeSegment kind blk off k t = .ok () u ∧ u.map = t.map ∧ J (0 + k) (b + 1) as u
  full : ∀ d b a as t (blk : U64), J d b (a :: as) t → t.map.done.toNat = d → blk.toNat = b → Place o n d b 0 512 →
    d ≠ 0 → ∃ u, fullBlock kind blk t = .ok () u ∧ u.map = t.map ∧ J (d + 512) (b + 1) as u
  mergeFails : ∀ d b off k t (blk : U64), J d b [] t → t.map.done.toNat = d → blk.toNat = b → Place o n d b off k →
    (d = 0 ∨ d + k = n.toNat) → ∃ u, mergeSegment kind blk off k t = .error (.raised e) u ∧ X u
  fullFails : ∀ d b t (blk : U64), J d b [] t → t.map.done.toNat = d → blk.toNat = b → Place o n d b 0 512 →
    d ≠ 0 → d + 512 < n.toNat → ∃ u, fullBlock kind blk t = .error (.raised e) u ∧ X u

/-- The body: it ends at the failing block, or before the tail, which fails. -/
theorem bodyLoop_fails (h : Failing kind o n e J X) (ho : o.toNat + n.toNat < 2 ^ 64) (fuel d b : Nat) (as : List A) (t : State)
    (hj : J d b as t) (hm : Between n d b t) (hd : d ≠ 0) (hpos : o.toNat + d = 512 * b)
    (hl : as.length < (n.toNat - d + 511) / 512) (hfuel : (n.toNat - d) / 512 ≤ fuel) :
    (∃ u, bodyLoop kind fuel t = .error (.raised e) u ∧ X u) ∨
    ∃ u d' b', bodyLoop kind fuel t = .ok () u ∧ J d' b' [] u ∧ Between n d' b' u ∧ d' ≠ 0 ∧ o.toNat + d' = 512 * b' ∧
      1 ≤ n.toNat - d' ∧ n.toNat - d' ≤ 512 := by
  induction fuel generalizing d b as t with
  | zero =>
    have has : as = [] := List.eq_nil_of_length_eq_zero (by omega)
    subst has
    exact .inr ⟨t, d, b, rfl, hj, hm, hd, hpos, by omega, by omega⟩
  | succ fuel ih =>
    have h2 := hm.2.1
    unfold bodyLoop
    rw [look_bind]
    by_cases hrem : 512 < t.map.rem.toNat
    · rw [if_pos hrem, look_bind]
      have hp : Place o n d b 0 512 := ⟨hpos, by omega, by omega, by omega, .inr rfl, .inl rfl⟩
      cases as with
      | nil =>
        obtain ⟨u, h3, h4⟩ := h.fullFails d b t t.map.blk hj hm.1 hm.2.2 hp hd (by omega)
        exact .inl ⟨u, bind_error h3 _, h4⟩
      | cons a as =>
        obtain ⟨u, h3, h4, h5⟩ := h.full d b a as t t.map.blk hj hm.1 hm.2.2 hp hd
        have hmu : Between n d b u := by
          unfold Between
          rw [h4]
          exact hm
        rw [bind_ok h3, update_bind]
        simp only [List.length_cons] at hl
        exact ih (d + 512) (b + 1) as _ (h.set _ _ _ _ _ h5) (advance_between hmu rfl (by omega) (by omega)) (by omega)
          (by omega) (by omega) (by omega)
    · rw [if_neg hrem, run_pure]
      have has : as = [] := List.eq_nil_of_length_eq_zero (by omega)
      subst has
      exact .inr ⟨t, d, b, rfl, hj, hm, hd, hpos, by omega, by omega⟩

/-- The walk of a request whose answers run out before its blocks do. -/
theorem segments_fails (h : Failing kind o n e J X) (ho : o.toNat + n.toNat < 2 ^ 64) (hn : 1 ≤ n.toNat) {as : List A}
    (hl : as.length < touchedBlocks o n) {s : State} (hs : J 0 (o.toNat / 512) as s) :
    ∃ u, segments kind o n s = .error (.raised e) u ∧ X u := by
  unfold segments
  unfold touchedBlocks blockBytes at hl
  have hk := headLength_toNat n o
  generalize hkd : min n.toNat (512 - o.toNat % 512) = k at hk
  have hp : Place o n 0 (o.toNat / 512) (o.toNat % 512) k := ⟨by omega, by omega, by omega, by omega, .inl rfl, by omega⟩
  generalize hm0 : (⟨0, n, firstBlock o, skewOf o, headLength n (skewOf o)⟩ : MapperRegs) = m0
  have hdone : (s.setMap m0).map.done.toNat = 0 := by subst hm0; rfl
  have hbt : Between n 0 (o.toNat / 512) (s.setMap m0) := by subst hm0; exact ⟨rfl, rfl, firstBlock_toNat o⟩
  have hhead : headSegment kind o n s =
      (do mergeSegment kind (firstBlock o) (o.toNat % 512) k
          update (advance (headLength n (skewOf o)))) (s.setMap m0) := by
    unfold headSegment
    rw [update_bind, look_bind, hm0]
    subst hm0
    show (do mergeSegment kind (firstBlock o) (skewOf o).toNat (headLength n (skewOf o)).toNat; _) _ = _
    rw [skewOf_toNat, hk]
    rfl
  cases as with
  | nil =>
    obtain ⟨u, h1, h2⟩ := h.mergeFails 0 _ _ k _ (firstBlock o) (h.set _ _ _ _ m0 hs) hdone (firstBlock_toNat o) hp (.inl rfl)
    exact ⟨u, bind_error (hhead.trans (bind_error h1 _)) _, h2⟩
  | cons a as =>
    simp only [List.length_cons] at hl
    obtain ⟨u, h1, h2, h3⟩ := h.head _ _ k a as _ (firstBlock o) (h.set _ _ _ _ m0 hs) hdone (firstBlock_toNat o) hp
    have hb : Between n 0 (o.toNat / 512) u := by
      unfold Between
      rw [h2]
      exact hbt
    have hadv := advance_between hb hk (by omega) (by have := o.isLt; omega)
    rw [Nat.zero_add] at hadv h3
    rw [bind_ok (hhead.trans ((bind_ok h1 _).trans rfl)), look_bind]
    have hrem := hadv.2.1
    obtain ⟨v, g1, g2⟩ | ⟨v, d, b, g1, g2, g3, g4, g5, g6, g7⟩ := bodyLoop_fails h ho
      ((advance (headLength n (skewOf o)) u).map.rem.toNat / 512) k (o.toNat / 512 + 1) as
      (advance (headLength n (skewOf o)) u) (h.set _ _ _ _ _ h3) hadv (by omega) (by omega) (by omega) (by omega)
    · exact ⟨v, bind_error g1 _, g2⟩
    · rw [bind_ok g1]
      unfold tailSegment
      have hr := g3.2.1
      rw [look_bind, if_pos (by omega), update_bind, look_bind]
      obtain ⟨w, w1, w2⟩ := h.mergeFails d b 0 (n.toNat - d) (v.setMap { v.map with segN := v.map.rem }) v.map.blk
        (h.set _ _ _ _ _ g2) g3.1 g3.2.2 ⟨by omega, by omega, by omega, by omega, .inr rfl, by omega⟩ (.inr (by omega))
      have w1' : mergeSegment kind v.map.blk 0 v.map.rem.toNat (v.setMap { v.map with segN := v.map.rem }) =
          .error (.raised e) w := by
        rw [hr]
        exact w1
      exact ⟨w, bind_error w1' _, w2⟩

end

/-! ## READ -/

/-- A READ has failed in the block after those of `as`. -/
structure ReadFailed (s : State) (o n : U64) (buf : Nat) (as : List (ReadAnswer 512)) (f : ReadFailure) (rest : List Byte)
    (t : State) : Prop where
  trace : t.trace = s.trace ++ rangeReadEvents s (o.toNat / 512) as ++
    f.events 17 (cardArg s (o.toNat / 512 + as.length)) s.cfg.close
  stored : ∀ k, k < bytesBefore o as.length → Memory.read t.mem (buf + k) = (blockData as).getD (o.toNat % 512 + k) 0
  kept : ∀ a, a < buf ∨ buf + n.toNat ≤ a → Memory.read t.mem a = Memory.read s.mem a
  done : t.map.done.toNat = bytesBefore o as.length
  sel : t.sel = false
  script : t.script = rest
  req : t.req = ⟨o, n, buf⟩
  unchanged : RangeFrame s t

theorem ReadSoFar.fails {s t u : State} {o n : U64} {buf d b off k : Nat} {as : List (ReadAnswer 512)}
    {f : ReadFailure} {rest : List Byte} (h : ReadSoFar s o n buf as (f.bytes ++ rest) d b [] t) (hp : Place o n d b off k)
    (hd : t.map.done.toNat = d) (hoff : d = 0 → off = o.toNat % 512)
    (hu : Failed t (f.events 17 (cardArg t b) t.cfg.close) rest u) : ReadFailed s o n buf as f rest u := by
  obtain ⟨pre, hall, hb⟩ := h.split
  have hlen : b = o.toNat / 512 + as.length := by rw [hb, hall]; simp
  have hbytes : d = bytesBefore o as.length := by
    unfold bytesBefore
    have := hp.position
    rcases hp.front with h0 | h0
    · have := hoff h0
      omega
    · omega
  refine ⟨?_, ?_, ?_, ?_, hu.sel, hu.script, hu.req.trans h.req, RangeFrame.trans h.unchanged hu.unchanged⟩
  · have htr := h.trace
    simp only [rangeReadEvents, List.append_nil] at htr
    rw [hu.trace, htr, cardArg_congr h.unchanged.divisor, h.unchanged.cfg, hlen]
  · rw [hu.mem, ← hbytes]
    exact h.stored
  · rw [hu.mem]
    exact h.kept
  · rw [hu.map, hd, hbytes]

/-- What READ leaves free after its failure is not what it transferred. -/
theorem ReadFailed.free {s t : State} {o n : U64} {buf : Nat} {as : List (ReadAnswer 512)} {f : ReadFailure}
    {rest : List Byte} (h : ReadFailed s o n buf as f rest t) :
    ReadFailed s o n buf as f rest t.freeUnread := by
  refine ⟨h.trace, fun k hk => ?_, fun a ha => ?_, h.done, h.sel, h.script, h.req,
    RangeFrame.trans h.unchanged (by constructor <;> rfl)⟩
  · rw [← h.stored k hk]
    refine read_replaceRange_other _ _ _ _ (.inl ?_)
    rw [h.req, h.done]
    show buf + k < buf + _
    omega
  · rw [← h.kept a ha]
    refine read_replaceRange_other _ _ _ _ ?_
    rw [h.req, h.done]
    show a < buf + _ ∨ min (buf + n.toNat) _ ≤ a
    omega

/-- READ's mapper on a card that answers some CMD17 and fails the next one. -/
theorem mapper_read_fails {s : State} {o n : U64} {buf : Nat} {as : List (ReadAnswer 512)} {f : ReadFailure}
    {rest : List Byte} (hr : RangeReady s o n) (hm : MemorySound s) (hb : BufferKept s buf n)
    (hl : as.length < touchedBlocks o n) (hf : ∀ a ∈ as, a.fits s.cfg) (hff : f.fits s.cfg)
    (hs : s.script = as.flatMap ReadAnswer.bytes ++ f.bytes ++ rest) :
    ∃ u, mapper .read o n buf s = .error (.raised (readError f)) u ∧ ReadFailed s o n buf as f rest u := by
  have hfits : ∀ {d b a bs} {t : State}, ReadSoFar s o n buf as (f.bytes ++ rest) d b (a :: bs) t → a.fits t.cfg := by
    intro d b a bs t h
    obtain ⟨pre, hall, _⟩ := h.split
    rw [h.unchanged.cfg]
    exact hf a (by rw [hall]; simp)
  have haddr : ∀ {d b bs off k} {t : State} {blk : U64}, ReadSoFar s o n buf as (f.bytes ++ rest) d b bs t → blk.toNat = b →
      Place o n d b off k → blk.toNat * t.divisor.toNat < 2 ^ 32 := by
    intro d b bs off k t blk h hblk hp
    rw [h.unchanged.divisor, hblk]
    exact hp.address hr.addresses
  have hfail : Failing .read o n (readError f) (ReadSoFar s o n buf as (f.bytes ++ rest)) (ReadFailed s o n buf as f rest) := by
    refine ⟨fun d b bs t m h => ⟨h.split, h.trace, h.stored, h.kept, h.sound, h.script, h.bus, h.sel, h.req,
        RangeFrame.trans h.unchanged (by constructor <;> rfl)⟩, ?_, ?_, ?_, ?_⟩
    · intro b off k a bs t blk h hd hblk hp
      obtain ⟨u, h1, h2⟩ := mergeSegment_read (r := a) (blk := blk) (off := off) (n := k)
        (rest := bs.flatMap ReadAnswer.bytes ++ (f.bytes ++ rest)) h.bus
        (haddr h hblk hp) hp.inBlock (hp.bytes hb h.unchanged h.req hd) h.sound (hfits h) (by rw [h.script]; simp)
      rw [hblk] at h2
      exact ⟨u, h1, h2.map, h.advance hp hd h2⟩
    · intro d b a bs t blk h hd hblk hp _
      obtain ⟨u, h1, h2⟩ := fullBlock_read (r := a) (blk := blk) (rest := bs.flatMap ReadAnswer.bytes ++ (f.bytes ++ rest))
        h.bus (haddr h hblk hp) (hp.bytes hb h.unchanged h.req hd) h.sound
        (hfits h) (by rw [h.script]; simp)
      rw [hblk] at h2
      exact ⟨u, h1, h2.map, h.advance hp hd h2⟩
    · intro d b off k t blk h hd hblk hp hend
      obtain ⟨u, h1, h2⟩ := mergeSegment_read_fails (kind := .read) (f := f) (blk := blk) (rest := rest) off k h.bus
        (haddr h hblk hp) (by rw [h.unchanged.cfg]; exact hff)
        (by rw [h.script]; simp)
      rw [hblk] at h2
      exact ⟨u, h1, h.fails hp hd (fun h0 => by have := hp.position; have := hp.inBlock; have := hp.nonempty; omega) h2⟩
    · intro d b t blk h hd hblk hp h0 _
      obtain ⟨u, h1, h2⟩ := fullBlock_read_fails (f := f) (blk := blk) (rest := rest) h.bus
        (haddr h hblk hp) (by rw [h.unchanged.cfg]; exact hff)
        (by rw [h.script]; simp)
      rw [hblk] at h2
      exact ⟨u, h1, h.fails hp hd (fun h => absurd h h0) h2⟩
  obtain ⟨u, h1, h2⟩ := segments_fails hfail hr.legal.1 hr.nonempty hl (s := mapperStart o n buf s)
    ⟨⟨[], rfl, rfl⟩, rfl, fun k hk => absurd hk (by omega), fun _ _ => rfl, hm, by show s.script = _; simpa using hs, hr.bus,
      fun h => absurd rfl h, rfl, by constructor <;> rfl⟩
  have h3 := h2.free
  refine ⟨u.freeUnread, mapper_raised ?_ fun _ => bufferSound_kept hb h3.unchanged.hostKeepsDuties h3.unchanged.cfg h3.req, h3⟩
  exact (mapRange_transfer (s := mapperStart o n buf s) hr.legal hr.nonempty).trans
    (bind_error (onRaise_raised h1) _)

/-! ## WRITE and ERASE -/

/-- The error of a block that fails. -/
def blockError : BlockFailure → Err
  | .reading f => readError f
  | .merge _ f | .full f => writeError f

theorem blockError_cause (f : BlockFailure) : (blockError f).cause = f.cause := by
  cases f with
  | reading f => exact readError_cause f
  | merge _ f | full f => exact writeError_cause f

theorem blockError_io (f : BlockFailure) : (blockError f).isIo = true := by
  cases f with
  | reading f => exact readError_io f
  | merge _ f | full f => exact writeError_io f

/-- A WRITE or ERASE has failed in the block after those of `as`. -/
structure WriteFailed (kind : MapKind) (s : State) (o n : U64) (buf : Nat) (as : List BlockAnswer) (f : BlockFailure)
    (rest : List Byte) (t : State) : Prop where
  trace : t.trace = s.trace ++ rangeWriteEvents kind s o n buf (o.toNat / 512) as ++
    f.events s.cfg (cardArg s (o.toNat / 512 + as.length))
      (mergedBlock kind s o n buf (o.toNat / 512 + as.length) f.old)
  mem : t.mem = s.mem
  done : t.map.done.toNat = bytesBefore o as.length
  sel : t.sel = false
  script : t.script = rest
  req : t.req = ⟨o, n, buf⟩
  unchanged : RangeFrame s t

theorem WriteSoFar.fails {kind : MapKind} {s t u : State} {o n : U64} {buf d b off k : Nat} {as : List BlockAnswer}
    {f : BlockFailure} {rest : List Byte} {es : List BusEvent}
    (h : WriteSoFar kind s o n buf as (f.bytes ++ rest) d b [] t) (hp : Place o n d b off k)
    (hd : t.map.done.toNat = d) (hoff : d = 0 → off = o.toNat % 512)
    (hes : es = f.events s.cfg (cardArg s b) (mergedBlock kind s o n buf b f.old)) (hu : Failed t es rest u) :
    WriteFailed kind s o n buf as f rest u := by
  obtain ⟨pre, hall, hb, _⟩ := h.split
  have hlen : b = o.toNat / 512 + as.length := by rw [hb, hall]; simp
  have hbytes : d = bytesBefore o as.length := by
    unfold bytesBefore
    have := hp.position
    rcases hp.front with h0 | h0
    · have := hoff h0
      omega
    · omega
  refine ⟨?_, hu.mem.trans h.mem, ?_, hu.sel, hu.script, hu.req.trans h.req, RangeFrame.trans h.unchanged hu.unchanged⟩
  · have htr := h.trace
    simp only [rangeWriteEvents, List.append_nil] at htr
    rw [hu.trace, htr, hes, hlen]
  · rw [hu.map, hd, hbytes]

/-- The mapper of WRITE and ERASE on a card that accepts some blocks and fails the next one. -/
theorem mapper_written_fails {kind : MapKind} {s : State} {o n : U64} {buf : Nat} {as : List BlockAnswer} {f : BlockFailure}
    {rest : List Byte} (hk : kind ≠ .read) (hr : RangeReady s o n) (hb : kind ≠ .erase → BufferKept s buf n)
    (hl : as.length < touchedBlocks o n) (hf : ∀ a ∈ as, a.fits s.cfg) (hff : f.fits s.cfg)
    (hm : ∀ k : Nat, ∀ h : k < as.length, as[k].isMerge = true ↔ k = 0)
    (hfm : f.isMerge = true ↔ as.length = 0 ∨ as.length + 1 = touchedBlocks o n)
    (hs : s.script = as.flatMap BlockAnswer.bytes ++ f.bytes ++ rest) :
    ∃ u, mapper kind o n buf s = .error (.raised (blockError f)) u ∧ WriteFailed kind s o n buf as f rest u := by
  have hfits : ∀ {d b a bs} {t : State}, WriteSoFar kind s o n buf as (f.bytes ++ rest) d b (a :: bs) t → a.fits t.cfg := by
    intro d b a bs t h
    obtain ⟨pre, hall, _⟩ := h.split
    rw [h.unchanged.cfg]
    exact hf a (by rw [hall]; simp)
  have hmerge : ∀ {d b a bs} {t : State}, WriteSoFar kind s o n buf as (f.bytes ++ rest) d b (a :: bs) t →
      (a.isMerge = true ↔ d = 0) := by
    intro d b a bs t h
    obtain ⟨pre, hall, _, hpre⟩ := h.split
    have hlen : pre.length < as.length := by rw [hall]; simp
    have h1 := hm pre.length hlen
    have h2 : as[pre.length] = a := by simp [hall]
    rw [h2] at h1
    rw [h1, ← hpre]
    simp
  have haddr : ∀ {d b bs off k} {t : State} {blk : U64}, WriteSoFar kind s o n buf as (f.bytes ++ rest) d b bs t →
      blk.toNat = b → Place o n d b off k → blk.toNat * t.divisor.toNat < 2 ^ 32 := by
    intro d b bs off k t blk h hblk hp
    rw [h.unchanged.divisor, hblk]
    exact hp.address hr.addresses
  have hcount : ∀ {d b off k} {t : State}, WriteSoFar kind s o n buf as (f.bytes ++ rest) d b [] t → Place o n d b off k →
      b = o.toNat / 512 + as.length ∧ (as.length = 0 ↔ d = 0) := by
    intro d b off k t h hp
    obtain ⟨pre, hall, hb, hpre⟩ := h.split
    have : as = pre := by rw [hall]; simp
    subst this
    exact ⟨hb, by rw [← hpre]; simp⟩
  have hfail : Failing kind o n (blockError f) (WriteSoFar kind s o n buf as (f.bytes ++ rest))
      (WriteFailed kind s o n buf as f rest) := by
    refine ⟨fun d b bs t m h => ⟨h.split, h.trace, h.mem, h.script, h.bus, h.sel, h.req,
        RangeFrame.trans h.unchanged (by constructor <;> rfl)⟩, ?_, ?_, ?_, ?_⟩
    · intro b off k a bs t blk h hd hblk hp
      have hmm := (hmerge h).2 rfl
      have hfit := hfits h
      cases a with
      | full w => cases hmm
      | merge r w =>
        obtain ⟨u, h1, h2⟩ := mergeSegment_written (kind := kind) (r := r) (w := w) (blk := blk) (off := off) (n := k)
          (rest := bs.flatMap BlockAnswer.bytes ++ (f.bytes ++ rest)) hk h.bus
          (haddr h hblk hp) hp.inBlock (fun he => hp.bytes (hb he) h.unchanged h.req hd) hfit.1 hfit.2
          (by rw [h.script]; simp [BlockAnswer.bytes])
        rw [hblk] at h2
        exact ⟨u, h1, h2.map, h.advance hp (segment_merged hp hd h.mem (by rw [h.req]) fun _ _ => rfl) h2⟩
    · intro d b a bs t blk h hd hblk hp h0
      have hfull : ¬ a.isMerge = true := fun hc => h0 ((hmerge h).1 hc)
      have hfit := hfits h
      cases a with
      | merge r w => exact absurd rfl hfull
      | full w =>
        obtain ⟨u, h1, h2⟩ := fullBlock_written (kind := kind) (w := w) (blk := blk)
          (rest := bs.flatMap BlockAnswer.bytes ++ (f.bytes ++ rest)) hk h.bus
          (haddr h hblk hp) (fun he => hp.bytes (hb he) h.unchanged h.req hd) hfit
          (by rw [h.script]; simp [BlockAnswer.bytes])
        rw [hblk] at h2
        exact ⟨u, h1, h2.map, h.advance hp (segment_merged hp hd h.mem (by rw [h.req]) fun he => by omega) h2⟩
    · intro d b off k t blk h hd hblk hp hend
      have hoff : d = 0 → off = o.toNat % 512 := fun h0 => by
        have := hp.position; have := hp.inBlock; have := hp.nonempty; omega
      have hmm : f.isMerge = true := hfm.2 (by
        have := hcount h hp
        have := hp.position; have := hp.inBlock; have := hp.nonempty
        unfold touchedBlocks blockBytes
        omega)
      have hcfg := h.unchanged.cfg
      cases f with
      | full f => cases hmm
      | reading f =>
        obtain ⟨u, h1, h2⟩ := mergeSegment_read_fails (kind := kind) (f := f) (blk := blk) (rest := rest) off k h.bus
          (haddr h hblk hp) (by rw [hcfg]; exact hff) (by rw [h.script]; simp [BlockFailure.bytes])
        rw [hblk, cardArg_congr h.unchanged.divisor, hcfg] at h2
        exact ⟨u, h1, h.fails hp hd hoff rfl h2⟩
      | merge r f =>
        obtain ⟨u, h1, h2⟩ := mergeSegment_write_fails (kind := kind) (r := r) (f := f) (blk := blk) (off := off) (n := k)
          (rest := rest) hk h.bus (haddr h hblk hp) hp.inBlock (fun he => hp.bytes (hb he) h.unchanged h.req hd)
          (by rw [hcfg]; exact hff.1) (by rw [hcfg]; exact hff.2) (by rw [h.script]; simp [BlockFailure.bytes])
        rw [hblk, cardArg_congr h.unchanged.divisor, hcfg,
          segment_merged (old := fun j => r.block.data.toList.getD j 0) hp hd h.mem (by rw [h.req]) fun _ _ => rfl] at h2
        exact ⟨u, h1, h.fails hp hd hoff rfl h2⟩
    · intro d b t blk h hd hblk hp h0 hlt
      have hfull : ¬ f.isMerge = true := fun hc => by
        have := hfm.1 hc
        have := hcount h hp
        have := hp.position
        unfold touchedBlocks blockBytes at *
        omega
      have hcfg := h.unchanged.cfg
      cases f with
      | reading f => exact absurd rfl hfull
      | merge r f => exact absurd rfl hfull
      | full f =>
        obtain ⟨u, h1, h2⟩ := fullBlock_write_fails (kind := kind) (f := f) (blk := blk) (rest := rest) hk h.bus
          (haddr h hblk hp)
          (fun he => hp.bytes (hb he) h.unchanged h.req hd) (by rw [hcfg]; exact hff)
          (by rw [h.script]; simp [BlockFailure.bytes])
        rw [hblk, cardArg_congr h.unchanged.divisor, hcfg,
          segment_merged (old := fun _ => 0) hp hd h.mem (by rw [h.req]) fun he => by omega] at h2
        exact ⟨u, h1, h.fails hp hd (fun h => absurd h h0) rfl h2⟩
  obtain ⟨u, h1, h2⟩ := segments_fails hfail hr.legal.1 hr.nonempty hl (s := mapperStart o n buf s)
    ⟨⟨[], rfl, rfl, by simp⟩, rfl, rfl, by show s.script = _; simpa using hs, hr.bus, fun h => absurd rfl h, rfl,
      by constructor <;> rfl⟩
  refine ⟨u, mapper_raised ?_ fun he => bufferSound_kept (hb he) h2.unchanged.hostKeepsDuties h2.unchanged.cfg h2.req, h2⟩
  have ht : transfer kind o n (mapperStart o n buf s) = .error (.raised (blockError f)) u := by
    cases kind with
    | read => exact absurd rfl hk
    | write | erase => exact h1
  exact (mapRange_transfer (s := mapperStart o n buf s) hr.legal hr.nonempty).trans (bind_error ht _)

end Sys2Proof.Laws
end

