-- ==== Sys2Proof/Laws/Frames.lean ====
section
/-! SUPPORT. What a reader of the bus trace sees of a sub-step, and where it leaves the select line, whatever the card
returns: one lemma per sub-step. -/

namespace Sys2Proof.Laws

open Sys2Proof.Machine

variable {α β : Type}

theorem scanFrom_append (p : Params) (c : Scan) (es fs : List BusEvent) :
    scanFrom p c (es ++ fs) = scanFrom p (scanFrom p c es) fs := by
  induction es generalizing c with
  | nil => rfl
  | cons e es ih => cases e <;> simp [scanFrom, ih]

theorem itemsFrom_append (p : Params) (c : Scan) (es fs : List BusEvent) :
    itemsFrom p c (es ++ fs) = itemsFrom p c es ++ itemsFrom p (scanFrom p c es) fs := by
  induction es generalizing c with
  | nil => rfl
  | cons e es ih => cases e <;> simp [itemsFrom, scanFrom, ih]

/-- Every frame among the items is one of the table's. -/
def FramesDecode (p : Params) (items : List BusItem) : Prop :=
  ∀ bytes, BusItem.frame bytes ∈ items → ∃ j, decode p (.frame bytes) = .ok j

/-- Since `s0` the trace has grown by events that leave a reader at `c`, every frame in them one of the table's. -/
def At (s0 : State) (c : Scan) (t : State) : Prop :=
  t.cfg = s0.cfg ∧ ∃ es, t.trace = s0.trace ++ es ∧ scanFrom s0.cfg .outside es = c ∧ FramesDecode s0.cfg (itemsIn s0.cfg es)

/-- The same, with the select line at a level. -/
def In (s0 : State) (c : Scan) (v : Bool) (t : State) : Prop := At s0 c t ∧ t.sel = v

/-- Outside any frame or data phase; the select line is low if it was low. -/
def Calm (s0 t : State) : Prop := At s0 .outside t ∧ (s0.sel = false → t.sel = false)

/-- Outside any frame or data phase, at whatever select level. -/
def Outside (s0 t : State) : Prop := At s0 .outside t

theorem At.here (s0 : State) : At s0 .outside s0 :=
  ⟨rfl, [], by simp, rfl, fun _ h => by cases h⟩

theorem Calm.here (s0 : State) : Calm s0 s0 := ⟨At.here s0, fun h => h⟩

theorem In.calm {s0 t : State} (h : In s0 .outside false t) : Calm s0 t := ⟨h.1, fun _ => h.2⟩

/-- One more exchange. -/
theorem At.exchange {s0 t u : State} {c : Scan} (h : At s0 c t) (v : Bool) (tx rx : Byte) (hc : u.cfg = t.cfg)
    (ht : u.trace = t.trace ++ [.exchange v tx rx])
    (hi : ∀ bytes, (c.exchange s0.cfg v tx rx).2 = some (.frame bytes) → ∃ j, decode s0.cfg (.frame bytes) = .ok j) :
    At s0 (c.exchange s0.cfg v tx rx).1 u := by
  obtain ⟨hcfg, es, h1, h2, h3⟩ := h
  refine ⟨hc.trans hcfg, es ++ [.exchange v tx rx], by rw [ht, h1, List.append_assoc], ?_, ?_⟩
  · rw [scanFrom_append, h2]
    rfl
  · intro bytes hb
    rw [itemsIn, itemsFrom_append, h2] at hb
    rcases List.mem_append.1 hb with hb | hb
    · exact h3 bytes hb
    · simp only [itemsFrom, List.append_nil, Option.mem_toList] at hb
      exact hi bytes hb

/-- How a sub-step may end: `Q` where it returns, `E` where it raises, and `Calm` where a card address overflows. -/
def Sends (s0 : State) (E P : State → Prop) (m : M α) (Q : α → State → Prop) : Prop := ∀ s, P s →
  match m s with
  | .ok a t => Q a t
  | .error (.raised _) t => E t
  | .error (.fault f) t => ∀ blk u, f = .addressOverflow blk u → Calm s0 t ∧ u = t

namespace Sends

variable {s0 : State} {E P : State → Prop}

theorem pure {a : α} {Q : α → State → Prop} (h : ∀ s, P s → Q a s) : Sends s0 E P (pure a : M α) Q := h

theorem raise {e : Err} {Q : α → State → Prop} (h : ∀ s, P s → E s) : Sends s0 E P (raise e : M α) Q := h

theorem look {f : State → α} {Q : α → State → Prop} (h : ∀ s, P s → Q (f s) s) : Sends s0 E P (look f) Q := h

/-- A read whose value is known. -/
theorem lookAt {f : State → α} {k : α → M β} {x : α} {Q : β → State → Prop} (hx : ∀ s, P s → f s = x)
    (h : Sends s0 E P (k x) Q) : Sends s0 E P (Machine.look f >>= k) Q := by
  intro s hs
  rw [look_bind, hx s hs]
  exact h s hs

theorem update {f : State → State} {Q : Unit → State → Prop} (h : ∀ s, P s → Q () (f s)) :
    Sends s0 E P (update f) Q := h

theorem bind {m : M α} {k : α → M β} {Q : α → State → Prop} {R : β → State → Prop} (hm : Sends s0 E P m Q)
    (hk : ∀ a, Sends s0 E (Q a) (k a) R) : Sends s0 E P (m >>= k) R := by
  intro s hs
  have h := hm s hs
  rw [run_bind]
  revert h
  cases m s with
  | ok a t => exact hk a t
  | error e t =>
    cases e with
    | raised e => exact fun h => h
    | fault f => exact fun h => h

theorem weaken {P' E' : State → Prop} {m : M α} {Q Q' : α → State → Prop} (h : Sends s0 E' P' m Q')
    (hp : ∀ s, P s → P' s) (he : ∀ s, E' s → E s) (hq : ∀ a s, Q' a s → Q a s) : Sends s0 E P m Q := by
  intro s hs
  have h := h s (hp s hs)
  revert h
  cases m s with
  | ok a t => exact hq a t
  | error e t =>
    cases e with
    | raised e => exact he t
    | fault f => exact fun h => h

theorem ite {c : Prop} [Decidable c] {m n : M α} {Q : α → State → Prop} (hm : c → Sends s0 E P m Q)
    (hn : ¬ c → Sends s0 E P n Q) : Sends s0 E P (if c then m else n) Q := by
  split
  · exact hm ‹_›
  · exact hn ‹_›

theorem onRaise {f : State → State} {m : M α} {Q : α → State → Prop} (hm : Sends s0 E P m Q)
    (hf : ∀ s, E s → E (f s)) : Sends s0 E P (onRaise f m) Q := by
  intro s hs
  have h := hm s hs
  unfold Machine.onRaise
  revert h
  cases m s with
  | ok a t => exact fun h => h
  | error e t =>
    cases e with
    | raised e => exact hf t
    | fault f => exact fun h => h

theorem settled {m : M α} {Q : α → State → Prop} (hm : Sends s0 E P m Q) (hf : ∀ s, E s → E (settleDuties s))
    (hq : ∀ a s, Q a s → Q a (settleDuties s)) : Sends s0 E P (settled m) Q := by
  intro s hs
  have h := (hm.onRaise hf) s hs
  unfold Machine.settled
  revert h
  cases Machine.onRaise settleDuties m s with
  | ok a t => exact hq a t
  | error e t => exact fun h => h

theorem settledFor {kind : MapKind} {m : M α} {Q : α → State → Prop} (hm : Sends s0 E P m Q)
    (hf : ∀ s, E s → E (settleDuties s)) (hq : ∀ a s, Q a s → Q a (settleDuties s)) : Sends s0 E P (settledFor kind m) Q := by
  by_cases hk : kind = .erase
  · subst hk
    exact hm
  · rw [settledFor_buffer hk]
    exact hm.settled hf hq

theorem busCall {c : BusCall} {Q : Unit → State → Prop} (h : ∀ s, P s → Q () (s.spendAnswer.perform c)) :
    Sends s0 E P (busCall c) Q := by
  intro s hs
  by_cases hb : s.busAnswers = some 0
  · rw [busCall_stuck hb]
    intro _ _ hf
    cases hf
  · rw [busCall_returns hb]
    exact h s hs

/-! ### The select line and single exchanges -/

/-- `Sel(v)` leaves the reader where it is. -/
theorem selAt (v : Bool) (c : Scan) : Sends s0 E (At s0 c) (Machine.sel v) fun _ => In s0 c v := by
  intro s hs
  unfold Machine.sel
  rw [look_bind]
  by_cases hv : s.sel = v
  · rw [if_pos hv]
    exact ⟨hs, hv⟩
  · rw [if_neg hv]
    exact busCall (c := .sel v) (P := At s0 c) (Q := fun _ => In s0 c v) (fun _ hs => ⟨hs, rfl⟩) s hs

theorem sel (v w : Bool) (c : Scan) : Sends s0 E (In s0 c w) (Machine.sel v) fun _ => In s0 c v :=
  (selAt v c).weaken (fun _ h => h.1) (fun _ h => h) fun _ _ h => h

theorem selOutside (v : Bool) : Sends s0 E (Outside s0) (Machine.sel v) fun _ => In s0 .outside v := selAt v .outside

/-- An exchange moves the reader on. -/
theorem xfer (tx : Byte) (c : Scan) (v : Bool)
    (hi : ∀ rx bytes, (c.exchange s0.cfg v tx rx).2 = some (.frame bytes) → ∃ j, decode s0.cfg (.frame bytes) = .ok j) :
    Sends s0 E (In s0 c v) (xfer tx) fun rx => In s0 (c.exchange s0.cfg v tx rx).1 v := by
  intro s hs
  by_cases hb : s.busAnswers = some 0
  · rw [xfer_stuck hb]
    intro _ _ hf
    cases hf
  · rw [xfer_returns hb]
    refine ⟨hs.1.exchange v tx _ rfl ?_ (hi _), hs.2⟩
    show s.trace ++ [BusEvent.exchange s.sel tx _] = _
    rw [hs.2]
    rfl

/-- An exchange whose reader's step does not depend on what is received. -/
theorem xferTo {tx : Byte} {c c' : Scan} {v : Bool} (item : Option BusItem)
    (h : ∀ rx, c.exchange s0.cfg v tx rx = (c', item))
    (hi : ∀ bytes, item = some (.frame bytes) → ∃ j, decode s0.cfg (.frame bytes) = .ok j) :
    Sends s0 E (In s0 c v) (Machine.xfer tx) fun _ => In s0 c' v := by
  refine (xfer tx c v fun rx bytes hb => hi bytes ?_).weaken (fun _ h => h) (fun _ h => h) fun rx s hs => ?_
  · rw [h rx] at hb
    exact hb
  · rw [h rx] at hs
    exact hs

/-- A filler outside a frame starts none. -/
theorem filler (v : Bool) : Sends s0 E (In s0 .outside v) (Machine.xfer fillerByte) fun _ => In s0 .outside v :=
  xferTo none (fun rx => by cases v <;> rfl) fun _ h => by cases h

theorem receive (v : Bool) (rx : Byte) : Sends s0 E (In s0 .outside v) (Machine.receive rx) fun _ => In s0 .outside v := by
  have he : Scan.exchange s0.cfg v fillerByte rx .outside = (.outside, none) := by cases v <;> rfl
  refine busCall fun s hs => ⟨?_, hs.2⟩
  have := hs.1.exchange (u := s.spendAnswer.logExchange fillerByte rx) v fillerByte rx rfl
    (by show s.trace ++ [BusEvent.exchange s.sel fillerByte rx] = _; rw [hs.2])
    (by rw [he]; intro _ h; cases h)
  rw [he] at this
  exact this

/-- A release ends whatever frame or data phase the reader was in. -/
theorem release (c : Scan) : Sends s0 E (fun t => At s0 c t) release fun _ => In s0 .outside false :=
  bind (Q := fun _ => In s0 c false) (selAt false c) fun _ =>
    bind (xferTo none (fun _ => rfl) fun _ h => by cases h) fun _ => pure fun _ h => h

/-- A register write leaves the reader and the select line where they are. -/
theorem write {f : State → State} {c : Scan} {v : Bool} (h1 : ∀ s, (f s).cfg = s.cfg) (h2 : ∀ s, (f s).trace = s.trace)
    (h3 : ∀ s, (f s).sel = s.sel) : Sends s0 E (In s0 c v) (Machine.update f) fun _ => In s0 c v := by
  refine update fun s hs => ⟨⟨(h1 s).trans hs.1.1, ?_⟩, (h3 s).trans hs.2⟩
  obtain ⟨es, h⟩ := hs.1.2
  exact ⟨es, (h2 s).trans h.1, h.2⟩

/-! ### Frames and polls -/

/-- The reader's place after a frame: a CMD24 opens a data phase if the card answers it. -/
def afterFrame (idx : CmdIndex) : Scan := if idx = 24 then .awaitR1 else .outside

theorem sendAll (bs : List Byte) (c : Nat → Scan) (v : Bool)
    (hc : ∀ k (hk : k < bs.length) rx, (c k).exchange s0.cfg v bs[k] rx = (c (k + 1), none)) :
    Sends s0 E (In s0 (c 0) v) (sendAll bs) fun _ => In s0 (c bs.length) v := by
  induction bs generalizing c with
  | nil => exact pure fun _ h => h
  | cons b bs ih =>
    exact bind (xferTo none (hc 0 (by simp)) fun _ h => by cases h) fun _ =>
      ih (fun k => c (k + 1)) fun k hk rx => hc (k + 1) (by simpa using hk) rx

theorem frameStep {tx : Byte} {got : List Byte} (h : got.length < 5) (p : Params) (rx : Byte) :
    Scan.exchange p true tx rx (.inFrame got) = (.inFrame (got ++ [tx]), none) := by
  simp [Scan.exchange, Scan.selected, h]

theorem frame {idx : CmdIndex} {arg : U32} {close : Byte} (he : emitted s0.cfg idx arg close = true) :
    Sends s0 E (Outside s0) (frame idx arg close) fun _ => In s0 (afterFrame idx) true := by
  have hd : ∃ j, decode s0.cfg (.frame (frameBytes idx arg close)) = .ok j := by
    obtain ⟨j, hj⟩ := Option.isSome_iff_exists.1 he
    exact ⟨j, by rw [decode, decodeFrame_frameBytes, hj]⟩
  refine bind (Q := fun _ => Outside s0) (update fun s hs => hs) fun _ => bind (selOutside true) fun _ => ?_
  unfold frameBytes at hd ⊢
  generalize h0 : (0x40 : Byte) ||| idx.setWidth 8 = b0 at hd ⊢
  generalize arg.extractLsb' 24 8 = b1 at hd ⊢
  generalize arg.extractLsb' 16 8 = b2 at hd ⊢
  generalize arg.extractLsb' 8 8 = b3 at hd ⊢
  generalize arg.extractLsb' 0 8 = b4 at hd ⊢
  have hstart : ∀ rx, Scan.exchange s0.cfg true b0 rx .outside = (.inFrame [b0], none) := by
    intro rx
    have : b0.extractLsb' 6 2 = 0b01#2 := by rw [← h0]; exact frame_start idx
    simp [Scan.exchange, Scan.selected, this]
  have hafter : Scan.afterFrame [b0, b1, b2, b3, b4, close] = afterFrame idx := by
    have : (b0 = 0x58) ↔ idx = 24 := by
      rw [← h0]
      constructor
      · intro h
        rw [← frame_index idx, h]
        rfl
      · rintro rfl
        rfl
    unfold Scan.afterFrame afterFrame
    simp only [List.head?_cons, Option.some.injEq, this]
  have last : ∀ rx, Scan.exchange s0.cfg true close rx (.inFrame [b0, b1, b2, b3, b4]) =
      (afterFrame idx, some (.frame [b0, b1, b2, b3, b4, close])) := by
    intro rx
    rw [← hafter]
    rfl
  have step : ∀ (tx : Byte) (got : List Byte), got.length < 5 →
      Sends s0 E (In s0 (.inFrame got) true) (Machine.xfer tx) fun _ => In s0 (.inFrame (got ++ [tx])) true :=
    fun tx got hg => xferTo none (fun rx => frameStep hg _ rx) fun _ h => by cases h
  exact bind (xferTo none hstart fun _ h => by cases h) fun _ => bind (step b1 [b0] (by simp)) fun _ =>
    bind (step b2 [b0, b1] (by simp)) fun _ => bind (step b3 [b0, b1, b2] (by simp)) fun _ =>
      bind (step b4 [b0, b1, b2, b3] (by simp)) fun _ =>
        bind (xferTo _ last fun bytes h => by cases h; exact hd) fun _ => pure fun _ h => h

/-- A poll outside a data phase. -/
theorem pollLoop (fuel : Nat) (v : Bool) :
    Sends s0 E (In s0 .outside v) (pollLoop fuel) fun _ => In s0 .outside v := by
  induction fuel with
  | zero => exact bind (write (fun _ => rfl) (fun _ => rfl) fun _ => rfl) fun _ => pure fun _ h => h
  | succ fuel ih =>
    refine bind (write (fun _ => rfl) (fun _ => rfl) fun _ => rfl) fun _ => bind (filler v) fun rx => ?_
    split
    · exact bind (write (fun _ => rfl) (fun _ => rfl) fun _ => rfl) fun _ => pure fun _ h => h
    · exact ih

theorem poll (v : Bool) : Sends s0 E (In s0 .outside v) poll fun _ => In s0 .outside v :=
  bind (write (fun _ => rfl) (fun _ => rfl) fun _ => rfl) fun _ => bind (look fun _ h => h) fun n => pollLoop n v

/-- Where the reader is after the answer to a CMD24: only `R1(0x00)` opens the data phase (43_block_transfer.md R203). -/
def Answered (s0 : State) (r : Resp) (t : State) : Prop :=
  match r with
  | .timeout => In s0 .awaitR1 true t
  | .r1 f => if f = 0 then In s0 (.lead s0.cfg.writeGap) true t else In s0 .outside true t

theorem responseOf_some {rx : Byte} {f : BitVec 7} (h : responseOf rx = some f) :
    rx.extractLsb' 7 1 = 0#1 ∧ (rx = 0 ↔ f = 0) := by
  revert rx f
  decide +kernel

theorem responseOf_none {rx : Byte} (h : responseOf rx = none) : rx ≠ 0 ∧ rx.extractLsb' 7 1 ≠ 0#1 := by
  revert rx
  decide +kernel

theorem writePollLoop (fuel : Nat) :
    Sends s0 E (In s0 .awaitR1 true) (Machine.pollLoop fuel) (Answered s0) := by
  induction fuel with
  | zero =>
    exact bind (write (fun _ => rfl) (fun _ => rfl) fun _ => rfl) fun _ => pure fun _ h => h
  | succ fuel ih =>
    refine bind (write (fun _ => rfl) (fun _ => rfl) fun _ => rfl) fun _ =>
      bind (xfer fillerByte .awaitR1 true fun rx bytes h => ?_) fun rx => ?_
    · simp only [Scan.exchange, Scan.selected, if_true] at h
      split at h
      · cases h
      · split at h <;> cases h
    · split
      · rename_i f hf
        have hr := responseOf_some hf
        have hx : (Scan.exchange s0.cfg true fillerByte rx .awaitR1).1 =
            if f = 0 then .lead s0.cfg.writeGap else .outside := by
          by_cases h0 : f = 0
          · simp [Scan.exchange, Scan.selected, hr.2.2 h0, h0]
          · have hx : rx ≠ 0 := fun h => h0 (hr.2.1 h)
            simp only [Scan.exchange, Scan.selected, hr.1, h0, hx, if_true, if_false]
        rw [hx]
        refine bind (write (fun _ => rfl) (fun _ => rfl) fun _ => rfl) fun _ => pure fun s h => ?_
        show if f = 0 then _ else _
        split at h <;> simp_all
      · rename_i hf
        have hr := responseOf_none hf
        have hx : (Scan.exchange s0.cfg true fillerByte rx .awaitR1).1 = .awaitR1 := by
          simp only [Scan.exchange, Scan.selected, hr.1, hr.2, if_true, if_false]
        rw [hx]
        exact ih

theorem writePoll : Sends s0 E (In s0 .awaitR1 true) Machine.poll (Answered s0) :=
  bind (write (fun _ => rfl) (fun _ => rfl) fun _ => rfl) fun _ => bind (look fun _ h => h) fun n => writePollLoop n

/-! ### Commands -/

theorem outside_of_in {c : Scan} {v : Bool} {t : State} (h : In s0 c v t) : At s0 c t := h.1

/-- The parameters do not change, so a frame with the closing byte of the state is one of the table's. -/
theorem closed {k : Byte → M α} {Q : α → State → Prop} (h : Sends s0 E (Outside s0) (k s0.cfg.close) Q) :
    Sends s0 E (Outside s0) (Machine.look (fun s => s.cfg.close) >>= k) Q :=
  lookAt (fun _ hs => congrArg Params.close hs.1) h

/-- Somewhere in the trace, at either select level. -/
def Somewhere (s0 t : State) : Prop := ∃ c, At s0 c t

theorem releaseAnywhere : Sends s0 E (Somewhere s0) Machine.release fun _ => In s0 .outside false := by
  rintro s ⟨c, hs⟩
  exact release c s hs

theorem somewhere_of_answered {r : Resp} {t : State} (h : Answered s0 r t) : Somewhere s0 t := by
  cases r with
  | timeout => exact ⟨_, h.1⟩
  | r1 f =>
    change (if _ then _ else _ : Prop) at h
    split at h
    · exact ⟨_, h.1⟩
    · exact ⟨_, h.1⟩

/-- The answer to a frame. -/
theorem answer {idx : CmdIndex} {arg : U32} {close : Byte} (he : emitted s0.cfg idx arg close = true) {k : Resp → M α}
    {Q : α → State → Prop}
    (h24 : idx = 24 → ∀ r, Sends s0 E (Answered s0 r) (k r) Q)
    (hk : idx ≠ 24 → ∀ r, Sends s0 E (In s0 .outside true) (k r) Q) :
    Sends s0 E (Outside s0) (Machine.frame idx arg close >>= fun _ => Machine.poll >>= k) Q := by
  refine bind (frame he) fun _ => ?_
  unfold afterFrame
  split
  · exact bind writePoll (h24 ‹_›)
  · exact bind (poll true) (hk ‹_›)

theorem command {idx : CmdIndex} {arg : U32} (he : emitted s0.cfg idx arg s0.cfg.close = true) :
    Sends s0 E (Outside s0) (command idx arg) fun _ => In s0 .outside false := by
  refine closed (answer he (fun _ r => ?_) fun _ r => ?_)
  · exact bind (releaseAnywhere.weaken (fun _ => somewhere_of_answered) (fun _ h => h) fun _ _ h => h) fun _ =>
      pure fun _ h => h
  · exact bind (releaseAnywhere.weaken (fun _ h => ⟨_, h.1⟩) (fun _ h => h) fun _ _ h => h) fun _ => pure fun _ h => h

/-- A command that hands its bracket over has released it on a timeout (40_protocol_engine.md R144). -/
theorem commandNoDeselect {idx : CmdIndex} {arg : U32} (he : emitted s0.cfg idx arg s0.cfg.close = true) (hn : idx ≠ 24) :
    Sends s0 E (Outside s0) (commandNoDeselect idx arg) fun r t =>
      if r = .timeout then In s0 .outside false t else In s0 .outside true t := by
  refine closed (answer he (fun h => absurd h hn) fun _ r => ?_)
  cases r with
  | timeout =>
    exact bind ((release .outside).weaken (fun _ h => h.1) (fun _ h => h) fun _ _ h => h) fun _ => pure fun _ h => h
  | r1 f => exact pure fun _ h => h

theorem commandNoDeselectWrite {arg : U32} (he : emitted s0.cfg 24 arg s0.cfg.close = true) :
    Sends s0 E (Outside s0) (Machine.commandNoDeselect 24 arg) fun r t =>
      if r = .timeout then In s0 .outside false t else Answered s0 r t := by
  refine closed (answer he (fun _ r => ?_) fun h => absurd rfl h)
  cases r with
  | timeout =>
    exact bind ((release .awaitR1).weaken (fun _ h => h.1) (fun _ h => h) fun _ _ h => h) fun _ => pure fun _ h => h
  | r1 f => exact pure fun _ h => h

theorem trailingByte : Sends s0 E (In s0 .outside true) Machine.trailingByte fun _ => In s0 .outside true :=
  bind (write (fun _ => rfl) (fun _ => rfl) fun _ => rfl) fun _ => filler true

theorem trailingBytes : Sends s0 E (In s0 .outside true) Machine.trailingBytes fun _ => In s0 .outside true :=
  bind (write (fun _ => rfl) (fun _ => rfl) fun _ => rfl) fun _ => bind trailingByte fun _ => bind trailingByte fun _ =>
    bind trailingByte fun _ => bind trailingByte fun _ => pure fun _ h => h

/-- The rest of CMD8 and CMD58 from a closed bracket on does not matter to the reader. -/
theorem releaseThen {k : Unit → M α} (hk : Sends s0 E (In s0 .outside false) (k ()) fun _ => In s0 .outside false) :
    Sends s0 E (In s0 .outside true) (Machine.release >>= k) fun _ => In s0 .outside false :=
  bind ((release .outside).weaken (fun _ h => h.1) (fun _ h => h) fun _ _ h => h) fun _ => hk

theorem emitted_cmd8 (p : Params) : emitted p 8 p.cmd8Arg p.cmd8Close = true := by
  simp [emitted, frameRow]

theorem probeInterfaceCondition :
    Sends s0 E (Outside s0) Machine.probeInterfaceCondition fun _ => In s0 .outside false := by
  intro s hs
  unfold Machine.probeInterfaceCondition
  rw [look_bind, hs.1]
  refine answer (emitted_cmd8 s0.cfg) (fun h => absurd h (by decide)) (fun _ r => ?_) s hs
  cases r with
  | timeout => exact releaseThen (pure fun _ h => h)
  | r1 f => exact bind trailingBytes fun _ => releaseThen (pure fun _ h => h)

theorem emitted_cmd58 (p : Params) : emitted p 58 0 p.close = true := by simp [emitted, frameRow]

theorem readOcr : Sends s0 E (Outside s0) readOperatingConditionRegister fun _ => In s0 .outside false := by
  refine closed (answer (emitted_cmd58 s0.cfg) (fun h => absurd h (by decide)) fun _ r => ?_)
  cases r with
  | timeout => exact releaseThen (bind (look fun _ h => h) fun _ => pure fun _ h => h)
  | r1 f =>
    exact bind trailingBytes fun _ => bind (write (fun _ => rfl) (fun _ => rfl) fun _ => rfl) fun _ =>
      releaseThen (bind (look fun _ h => h) fun _ => pure fun _ h => h)

/-! ### Data phases: a raise leaves the select line low -/

/-- Where a raise of the bus side leaves the reader. -/
abbrev Low (s0 : State) : State → Prop := In s0 .outside false

/-- A release before a raise or a return. -/
theorem releaseLow : Sends s0 E (Outside s0) Machine.release fun _ => Low s0 :=
  (release .outside).weaken (fun _ h => h) (fun _ h => h) fun _ _ h => h

theorem tokenLoop (fuel : Nat) : Sends s0 E (In s0 .outside true) (Machine.tokenLoop fuel) fun _ => In s0 .outside true := by
  induction fuel with
  | zero => exact pure fun _ h => h
  | succ fuel ih =>
    exact bind (write (fun _ => rfl) (fun _ => rfl) fun _ => rfl) fun _ => bind (filler true) fun rx =>
      ite (fun _ => bind (write (fun _ => rfl) (fun _ => rfl) fun _ => rfl) fun _ => pure fun _ h => h) fun _ => ih

theorem tokenPoll : Sends s0 E (In s0 .outside true) Machine.tokenPoll fun _ => In s0 .outside true :=
  bind (write (fun _ => rfl) (fun _ => rfl) fun _ => rfl) fun _ =>
    bind (write (fun _ => rfl) (fun _ => rfl) fun _ => rfl) fun _ => bind (look fun _ h => h) fun n => tokenLoop n

theorem receivePayload (dst : DataBuffer) (fuel k : Nat) :
    Sends s0 E (In s0 .outside true) (Machine.receivePayload dst fuel k) fun _ => In s0 .outside true := by
  induction fuel generalizing k with
  | zero => exact pure fun _ h => h
  | succ fuel ih =>
    exact bind (filler true) fun rx =>
      bind (write (fun s => by cases dst <;> rfl) (fun s => by cases dst <;> rfl) fun s => by cases dst <;> rfl) fun _ =>
        bind (write (fun _ => rfl) (fun _ => rfl) fun _ => rfl) fun _ => ih (k + 1)

theorem checksumBytes : Sends s0 E (In s0 .outside true) Machine.checksumBytes fun _ => In s0 .outside true :=
  bind (filler true) fun _ => bind (filler true) fun _ => pure fun _ h => h

theorem readData (n : Nat) (dst : DataBuffer) :
    Sends s0 (Low s0) (Outside s0) (Machine.readData n dst) fun _ => Low s0 :=
  bind (selOutside true) fun _ => bind tokenPoll fun _ =>
    ite
      (fun _ => bind (write (fun _ => rfl) (fun _ => rfl) fun _ => rfl) fun _ => bind (receivePayload dst n 0) fun _ =>
        bind checksumBytes fun _ => releaseLow.weaken (fun _ h => h.1) (fun _ h => h) fun _ _ h => h)
      fun _ => bind (releaseLow.weaken (fun _ h => h.1) (fun _ h => h) fun _ _ h => h) fun _ => raise fun _ h => h

theorem freeBufferLow (dst : DataBuffer) : ∀ s, Low s0 s → Low s0 (s.freeBuffer dst) := by
  cases dst <;> exact fun _ h => h

/-- The R1 check of CMD9 and CMD17. -/
theorem requireReady (r : Resp) :
    Sends s0 (Low s0) (fun t => if r = .timeout then In s0 .outside false t else In s0 .outside true t)
      (Machine.requireReady r) fun _ => In s0 .outside true := by
  cases r with
  | timeout => exact raise fun _ h => h
  | r1 f =>
    exact ite (fun _ => pure fun _ h => h) fun _ =>
      bind (releaseLow.weaken (fun _ h => h.1) (fun _ h => h) fun _ _ h => h) fun _ => raise fun _ h => h

/-- The R1 check of CMD24: only `R1(0x00)` goes on, into the data phase. -/
theorem requireReadyWrite (r : Resp) :
    Sends s0 (Low s0) (fun t => if r = .timeout then In s0 .outside false t else Answered s0 r t)
      (Machine.requireReady r) fun _ => In s0 (.lead s0.cfg.writeGap) true := by
  cases r with
  | timeout => exact raise fun _ h => h
  | r1 f =>
    refine ite (fun h => pure fun s hs => ?_) fun h =>
      bind (releaseLow.weaken (fun s hs => ?_) (fun _ h => h) fun _ _ h => h) fun _ => raise fun _ h => h
    · have hs' : Answered s0 (.r1 f) s := by simpa using hs
      unfold Answered at hs'
      simpa only [h, if_true] using hs'
    · have hs' : Answered s0 (.r1 f) s := by simpa using hs
      unfold Answered at hs'
      simp only [h, if_false] at hs'
      exact hs'.1

theorem emitted_cmd9 (p : Params) : emitted p 9 0 p.close = true := by simp [emitted, frameRow]

theorem emitted_cmd17 (p : Params) (a : U32) : emitted p 17 a p.close = true := by simp [emitted, frameRow]

theorem emitted_cmd24 (p : Params) (a : U32) : emitted p 24 a p.close = true := by simp [emitted, frameRow]

theorem readBlockFrom (a : U32) : Sends s0 (Low s0) (Outside s0) (Machine.readBlockFrom a) fun _ => Low s0 :=
  onRaise (bind (commandNoDeselect (emitted_cmd17 _ a) (by decide)) fun r => bind (requireReady r) fun _ =>
    (readData 512 .scratch).weaken (fun _ h => h.1) (fun _ h => h) fun _ _ h => h) fun _ h => h

theorem readCSD : Sends s0 (Low s0) (Outside s0) Machine.readCSD fun _ => Low s0 :=
  onRaise (bind (commandNoDeselect (emitted_cmd9 _) (by decide)) fun r => bind (requireReady r) fun _ =>
    (readData 16 .csd).weaken (fun _ h => h.1) (fun _ h => h) fun _ _ h => h) fun _ h => h

theorem checkDataResponse (v : Bool) :
    Sends s0 (Low s0) (In s0 .outside v) Machine.checkDataResponse fun _ => In s0 .outside v :=
  bind (filler v) fun _ => bind (write (fun _ => rfl) (fun _ => rfl) fun _ => rfl) fun _ =>
    ite (fun _ => pure fun _ h => h) fun _ => bind (sel false v .outside) fun _ => raise fun _ h => h

theorem busyLoop (fuel : Nat) (v : Bool) :
    Sends s0 (Low s0) (In s0 .outside v) (Machine.busyLoop fuel) fun _ => In s0 .outside v := by
  induction fuel with
  | zero => exact bind (releaseLow.weaken (fun _ h => h.1) (fun _ h => h) fun _ _ h => h) fun _ => raise fun _ h => h
  | succ fuel ih =>
    exact bind (write (fun _ => rfl) (fun _ => rfl) fun _ => rfl) fun _ => bind (filler v) fun rx =>
      ite (fun _ => ih) fun _ => pure fun _ h => h

theorem waitNotBusy (v : Bool) :
    Sends s0 (Low s0) (In s0 .outside v) Machine.waitNotBusy fun _ => In s0 .outside v :=
  bind (write (fun _ => rfl) (fun _ => rfl) fun _ => rfl) fun _ => bind (look fun _ h => h) fun n => busyLoop n v

theorem gapLoop (fuel : Nat) :
    Sends s0 E (In s0 (.lead fuel) true) (Machine.gapLoop fuel) fun _ => In s0 (.lead 0) true := by
  induction fuel with
  | zero => exact pure fun _ h => h
  | succ fuel ih =>
    exact bind (write (fun _ => rfl) (fun _ => rfl) fun _ => rfl) fun _ =>
      bind (xferTo none (fun _ => rfl) fun _ h => by cases h) fun _ => ih

theorem sendPayload (bs got : List Byte) (hb : bs ≠ []) (hl : got.length + bs.length = 512) :
    Sends s0 E (In s0 (.inPayload got) true) (Machine.sendPayload bs) fun _ => In s0 (.checksum 1) true := by
  induction bs generalizing got with
  | nil => exact absurd rfl hb
  | cons b bs ih =>
    by_cases hlast : got.length < 511
    · refine bind (xferTo (c' := .inPayload (got ++ [b])) none (fun rx => ?_) fun _ h => by cases h) fun _ =>
        bind (write (fun _ => rfl) (fun _ => rfl) fun _ => rfl) fun _ => ih _ (fun h => ?_) ?_
      · simp [Scan.exchange, Scan.selected, hlast]
      · subst h
        simp at hl
        omega
      · simp at hl ⊢
        omega
    · have hnil : bs = [] := by
        apply List.eq_nil_of_length_eq_zero
        simp at hl
        omega
      subst hnil
      refine bind (xferTo (c' := .checksum 1) (some (.payload (got ++ [b]))) (fun rx => ?_) fun _ h => by cases h)
        fun _ => bind (write (fun _ => rfl) (fun _ => rfl) fun _ => rfl) fun _ => pure fun _ h => h
      simp [Scan.exchange, Scan.selected, hlast]

theorem writeChecksum : Sends s0 E (In s0 (.checksum 1) true) Machine.checksumBytes fun _ => In s0 .outside true :=
  bind (xferTo (c' := .checksum 0) none (fun _ => rfl) fun _ h => by cases h) fun _ =>
    bind (xferTo (c' := .outside) none (fun _ => rfl) fun _ h => by cases h) fun _ => pure fun _ h => h

/-- The payload of a write and everything after it. -/
theorem payloadPhase : Sends s0 (Low s0) (In s0 (.inPayload []) true) (do
    Machine.sendPayload (← Machine.look fun s => s.scratch.toList)
    Machine.checksumBytes
    Machine.checkDataResponse
    Machine.waitNotBusy
    Machine.release) fun _ => Low s0 := by
  intro s hs
  rw [look_bind]
  refine (bind (sendPayload s.scratch.toList [] ?_ ?_) fun _ => bind writeChecksum fun _ =>
    bind (checkDataResponse true) fun _ => bind (waitNotBusy true) fun _ =>
      releaseLow.weaken (fun _ h => h.1) (fun _ h => h) fun _ _ h => h) s hs
  · intro h
    have := congrArg List.length h
    simp at this
  · simp

/-- The data phase of a write. -/
theorem dataPhase : Sends s0 (Low s0) (In s0 (.lead s0.cfg.writeGap) true) (do
    Machine.gapLoop (← Machine.look fun s => s.cfg.writeGap)
    let _ ← Machine.xfer startTokenByte
    Machine.update fun s => s.setLoops { s.loops with payload := 0 }
    Machine.sendPayload (← Machine.look fun s => s.scratch.toList)
    Machine.checksumBytes
    Machine.checkDataResponse
    Machine.waitNotBusy
    Machine.release) fun _ => Low s0 := by
  refine lookAt (fun s hs => congrArg Params.writeGap hs.1.1) (bind (gapLoop _) fun _ =>
    bind (xferTo (c' := .inPayload []) none (fun _ => rfl) fun _ h => by cases h) fun _ =>
      bind (write (fun _ => rfl) (fun _ => rfl) fun _ => rfl) fun _ => payloadPhase)

theorem writeBlockTo (a : U32) : Sends s0 (Low s0) (Outside s0) (Machine.writeBlockTo a) fun _ => Low s0 :=
  onRaise (bind (commandNoDeselectWrite (emitted_cmd24 _ a)) fun r => bind (requireReadyWrite r) fun _ =>
    bind (sel true true _) fun _ => bind (write (fun _ => rfl) (fun _ => rfl) fun _ => rfl) fun _ => dataPhase)
    fun _ h => h

/-! ### Card addresses: an overflow leaves the select line as it was -/

theorem stop {f : State → Fault} {Q : α → State → Prop} (hf : ∀ s blk u, f s ≠ .addressOverflow blk u) :
    Sends s0 E P (stop f : M α) Q := fun s _ blk u h => absurd h (hf s blk u)

theorem blockAddress (blk : U64) : Sends s0 E (Calm s0) (Machine.blockAddress blk) fun _ => Calm s0 := by
  refine bind (Q := fun _ => Calm s0) (look fun _ h => h) fun d => ite (fun _ => pure fun _ h => h) fun _ => ?_
  intro s hs blk u hf
  cases hf
  exact ⟨hs, rfl⟩

theorem readBlockAt (blk : U64) : Sends s0 (Calm s0) (Calm s0) (Machine.readBlockAt blk) fun _ => Calm s0 :=
  bind (blockAddress blk) fun a => (readBlockFrom a).weaken (fun _ h => h.1) (fun _ h => h.calm) fun _ _ h => h.calm

theorem writeBlockAt (blk : U64) : Sends s0 (Calm s0) (Calm s0) (Machine.writeBlockAt blk) fun _ => Calm s0 :=
  bind (blockAddress blk) fun a => (writeBlockTo a).weaken (fun _ h => h.1) (fun _ h => h.calm) fun _ _ h => h.calm

/-! ### The mapper -/

theorem writeCalm {f : State → State} (h1 : ∀ s, (f s).cfg = s.cfg) (h2 : ∀ s, (f s).trace = s.trace)
    (h3 : ∀ s, (f s).sel = s.sel) : ∀ s, Calm s0 s → Calm s0 (f s) := by
  intro s hs
  refine ⟨⟨(h1 s).trans hs.1.1, ?_⟩, fun h => (h3 s).trans (hs.2 h)⟩
  obtain ⟨es, h⟩ := hs.1.2
  exact ⟨es, (h2 s).trans h.1, h.2⟩

theorem updateCalm {f : State → State} (h1 : ∀ s, (f s).cfg = s.cfg) (h2 : ∀ s, (f s).trace = s.trace)
    (h3 : ∀ s, (f s).sel = s.sel) : Sends s0 E (Calm s0) (Machine.update f) fun _ => Calm s0 :=
  update (writeCalm h1 h2 h3)

theorem updateScratch (g : State → Vector Byte 512) :
    Sends s0 E (Calm s0) (Machine.update fun s => s.setScratch (g s)) fun _ => Calm s0 :=
  updateCalm (fun _ => rfl) (fun _ => rfl) fun _ => rfl

theorem memWrite (a : Nat) (bs : List Byte) : Sends s0 E (Calm s0) (Machine.memWrite a bs) fun _ => Calm s0 :=
  updateCalm (fun s => by split <;> rfl) (fun s => by split <;> rfl) fun s => by split <;> rfl

theorem loadScratch (off a n : Nat) : Sends s0 E (Calm s0) (Machine.loadScratch off a n) fun _ => Calm s0 :=
  updateCalm (fun s => by split <;> rfl) (fun s => by split <;> rfl) fun s => by split <;> rfl

theorem mergeSegment (kind : MapKind) (blk : U64) (off n : Nat) :
    Sends s0 (Calm s0) (Calm s0) (Machine.mergeSegment kind blk off n) fun _ => Calm s0 := by
  refine bind (readBlockAt blk) fun _ => ?_
  cases kind with
  | read => exact bind (look fun _ h => h) fun a => bind (look fun _ h => h) fun bs => memWrite a bs
  | write =>
    exact bind (look fun _ h => h) fun a => bind (loadScratch off a n) fun _ => writeBlockAt blk
  | erase => exact bind (updateScratch _) fun _ => writeBlockAt blk

theorem fullBlock (kind : MapKind) (blk : U64) :
    Sends s0 (Calm s0) (Calm s0) (Machine.fullBlock kind blk) fun _ => Calm s0 := by
  cases kind with
  | read =>
    exact bind (readBlockAt blk) fun _ => bind (look fun _ h => h) fun a => bind (look fun _ h => h) fun bs =>
      memWrite a bs
  | write =>
    exact bind (look fun _ h => h) fun a => bind (loadScratch 0 a 512) fun _ => writeBlockAt blk
  | erase => exact bind (updateScratch _) fun _ => writeBlockAt blk

theorem advanceCalm (n : U64) : Sends s0 E (Calm s0) (Machine.update (advance n)) fun _ => Calm s0 :=
  updateCalm (fun _ => rfl) (fun _ => rfl) fun _ => rfl

theorem bodyLoop (kind : MapKind) (fuel : Nat) :
    Sends s0 (Calm s0) (Calm s0) (Machine.bodyLoop kind fuel) fun _ => Calm s0 := by
  induction fuel with
  | zero => exact pure fun _ h => h
  | succ fuel ih =>
    exact bind (look fun _ h => h) fun _ => ite (fun _ => bind (look fun _ h => h) fun blk =>
      bind (fullBlock kind blk) fun _ => bind (advanceCalm _) fun _ => ih)
      fun _ => pure fun _ h => h

theorem headSegment (kind : MapKind) (offset size : U64) :
    Sends s0 (Calm s0) (Calm s0) (Machine.headSegment kind offset size) fun _ => Calm s0 :=
  bind (updateCalm (fun _ => rfl) (fun _ => rfl) fun _ => rfl) fun _ => bind (look fun _ h => h) fun _ =>
    bind (mergeSegment kind _ _ _) fun _ => updateCalm (fun _ => rfl) (fun _ => rfl) fun _ => rfl

theorem tailSegment (kind : MapKind) : Sends s0 (Calm s0) (Calm s0) (Machine.tailSegment kind) fun _ => Calm s0 :=
  bind (look fun _ h => h) fun _ => ite
    (fun _ => bind (updateCalm (fun _ => rfl) (fun _ => rfl) fun _ => rfl) fun _ => bind (look fun _ h => h) fun _ =>
      bind (mergeSegment kind _ _ _) fun _ => updateCalm (fun _ => rfl) (fun _ => rfl) fun _ => rfl)
    fun _ => pure fun _ h => h

theorem segments (kind : MapKind) (offset size : U64) :
    Sends s0 (Calm s0) (Calm s0) (Machine.segments kind offset size) fun _ => Calm s0 :=
  bind (headSegment kind offset size) fun _ => bind (look fun _ h => h) fun n => bind (bodyLoop kind n) fun _ =>
    tailSegment kind

theorem transfer (kind : MapKind) (offset size : U64) :
    Sends s0 (Calm s0) (Calm s0) (Machine.transfer kind offset size) fun _ => Calm s0 := by
  have hs := segments (s0 := s0) kind offset size
  cases kind with
  | read => exact hs.onRaise fun _ h => h
  | write => exact hs
  | erase => exact hs

theorem checkBounds (offset size : U64) :
    Sends s0 (Calm s0) (Calm s0) (Machine.checkBounds offset size) fun _ => Calm s0 :=
  bind (Q := fun _ => Calm s0) (look fun _ h => h) fun _ => ite (fun _ => pure fun _ h => h) fun _ => raise fun _ h => h

theorem settleDuties : ∀ s, Calm s0 s → Calm s0 (Machine.settleDuties s) :=
  writeCalm (fun s => by unfold Machine.settleDuties; split <;> rfl)
    (fun s => by unfold Machine.settleDuties; split <;> rfl) fun s => by unfold Machine.settleDuties; split <;> rfl

theorem mapRange (kind : MapKind) (offset size : U64) :
    Sends s0 (Calm s0) (Calm s0) (Machine.mapRange kind offset size) fun _ => Calm s0 :=
  bind (checkBounds offset size) fun _ => ite (fun _ => pure fun _ h => h) fun _ =>
    bind (transfer kind offset size) fun _ => look fun _ h => h

theorem mapper (kind : MapKind) (offset size : U64) (buf : Nat) :
    Sends s0 (Calm s0) (Calm s0) (Machine.mapper kind offset size buf) fun _ => Calm s0 :=
  bind (updateCalm (fun _ => rfl) (fun _ => rfl) fun _ => rfl) fun _ =>
    bind (updateCalm (fun _ => rfl) (fun _ => rfl) fun _ => rfl) fun _ =>
      (mapRange kind offset size).settledFor settleDuties fun _ => settleDuties

theorem rangeOp (kind : MapKind) (offset size : U64) (buf : Nat) :
    Sends s0 (Calm s0) (Calm s0) (Machine.rangeOp kind offset size buf) fun _ => Calm s0 :=
  bind (updateCalm (fun _ => rfl) (fun _ => rfl) fun _ => rfl) fun _ => bind (look fun _ h => h) fun _ =>
    ite (fun _ => bind (mapper kind offset size buf) fun _ => pure fun _ h => h) fun _ =>
      (raise fun _ h => h).settledFor settleDuties fun _ => settleDuties

/-! ### Bring-up and INIT -/

theorem updateLow {f : State → State} (h1 : ∀ s, (f s).cfg = s.cfg) (h2 : ∀ s, (f s).trace = s.trace)
    (h3 : ∀ s, (f s).sel = s.sel) : Sends s0 E (Low s0) (Machine.update f) fun _ => Low s0 := write h1 h2 h3

theorem outside_of_low : ∀ t, Low s0 t → Outside s0 t := fun _ h => h.1

theorem emitted_cmd0 (p : Params) : emitted p 0 0 p.close = true := by simp [emitted, frameRow]

theorem emitted_cmd16 (p : Params) : emitted p 16 512 p.close = true := by simp [emitted, frameRow]

theorem emitted_cmd55 (p : Params) : emitted p 55 0 p.close = true := by simp [emitted, frameRow]

theorem emitted_cmd41 (p : Params) (a : U32) (h : a = 0 ∨ a = p.hcsArg) : emitted p 41 a p.close = true := by
  by_cases h0 : a = 0
  · simp [emitted, frameRow, h0]
  · obtain h | h := h
    · exact absurd h h0
    · subst h
      unfold emitted frameRow
      simp
      split <;> rfl

/-- A command of bring-up. -/
theorem commandLow {idx : CmdIndex} {arg : U32} (he : emitted s0.cfg idx arg s0.cfg.close = true) :
    Sends s0 (Low s0) (Low s0) (Machine.command idx arg) fun _ => Low s0 :=
  (command he).weaken outside_of_low (fun _ h => h) fun _ _ h => h

theorem failBringUp (e : Err) {Q : Unit → State → Prop} : Sends s0 (Low s0) (Low s0) (Machine.failBringUp e) Q :=
  bind (updateLow (fun _ => rfl) (fun _ => rfl) fun _ => rfl) fun _ => raise fun _ h => h

theorem acmd41 (a : U32) (h : a = 0 ∨ a = s0.cfg.hcsArg) : Sends s0 (Low s0) (Low s0) (Machine.acmd41 a) fun _ => Low s0 :=
  bind (commandLow (emitted_cmd55 _)) fun _ => commandLow (emitted_cmd41 _ a h)

theorem resetLoop (fuel : Nat) : Sends s0 E (Outside s0) (Machine.resetLoop fuel) fun _ => Outside s0 := by
  induction fuel with
  | zero => exact pure fun _ h => h
  | succ fuel ih =>
    exact bind (Q := fun _ => Outside s0) (update fun _ h => h) fun _ =>
      bind ((command (emitted_cmd0 _)).weaken (fun _ h => h) (fun _ h => h) fun _ => outside_of_low) fun _ => ih

theorem v1Loop (fuel : Nat) : Sends s0 (Low s0) (Low s0) (Machine.v1Loop fuel) fun _ => Low s0 := by
  induction fuel with
  | zero => exact failBringUp _
  | succ fuel ih =>
    exact bind (updateLow (fun _ => rfl) (fun _ => rfl) fun _ => rfl) fun _ => bind (acmd41 0 (.inl rfl)) fun r =>
      ite (fun _ => bind (updateLow (fun _ => rfl) (fun _ => rfl) fun _ => rfl) fun _ =>
        updateLow (fun _ => rfl) (fun _ => rfl) fun _ => rfl) fun _ => ih

theorem wait (ms : Nat) : Sends s0 E (Low s0) (Machine.wait ms) fun _ => Low s0 := by
  refine busCall fun s hs => ⟨⟨hs.1.1, ?_⟩, hs.2⟩
  obtain ⟨es, h1, h2, h3⟩ := hs.1.2
  refine ⟨es ++ [.wait ms], ?_, ?_, ?_⟩
  · show s.trace ++ [_] = _
    rw [h1, List.append_assoc]
  · rw [scanFrom_append, h2]
    rfl
  · intro bytes hb
    rw [itemsIn, itemsFrom_append] at hb
    rcases List.mem_append.1 hb with hb | hb
    · exact h3 bytes hb
    · simp [itemsFrom] at hb

theorem v2Loop (fuel : Nat) : Sends s0 (Low s0) (Low s0) (Machine.v2Loop fuel) fun _ => Low s0 := by
  induction fuel with
  | zero => exact failBringUp _
  | succ fuel ih =>
    have hocr : Sends s0 (Low s0) (Low s0) readOperatingConditionRegister fun _ => Low s0 :=
      readOcr.weaken outside_of_low (fun _ h => h) fun _ _ h => h
    have hready : ∀ r : Resp, Sends s0 (Low s0) (Low s0) (if r = r1Ready then do
        let _ ← readOperatingConditionRegister
        Machine.update (State.setDivisor 1)
        Machine.update (State.setBr .ready)
      else Machine.v2Loop fuel : M Unit) fun _ => Low s0 := fun r =>
      ite (fun _ => bind hocr fun _ => bind (updateLow (fun _ => rfl) (fun _ => rfl) fun _ => rfl) fun _ =>
        updateLow (fun _ => rfl) (fun _ => rfl) fun _ => rfl) fun _ => ih
    have hrest : Sends s0 (Low s0) (Low s0) (do
        let _ ← readOperatingConditionRegister
        let r ← Machine.acmd41 (← Machine.look fun s => s.cfg.hcsArg)
        if r = r1Ready then do
          let _ ← readOperatingConditionRegister
          Machine.update (State.setDivisor 1)
          Machine.update (State.setBr .ready)
        else Machine.v2Loop fuel : M Unit) fun _ => Low s0 :=
      bind hocr fun _ => lookAt (fun _ hs => congrArg Params.hcsArg hs.1.1) (bind (acmd41 _ (.inr rfl)) hready)
    refine bind (updateLow (fun _ => rfl) (fun _ => rfl) fun _ => rfl) fun _ =>
      bind (Q := fun _ => Low s0) (look fun _ h => h) fun k => ?_
    split
    · exact bind (Q := fun _ => Low s0) (look fun _ h => h) fun ms => bind (wait ms) fun _ => hrest
    · exact hrest

theorem versionProbe : Sends s0 (Low s0) (Low s0) Machine.versionProbe fun _ => Low s0 := by
  refine bind (probeInterfaceCondition.weaken outside_of_low (fun _ h => h) fun _ _ h => h) fun r =>
    ite (fun _ => bind (updateLow (fun _ => rfl) (fun _ => rfl) fun _ => rfl) fun _ =>
      bind (updateLow (fun _ => rfl) (fun _ => rfl) fun _ => rfl) fun _ => bind (look fun _ h => h) fun n => v2Loop n)
      fun _ => ite (fun _ => bind (updateLow (fun _ => rfl) (fun _ => rfl) fun _ => rfl) fun _ =>
        bind (updateLow (fun _ => rfl) (fun _ => rfl) fun _ => rfl) fun _ => bind (look fun _ h => h) fun n => v1Loop n)
        fun _ => failBringUp _

theorem bringUp : Sends s0 (Low s0) (Outside s0) Machine.bringUp fun _ => Low s0 :=
  bind (Q := fun _ => Outside s0) (update fun _ h => h) fun _ => bind (Q := fun _ => Outside s0) (update fun _ h => h)
    fun _ => bind (Q := fun _ => Outside s0) (look fun _ h => h) fun n => bind (resetLoop n) fun _ =>
      bind (command (emitted_cmd0 _)) fun _ => ite
        (fun _ => bind (updateLow (fun _ => rfl) (fun _ => rfl) fun _ => rfl) fun _ => versionProbe) fun _ => failBringUp _

theorem refreshSectorCount : Sends s0 (Low s0) (Low s0) Machine.refreshSectorCount fun _ => Low s0 :=
  bind (look fun _ h => h) fun _ => ite
    (fun _ => bind (updateLow (fun _ => rfl) (fun _ => rfl) fun _ => rfl) fun _ => pure fun _ h => h) fun _ =>
      raise fun _ h => h

theorem initOp : Sends s0 (Low s0) (Outside s0) Machine.initOp fun _ => Low s0 :=
  bind (Q := fun _ => Outside s0) (update fun _ h => h) fun _ => bind bringUp fun _ =>
    bind (readCSD.weaken outside_of_low (fun _ h => h) fun _ _ h => h) fun _ => bind refreshSectorCount fun _ =>
      bind (commandLow (emitted_cmd16 _)) fun _ =>
        bind (ite (fun _ => pure fun _ h => h) fun _ => raise fun _ h => h) fun _ =>
          bind (updateLow (fun _ => rfl) (fun _ => rfl) fun _ => rfl) fun _ => pure fun _ h => h

theorem capacityOp : Sends s0 (Low s0) (Outside s0) Machine.capacityOp fun _ => Low s0 :=
  bind readCSD fun _ => bind refreshSectorCount fun _ => pure fun _ h => h

/-! ### Single bytes -/

theorem responseByte (f : BitVec 7) (v : Bool) :
    Sends s0 E (In s0 .outside v) (Machine.responseByte f) fun _ => In s0 .outside v :=
  bind (write (fun _ => rfl) (fun _ => rfl) fun _ => rfl) fun _ => bind (receive v _) fun _ =>
    bind (write (fun _ => rfl) (fun _ => rfl) fun _ => rfl) fun _ => pure fun _ h => h

theorem tokenByte (v : Bool) : Sends s0 E (In s0 .outside v) Machine.tokenByte fun _ => In s0 .outside v :=
  bind (write (fun _ => rfl) (fun _ => rfl) fun _ => rfl) fun _ => bind (receive v _) fun _ =>
    write (fun _ => rfl) (fun _ => rfl) fun _ => rfl

theorem acceptByte (x : BitVec 3) (v : Bool) :
    Sends s0 E (In s0 .outside v) (Machine.acceptByte x) fun _ => In s0 .outside v :=
  bind (receive v _) fun _ => write (fun _ => rfl) (fun _ => rfl) fun _ => rfl

theorem busyByte (v : Bool) : Sends s0 (Low s0) (In s0 .outside v) Machine.busyByte fun _ => In s0 .outside v :=
  bind (write (fun _ => rfl) (fun _ => rfl) fun _ => rfl) fun _ => bind (receive v _) fun _ =>
    bind (Q := fun _ => In s0 .outside v) (look fun _ h => h) fun _ =>
      bind (Q := fun _ => In s0 .outside v) (look fun _ h => h) fun _ =>
        ite (fun _ => pure fun _ h => h) fun _ =>
          bind (releaseLow.weaken (fun _ h => h.1) (fun _ h => h) fun _ _ h => h) fun _ => raise fun _ h => h

end Sends

end Sys2Proof.Laws
end

