-- ==== Sys2Proof/Laws/Overflow.lean ====
section
/-! SUPPORT. Where the mapper stops when a card address of the request does not fit (43_block_transfer.md R200,
60_exceptions.md R278). -/

namespace Sys2Proof.Laws

open Sys2Proof.Machine

variable {kind : MapKind} {blk o n : U64} {s : State}

/-! ## One block -/

theorem readBlockAt_overflows (h : 2 ^ 32 ≤ blk.toNat * s.divisor.toNat) :
    readBlockAt blk s = .error (.fault (.addressOverflow blk s)) s := bind_error (blockAddress_overflows h) _

theorem writeBlockAt_overflows (h : 2 ^ 32 ≤ blk.toNat * s.divisor.toNat) :
    writeBlockAt blk s = .error (.fault (.addressOverflow blk s)) s := bind_error (blockAddress_overflows h) _

theorem mergeSegment_overflows (h : 2 ^ 32 ≤ blk.toNat * s.divisor.toNat) (off k : Nat) :
    mergeSegment kind blk off k s = .error (.fault (.addressOverflow blk s)) s := bind_error (readBlockAt_overflows h) _

/-- Only `SCRATCH`, and the draw that frees it, can have changed. -/
structure ScratchOnly (s t : State) : Prop where
  bus : t.busAnswers = s.busAnswers
  divisor : t.divisor = s.divisor
  completion : t.completion = s.completion
  top : t.top = s.top
  trace : t.trace = s.trace
  sel : t.sel = s.sel
  mem : t.mem = s.mem
  script : t.script = s.script

theorem ScratchOnly.set (v : Vector Byte 512) : ScratchOnly s (s.setScratch v) := by constructor <;> rfl

theorem ScratchOnly.free : ScratchOnly s s.freeScratch := by constructor <;> rfl

theorem ScratchOnly.overflows {t : State} (ht : ScratchOnly s t) (h : 2 ^ 32 ≤ blk.toNat * s.divisor.toNat) :
    ∃ u, writeBlockAt blk t = .error (.fault (.addressOverflow blk u)) u ∧ ScratchOnly s u :=
  ⟨t, writeBlockAt_overflows (by rw [ht.divisor]; exact h), ht⟩

theorem fullBlock_overflows (h : 2 ^ 32 ≤ blk.toNat * s.divisor.toNat) :
    ∃ t, fullBlock kind blk s = .error (.fault (.addressOverflow blk t)) t ∧ ScratchOnly s t := by
  cases kind with
  | read => exact ⟨s, bind_error (readBlockAt_overflows h) _, by constructor <;> rfl⟩
  | write =>
    unfold fullBlock
    dsimp only
    rw [look_bind]
    unfold loadScratch
    rw [update_bind]
    refine ScratchOnly.overflows ?_ h
    split
    · exact .set _
    · exact .free
  | erase => exact (ScratchOnly.set _).overflows h

/-! ## The walk -/

/-- What every step of the mapper keeps on a bus that answers. -/
def Steady (s t : State) : Prop :=
  t.busAnswers = none ∧ t.divisor = s.divisor ∧ t.completion = s.completion ∧ t.top = s.top

theorem ScratchOnly.steady {t u : State} (h : ScratchOnly t u) (hs : Steady s t) : Steady s u :=
  ⟨h.bus.trans hs.1, h.divisor.trans hs.2.1, h.completion.trans hs.2.2.1, h.top.trans hs.2.2.2⟩

/-- A segment whose address fits does not stop. -/
theorem Steady.segment (hf : blk.toNat * s.divisor.toNat < 2 ^ 32) (m : MapperRegs) (k : Nat) :
    SegmentMoves (fun t => Steady s t ∧ t.map = m) (fun _ _ => False) kind blk k := by
  constructor
  case overflow =>
    intro t h hn
    apply hn
    unfold cardAddress
    rw [h.1.2.1]
    exact hf
  · constructor
    case silent =>
      intro c t h hb
      rw [h.1.1] at hb
      cases hb
    case perform =>
      intro c t h _
      rw [spendAnswer_all h.1.1]
      cases c <;> exact h
    all_goals (intros; assumption)
  all_goals (intros; assumption)

/-- Before the segment of block `b`: every earlier address fits, and before the first one there is no bus event. -/
def UpTo (s : State) (o : U64) (b : Nat) (t : State) : Prop :=
  Steady s t ∧ (b = o.toNat / 512 → t.trace = s.trace) ∧
    ∀ c, o.toNat / 512 ≤ c → c < b → c * s.divisor.toNat < 2 ^ 32

/-- A raise leaves the request running, and the first block was reached. -/
def RaisedIn (s : State) (o : U64) (t : State) : Prop := t.top = s.top ∧ o.toNat / 512 * s.divisor.toNat < 2 ^ 32

/-- The stop. -/
def StopsAt (s : State) (o n : U64) (f : Fault) (t : State) : Prop :=
  ∃ blk, f = .addressOverflow blk t ∧ OverflowedAt s o n blk t

theorem Place.block {d b off k : Nat} (h : Place o n d b off k) :
    o.toNat / 512 ≤ b ∧ b ≤ (o.toNat + n.toNat - 1) / 512 := by
  obtain ⟨h1, h2, h3, h4, h5, h6⟩ := h
  omega

theorem UpTo.stops {d b off k : Nat} {t u : State} (h : UpTo s o b t) (hp : Place o n d b off k) (hblk : blk.toNat = b)
    (hu : ScratchOnly t u) (hf : 2 ^ 32 ≤ blk.toNat * s.divisor.toNat) : StopsAt s o n (.addressOverflow blk u) u := by
  subst hblk
  exact ⟨blk, rfl, hp.block, hf, h.2.2, (hu.steady h.1).2.2.1, fun hb => hu.trace.trans (h.2.1 hb)⟩

/-- A segment that keeps what `Steady` says goes on to the next block. -/
theorem UpTo.next {d b off k : Nat} {t : State} {m : M Unit} (h : UpTo s o b t) (hp : Place o n d b off k)
    (hd : t.map.done.toNat = d) (hf : b * s.divisor.toNat < 2 ^ 32)
    (hk : Keeps (fun u => Steady s u ∧ u.map = t.map) (fun _ _ => False) m) :
    Walks (RaisedIn s o) (StopsAt s o n) n (fun u => UpTo s o (b + 1) u ∧ u.map = t.map) (m t) := by
  have hfirst : o.toNat / 512 * s.divisor.toNat < 2 ^ 32 := by
    by_cases hb : o.toNat / 512 = b
    · rw [hb]
      exact hf
    · exact h.2.2 _ le_rfl (by have := hp.block; omega)
  have hs := hk t ⟨h.1, rfl⟩
  revert hs
  cases m t with
  | ok a u =>
    refine fun hu => ⟨⟨hu.1, fun hb => ?_, fun c hc hlt => ?_⟩, hu.2⟩
    · have := hp.block
      omega
    · by_cases hb : c = b
      · rw [hb]
        exact hf
      · exact h.2.2 c hc (by omega)
  | error e u =>
    cases e with
    | raised e =>
      refine fun hu => ⟨⟨hu.1.2.2.2, hfirst⟩, ?_⟩
      have := hp.nonempty
      have := hp.inRequest
      rw [hu.2]
      omega
    | fault f => exact fun hu => hu.2.elim

theorem upTo_steps : WalkSteps (UpTo s o) (RaisedIn s o) (StopsAt s o n) kind o n where
  map _ _ _ h := h
  merge d b off k blk t h hd hb hp := by
    by_cases hf : blk.toNat * s.divisor.toNat < 2 ^ 32
    · exact h.next hp hd (by rw [← hb]; exact hf) (Keeps.mergeSegment (Steady.segment hf _ _) off)
    · rw [mergeSegment_overflows (by rw [h.1.2.1]; omega)]
      exact h.stops hp hb (by constructor <;> rfl) (by omega)
  full d b blk t h hd hb hp := by
    by_cases hf : blk.toNat * s.divisor.toNat < 2 ^ 32
    · exact h.next hp hd (by rw [← hb]; exact hf) (Keeps.fullBlock (Steady.segment hf _ _) le_rfl)
    · obtain ⟨u, h1, h2⟩ := fullBlock_overflows (kind := kind) (blk := blk) (s := t) (by rw [h.1.2.1]; omega)
      rw [h1]
      exact h.stops hp hb h2 (by omega)

/-- The mapper on a legal, non-empty request of which some address does not fit: it stops at the first such block, or a
block before that fails. -/
theorem mapper_overflows {buf : Nat} (hbus : s.busAnswers = none)
    (h : o.toNat + n.toNat < 2 ^ 64 ∧ o.toNat + n.toNat ≤ s.sectorCount.toNat * 512) (hn : 1 ≤ n.toNat)
    (hf : ¬ AddressesFit s o n) :
    (∃ blk t, mapper kind o n buf s = .error (.fault (.addressOverflow blk t)) t ∧ OverflowedAt s o n blk t) ∨
      (∃ e t, mapper kind o n buf s = .error (.raised e) t ∧ Raises.Io e ∧ RaisedIn s o t) := by
  have hw := mapper_walks (kind := kind) (buf := buf) (Q := fun _ => False) h hn (upTo_steps (s := s) (o := o) (n := n))
    (fun _ _ h => h) (fun _ t h => ⟨by rw [← h.1]; unfold settleDuties; split <;> rfl, h.2⟩) (fun _ _ h => h)
    (fun b u hj hb => hf (hj.2.2 _ (by omega) (by omega)))
    ⟨⟨hbus, rfl, rfl, rfl⟩, fun _ => rfl, fun c h1 h2 => by omega⟩
  revert hw
  cases mapper kind o n buf s with
  | ok k t => exact fun h => h.2.2.elim
  | error e t =>
    cases e with
    | raised e => exact fun h => .inr ⟨e, t, rfl, h.1, h.2.2⟩
    | fault f =>
      rintro ⟨blk, rfl, h⟩
      exact .inl ⟨blk, t, rfl, h⟩

end Sys2Proof.Laws
end

