-- ==== Sys2Proof/Laws/Session.lean ====
section
/-! SUPPORT. What INIT, CAPACITY and the bus side do does not depend on what `DIVISOR` and `SECTOR_COUNT` hold (10_state.md
R32, R33; 93_implementation_defined.md I1). -/

namespace Sys2Proof.Laws

open Sys2Proof.Machine

variable {α β : Type}

/-- The state with these session registers. -/
def withSession (d : U32) (c : U64) (s : State) : State := { s with divisor := d, sectorCount := c }

/-- `t'` is `t` but for the session registers, and each of them is as in `t`, or unwritten since `s` and since its given
value. -/
def SessionApart (d : U32) (c : U64) (s t t' : State) : Prop :=
  ∃ d' c', t' = withSession d' c' t ∧ (d' = t.divisor ∨ (t.divisor = s.divisor ∧ d' = d)) ∧
    (c' = t.sectorCount ∨ (t.sectorCount = s.sectorCount ∧ c' = c))

theorem SessionApart.same {d : U32} {c : U64} {s t : State} (hd : t.divisor = s.divisor)
    (hc : t.sectorCount = s.sectorCount) : SessionApart d c s t (withSession d c t) :=
  ⟨d, c, rfl, .inr ⟨hd, rfl⟩, .inr ⟨hc, rfl⟩⟩

/-- One register after two runs: written in the second, written in the first only, or in neither. -/
theorem apart_trans {s t u d d' e : α} (h : d' = t ∨ (t = s ∧ d' = d)) (k : e = u ∨ (u = t ∧ e = d')) :
    e = u ∨ (u = s ∧ e = d) := by
  rcases k with k | ⟨rfl, rfl⟩
  · exact .inl k
  · exact h

theorem SessionApart.trans {d d' : U32} {c c' : U64} {s t u u' : State}
    (hd : d' = t.divisor ∨ (t.divisor = s.divisor ∧ d' = d))
    (hc : c' = t.sectorCount ∨ (t.sectorCount = s.sectorCount ∧ c' = c)) (h : SessionApart d' c' t u u') :
    SessionApart d c s u u' := by
  obtain ⟨a, b, rfl, ha, hb⟩ := h
  exact ⟨a, b, rfl, apart_trans hd ha, apart_trans hc hb⟩

/-- What `m` returns or raises, and every state but the two registers, are the same whatever the registers hold. -/
structure Oblivious (m : M α) : Prop where
  returns : ∀ {s t a} d c, m s = .ok a t → ∃ t', m (withSession d c s) = .ok a t' ∧ SessionApart d c s t t'
  raises : ∀ {s t e} d c, m s = .error (.raised e) t →
    ∃ t', m (withSession d c s) = .error (.raised e) t' ∧ SessionApart d c s t t'

/-- An update that reads neither register. -/
def Alike (f : State → State) : Prop := ∀ s d c, SessionApart d c s (f s) (f (withSession d c s))

theorem still {f : State → State} (h : ∀ s d c, f (withSession d c s) = withSession d c (f s) ∧
    (f s).divisor = s.divisor ∧ (f s).sectorCount = s.sectorCount) : Alike f := fun s d c => by
  rw [(h s d c).1]
  exact .same (h s d c).2.1 (h s d c).2.2

theorem divisorSet (v : U32) : Alike (State.setDivisor v) := fun _ _ c => ⟨v, c, rfl, .inl rfl, .inr ⟨rfl, rfl⟩⟩

theorem countSet (v : U64) : Alike (State.setSectorCount v) := fun _ d _ => ⟨d, v, rfl, .inr ⟨rfl, rfl⟩, .inl rfl⟩

namespace Oblivious

theorem pure (a : α) : Oblivious (pure a : M α) where
  returns d c h := by
    cases h
    exact ⟨_, rfl, .same rfl rfl⟩
  raises _ _ h := nomatch h

theorem raise (e : Err) : Oblivious (raise e : M α) where
  returns _ _ h := nomatch h
  raises d c h := by
    cases h
    exact ⟨_, rfl, .same rfl rfl⟩

theorem look {f : State → α} (hf : ∀ s d c, f (withSession d c s) = f s) : Oblivious (look f) where
  returns d c h := by
    cases h
    exact ⟨_, by rw [run_look, hf], .same rfl rfl⟩
  raises _ _ h := nomatch h

theorem update {f : State → State} (hf : Alike f) : Oblivious (update f) where
  returns d c h := by
    cases h
    exact ⟨_, rfl, hf _ d c⟩
  raises _ _ h := nomatch h

theorem write {f : State → State} (h : ∀ s d c, f (withSession d c s) = withSession d c (f s) ∧
    (f s).divisor = s.divisor ∧ (f s).sectorCount = s.sectorCount) : Oblivious (Machine.update f) := update (still h)

theorem bind {m : M α} {k : α → M β} (hm : Oblivious m) (hk : ∀ a, Oblivious (k a)) : Oblivious (m >>= k) where
  returns d c h := by
    obtain ⟨a, t, h1, h2⟩ := bind_eq_ok h
    obtain ⟨_, h3, d', c', rfl, hd, hc⟩ := hm.returns d c h1
    obtain ⟨u', h4, h5⟩ := (hk a).returns d' c' h2
    exact ⟨u', by rw [bind_ok h3, h4], h5.trans hd hc⟩
  raises {s _ _} d c h := by
    rw [run_bind] at h
    cases h1 : m s with
    | ok a t =>
      rw [h1] at h
      obtain ⟨_, h3, d', c', rfl, hd, hc⟩ := hm.returns d c h1
      obtain ⟨u', h4, h5⟩ := (hk a).raises d' c' h
      exact ⟨u', by rw [bind_ok h3, h4], h5.trans hd hc⟩
    | error e t =>
      rw [h1] at h
      cases h
      obtain ⟨u', h4, h5⟩ := hm.raises d c h1
      exact ⟨u', by rw [run_bind, h4], h5⟩

theorem ite {p : Prop} [Decidable p] {m n : M α} (hm : Oblivious m) (hn : Oblivious n) :
    Oblivious (if p then m else n) := by
  split
  · exact hm
  · exact hn

theorem onRaise {f : State → State} {m : M α} (hm : Oblivious m) (hf : Alike f) : Oblivious (onRaise f m) where
  returns {s t a} d c h := by
    unfold Machine.onRaise at h
    split at h
    · rename_i h1
      cases h
      obtain ⟨u', h4, h5⟩ := hm.returns d c h1
      exact ⟨u', onRaise_ok h4, h5⟩
    · cases h
    · cases h
  raises {s t e} d c h := by
    unfold Machine.onRaise at h
    split at h
    · cases h
    · rename_i h1
      cases h
      obtain ⟨_, h3, d', c', rfl, hd, hc⟩ := hm.raises d c h1
      exact ⟨_, onRaise_raised h3, (hf _ d' c').trans hd hc⟩
    · cases h

theorem busCall (b : BusCall) : Oblivious (busCall b) where
  returns {s _ _} d c h := by
    unfold Machine.busCall at h ⊢
    split at h
    · cases h
    · rename_i hb
      cases h
      exact ⟨_, if_neg hb, by cases b <;> exact .same rfl rfl⟩
  raises {s _ _} d c h := by
    unfold Machine.busCall at h
    split at h <;> cases h

theorem settleDuties : Alike settleDuties := fun s d c => by
  unfold Machine.settleDuties
  rw [show State.bufferSound (withSession d c s) = s.bufferSound from rfl]
  split <;> exact .same rfl rfl

theorem settled {m : M α} (hm : Oblivious m) : Oblivious (settled m) := by
  rw [settled_eq]
  exact (hm.onRaise settleDuties).bind fun a => (update settleDuties).bind fun _ => pure a

theorem settledFor {kind : MapKind} {m : M α} (hm : Oblivious m) : Oblivious (settledFor kind m) := by
  cases kind with
  | erase => exact hm
  | read | write => exact hm.settled

/-! ## The bus side, bring-up, INIT and CAPACITY -/

theorem sel (v : Bool) : Oblivious (sel v) := bind (look fun _ _ _ => rfl) fun _ => ite (pure ()) (busCall _)

theorem xfer (tx : Byte) : Oblivious (xfer tx) := bind (look fun _ _ _ => rfl) fun _ => (busCall _).bind fun _ => pure _

theorem sendAll (bs : List Byte) : Oblivious (sendAll bs) := by
  induction bs with
  | nil => exact pure ()
  | cons b bs ih => exact (xfer b).bind fun _ => ih

theorem frame (idx : CmdIndex) (arg : U32) (close : Byte) : Oblivious (frame idx arg close) :=
  bind (write fun _ _ _ => ⟨rfl, rfl, rfl⟩) fun _ => (sel true).bind fun _ => sendAll _

theorem pollLoop (fuel : Nat) : Oblivious (pollLoop fuel) := by
  induction fuel with
  | zero => exact bind (write fun _ _ _ => ⟨rfl, rfl, rfl⟩) fun _ => pure _
  | succ fuel ih =>
    refine bind (write fun _ _ _ => ⟨rfl, rfl, rfl⟩) fun _ => (xfer _).bind fun rx => ?_
    split
    · exact bind (write fun _ _ _ => ⟨rfl, rfl, rfl⟩) fun _ => pure _
    · exact ih

theorem poll : Oblivious poll :=
  bind (write fun _ _ _ => ⟨rfl, rfl, rfl⟩) fun _ => bind (look fun _ _ _ => rfl) fun n => pollLoop n

theorem release : Oblivious release := (sel false).bind fun _ => (xfer _).bind fun _ => pure ()

theorem command (idx : CmdIndex) (arg : U32) : Oblivious (command idx arg) :=
  bind (look fun _ _ _ => rfl) fun _ => (frame _ _ _).bind fun _ => poll.bind fun _ => release.bind fun _ => pure _

theorem commandNoDeselect (idx : CmdIndex) (arg : U32) : Oblivious (commandNoDeselect idx arg) := by
  refine bind (look fun _ _ _ => rfl) fun _ => (frame _ _ _).bind fun _ => poll.bind fun r => ?_
  cases r with
  | timeout => exact release.bind fun _ => pure _
  | r1 f => exact pure _

theorem trailingByte : Oblivious trailingByte := bind (write fun _ _ _ => ⟨rfl, rfl, rfl⟩) fun _ => xfer _

theorem trailingBytes : Oblivious trailingBytes :=
  bind (write fun _ _ _ => ⟨rfl, rfl, rfl⟩) fun _ => trailingByte.bind fun _ => trailingByte.bind fun _ =>
    trailingByte.bind fun _ => trailingByte.bind fun _ => pure _

theorem probeInterfaceCondition : Oblivious probeInterfaceCondition := by
  refine bind (look fun _ _ _ => rfl) fun _ => (frame _ _ _).bind fun _ => poll.bind fun r => ?_
  cases r with
  | timeout => exact release.bind fun _ => pure _
  | r1 f => exact trailingBytes.bind fun _ => release.bind fun _ => pure _

theorem readOcr : Oblivious readOperatingConditionRegister := by
  refine bind (look fun _ _ _ => rfl) fun _ => (frame _ _ _).bind fun _ => poll.bind fun r => ?_
  cases r with
  | timeout => exact release.bind fun _ => bind (look fun _ _ _ => rfl) fun _ => pure _
  | r1 f =>
    exact trailingBytes.bind fun _ => bind (write fun _ _ _ => ⟨rfl, rfl, rfl⟩) fun _ => release.bind fun _ =>
      bind (look fun _ _ _ => rfl) fun _ => pure _

theorem tokenLoop (fuel : Nat) : Oblivious (tokenLoop fuel) := by
  induction fuel with
  | zero => exact pure _
  | succ fuel ih =>
    exact bind (write fun _ _ _ => ⟨rfl, rfl, rfl⟩) fun _ => (xfer _).bind fun _ =>
      ite (bind (write fun _ _ _ => ⟨rfl, rfl, rfl⟩) fun _ => pure _) ih

theorem tokenPoll : Oblivious tokenPoll :=
  bind (write fun _ _ _ => ⟨rfl, rfl, rfl⟩) fun _ => bind (write fun _ _ _ => ⟨rfl, rfl, rfl⟩) fun _ =>
    bind (look fun _ _ _ => rfl) fun n => tokenLoop n

theorem setBufferByte (dst : DataBuffer) (k : Nat) (b : Byte) : Oblivious (Machine.update (State.setBufferByte dst k b)) := by
  cases dst <;> exact write fun _ _ _ => ⟨rfl, rfl, rfl⟩

theorem receivePayload (dst : DataBuffer) (fuel k : Nat) : Oblivious (receivePayload dst fuel k) := by
  induction fuel generalizing k with
  | zero => exact pure _
  | succ fuel ih =>
    exact (xfer _).bind fun rx => (setBufferByte dst k rx).bind fun _ =>
      bind (write fun _ _ _ => ⟨rfl, rfl, rfl⟩) fun _ => ih (k + 1)

theorem checksumBytes : Oblivious checksumBytes := (xfer _).bind fun _ => (xfer _).bind fun _ => pure _

theorem readData (n : Nat) (dst : DataBuffer) : Oblivious (readData n dst) :=
  (sel true).bind fun _ => tokenPoll.bind fun _ =>
    ite (bind (write fun _ _ _ => ⟨rfl, rfl, rfl⟩) fun _ => (receivePayload dst n 0).bind fun _ =>
      checksumBytes.bind fun _ =>
      release)
      (release.bind fun _ => raise _)

theorem requireReady (r : Resp) : Oblivious (requireReady r) := by
  cases r with
  | timeout => exact raise _
  | r1 f => exact ite (pure _) (release.bind fun _ => raise _)

theorem freeVector_withSession (n : Nat) (s : State) (d : U32) (c : U64) :
    State.freeVector n (withSession d c s) = s.freeVector n := by
  unfold State.freeVector
  rfl

theorem freeScratch : Alike State.freeScratch := still fun s d c =>
  ⟨by unfold State.freeScratch; rw [freeVector_withSession]; rfl, rfl, rfl⟩

theorem freeCsd : Alike State.freeCsd := still fun s d c =>
  ⟨by unfold State.freeCsd; rw [freeVector_withSession]; rfl, rfl, rfl⟩

theorem freeBuffer (dst : DataBuffer) : Alike (State.freeBuffer dst) := by
  cases dst with
  | csd => exact freeCsd
  | scratch => exact freeScratch

theorem readBlockFrom (a : U32) : Oblivious (readBlockFrom a) :=
  onRaise ((commandNoDeselect 17 a).bind fun r => (requireReady r).bind fun _ => readData 512 .scratch) freeScratch

theorem checkDataResponse : Oblivious checkDataResponse :=
  (xfer _).bind fun _ => bind (write fun _ _ _ => ⟨rfl, rfl, rfl⟩) fun _ =>
    ite (pure _) ((sel false).bind fun _ => raise _)

theorem busyLoop (fuel : Nat) : Oblivious (busyLoop fuel) := by
  induction fuel with
  | zero => exact release.bind fun _ => raise _
  | succ fuel ih => exact bind (write fun _ _ _ => ⟨rfl, rfl, rfl⟩) fun _ => (xfer _).bind fun rx => ite ih (pure _)

theorem waitNotBusy : Oblivious waitNotBusy := bind (write fun _ _ _ => ⟨rfl, rfl, rfl⟩) fun _ =>
    bind (look fun _ _ _ => rfl) fun n => busyLoop n

theorem gapLoop (fuel : Nat) : Oblivious (gapLoop fuel) := by
  induction fuel with
  | zero => exact pure _
  | succ fuel ih => exact bind (write fun _ _ _ => ⟨rfl, rfl, rfl⟩) fun _ => (xfer _).bind fun _ => ih

theorem sendPayload (bs : List Byte) : Oblivious (sendPayload bs) := by
  induction bs with
  | nil => exact pure _
  | cons b bs ih => exact (xfer b).bind fun _ => bind (write fun _ _ _ => ⟨rfl, rfl, rfl⟩) fun _ => ih

theorem writeBlockTo (a : U32) : Oblivious (writeBlockTo a) :=
  onRaise
    ((commandNoDeselect 24 a).bind fun r => (requireReady r).bind fun _ => (sel true).bind fun _ =>
      bind (write fun _ _ _ => ⟨rfl, rfl, rfl⟩) fun _ => bind (look fun _ _ _ => rfl) fun n => (gapLoop n).bind fun _ =>
        (xfer _).bind fun _ => bind (write fun _ _ _ => ⟨rfl, rfl, rfl⟩) fun _ =>
        bind (look fun _ _ _ => rfl) fun bs => (sendPayload bs).bind fun _ => checksumBytes.bind fun _ =>
          checkDataResponse.bind fun _ =>
          waitNotBusy.bind fun _ => release)
    freeScratch

theorem readCSD : Oblivious readCSD :=
  onRaise ((commandNoDeselect 9 0).bind fun r => (requireReady r).bind fun _ => readData 16 .csd) freeCsd

/-! ## Bring-up and INIT -/

theorem failBringUp (e : Err) : Oblivious (failBringUp e) := bind (write fun _ _ _ => ⟨rfl, rfl, rfl⟩) fun _ => raise _

theorem resetLoop (fuel : Nat) : Oblivious (resetLoop fuel) := by
  induction fuel with
  | zero => exact pure _
  | succ fuel ih => exact bind (write fun _ _ _ => ⟨rfl, rfl, rfl⟩) fun _ => (command 0 0).bind fun _ => ih

theorem acmd41 (arg : U32) : Oblivious (acmd41 arg) := (command 55 0).bind fun _ => command 41 arg

theorem v1Loop (fuel : Nat) : Oblivious (v1Loop fuel) := by
  induction fuel with
  | zero => exact failBringUp _
  | succ fuel ih =>
    exact bind (write fun _ _ _ => ⟨rfl, rfl, rfl⟩) fun _ => (acmd41 0).bind fun _ =>
      ite (bind (update (divisorSet 512)) fun _ => write fun _ _ _ => ⟨rfl, rfl, rfl⟩) ih

theorem v2Loop (fuel : Nat) : Oblivious (v2Loop fuel) := by
  induction fuel with
  | zero => exact failBringUp _
  | succ fuel ih =>
    have hrest : ∀ hcs : U32, Oblivious (do
        let r ← Machine.acmd41 hcs
        if r = r1Ready then do
          let _ ← readOperatingConditionRegister
          Machine.update (State.setDivisor 1)
          Machine.update (State.setBr .ready)
        else Machine.v2Loop fuel) := fun hcs =>
      (acmd41 hcs).bind fun _ => ite (readOcr.bind fun _ => bind (update (divisorSet 1)) fun _ =>
        write fun _ _ _ => ⟨rfl, rfl, rfl⟩) ih
    refine bind (write fun _ _ _ => ⟨rfl, rfl, rfl⟩) fun _ => bind (look fun _ _ _ => rfl) fun k => ?_
    split
    · exact bind (look fun _ _ _ => rfl) fun ms => (busCall (.wait ms)).bind fun _ => readOcr.bind fun _ =>
      bind (look fun _ _ _ => rfl) fun hcs => hrest hcs
    · exact readOcr.bind fun _ => bind (look fun _ _ _ => rfl) fun hcs => hrest hcs

theorem versionProbe : Oblivious versionProbe :=
  probeInterfaceCondition.bind fun _ =>
    ite (bind (write fun _ _ _ => ⟨rfl, rfl, rfl⟩) fun _ => bind (write fun _ _ _ => ⟨rfl, rfl, rfl⟩) fun _ =>
      bind (look fun _ _ _ => rfl) fun n => v2Loop n)
      (ite (bind (write fun _ _ _ => ⟨rfl, rfl, rfl⟩) fun _ => bind (write fun _ _ _ => ⟨rfl, rfl, rfl⟩) fun _ =>
        bind (look fun _ _ _ => rfl) fun n => v1Loop n) (failBringUp _))

theorem bringUp : Oblivious bringUp :=
  bind (write fun _ _ _ => ⟨rfl, rfl, rfl⟩) fun _ => bind (write fun _ _ _ => ⟨rfl, rfl, rfl⟩) fun _ =>
    bind (look fun _ _ _ => rfl) fun n =>
    (resetLoop n).bind fun _ => (command 0 0).bind fun _ =>
    ite (bind (write fun _ _ _ => ⟨rfl, rfl, rfl⟩) fun _ => versionProbe) (failBringUp _)

theorem refreshSectorCount : Oblivious refreshSectorCount :=
  bind (look fun _ _ _ => rfl) fun _ => ite (bind (update (countSet _)) fun _ => pure _) (raise _)

theorem initOp : Oblivious initOp :=
  bind (write fun _ _ _ => ⟨rfl, rfl, rfl⟩) fun _ => bringUp.bind fun _ => readCSD.bind fun _ =>
    refreshSectorCount.bind fun _ =>
    (command 16 512).bind fun r => (show Oblivious (requireBlockLength r) from ite (pure _) (raise _)).bind fun _ =>
      bind (write fun _ _ _ => ⟨rfl, rfl, rfl⟩) fun _ => pure _

theorem capacityOp : Oblivious capacityOp := readCSD.bind fun _ => refreshSectorCount.bind fun _ => pure _

theorem errorExit (e : Err) : Alike (State.errorExit e) := by
  intro s d c
  unfold State.errorExit
  rw [show (withSession d c s).top = s.top from rfl]
  rcases s.top with _ | op
  · exact .same rfl rfl
  · cases op with
    | init => exact ⟨_, _, rfl, .inl rfl, .inl rfl⟩
    | read => by_cases he : e.isIo = true <;> simp only [he] <;> exact .same rfl rfl
    | write | erase | capacity | status => exact .same rfl rfl

/-- A request that reads neither register completes alike, whatever they hold. -/
theorem serve {op : HostOp} {m : M Completion} {s t : State} (hm : Oblivious m) (d : U32) (c : U64)
    (h : serve op m s = .next t) : ∃ t', Machine.serve op m (withSession d c s) = .next t' ∧ SessionApart d c s t t' := by
  unfold Machine.serve at h ⊢
  split at h
  case isFalse => cases h
  rename_i ht
  rw [if_pos (show (withSession d c s).top = .idle from ht)]
  rw [show (withSession d c s).accept op = withSession d c (s.accept op) from rfl]
  split at h
  · rename_i hu
    cases h
    obtain ⟨_, h1, d', c', rfl, hd, hc⟩ := hm.returns d c hu
    rw [h1]
    exact ⟨_, rfl, d', c', rfl, hd, hc⟩
  · rename_i e u hu
    cases h
    obtain ⟨_, h1, d', c', rfl, hd, hc⟩ := hm.raises d c hu
    rw [h1]
    exact ⟨_, rfl, SessionApart.trans (s := s) hd hc (errorExit e u d' c')⟩
  · cases h

end Oblivious

/-- READ, WRITE and ERASE in a closed session (R252): the request is turned away. -/
theorem rangeOp_closed {kind : MapKind} {o n : U64} {buf : Nat} {s : State} (h : s.initialized = false) :
    rangeOp kind o n buf s = (do
      update (State.setReq ⟨o, n, buf⟩)
      settledFor kind (raise .notInitialized : M Completion)) s := by
  unfold rangeOp
  rw [update_bind, look_bind, update_bind]
  exact congrFun (if_neg (by rw [show (s.setReq ⟨o, n, buf⟩).initialized = false from h]; decide)) _

theorem serve_congr {op : HostOp} {m m' : M Completion} {s : State} (h : m (s.accept op) = m' (s.accept op)) :
    serve op m s = serve op m' s := by
  unfold serve
  rw [h]

/-- Such a request completes alike, whatever the session registers hold. -/
theorem serve_closed {op : HostOp} {kind : MapKind} {o n : U64} {buf : Nat} {s t : State} (hi : s.initialized = false)
    (d : U32) (c : U64) (h : serve op (rangeOp kind o n buf) s = .next t) :
    ∃ t', serve op (rangeOp kind o n buf) (withSession d c s) = .next t' ∧ SessionApart d c s t t' := by
  rw [serve_congr (rangeOp_closed hi)] at h
  rw [serve_congr (rangeOp_closed (s := (withSession d c s).accept op) hi)]
  exact Oblivious.serve (.bind (.write (f := State.setReq ⟨o, n, buf⟩) fun _ _ _ => ⟨rfl, rfl, rfl⟩) fun _ =>
    (Oblivious.raise _).settledFor) d c h

end Sys2Proof.Laws
end

