-- ==== Sys2Proof/Laws/State.lean ====
section
/-! SUPPORT. One lemma per field per update of the state, so that no proof unfolds a record update. -/

namespace Sys2Proof.Machine.State

variable (s : State)

@[simp] theorem setInitialized_initialized (v : Bool) : (s.setInitialized v).initialized = v := rfl
@[simp] theorem setInitialized_divisor (v : Bool) : (s.setInitialized v).divisor = s.divisor := rfl
@[simp] theorem setInitialized_sectorCount (v : Bool) : (s.setInitialized v).sectorCount = s.sectorCount := rfl
@[simp] theorem setInitialized_cmdIdx (v : Bool) : (s.setInitialized v).cmdIdx = s.cmdIdx := rfl
@[simp] theorem setInitialized_cmdArg (v : Bool) : (s.setInitialized v).cmdArg = s.cmdArg := rfl
@[simp] theorem setInitialized_resp (v : Bool) : (s.setInitialized v).resp = s.resp := rfl
@[simp] theorem setInitialized_ocr (v : Bool) : (s.setInitialized v).ocr = s.ocr := rfl
@[simp] theorem setInitialized_csd (v : Bool) : (s.setInitialized v).csd = s.csd := rfl
@[simp] theorem setInitialized_scratch (v : Bool) : (s.setInitialized v).scratch = s.scratch := rfl
@[simp] theorem setInitialized_map (v : Bool) : (s.setInitialized v).map = s.map := rfl
@[simp] theorem setInitialized_loops (v : Bool) : (s.setInitialized v).loops = s.loops := rfl
@[simp] theorem setInitialized_found (v : Bool) : (s.setInitialized v).found = s.found := rfl
@[simp] theorem setInitialized_drt (v : Bool) : (s.setInitialized v).drt = s.drt := rfl
@[simp] theorem setInitialized_completion (v : Bool) : (s.setInitialized v).completion = s.completion := rfl
@[simp] theorem setInitialized_cfg (v : Bool) : (s.setInitialized v).cfg = s.cfg := rfl
@[simp] theorem setInitialized_top (v : Bool) : (s.setInitialized v).top = s.top := rfl
@[simp] theorem setInitialized_br (v : Bool) : (s.setInitialized v).br = s.br := rfl
@[simp] theorem setInitialized_position (v : Bool) : (s.setInitialized v).position = s.position := rfl
@[simp] theorem setInitialized_pending (v : Bool) : (s.setInitialized v).pending = s.pending := rfl
@[simp] theorem setInitialized_sel (v : Bool) : (s.setInitialized v).sel = s.sel := rfl
@[simp] theorem setInitialized_req (v : Bool) : (s.setInitialized v).req = s.req := rfl
@[simp] theorem setInitialized_mem (v : Bool) : (s.setInitialized v).mem = s.mem := rfl
@[simp] theorem setInitialized_trace (v : Bool) : (s.setInitialized v).trace = s.trace := rfl
@[simp] theorem setInitialized_inbox (v : Bool) : (s.setInitialized v).inbox = s.inbox := rfl
@[simp] theorem setInitialized_script (v : Bool) : (s.setInitialized v).script = s.script := rfl
@[simp] theorem setInitialized_draws (v : Bool) : (s.setInitialized v).draws = s.draws := rfl
@[simp] theorem setInitialized_busAnswers (v : Bool) : (s.setInitialized v).busAnswers = s.busAnswers := rfl
@[simp] theorem setInitialized_hostKeepsDuties (v : Bool) : (s.setInitialized v).hostKeepsDuties = s.hostKeepsDuties := rfl
@[simp] theorem setInitialized_result (v : Bool) : (s.setInitialized v).result = s.result := rfl

@[simp] theorem setDivisor_initialized (v : U32) : (s.setDivisor v).initialized = s.initialized := rfl
@[simp] theorem setDivisor_divisor (v : U32) : (s.setDivisor v).divisor = v := rfl
@[simp] theorem setDivisor_sectorCount (v : U32) : (s.setDivisor v).sectorCount = s.sectorCount := rfl
@[simp] theorem setDivisor_cmdIdx (v : U32) : (s.setDivisor v).cmdIdx = s.cmdIdx := rfl
@[simp] theorem setDivisor_cmdArg (v : U32) : (s.setDivisor v).cmdArg = s.cmdArg := rfl
@[simp] theorem setDivisor_resp (v : U32) : (s.setDivisor v).resp = s.resp := rfl
@[simp] theorem setDivisor_ocr (v : U32) : (s.setDivisor v).ocr = s.ocr := rfl
@[simp] theorem setDivisor_csd (v : U32) : (s.setDivisor v).csd = s.csd := rfl
@[simp] theorem setDivisor_scratch (v : U32) : (s.setDivisor v).scratch = s.scratch := rfl
@[simp] theorem setDivisor_map (v : U32) : (s.setDivisor v).map = s.map := rfl
@[simp] theorem setDivisor_loops (v : U32) : (s.setDivisor v).loops = s.loops := rfl
@[simp] theorem setDivisor_found (v : U32) : (s.setDivisor v).found = s.found := rfl
@[simp] theorem setDivisor_drt (v : U32) : (s.setDivisor v).drt = s.drt := rfl
@[simp] theorem setDivisor_completion (v : U32) : (s.setDivisor v).completion = s.completion := rfl
@[simp] theorem setDivisor_cfg (v : U32) : (s.setDivisor v).cfg = s.cfg := rfl
@[simp] theorem setDivisor_top (v : U32) : (s.setDivisor v).top = s.top := rfl
@[simp] theorem setDivisor_br (v : U32) : (s.setDivisor v).br = s.br := rfl
@[simp] theorem setDivisor_position (v : U32) : (s.setDivisor v).position = s.position := rfl
@[simp] theorem setDivisor_pending (v : U32) : (s.setDivisor v).pending = s.pending := rfl
@[simp] theorem setDivisor_sel (v : U32) : (s.setDivisor v).sel = s.sel := rfl
@[simp] theorem setDivisor_req (v : U32) : (s.setDivisor v).req = s.req := rfl
@[simp] theorem setDivisor_mem (v : U32) : (s.setDivisor v).mem = s.mem := rfl
@[simp] theorem setDivisor_trace (v : U32) : (s.setDivisor v).trace = s.trace := rfl
@[simp] theorem setDivisor_inbox (v : U32) : (s.setDivisor v).inbox = s.inbox := rfl
@[simp] theorem setDivisor_script (v : U32) : (s.setDivisor v).script = s.script := rfl
@[simp] theorem setDivisor_draws (v : U32) : (s.setDivisor v).draws = s.draws := rfl
@[simp] theorem setDivisor_busAnswers (v : U32) : (s.setDivisor v).busAnswers = s.busAnswers := rfl
@[simp] theorem setDivisor_hostKeepsDuties (v : U32) : (s.setDivisor v).hostKeepsDuties = s.hostKeepsDuties := rfl
@[simp] theorem setDivisor_result (v : U32) : (s.setDivisor v).result = s.result := rfl

@[simp] theorem setSectorCount_initialized (v : U64) : (s.setSectorCount v).initialized = s.initialized := rfl
@[simp] theorem setSectorCount_divisor (v : U64) : (s.setSectorCount v).divisor = s.divisor := rfl
@[simp] theorem setSectorCount_sectorCount (v : U64) : (s.setSectorCount v).sectorCount = v := rfl
@[simp] theorem setSectorCount_cmdIdx (v : U64) : (s.setSectorCount v).cmdIdx = s.cmdIdx := rfl
@[simp] theorem setSectorCount_cmdArg (v : U64) : (s.setSectorCount v).cmdArg = s.cmdArg := rfl
@[simp] theorem setSectorCount_resp (v : U64) : (s.setSectorCount v).resp = s.resp := rfl
@[simp] theorem setSectorCount_ocr (v : U64) : (s.setSectorCount v).ocr = s.ocr := rfl
@[simp] theorem setSectorCount_csd (v : U64) : (s.setSectorCount v).csd = s.csd := rfl
@[simp] theorem setSectorCount_scratch (v : U64) : (s.setSectorCount v).scratch = s.scratch := rfl
@[simp] theorem setSectorCount_map (v : U64) : (s.setSectorCount v).map = s.map := rfl
@[simp] theorem setSectorCount_loops (v : U64) : (s.setSectorCount v).loops = s.loops := rfl
@[simp] theorem setSectorCount_found (v : U64) : (s.setSectorCount v).found = s.found := rfl
@[simp] theorem setSectorCount_drt (v : U64) : (s.setSectorCount v).drt = s.drt := rfl
@[simp] theorem setSectorCount_completion (v : U64) : (s.setSectorCount v).completion = s.completion := rfl
@[simp] theorem setSectorCount_cfg (v : U64) : (s.setSectorCount v).cfg = s.cfg := rfl
@[simp] theorem setSectorCount_top (v : U64) : (s.setSectorCount v).top = s.top := rfl
@[simp] theorem setSectorCount_br (v : U64) : (s.setSectorCount v).br = s.br := rfl
@[simp] theorem setSectorCount_position (v : U64) : (s.setSectorCount v).position = s.position := rfl
@[simp] theorem setSectorCount_pending (v : U64) : (s.setSectorCount v).pending = s.pending := rfl
@[simp] theorem setSectorCount_sel (v : U64) : (s.setSectorCount v).sel = s.sel := rfl
@[simp] theorem setSectorCount_req (v : U64) : (s.setSectorCount v).req = s.req := rfl
@[simp] theorem setSectorCount_mem (v : U64) : (s.setSectorCount v).mem = s.mem := rfl
@[simp] theorem setSectorCount_trace (v : U64) : (s.setSectorCount v).trace = s.trace := rfl
@[simp] theorem setSectorCount_inbox (v : U64) : (s.setSectorCount v).inbox = s.inbox := rfl
@[simp] theorem setSectorCount_script (v : U64) : (s.setSectorCount v).script = s.script := rfl
@[simp] theorem setSectorCount_draws (v : U64) : (s.setSectorCount v).draws = s.draws := rfl
@[simp] theorem setSectorCount_busAnswers (v : U64) : (s.setSectorCount v).busAnswers = s.busAnswers := rfl
@[simp] theorem setSectorCount_hostKeepsDuties (v : U64) : (s.setSectorCount v).hostKeepsDuties = s.hostKeepsDuties := rfl
@[simp] theorem setSectorCount_result (v : U64) : (s.setSectorCount v).result = s.result := rfl

@[simp] theorem setCommand_initialized (idx : CmdIndex) (arg : U32) : (s.setCommand idx arg).initialized = s.initialized := rfl
@[simp] theorem setCommand_divisor (idx : CmdIndex) (arg : U32) : (s.setCommand idx arg).divisor = s.divisor := rfl
@[simp] theorem setCommand_sectorCount (idx : CmdIndex) (arg : U32) : (s.setCommand idx arg).sectorCount = s.sectorCount := rfl
@[simp] theorem setCommand_cmdIdx (idx : CmdIndex) (arg : U32) : (s.setCommand idx arg).cmdIdx = idx := rfl
@[simp] theorem setCommand_cmdArg (idx : CmdIndex) (arg : U32) : (s.setCommand idx arg).cmdArg = arg := rfl
@[simp] theorem setCommand_resp (idx : CmdIndex) (arg : U32) : (s.setCommand idx arg).resp = s.resp := rfl
@[simp] theorem setCommand_ocr (idx : CmdIndex) (arg : U32) : (s.setCommand idx arg).ocr = s.ocr := rfl
@[simp] theorem setCommand_csd (idx : CmdIndex) (arg : U32) : (s.setCommand idx arg).csd = s.csd := rfl
@[simp] theorem setCommand_scratch (idx : CmdIndex) (arg : U32) : (s.setCommand idx arg).scratch = s.scratch := rfl
@[simp] theorem setCommand_map (idx : CmdIndex) (arg : U32) : (s.setCommand idx arg).map = s.map := rfl
@[simp] theorem setCommand_loops (idx : CmdIndex) (arg : U32) : (s.setCommand idx arg).loops = s.loops := rfl
@[simp] theorem setCommand_found (idx : CmdIndex) (arg : U32) : (s.setCommand idx arg).found = s.found := rfl
@[simp] theorem setCommand_drt (idx : CmdIndex) (arg : U32) : (s.setCommand idx arg).drt = s.drt := rfl
@[simp] theorem setCommand_completion (idx : CmdIndex) (arg : U32) : (s.setCommand idx arg).completion = s.completion := rfl
@[simp] theorem setCommand_cfg (idx : CmdIndex) (arg : U32) : (s.setCommand idx arg).cfg = s.cfg := rfl
@[simp] theorem setCommand_top (idx : CmdIndex) (arg : U32) : (s.setCommand idx arg).top = s.top := rfl
@[simp] theorem setCommand_br (idx : CmdIndex) (arg : U32) : (s.setCommand idx arg).br = s.br := rfl
@[simp] theorem setCommand_position (idx : CmdIndex) (arg : U32) : (s.setCommand idx arg).position = s.position := rfl
@[simp] theorem setCommand_pending (idx : CmdIndex) (arg : U32) : (s.setCommand idx arg).pending = s.pending := rfl
@[simp] theorem setCommand_sel (idx : CmdIndex) (arg : U32) : (s.setCommand idx arg).sel = s.sel := rfl
@[simp] theorem setCommand_req (idx : CmdIndex) (arg : U32) : (s.setCommand idx arg).req = s.req := rfl
@[simp] theorem setCommand_mem (idx : CmdIndex) (arg : U32) : (s.setCommand idx arg).mem = s.mem := rfl
@[simp] theorem setCommand_trace (idx : CmdIndex) (arg : U32) : (s.setCommand idx arg).trace = s.trace := rfl
@[simp] theorem setCommand_inbox (idx : CmdIndex) (arg : U32) : (s.setCommand idx arg).inbox = s.inbox := rfl
@[simp] theorem setCommand_script (idx : CmdIndex) (arg : U32) : (s.setCommand idx arg).script = s.script := rfl
@[simp] theorem setCommand_draws (idx : CmdIndex) (arg : U32) : (s.setCommand idx arg).draws = s.draws := rfl
@[simp] theorem setCommand_busAnswers (idx : CmdIndex) (arg : U32) : (s.setCommand idx arg).busAnswers = s.busAnswers := rfl
@[simp] theorem setCommand_hostKeepsDuties (idx : CmdIndex) (arg : U32) : (s.setCommand idx arg).hostKeepsDuties = s.hostKeepsDuties := rfl
@[simp] theorem setCommand_result (idx : CmdIndex) (arg : U32) : (s.setCommand idx arg).result = s.result := rfl

@[simp] theorem setResp_initialized (v : Resp) : (s.setResp v).initialized = s.initialized := rfl
@[simp] theorem setResp_divisor (v : Resp) : (s.setResp v).divisor = s.divisor := rfl
@[simp] theorem setResp_sectorCount (v : Resp) : (s.setResp v).sectorCount = s.sectorCount := rfl
@[simp] theorem setResp_cmdIdx (v : Resp) : (s.setResp v).cmdIdx = s.cmdIdx := rfl
@[simp] theorem setResp_cmdArg (v : Resp) : (s.setResp v).cmdArg = s.cmdArg := rfl
@[simp] theorem setResp_resp (v : Resp) : (s.setResp v).resp = v := rfl
@[simp] theorem setResp_ocr (v : Resp) : (s.setResp v).ocr = s.ocr := rfl
@[simp] theorem setResp_csd (v : Resp) : (s.setResp v).csd = s.csd := rfl
@[simp] theorem setResp_scratch (v : Resp) : (s.setResp v).scratch = s.scratch := rfl
@[simp] theorem setResp_map (v : Resp) : (s.setResp v).map = s.map := rfl
@[simp] theorem setResp_loops (v : Resp) : (s.setResp v).loops = s.loops := rfl
@[simp] theorem setResp_found (v : Resp) : (s.setResp v).found = s.found := rfl
@[simp] theorem setResp_drt (v : Resp) : (s.setResp v).drt = s.drt := rfl
@[simp] theorem setResp_completion (v : Resp) : (s.setResp v).completion = s.completion := rfl
@[simp] theorem setResp_cfg (v : Resp) : (s.setResp v).cfg = s.cfg := rfl
@[simp] theorem setResp_top (v : Resp) : (s.setResp v).top = s.top := rfl
@[simp] theorem setResp_br (v : Resp) : (s.setResp v).br = s.br := rfl
@[simp] theorem setResp_position (v : Resp) : (s.setResp v).position = s.position := rfl
@[simp] theorem setResp_pending (v : Resp) : (s.setResp v).pending = s.pending := rfl
@[simp] theorem setResp_sel (v : Resp) : (s.setResp v).sel = s.sel := rfl
@[simp] theorem setResp_req (v : Resp) : (s.setResp v).req = s.req := rfl
@[simp] theorem setResp_mem (v : Resp) : (s.setResp v).mem = s.mem := rfl
@[simp] theorem setResp_trace (v : Resp) : (s.setResp v).trace = s.trace := rfl
@[simp] theorem setResp_inbox (v : Resp) : (s.setResp v).inbox = s.inbox := rfl
@[simp] theorem setResp_script (v : Resp) : (s.setResp v).script = s.script := rfl
@[simp] theorem setResp_draws (v : Resp) : (s.setResp v).draws = s.draws := rfl
@[simp] theorem setResp_busAnswers (v : Resp) : (s.setResp v).busAnswers = s.busAnswers := rfl
@[simp] theorem setResp_hostKeepsDuties (v : Resp) : (s.setResp v).hostKeepsDuties = s.hostKeepsDuties := rfl
@[simp] theorem setResp_result (v : Resp) : (s.setResp v).result = s.result := rfl

@[simp] theorem setOcr_initialized (v : U32) : (s.setOcr v).initialized = s.initialized := rfl
@[simp] theorem setOcr_divisor (v : U32) : (s.setOcr v).divisor = s.divisor := rfl
@[simp] theorem setOcr_sectorCount (v : U32) : (s.setOcr v).sectorCount = s.sectorCount := rfl
@[simp] theorem setOcr_cmdIdx (v : U32) : (s.setOcr v).cmdIdx = s.cmdIdx := rfl
@[simp] theorem setOcr_cmdArg (v : U32) : (s.setOcr v).cmdArg = s.cmdArg := rfl
@[simp] theorem setOcr_resp (v : U32) : (s.setOcr v).resp = s.resp := rfl
@[simp] theorem setOcr_ocr (v : U32) : (s.setOcr v).ocr = v := rfl
@[simp] theorem setOcr_csd (v : U32) : (s.setOcr v).csd = s.csd := rfl
@[simp] theorem setOcr_scratch (v : U32) : (s.setOcr v).scratch = s.scratch := rfl
@[simp] theorem setOcr_map (v : U32) : (s.setOcr v).map = s.map := rfl
@[simp] theorem setOcr_loops (v : U32) : (s.setOcr v).loops = s.loops := rfl
@[simp] theorem setOcr_found (v : U32) : (s.setOcr v).found = s.found := rfl
@[simp] theorem setOcr_drt (v : U32) : (s.setOcr v).drt = s.drt := rfl
@[simp] theorem setOcr_completion (v : U32) : (s.setOcr v).completion = s.completion := rfl
@[simp] theorem setOcr_cfg (v : U32) : (s.setOcr v).cfg = s.cfg := rfl
@[simp] theorem setOcr_top (v : U32) : (s.setOcr v).top = s.top := rfl
@[simp] theorem setOcr_br (v : U32) : (s.setOcr v).br = s.br := rfl
@[simp] theorem setOcr_position (v : U32) : (s.setOcr v).position = s.position := rfl
@[simp] theorem setOcr_pending (v : U32) : (s.setOcr v).pending = s.pending := rfl
@[simp] theorem setOcr_sel (v : U32) : (s.setOcr v).sel = s.sel := rfl
@[simp] theorem setOcr_req (v : U32) : (s.setOcr v).req = s.req := rfl
@[simp] theorem setOcr_mem (v : U32) : (s.setOcr v).mem = s.mem := rfl
@[simp] theorem setOcr_trace (v : U32) : (s.setOcr v).trace = s.trace := rfl
@[simp] theorem setOcr_inbox (v : U32) : (s.setOcr v).inbox = s.inbox := rfl
@[simp] theorem setOcr_script (v : U32) : (s.setOcr v).script = s.script := rfl
@[simp] theorem setOcr_draws (v : U32) : (s.setOcr v).draws = s.draws := rfl
@[simp] theorem setOcr_busAnswers (v : U32) : (s.setOcr v).busAnswers = s.busAnswers := rfl
@[simp] theorem setOcr_hostKeepsDuties (v : U32) : (s.setOcr v).hostKeepsDuties = s.hostKeepsDuties := rfl
@[simp] theorem setOcr_result (v : U32) : (s.setOcr v).result = s.result := rfl

@[simp] theorem setCsd_initialized (v : Vector Byte 16) : (s.setCsd v).initialized = s.initialized := rfl
@[simp] theorem setCsd_divisor (v : Vector Byte 16) : (s.setCsd v).divisor = s.divisor := rfl
@[simp] theorem setCsd_sectorCount (v : Vector Byte 16) : (s.setCsd v).sectorCount = s.sectorCount := rfl
@[simp] theorem setCsd_cmdIdx (v : Vector Byte 16) : (s.setCsd v).cmdIdx = s.cmdIdx := rfl
@[simp] theorem setCsd_cmdArg (v : Vector Byte 16) : (s.setCsd v).cmdArg = s.cmdArg := rfl
@[simp] theorem setCsd_resp (v : Vector Byte 16) : (s.setCsd v).resp = s.resp := rfl
@[simp] theorem setCsd_ocr (v : Vector Byte 16) : (s.setCsd v).ocr = s.ocr := rfl
@[simp] theorem setCsd_csd (v : Vector Byte 16) : (s.setCsd v).csd = v := rfl
@[simp] theorem setCsd_scratch (v : Vector Byte 16) : (s.setCsd v).scratch = s.scratch := rfl
@[simp] theorem setCsd_map (v : Vector Byte 16) : (s.setCsd v).map = s.map := rfl
@[simp] theorem setCsd_loops (v : Vector Byte 16) : (s.setCsd v).loops = s.loops := rfl
@[simp] theorem setCsd_found (v : Vector Byte 16) : (s.setCsd v).found = s.found := rfl
@[simp] theorem setCsd_drt (v : Vector Byte 16) : (s.setCsd v).drt = s.drt := rfl
@[simp] theorem setCsd_completion (v : Vector Byte 16) : (s.setCsd v).completion = s.completion := rfl
@[simp] theorem setCsd_cfg (v : Vector Byte 16) : (s.setCsd v).cfg = s.cfg := rfl
@[simp] theorem setCsd_top (v : Vector Byte 16) : (s.setCsd v).top = s.top := rfl
@[simp] theorem setCsd_br (v : Vector Byte 16) : (s.setCsd v).br = s.br := rfl
@[simp] theorem setCsd_position (v : Vector Byte 16) : (s.setCsd v).position = s.position := rfl
@[simp] theorem setCsd_pending (v : Vector Byte 16) : (s.setCsd v).pending = s.pending := rfl
@[simp] theorem setCsd_sel (v : Vector Byte 16) : (s.setCsd v).sel = s.sel := rfl
@[simp] theorem setCsd_req (v : Vector Byte 16) : (s.setCsd v).req = s.req := rfl
@[simp] theorem setCsd_mem (v : Vector Byte 16) : (s.setCsd v).mem = s.mem := rfl
@[simp] theorem setCsd_trace (v : Vector Byte 16) : (s.setCsd v).trace = s.trace := rfl
@[simp] theorem setCsd_inbox (v : Vector Byte 16) : (s.setCsd v).inbox = s.inbox := rfl
@[simp] theorem setCsd_script (v : Vector Byte 16) : (s.setCsd v).script = s.script := rfl
@[simp] theorem setCsd_draws (v : Vector Byte 16) : (s.setCsd v).draws = s.draws := rfl
@[simp] theorem setCsd_busAnswers (v : Vector Byte 16) : (s.setCsd v).busAnswers = s.busAnswers := rfl
@[simp] theorem setCsd_hostKeepsDuties (v : Vector Byte 16) : (s.setCsd v).hostKeepsDuties = s.hostKeepsDuties := rfl
@[simp] theorem setCsd_result (v : Vector Byte 16) : (s.setCsd v).result = s.result := rfl

@[simp] theorem setScratch_initialized (v : Vector Byte 512) : (s.setScratch v).initialized = s.initialized := rfl
@[simp] theorem setScratch_divisor (v : Vector Byte 512) : (s.setScratch v).divisor = s.divisor := rfl
@[simp] theorem setScratch_sectorCount (v : Vector Byte 512) : (s.setScratch v).sectorCount = s.sectorCount := rfl
@[simp] theorem setScratch_cmdIdx (v : Vector Byte 512) : (s.setScratch v).cmdIdx = s.cmdIdx := rfl
@[simp] theorem setScratch_cmdArg (v : Vector Byte 512) : (s.setScratch v).cmdArg = s.cmdArg := rfl
@[simp] theorem setScratch_resp (v : Vector Byte 512) : (s.setScratch v).resp = s.resp := rfl
@[simp] theorem setScratch_ocr (v : Vector Byte 512) : (s.setScratch v).ocr = s.ocr := rfl
@[simp] theorem setScratch_csd (v : Vector Byte 512) : (s.setScratch v).csd = s.csd := rfl
@[simp] theorem setScratch_scratch (v : Vector Byte 512) : (s.setScratch v).scratch = v := rfl
@[simp] theorem setScratch_map (v : Vector Byte 512) : (s.setScratch v).map = s.map := rfl
@[simp] theorem setScratch_loops (v : Vector Byte 512) : (s.setScratch v).loops = s.loops := rfl
@[simp] theorem setScratch_found (v : Vector Byte 512) : (s.setScratch v).found = s.found := rfl
@[simp] theorem setScratch_drt (v : Vector Byte 512) : (s.setScratch v).drt = s.drt := rfl
@[simp] theorem setScratch_completion (v : Vector Byte 512) : (s.setScratch v).completion = s.completion := rfl
@[simp] theorem setScratch_cfg (v : Vector Byte 512) : (s.setScratch v).cfg = s.cfg := rfl
@[simp] theorem setScratch_top (v : Vector Byte 512) : (s.setScratch v).top = s.top := rfl
@[simp] theorem setScratch_br (v : Vector Byte 512) : (s.setScratch v).br = s.br := rfl
@[simp] theorem setScratch_position (v : Vector Byte 512) : (s.setScratch v).position = s.position := rfl
@[simp] theorem setScratch_pending (v : Vector Byte 512) : (s.setScratch v).pending = s.pending := rfl
@[simp] theorem setScratch_sel (v : Vector Byte 512) : (s.setScratch v).sel = s.sel := rfl
@[simp] theorem setScratch_req (v : Vector Byte 512) : (s.setScratch v).req = s.req := rfl
@[simp] theorem setScratch_mem (v : Vector Byte 512) : (s.setScratch v).mem = s.mem := rfl
@[simp] theorem setScratch_trace (v : Vector Byte 512) : (s.setScratch v).trace = s.trace := rfl
@[simp] theorem setScratch_inbox (v : Vector Byte 512) : (s.setScratch v).inbox = s.inbox := rfl
@[simp] theorem setScratch_script (v : Vector Byte 512) : (s.setScratch v).script = s.script := rfl
@[simp] theorem setScratch_draws (v : Vector Byte 512) : (s.setScratch v).draws = s.draws := rfl
@[simp] theorem setScratch_busAnswers (v : Vector Byte 512) : (s.setScratch v).busAnswers = s.busAnswers := rfl
@[simp] theorem setScratch_hostKeepsDuties (v : Vector Byte 512) : (s.setScratch v).hostKeepsDuties = s.hostKeepsDuties := rfl
@[simp] theorem setScratch_result (v : Vector Byte 512) : (s.setScratch v).result = s.result := rfl

@[simp] theorem setMap_initialized (v : MapperRegs) : (s.setMap v).initialized = s.initialized := rfl
@[simp] theorem setMap_divisor (v : MapperRegs) : (s.setMap v).divisor = s.divisor := rfl
@[simp] theorem setMap_sectorCount (v : MapperRegs) : (s.setMap v).sectorCount = s.sectorCount := rfl
@[simp] theorem setMap_cmdIdx (v : MapperRegs) : (s.setMap v).cmdIdx = s.cmdIdx := rfl
@[simp] theorem setMap_cmdArg (v : MapperRegs) : (s.setMap v).cmdArg = s.cmdArg := rfl
@[simp] theorem setMap_resp (v : MapperRegs) : (s.setMap v).resp = s.resp := rfl
@[simp] theorem setMap_ocr (v : MapperRegs) : (s.setMap v).ocr = s.ocr := rfl
@[simp] theorem setMap_csd (v : MapperRegs) : (s.setMap v).csd = s.csd := rfl
@[simp] theorem setMap_scratch (v : MapperRegs) : (s.setMap v).scratch = s.scratch := rfl
@[simp] theorem setMap_map (v : MapperRegs) : (s.setMap v).map = v := rfl
@[simp] theorem setMap_loops (v : MapperRegs) : (s.setMap v).loops = s.loops := rfl
@[simp] theorem setMap_found (v : MapperRegs) : (s.setMap v).found = s.found := rfl
@[simp] theorem setMap_drt (v : MapperRegs) : (s.setMap v).drt = s.drt := rfl
@[simp] theorem setMap_completion (v : MapperRegs) : (s.setMap v).completion = s.completion := rfl
@[simp] theorem setMap_cfg (v : MapperRegs) : (s.setMap v).cfg = s.cfg := rfl
@[simp] theorem setMap_top (v : MapperRegs) : (s.setMap v).top = s.top := rfl
@[simp] theorem setMap_br (v : MapperRegs) : (s.setMap v).br = s.br := rfl
@[simp] theorem setMap_position (v : MapperRegs) : (s.setMap v).position = s.position := rfl
@[simp] theorem setMap_pending (v : MapperRegs) : (s.setMap v).pending = s.pending := rfl
@[simp] theorem setMap_sel (v : MapperRegs) : (s.setMap v).sel = s.sel := rfl
@[simp] theorem setMap_req (v : MapperRegs) : (s.setMap v).req = s.req := rfl
@[simp] theorem setMap_mem (v : MapperRegs) : (s.setMap v).mem = s.mem := rfl
@[simp] theorem setMap_trace (v : MapperRegs) : (s.setMap v).trace = s.trace := rfl
@[simp] theorem setMap_inbox (v : MapperRegs) : (s.setMap v).inbox = s.inbox := rfl
@[simp] theorem setMap_script (v : MapperRegs) : (s.setMap v).script = s.script := rfl
@[simp] theorem setMap_draws (v : MapperRegs) : (s.setMap v).draws = s.draws := rfl
@[simp] theorem setMap_busAnswers (v : MapperRegs) : (s.setMap v).busAnswers = s.busAnswers := rfl
@[simp] theorem setMap_hostKeepsDuties (v : MapperRegs) : (s.setMap v).hostKeepsDuties = s.hostKeepsDuties := rfl
@[simp] theorem setMap_result (v : MapperRegs) : (s.setMap v).result = s.result := rfl

@[simp] theorem setLoops_initialized (v : LoopCounters) : (s.setLoops v).initialized = s.initialized := rfl
@[simp] theorem setLoops_divisor (v : LoopCounters) : (s.setLoops v).divisor = s.divisor := rfl
@[simp] theorem setLoops_sectorCount (v : LoopCounters) : (s.setLoops v).sectorCount = s.sectorCount := rfl
@[simp] theorem setLoops_cmdIdx (v : LoopCounters) : (s.setLoops v).cmdIdx = s.cmdIdx := rfl
@[simp] theorem setLoops_cmdArg (v : LoopCounters) : (s.setLoops v).cmdArg = s.cmdArg := rfl
@[simp] theorem setLoops_resp (v : LoopCounters) : (s.setLoops v).resp = s.resp := rfl
@[simp] theorem setLoops_ocr (v : LoopCounters) : (s.setLoops v).ocr = s.ocr := rfl
@[simp] theorem setLoops_csd (v : LoopCounters) : (s.setLoops v).csd = s.csd := rfl
@[simp] theorem setLoops_scratch (v : LoopCounters) : (s.setLoops v).scratch = s.scratch := rfl
@[simp] theorem setLoops_map (v : LoopCounters) : (s.setLoops v).map = s.map := rfl
@[simp] theorem setLoops_loops (v : LoopCounters) : (s.setLoops v).loops = v := rfl
@[simp] theorem setLoops_found (v : LoopCounters) : (s.setLoops v).found = s.found := rfl
@[simp] theorem setLoops_drt (v : LoopCounters) : (s.setLoops v).drt = s.drt := rfl
@[simp] theorem setLoops_completion (v : LoopCounters) : (s.setLoops v).completion = s.completion := rfl
@[simp] theorem setLoops_cfg (v : LoopCounters) : (s.setLoops v).cfg = s.cfg := rfl
@[simp] theorem setLoops_top (v : LoopCounters) : (s.setLoops v).top = s.top := rfl
@[simp] theorem setLoops_br (v : LoopCounters) : (s.setLoops v).br = s.br := rfl
@[simp] theorem setLoops_position (v : LoopCounters) : (s.setLoops v).position = s.position := rfl
@[simp] theorem setLoops_pending (v : LoopCounters) : (s.setLoops v).pending = s.pending := rfl
@[simp] theorem setLoops_sel (v : LoopCounters) : (s.setLoops v).sel = s.sel := rfl
@[simp] theorem setLoops_req (v : LoopCounters) : (s.setLoops v).req = s.req := rfl
@[simp] theorem setLoops_mem (v : LoopCounters) : (s.setLoops v).mem = s.mem := rfl
@[simp] theorem setLoops_trace (v : LoopCounters) : (s.setLoops v).trace = s.trace := rfl
@[simp] theorem setLoops_inbox (v : LoopCounters) : (s.setLoops v).inbox = s.inbox := rfl
@[simp] theorem setLoops_script (v : LoopCounters) : (s.setLoops v).script = s.script := rfl
@[simp] theorem setLoops_draws (v : LoopCounters) : (s.setLoops v).draws = s.draws := rfl
@[simp] theorem setLoops_busAnswers (v : LoopCounters) : (s.setLoops v).busAnswers = s.busAnswers := rfl
@[simp] theorem setLoops_hostKeepsDuties (v : LoopCounters) : (s.setLoops v).hostKeepsDuties = s.hostKeepsDuties := rfl
@[simp] theorem setLoops_result (v : LoopCounters) : (s.setLoops v).result = s.result := rfl

@[simp] theorem setFound_initialized (v : Bool) : (s.setFound v).initialized = s.initialized := rfl
@[simp] theorem setFound_divisor (v : Bool) : (s.setFound v).divisor = s.divisor := rfl
@[simp] theorem setFound_sectorCount (v : Bool) : (s.setFound v).sectorCount = s.sectorCount := rfl
@[simp] theorem setFound_cmdIdx (v : Bool) : (s.setFound v).cmdIdx = s.cmdIdx := rfl
@[simp] theorem setFound_cmdArg (v : Bool) : (s.setFound v).cmdArg = s.cmdArg := rfl
@[simp] theorem setFound_resp (v : Bool) : (s.setFound v).resp = s.resp := rfl
@[simp] theorem setFound_ocr (v : Bool) : (s.setFound v).ocr = s.ocr := rfl
@[simp] theorem setFound_csd (v : Bool) : (s.setFound v).csd = s.csd := rfl
@[simp] theorem setFound_scratch (v : Bool) : (s.setFound v).scratch = s.scratch := rfl
@[simp] theorem setFound_map (v : Bool) : (s.setFound v).map = s.map := rfl
@[simp] theorem setFound_loops (v : Bool) : (s.setFound v).loops = s.loops := rfl
@[simp] theorem setFound_found (v : Bool) : (s.setFound v).found = v := rfl
@[simp] theorem setFound_drt (v : Bool) : (s.setFound v).drt = s.drt := rfl
@[simp] theorem setFound_completion (v : Bool) : (s.setFound v).completion = s.completion := rfl
@[simp] theorem setFound_cfg (v : Bool) : (s.setFound v).cfg = s.cfg := rfl
@[simp] theorem setFound_top (v : Bool) : (s.setFound v).top = s.top := rfl
@[simp] theorem setFound_br (v : Bool) : (s.setFound v).br = s.br := rfl
@[simp] theorem setFound_position (v : Bool) : (s.setFound v).position = s.position := rfl
@[simp] theorem setFound_pending (v : Bool) : (s.setFound v).pending = s.pending := rfl
@[simp] theorem setFound_sel (v : Bool) : (s.setFound v).sel = s.sel := rfl
@[simp] theorem setFound_req (v : Bool) : (s.setFound v).req = s.req := rfl
@[simp] theorem setFound_mem (v : Bool) : (s.setFound v).mem = s.mem := rfl
@[simp] theorem setFound_trace (v : Bool) : (s.setFound v).trace = s.trace := rfl
@[simp] theorem setFound_inbox (v : Bool) : (s.setFound v).inbox = s.inbox := rfl
@[simp] theorem setFound_script (v : Bool) : (s.setFound v).script = s.script := rfl
@[simp] theorem setFound_draws (v : Bool) : (s.setFound v).draws = s.draws := rfl
@[simp] theorem setFound_busAnswers (v : Bool) : (s.setFound v).busAnswers = s.busAnswers := rfl
@[simp] theorem setFound_hostKeepsDuties (v : Bool) : (s.setFound v).hostKeepsDuties = s.hostKeepsDuties := rfl
@[simp] theorem setFound_result (v : Bool) : (s.setFound v).result = s.result := rfl

@[simp] theorem setDrt_initialized (v : Byte) : (s.setDrt v).initialized = s.initialized := rfl
@[simp] theorem setDrt_divisor (v : Byte) : (s.setDrt v).divisor = s.divisor := rfl
@[simp] theorem setDrt_sectorCount (v : Byte) : (s.setDrt v).sectorCount = s.sectorCount := rfl
@[simp] theorem setDrt_cmdIdx (v : Byte) : (s.setDrt v).cmdIdx = s.cmdIdx := rfl
@[simp] theorem setDrt_cmdArg (v : Byte) : (s.setDrt v).cmdArg = s.cmdArg := rfl
@[simp] theorem setDrt_resp (v : Byte) : (s.setDrt v).resp = s.resp := rfl
@[simp] theorem setDrt_ocr (v : Byte) : (s.setDrt v).ocr = s.ocr := rfl
@[simp] theorem setDrt_csd (v : Byte) : (s.setDrt v).csd = s.csd := rfl
@[simp] theorem setDrt_scratch (v : Byte) : (s.setDrt v).scratch = s.scratch := rfl
@[simp] theorem setDrt_map (v : Byte) : (s.setDrt v).map = s.map := rfl
@[simp] theorem setDrt_loops (v : Byte) : (s.setDrt v).loops = s.loops := rfl
@[simp] theorem setDrt_found (v : Byte) : (s.setDrt v).found = s.found := rfl
@[simp] theorem setDrt_drt (v : Byte) : (s.setDrt v).drt = v := rfl
@[simp] theorem setDrt_completion (v : Byte) : (s.setDrt v).completion = s.completion := rfl
@[simp] theorem setDrt_cfg (v : Byte) : (s.setDrt v).cfg = s.cfg := rfl
@[simp] theorem setDrt_top (v : Byte) : (s.setDrt v).top = s.top := rfl
@[simp] theorem setDrt_br (v : Byte) : (s.setDrt v).br = s.br := rfl
@[simp] theorem setDrt_position (v : Byte) : (s.setDrt v).position = s.position := rfl
@[simp] theorem setDrt_pending (v : Byte) : (s.setDrt v).pending = s.pending := rfl
@[simp] theorem setDrt_sel (v : Byte) : (s.setDrt v).sel = s.sel := rfl
@[simp] theorem setDrt_req (v : Byte) : (s.setDrt v).req = s.req := rfl
@[simp] theorem setDrt_mem (v : Byte) : (s.setDrt v).mem = s.mem := rfl
@[simp] theorem setDrt_trace (v : Byte) : (s.setDrt v).trace = s.trace := rfl
@[simp] theorem setDrt_inbox (v : Byte) : (s.setDrt v).inbox = s.inbox := rfl
@[simp] theorem setDrt_script (v : Byte) : (s.setDrt v).script = s.script := rfl
@[simp] theorem setDrt_draws (v : Byte) : (s.setDrt v).draws = s.draws := rfl
@[simp] theorem setDrt_busAnswers (v : Byte) : (s.setDrt v).busAnswers = s.busAnswers := rfl
@[simp] theorem setDrt_hostKeepsDuties (v : Byte) : (s.setDrt v).hostKeepsDuties = s.hostKeepsDuties := rfl
@[simp] theorem setDrt_result (v : Byte) : (s.setDrt v).result = s.result := rfl

@[simp] theorem setBr_initialized (v : BringUpState) : (s.setBr v).initialized = s.initialized := rfl
@[simp] theorem setBr_divisor (v : BringUpState) : (s.setBr v).divisor = s.divisor := rfl
@[simp] theorem setBr_sectorCount (v : BringUpState) : (s.setBr v).sectorCount = s.sectorCount := rfl
@[simp] theorem setBr_cmdIdx (v : BringUpState) : (s.setBr v).cmdIdx = s.cmdIdx := rfl
@[simp] theorem setBr_cmdArg (v : BringUpState) : (s.setBr v).cmdArg = s.cmdArg := rfl
@[simp] theorem setBr_resp (v : BringUpState) : (s.setBr v).resp = s.resp := rfl
@[simp] theorem setBr_ocr (v : BringUpState) : (s.setBr v).ocr = s.ocr := rfl
@[simp] theorem setBr_csd (v : BringUpState) : (s.setBr v).csd = s.csd := rfl
@[simp] theorem setBr_scratch (v : BringUpState) : (s.setBr v).scratch = s.scratch := rfl
@[simp] theorem setBr_map (v : BringUpState) : (s.setBr v).map = s.map := rfl
@[simp] theorem setBr_loops (v : BringUpState) : (s.setBr v).loops = s.loops := rfl
@[simp] theorem setBr_found (v : BringUpState) : (s.setBr v).found = s.found := rfl
@[simp] theorem setBr_drt (v : BringUpState) : (s.setBr v).drt = s.drt := rfl
@[simp] theorem setBr_completion (v : BringUpState) : (s.setBr v).completion = s.completion := rfl
@[simp] theorem setBr_cfg (v : BringUpState) : (s.setBr v).cfg = s.cfg := rfl
@[simp] theorem setBr_top (v : BringUpState) : (s.setBr v).top = s.top := rfl
@[simp] theorem setBr_br (v : BringUpState) : (s.setBr v).br = v := rfl
@[simp] theorem setBr_position (v : BringUpState) : (s.setBr v).position = s.position := rfl
@[simp] theorem setBr_pending (v : BringUpState) : (s.setBr v).pending = s.pending := rfl
@[simp] theorem setBr_sel (v : BringUpState) : (s.setBr v).sel = s.sel := rfl
@[simp] theorem setBr_req (v : BringUpState) : (s.setBr v).req = s.req := rfl
@[simp] theorem setBr_mem (v : BringUpState) : (s.setBr v).mem = s.mem := rfl
@[simp] theorem setBr_trace (v : BringUpState) : (s.setBr v).trace = s.trace := rfl
@[simp] theorem setBr_inbox (v : BringUpState) : (s.setBr v).inbox = s.inbox := rfl
@[simp] theorem setBr_script (v : BringUpState) : (s.setBr v).script = s.script := rfl
@[simp] theorem setBr_draws (v : BringUpState) : (s.setBr v).draws = s.draws := rfl
@[simp] theorem setBr_busAnswers (v : BringUpState) : (s.setBr v).busAnswers = s.busAnswers := rfl
@[simp] theorem setBr_hostKeepsDuties (v : BringUpState) : (s.setBr v).hostKeepsDuties = s.hostKeepsDuties := rfl
@[simp] theorem setBr_result (v : BringUpState) : (s.setBr v).result = s.result := rfl

@[simp] theorem setReq_initialized (v : Request) : (s.setReq v).initialized = s.initialized := rfl
@[simp] theorem setReq_divisor (v : Request) : (s.setReq v).divisor = s.divisor := rfl
@[simp] theorem setReq_sectorCount (v : Request) : (s.setReq v).sectorCount = s.sectorCount := rfl
@[simp] theorem setReq_cmdIdx (v : Request) : (s.setReq v).cmdIdx = s.cmdIdx := rfl
@[simp] theorem setReq_cmdArg (v : Request) : (s.setReq v).cmdArg = s.cmdArg := rfl
@[simp] theorem setReq_resp (v : Request) : (s.setReq v).resp = s.resp := rfl
@[simp] theorem setReq_ocr (v : Request) : (s.setReq v).ocr = s.ocr := rfl
@[simp] theorem setReq_csd (v : Request) : (s.setReq v).csd = s.csd := rfl
@[simp] theorem setReq_scratch (v : Request) : (s.setReq v).scratch = s.scratch := rfl
@[simp] theorem setReq_map (v : Request) : (s.setReq v).map = s.map := rfl
@[simp] theorem setReq_loops (v : Request) : (s.setReq v).loops = s.loops := rfl
@[simp] theorem setReq_found (v : Request) : (s.setReq v).found = s.found := rfl
@[simp] theorem setReq_drt (v : Request) : (s.setReq v).drt = s.drt := rfl
@[simp] theorem setReq_completion (v : Request) : (s.setReq v).completion = s.completion := rfl
@[simp] theorem setReq_cfg (v : Request) : (s.setReq v).cfg = s.cfg := rfl
@[simp] theorem setReq_top (v : Request) : (s.setReq v).top = s.top := rfl
@[simp] theorem setReq_br (v : Request) : (s.setReq v).br = s.br := rfl
@[simp] theorem setReq_position (v : Request) : (s.setReq v).position = s.position := rfl
@[simp] theorem setReq_pending (v : Request) : (s.setReq v).pending = s.pending := rfl
@[simp] theorem setReq_sel (v : Request) : (s.setReq v).sel = s.sel := rfl
@[simp] theorem setReq_req (v : Request) : (s.setReq v).req = v := rfl
@[simp] theorem setReq_mem (v : Request) : (s.setReq v).mem = s.mem := rfl
@[simp] theorem setReq_trace (v : Request) : (s.setReq v).trace = s.trace := rfl
@[simp] theorem setReq_inbox (v : Request) : (s.setReq v).inbox = s.inbox := rfl
@[simp] theorem setReq_script (v : Request) : (s.setReq v).script = s.script := rfl
@[simp] theorem setReq_draws (v : Request) : (s.setReq v).draws = s.draws := rfl
@[simp] theorem setReq_busAnswers (v : Request) : (s.setReq v).busAnswers = s.busAnswers := rfl
@[simp] theorem setReq_hostKeepsDuties (v : Request) : (s.setReq v).hostKeepsDuties = s.hostKeepsDuties := rfl
@[simp] theorem setReq_result (v : Request) : (s.setReq v).result = s.result := rfl

@[simp] theorem setMem_initialized (v : Memory) : (s.setMem v).initialized = s.initialized := rfl
@[simp] theorem setMem_divisor (v : Memory) : (s.setMem v).divisor = s.divisor := rfl
@[simp] theorem setMem_sectorCount (v : Memory) : (s.setMem v).sectorCount = s.sectorCount := rfl
@[simp] theorem setMem_cmdIdx (v : Memory) : (s.setMem v).cmdIdx = s.cmdIdx := rfl
@[simp] theorem setMem_cmdArg (v : Memory) : (s.setMem v).cmdArg = s.cmdArg := rfl
@[simp] theorem setMem_resp (v : Memory) : (s.setMem v).resp = s.resp := rfl
@[simp] theorem setMem_ocr (v : Memory) : (s.setMem v).ocr = s.ocr := rfl
@[simp] theorem setMem_csd (v : Memory) : (s.setMem v).csd = s.csd := rfl
@[simp] theorem setMem_scratch (v : Memory) : (s.setMem v).scratch = s.scratch := rfl
@[simp] theorem setMem_map (v : Memory) : (s.setMem v).map = s.map := rfl
@[simp] theorem setMem_loops (v : Memory) : (s.setMem v).loops = s.loops := rfl
@[simp] theorem setMem_found (v : Memory) : (s.setMem v).found = s.found := rfl
@[simp] theorem setMem_drt (v : Memory) : (s.setMem v).drt = s.drt := rfl
@[simp] theorem setMem_completion (v : Memory) : (s.setMem v).completion = s.completion := rfl
@[simp] theorem setMem_cfg (v : Memory) : (s.setMem v).cfg = s.cfg := rfl
@[simp] theorem setMem_top (v : Memory) : (s.setMem v).top = s.top := rfl
@[simp] theorem setMem_br (v : Memory) : (s.setMem v).br = s.br := rfl
@[simp] theorem setMem_position (v : Memory) : (s.setMem v).position = s.position := rfl
@[simp] theorem setMem_pending (v : Memory) : (s.setMem v).pending = s.pending := rfl
@[simp] theorem setMem_sel (v : Memory) : (s.setMem v).sel = s.sel := rfl
@[simp] theorem setMem_req (v : Memory) : (s.setMem v).req = s.req := rfl
@[simp] theorem setMem_mem (v : Memory) : (s.setMem v).mem = v := rfl
@[simp] theorem setMem_trace (v : Memory) : (s.setMem v).trace = s.trace := rfl
@[simp] theorem setMem_inbox (v : Memory) : (s.setMem v).inbox = s.inbox := rfl
@[simp] theorem setMem_script (v : Memory) : (s.setMem v).script = s.script := rfl
@[simp] theorem setMem_draws (v : Memory) : (s.setMem v).draws = s.draws := rfl
@[simp] theorem setMem_busAnswers (v : Memory) : (s.setMem v).busAnswers = s.busAnswers := rfl
@[simp] theorem setMem_hostKeepsDuties (v : Memory) : (s.setMem v).hostKeepsDuties = s.hostKeepsDuties := rfl
@[simp] theorem setMem_result (v : Memory) : (s.setMem v).result = s.result := rfl

@[simp] theorem setResult_initialized (v : Result) : (s.setResult v).initialized = s.initialized := rfl
@[simp] theorem setResult_divisor (v : Result) : (s.setResult v).divisor = s.divisor := rfl
@[simp] theorem setResult_sectorCount (v : Result) : (s.setResult v).sectorCount = s.sectorCount := rfl
@[simp] theorem setResult_cmdIdx (v : Result) : (s.setResult v).cmdIdx = s.cmdIdx := rfl
@[simp] theorem setResult_cmdArg (v : Result) : (s.setResult v).cmdArg = s.cmdArg := rfl
@[simp] theorem setResult_resp (v : Result) : (s.setResult v).resp = s.resp := rfl
@[simp] theorem setResult_ocr (v : Result) : (s.setResult v).ocr = s.ocr := rfl
@[simp] theorem setResult_csd (v : Result) : (s.setResult v).csd = s.csd := rfl
@[simp] theorem setResult_scratch (v : Result) : (s.setResult v).scratch = s.scratch := rfl
@[simp] theorem setResult_map (v : Result) : (s.setResult v).map = s.map := rfl
@[simp] theorem setResult_loops (v : Result) : (s.setResult v).loops = s.loops := rfl
@[simp] theorem setResult_found (v : Result) : (s.setResult v).found = s.found := rfl
@[simp] theorem setResult_drt (v : Result) : (s.setResult v).drt = s.drt := rfl
@[simp] theorem setResult_completion (v : Result) : (s.setResult v).completion = s.completion := rfl
@[simp] theorem setResult_cfg (v : Result) : (s.setResult v).cfg = s.cfg := rfl
@[simp] theorem setResult_top (v : Result) : (s.setResult v).top = s.top := rfl
@[simp] theorem setResult_br (v : Result) : (s.setResult v).br = s.br := rfl
@[simp] theorem setResult_position (v : Result) : (s.setResult v).position = s.position := rfl
@[simp] theorem setResult_pending (v : Result) : (s.setResult v).pending = s.pending := rfl
@[simp] theorem setResult_sel (v : Result) : (s.setResult v).sel = s.sel := rfl
@[simp] theorem setResult_req (v : Result) : (s.setResult v).req = s.req := rfl
@[simp] theorem setResult_mem (v : Result) : (s.setResult v).mem = s.mem := rfl
@[simp] theorem setResult_trace (v : Result) : (s.setResult v).trace = s.trace := rfl
@[simp] theorem setResult_inbox (v : Result) : (s.setResult v).inbox = s.inbox := rfl
@[simp] theorem setResult_script (v : Result) : (s.setResult v).script = s.script := rfl
@[simp] theorem setResult_draws (v : Result) : (s.setResult v).draws = s.draws := rfl
@[simp] theorem setResult_busAnswers (v : Result) : (s.setResult v).busAnswers = s.busAnswers := rfl
@[simp] theorem setResult_hostKeepsDuties (v : Result) : (s.setResult v).hostKeepsDuties = s.hostKeepsDuties := rfl
@[simp] theorem setResult_result (v : Result) : (s.setResult v).result = v := rfl

@[simp] theorem driveSel_initialized (v : Bool) : (s.driveSel v).initialized = s.initialized := rfl
@[simp] theorem driveSel_divisor (v : Bool) : (s.driveSel v).divisor = s.divisor := rfl
@[simp] theorem driveSel_sectorCount (v : Bool) : (s.driveSel v).sectorCount = s.sectorCount := rfl
@[simp] theorem driveSel_cmdIdx (v : Bool) : (s.driveSel v).cmdIdx = s.cmdIdx := rfl
@[simp] theorem driveSel_cmdArg (v : Bool) : (s.driveSel v).cmdArg = s.cmdArg := rfl
@[simp] theorem driveSel_resp (v : Bool) : (s.driveSel v).resp = s.resp := rfl
@[simp] theorem driveSel_ocr (v : Bool) : (s.driveSel v).ocr = s.ocr := rfl
@[simp] theorem driveSel_csd (v : Bool) : (s.driveSel v).csd = s.csd := rfl
@[simp] theorem driveSel_scratch (v : Bool) : (s.driveSel v).scratch = s.scratch := rfl
@[simp] theorem driveSel_map (v : Bool) : (s.driveSel v).map = s.map := rfl
@[simp] theorem driveSel_loops (v : Bool) : (s.driveSel v).loops = s.loops := rfl
@[simp] theorem driveSel_found (v : Bool) : (s.driveSel v).found = s.found := rfl
@[simp] theorem driveSel_drt (v : Bool) : (s.driveSel v).drt = s.drt := rfl
@[simp] theorem driveSel_completion (v : Bool) : (s.driveSel v).completion = s.completion := rfl
@[simp] theorem driveSel_cfg (v : Bool) : (s.driveSel v).cfg = s.cfg := rfl
@[simp] theorem driveSel_top (v : Bool) : (s.driveSel v).top = s.top := rfl
@[simp] theorem driveSel_br (v : Bool) : (s.driveSel v).br = s.br := rfl
@[simp] theorem driveSel_position (v : Bool) : (s.driveSel v).position = s.position + 1 := rfl
@[simp] theorem driveSel_pending (v : Bool) : (s.driveSel v).pending = s.pending := rfl
@[simp] theorem driveSel_sel (v : Bool) : (s.driveSel v).sel = v := rfl
@[simp] theorem driveSel_req (v : Bool) : (s.driveSel v).req = s.req := rfl
@[simp] theorem driveSel_mem (v : Bool) : (s.driveSel v).mem = s.mem := rfl
@[simp] theorem driveSel_trace (v : Bool) : (s.driveSel v).trace = s.trace := rfl
@[simp] theorem driveSel_inbox (v : Bool) : (s.driveSel v).inbox = s.inbox := rfl
@[simp] theorem driveSel_script (v : Bool) : (s.driveSel v).script = s.script := rfl
@[simp] theorem driveSel_draws (v : Bool) : (s.driveSel v).draws = s.draws := rfl
@[simp] theorem driveSel_busAnswers (v : Bool) : (s.driveSel v).busAnswers = s.busAnswers := rfl
@[simp] theorem driveSel_hostKeepsDuties (v : Bool) : (s.driveSel v).hostKeepsDuties = s.hostKeepsDuties := rfl
@[simp] theorem driveSel_result (v : Bool) : (s.driveSel v).result = s.result := rfl

@[simp] theorem logExchange_initialized (tx rx : Byte) : (s.logExchange tx rx).initialized = s.initialized := rfl
@[simp] theorem logExchange_divisor (tx rx : Byte) : (s.logExchange tx rx).divisor = s.divisor := rfl
@[simp] theorem logExchange_sectorCount (tx rx : Byte) : (s.logExchange tx rx).sectorCount = s.sectorCount := rfl
@[simp] theorem logExchange_cmdIdx (tx rx : Byte) : (s.logExchange tx rx).cmdIdx = s.cmdIdx := rfl
@[simp] theorem logExchange_cmdArg (tx rx : Byte) : (s.logExchange tx rx).cmdArg = s.cmdArg := rfl
@[simp] theorem logExchange_resp (tx rx : Byte) : (s.logExchange tx rx).resp = s.resp := rfl
@[simp] theorem logExchange_ocr (tx rx : Byte) : (s.logExchange tx rx).ocr = s.ocr := rfl
@[simp] theorem logExchange_csd (tx rx : Byte) : (s.logExchange tx rx).csd = s.csd := rfl
@[simp] theorem logExchange_scratch (tx rx : Byte) : (s.logExchange tx rx).scratch = s.scratch := rfl
@[simp] theorem logExchange_map (tx rx : Byte) : (s.logExchange tx rx).map = s.map := rfl
@[simp] theorem logExchange_loops (tx rx : Byte) : (s.logExchange tx rx).loops = s.loops := rfl
@[simp] theorem logExchange_found (tx rx : Byte) : (s.logExchange tx rx).found = s.found := rfl
@[simp] theorem logExchange_drt (tx rx : Byte) : (s.logExchange tx rx).drt = s.drt := rfl
@[simp] theorem logExchange_completion (tx rx : Byte) : (s.logExchange tx rx).completion = s.completion := rfl
@[simp] theorem logExchange_cfg (tx rx : Byte) : (s.logExchange tx rx).cfg = s.cfg := rfl
@[simp] theorem logExchange_top (tx rx : Byte) : (s.logExchange tx rx).top = s.top := rfl
@[simp] theorem logExchange_br (tx rx : Byte) : (s.logExchange tx rx).br = s.br := rfl
@[simp] theorem logExchange_position (tx rx : Byte) : (s.logExchange tx rx).position = s.position + 1 := rfl
@[simp] theorem logExchange_pending (tx rx : Byte) : (s.logExchange tx rx).pending = s.pending := rfl
@[simp] theorem logExchange_sel (tx rx : Byte) : (s.logExchange tx rx).sel = s.sel := rfl
@[simp] theorem logExchange_req (tx rx : Byte) : (s.logExchange tx rx).req = s.req := rfl
@[simp] theorem logExchange_mem (tx rx : Byte) : (s.logExchange tx rx).mem = s.mem := rfl
@[simp] theorem logExchange_trace (tx rx : Byte) : (s.logExchange tx rx).trace = s.trace ++ [.exchange s.sel tx rx] := rfl
@[simp] theorem logExchange_inbox (tx rx : Byte) : (s.logExchange tx rx).inbox = s.inbox := rfl
@[simp] theorem logExchange_script (tx rx : Byte) : (s.logExchange tx rx).script = s.script := rfl
@[simp] theorem logExchange_draws (tx rx : Byte) : (s.logExchange tx rx).draws = s.draws := rfl
@[simp] theorem logExchange_busAnswers (tx rx : Byte) : (s.logExchange tx rx).busAnswers = s.busAnswers := rfl
@[simp] theorem logExchange_hostKeepsDuties (tx rx : Byte) : (s.logExchange tx rx).hostKeepsDuties = s.hostKeepsDuties := rfl
@[simp] theorem logExchange_result (tx rx : Byte) : (s.logExchange tx rx).result = s.result := rfl

@[simp] theorem logWait_initialized (ms : Nat) : (s.logWait ms).initialized = s.initialized := rfl
@[simp] theorem logWait_divisor (ms : Nat) : (s.logWait ms).divisor = s.divisor := rfl
@[simp] theorem logWait_sectorCount (ms : Nat) : (s.logWait ms).sectorCount = s.sectorCount := rfl
@[simp] theorem logWait_cmdIdx (ms : Nat) : (s.logWait ms).cmdIdx = s.cmdIdx := rfl
@[simp] theorem logWait_cmdArg (ms : Nat) : (s.logWait ms).cmdArg = s.cmdArg := rfl
@[simp] theorem logWait_resp (ms : Nat) : (s.logWait ms).resp = s.resp := rfl
@[simp] theorem logWait_ocr (ms : Nat) : (s.logWait ms).ocr = s.ocr := rfl
@[simp] theorem logWait_csd (ms : Nat) : (s.logWait ms).csd = s.csd := rfl
@[simp] theorem logWait_scratch (ms : Nat) : (s.logWait ms).scratch = s.scratch := rfl
@[simp] theorem logWait_map (ms : Nat) : (s.logWait ms).map = s.map := rfl
@[simp] theorem logWait_loops (ms : Nat) : (s.logWait ms).loops = s.loops := rfl
@[simp] theorem logWait_found (ms : Nat) : (s.logWait ms).found = s.found := rfl
@[simp] theorem logWait_drt (ms : Nat) : (s.logWait ms).drt = s.drt := rfl
@[simp] theorem logWait_completion (ms : Nat) : (s.logWait ms).completion = s.completion := rfl
@[simp] theorem logWait_cfg (ms : Nat) : (s.logWait ms).cfg = s.cfg := rfl
@[simp] theorem logWait_top (ms : Nat) : (s.logWait ms).top = s.top := rfl
@[simp] theorem logWait_br (ms : Nat) : (s.logWait ms).br = s.br := rfl
@[simp] theorem logWait_position (ms : Nat) : (s.logWait ms).position = s.position + 1 := rfl
@[simp] theorem logWait_pending (ms : Nat) : (s.logWait ms).pending = s.pending := rfl
@[simp] theorem logWait_sel (ms : Nat) : (s.logWait ms).sel = s.sel := rfl
@[simp] theorem logWait_req (ms : Nat) : (s.logWait ms).req = s.req := rfl
@[simp] theorem logWait_mem (ms : Nat) : (s.logWait ms).mem = s.mem := rfl
@[simp] theorem logWait_trace (ms : Nat) : (s.logWait ms).trace = s.trace ++ [.wait ms] := rfl
@[simp] theorem logWait_inbox (ms : Nat) : (s.logWait ms).inbox = s.inbox := rfl
@[simp] theorem logWait_script (ms : Nat) : (s.logWait ms).script = s.script := rfl
@[simp] theorem logWait_draws (ms : Nat) : (s.logWait ms).draws = s.draws := rfl
@[simp] theorem logWait_busAnswers (ms : Nat) : (s.logWait ms).busAnswers = s.busAnswers := rfl
@[simp] theorem logWait_hostKeepsDuties (ms : Nat) : (s.logWait ms).hostKeepsDuties = s.hostKeepsDuties := rfl
@[simp] theorem logWait_result (ms : Nat) : (s.logWait ms).result = s.result := rfl

@[simp] theorem dropReply_initialized : (s.dropReply).initialized = s.initialized := rfl
@[simp] theorem dropReply_divisor : (s.dropReply).divisor = s.divisor := rfl
@[simp] theorem dropReply_sectorCount : (s.dropReply).sectorCount = s.sectorCount := rfl
@[simp] theorem dropReply_cmdIdx : (s.dropReply).cmdIdx = s.cmdIdx := rfl
@[simp] theorem dropReply_cmdArg : (s.dropReply).cmdArg = s.cmdArg := rfl
@[simp] theorem dropReply_resp : (s.dropReply).resp = s.resp := rfl
@[simp] theorem dropReply_ocr : (s.dropReply).ocr = s.ocr := rfl
@[simp] theorem dropReply_csd : (s.dropReply).csd = s.csd := rfl
@[simp] theorem dropReply_scratch : (s.dropReply).scratch = s.scratch := rfl
@[simp] theorem dropReply_map : (s.dropReply).map = s.map := rfl
@[simp] theorem dropReply_loops : (s.dropReply).loops = s.loops := rfl
@[simp] theorem dropReply_found : (s.dropReply).found = s.found := rfl
@[simp] theorem dropReply_drt : (s.dropReply).drt = s.drt := rfl
@[simp] theorem dropReply_completion : (s.dropReply).completion = s.completion := rfl
@[simp] theorem dropReply_cfg : (s.dropReply).cfg = s.cfg := rfl
@[simp] theorem dropReply_top : (s.dropReply).top = s.top := rfl
@[simp] theorem dropReply_br : (s.dropReply).br = s.br := rfl
@[simp] theorem dropReply_position : (s.dropReply).position = s.position := rfl
@[simp] theorem dropReply_pending : (s.dropReply).pending = s.pending := rfl
@[simp] theorem dropReply_sel : (s.dropReply).sel = s.sel := rfl
@[simp] theorem dropReply_req : (s.dropReply).req = s.req := rfl
@[simp] theorem dropReply_mem : (s.dropReply).mem = s.mem := rfl
@[simp] theorem dropReply_trace : (s.dropReply).trace = s.trace := rfl
@[simp] theorem dropReply_inbox : (s.dropReply).inbox = s.inbox := rfl
@[simp] theorem dropReply_script : (s.dropReply).script = s.script.tail := rfl
@[simp] theorem dropReply_draws : (s.dropReply).draws = s.draws + if s.script.isEmpty then 1 else 0 := rfl
@[simp] theorem dropReply_busAnswers : (s.dropReply).busAnswers = s.busAnswers := rfl
@[simp] theorem dropReply_hostKeepsDuties : (s.dropReply).hostKeepsDuties = s.hostKeepsDuties := rfl
@[simp] theorem dropReply_result : (s.dropReply).result = s.result := rfl

@[simp] theorem spendAnswer_initialized : (s.spendAnswer).initialized = s.initialized := rfl
@[simp] theorem spendAnswer_divisor : (s.spendAnswer).divisor = s.divisor := rfl
@[simp] theorem spendAnswer_sectorCount : (s.spendAnswer).sectorCount = s.sectorCount := rfl
@[simp] theorem spendAnswer_cmdIdx : (s.spendAnswer).cmdIdx = s.cmdIdx := rfl
@[simp] theorem spendAnswer_cmdArg : (s.spendAnswer).cmdArg = s.cmdArg := rfl
@[simp] theorem spendAnswer_resp : (s.spendAnswer).resp = s.resp := rfl
@[simp] theorem spendAnswer_ocr : (s.spendAnswer).ocr = s.ocr := rfl
@[simp] theorem spendAnswer_csd : (s.spendAnswer).csd = s.csd := rfl
@[simp] theorem spendAnswer_scratch : (s.spendAnswer).scratch = s.scratch := rfl
@[simp] theorem spendAnswer_map : (s.spendAnswer).map = s.map := rfl
@[simp] theorem spendAnswer_loops : (s.spendAnswer).loops = s.loops := rfl
@[simp] theorem spendAnswer_found : (s.spendAnswer).found = s.found := rfl
@[simp] theorem spendAnswer_drt : (s.spendAnswer).drt = s.drt := rfl
@[simp] theorem spendAnswer_completion : (s.spendAnswer).completion = s.completion := rfl
@[simp] theorem spendAnswer_cfg : (s.spendAnswer).cfg = s.cfg := rfl
@[simp] theorem spendAnswer_top : (s.spendAnswer).top = s.top := rfl
@[simp] theorem spendAnswer_br : (s.spendAnswer).br = s.br := rfl
@[simp] theorem spendAnswer_position : (s.spendAnswer).position = s.position := rfl
@[simp] theorem spendAnswer_pending : (s.spendAnswer).pending = s.pending := rfl
@[simp] theorem spendAnswer_sel : (s.spendAnswer).sel = s.sel := rfl
@[simp] theorem spendAnswer_req : (s.spendAnswer).req = s.req := rfl
@[simp] theorem spendAnswer_mem : (s.spendAnswer).mem = s.mem := rfl
@[simp] theorem spendAnswer_trace : (s.spendAnswer).trace = s.trace := rfl
@[simp] theorem spendAnswer_inbox : (s.spendAnswer).inbox = s.inbox := rfl
@[simp] theorem spendAnswer_script : (s.spendAnswer).script = s.script := rfl
@[simp] theorem spendAnswer_draws : (s.spendAnswer).draws = s.draws := rfl
@[simp] theorem spendAnswer_busAnswers : (s.spendAnswer).busAnswers = s.busAnswers.map (· - 1) := rfl
@[simp] theorem spendAnswer_hostKeepsDuties : (s.spendAnswer).hostKeepsDuties = s.hostKeepsDuties := rfl
@[simp] theorem spendAnswer_result : (s.spendAnswer).result = s.result := rfl

@[simp] theorem freeCsd_initialized : (s.freeCsd).initialized = s.initialized := rfl
@[simp] theorem freeCsd_divisor : (s.freeCsd).divisor = s.divisor := rfl
@[simp] theorem freeCsd_sectorCount : (s.freeCsd).sectorCount = s.sectorCount := rfl
@[simp] theorem freeCsd_cmdIdx : (s.freeCsd).cmdIdx = s.cmdIdx := rfl
@[simp] theorem freeCsd_cmdArg : (s.freeCsd).cmdArg = s.cmdArg := rfl
@[simp] theorem freeCsd_resp : (s.freeCsd).resp = s.resp := rfl
@[simp] theorem freeCsd_ocr : (s.freeCsd).ocr = s.ocr := rfl
@[simp] theorem freeCsd_csd : (s.freeCsd).csd = s.freeVector 16 := rfl
@[simp] theorem freeCsd_scratch : (s.freeCsd).scratch = s.scratch := rfl
@[simp] theorem freeCsd_map : (s.freeCsd).map = s.map := rfl
@[simp] theorem freeCsd_loops : (s.freeCsd).loops = s.loops := rfl
@[simp] theorem freeCsd_found : (s.freeCsd).found = s.found := rfl
@[simp] theorem freeCsd_drt : (s.freeCsd).drt = s.drt := rfl
@[simp] theorem freeCsd_completion : (s.freeCsd).completion = s.completion := rfl
@[simp] theorem freeCsd_cfg : (s.freeCsd).cfg = s.cfg := rfl
@[simp] theorem freeCsd_top : (s.freeCsd).top = s.top := rfl
@[simp] theorem freeCsd_br : (s.freeCsd).br = s.br := rfl
@[simp] theorem freeCsd_position : (s.freeCsd).position = s.position := rfl
@[simp] theorem freeCsd_pending : (s.freeCsd).pending = s.pending := rfl
@[simp] theorem freeCsd_sel : (s.freeCsd).sel = s.sel := rfl
@[simp] theorem freeCsd_req : (s.freeCsd).req = s.req := rfl
@[simp] theorem freeCsd_mem : (s.freeCsd).mem = s.mem := rfl
@[simp] theorem freeCsd_trace : (s.freeCsd).trace = s.trace := rfl
@[simp] theorem freeCsd_inbox : (s.freeCsd).inbox = s.inbox := rfl
@[simp] theorem freeCsd_script : (s.freeCsd).script = s.script := rfl
@[simp] theorem freeCsd_draws : (s.freeCsd).draws = s.draws + 1 := rfl
@[simp] theorem freeCsd_busAnswers : (s.freeCsd).busAnswers = s.busAnswers := rfl
@[simp] theorem freeCsd_hostKeepsDuties : (s.freeCsd).hostKeepsDuties = s.hostKeepsDuties := rfl
@[simp] theorem freeCsd_result : (s.freeCsd).result = s.result := rfl

@[simp] theorem freeScratch_initialized : (s.freeScratch).initialized = s.initialized := rfl
@[simp] theorem freeScratch_divisor : (s.freeScratch).divisor = s.divisor := rfl
@[simp] theorem freeScratch_sectorCount : (s.freeScratch).sectorCount = s.sectorCount := rfl
@[simp] theorem freeScratch_cmdIdx : (s.freeScratch).cmdIdx = s.cmdIdx := rfl
@[simp] theorem freeScratch_cmdArg : (s.freeScratch).cmdArg = s.cmdArg := rfl
@[simp] theorem freeScratch_resp : (s.freeScratch).resp = s.resp := rfl
@[simp] theorem freeScratch_ocr : (s.freeScratch).ocr = s.ocr := rfl
@[simp] theorem freeScratch_csd : (s.freeScratch).csd = s.csd := rfl
@[simp] theorem freeScratch_scratch : (s.freeScratch).scratch = s.freeVector 512 := rfl
@[simp] theorem freeScratch_map : (s.freeScratch).map = s.map := rfl
@[simp] theorem freeScratch_loops : (s.freeScratch).loops = s.loops := rfl
@[simp] theorem freeScratch_found : (s.freeScratch).found = s.found := rfl
@[simp] theorem freeScratch_drt : (s.freeScratch).drt = s.drt := rfl
@[simp] theorem freeScratch_completion : (s.freeScratch).completion = s.completion := rfl
@[simp] theorem freeScratch_cfg : (s.freeScratch).cfg = s.cfg := rfl
@[simp] theorem freeScratch_top : (s.freeScratch).top = s.top := rfl
@[simp] theorem freeScratch_br : (s.freeScratch).br = s.br := rfl
@[simp] theorem freeScratch_position : (s.freeScratch).position = s.position := rfl
@[simp] theorem freeScratch_pending : (s.freeScratch).pending = s.pending := rfl
@[simp] theorem freeScratch_sel : (s.freeScratch).sel = s.sel := rfl
@[simp] theorem freeScratch_req : (s.freeScratch).req = s.req := rfl
@[simp] theorem freeScratch_mem : (s.freeScratch).mem = s.mem := rfl
@[simp] theorem freeScratch_trace : (s.freeScratch).trace = s.trace := rfl
@[simp] theorem freeScratch_inbox : (s.freeScratch).inbox = s.inbox := rfl
@[simp] theorem freeScratch_script : (s.freeScratch).script = s.script := rfl
@[simp] theorem freeScratch_draws : (s.freeScratch).draws = s.draws + 1 := rfl
@[simp] theorem freeScratch_busAnswers : (s.freeScratch).busAnswers = s.busAnswers := rfl
@[simp] theorem freeScratch_hostKeepsDuties : (s.freeScratch).hostKeepsDuties = s.hostKeepsDuties := rfl
@[simp] theorem freeScratch_result : (s.freeScratch).result = s.result := rfl

@[simp] theorem freeSession_initialized : (s.freeSession).initialized = s.initialized := rfl
@[simp] theorem freeSession_divisor : (s.freeSession).divisor = Config.freeU32 s.draws := rfl
@[simp] theorem freeSession_sectorCount : (s.freeSession).sectorCount = Config.freeU64 s.draws := rfl
@[simp] theorem freeSession_cmdIdx : (s.freeSession).cmdIdx = s.cmdIdx := rfl
@[simp] theorem freeSession_cmdArg : (s.freeSession).cmdArg = s.cmdArg := rfl
@[simp] theorem freeSession_resp : (s.freeSession).resp = s.resp := rfl
@[simp] theorem freeSession_ocr : (s.freeSession).ocr = s.ocr := rfl
@[simp] theorem freeSession_csd : (s.freeSession).csd = s.csd := rfl
@[simp] theorem freeSession_scratch : (s.freeSession).scratch = s.scratch := rfl
@[simp] theorem freeSession_map : (s.freeSession).map = s.map := rfl
@[simp] theorem freeSession_loops : (s.freeSession).loops = s.loops := rfl
@[simp] theorem freeSession_found : (s.freeSession).found = s.found := rfl
@[simp] theorem freeSession_drt : (s.freeSession).drt = s.drt := rfl
@[simp] theorem freeSession_completion : (s.freeSession).completion = s.completion := rfl
@[simp] theorem freeSession_cfg : (s.freeSession).cfg = s.cfg := rfl
@[simp] theorem freeSession_top : (s.freeSession).top = s.top := rfl
@[simp] theorem freeSession_br : (s.freeSession).br = s.br := rfl
@[simp] theorem freeSession_position : (s.freeSession).position = s.position := rfl
@[simp] theorem freeSession_pending : (s.freeSession).pending = s.pending := rfl
@[simp] theorem freeSession_sel : (s.freeSession).sel = s.sel := rfl
@[simp] theorem freeSession_req : (s.freeSession).req = s.req := rfl
@[simp] theorem freeSession_mem : (s.freeSession).mem = s.mem := rfl
@[simp] theorem freeSession_trace : (s.freeSession).trace = s.trace := rfl
@[simp] theorem freeSession_inbox : (s.freeSession).inbox = s.inbox := rfl
@[simp] theorem freeSession_script : (s.freeSession).script = s.script := rfl
@[simp] theorem freeSession_draws : (s.freeSession).draws = s.draws + 1 := rfl
@[simp] theorem freeSession_busAnswers : (s.freeSession).busAnswers = s.busAnswers := rfl
@[simp] theorem freeSession_hostKeepsDuties : (s.freeSession).hostKeepsDuties = s.hostKeepsDuties := rfl
@[simp] theorem freeSession_result : (s.freeSession).result = s.result := rfl

@[simp] theorem freeHostRange_initialized (lo hi : Nat) : (s.freeHostRange lo hi).initialized = s.initialized := rfl
@[simp] theorem freeHostRange_divisor (lo hi : Nat) : (s.freeHostRange lo hi).divisor = s.divisor := rfl
@[simp] theorem freeHostRange_sectorCount (lo hi : Nat) : (s.freeHostRange lo hi).sectorCount = s.sectorCount := rfl
@[simp] theorem freeHostRange_cmdIdx (lo hi : Nat) : (s.freeHostRange lo hi).cmdIdx = s.cmdIdx := rfl
@[simp] theorem freeHostRange_cmdArg (lo hi : Nat) : (s.freeHostRange lo hi).cmdArg = s.cmdArg := rfl
@[simp] theorem freeHostRange_resp (lo hi : Nat) : (s.freeHostRange lo hi).resp = s.resp := rfl
@[simp] theorem freeHostRange_ocr (lo hi : Nat) : (s.freeHostRange lo hi).ocr = s.ocr := rfl
@[simp] theorem freeHostRange_csd (lo hi : Nat) : (s.freeHostRange lo hi).csd = s.csd := rfl
@[simp] theorem freeHostRange_scratch (lo hi : Nat) : (s.freeHostRange lo hi).scratch = s.scratch := rfl
@[simp] theorem freeHostRange_map (lo hi : Nat) : (s.freeHostRange lo hi).map = s.map := rfl
@[simp] theorem freeHostRange_loops (lo hi : Nat) : (s.freeHostRange lo hi).loops = s.loops := rfl
@[simp] theorem freeHostRange_found (lo hi : Nat) : (s.freeHostRange lo hi).found = s.found := rfl
@[simp] theorem freeHostRange_drt (lo hi : Nat) : (s.freeHostRange lo hi).drt = s.drt := rfl
@[simp] theorem freeHostRange_completion (lo hi : Nat) : (s.freeHostRange lo hi).completion = s.completion := rfl
@[simp] theorem freeHostRange_cfg (lo hi : Nat) : (s.freeHostRange lo hi).cfg = s.cfg := rfl
@[simp] theorem freeHostRange_top (lo hi : Nat) : (s.freeHostRange lo hi).top = s.top := rfl
@[simp] theorem freeHostRange_br (lo hi : Nat) : (s.freeHostRange lo hi).br = s.br := rfl
@[simp] theorem freeHostRange_position (lo hi : Nat) : (s.freeHostRange lo hi).position = s.position := rfl
@[simp] theorem freeHostRange_pending (lo hi : Nat) : (s.freeHostRange lo hi).pending = s.pending := rfl
@[simp] theorem freeHostRange_sel (lo hi : Nat) : (s.freeHostRange lo hi).sel = s.sel := rfl
@[simp] theorem freeHostRange_req (lo hi : Nat) : (s.freeHostRange lo hi).req = s.req := rfl
@[simp] theorem freeHostRange_mem (lo hi : Nat) : (s.freeHostRange lo hi).mem = s.mem.replaceRange lo (min hi (2 ^ s.cfg.hostAddr)) (Config.freeCells s.draws) := rfl
@[simp] theorem freeHostRange_trace (lo hi : Nat) : (s.freeHostRange lo hi).trace = s.trace := rfl
@[simp] theorem freeHostRange_inbox (lo hi : Nat) : (s.freeHostRange lo hi).inbox = s.inbox := rfl
@[simp] theorem freeHostRange_script (lo hi : Nat) : (s.freeHostRange lo hi).script = s.script := rfl
@[simp] theorem freeHostRange_draws (lo hi : Nat) : (s.freeHostRange lo hi).draws = s.draws + 1 := rfl
@[simp] theorem freeHostRange_busAnswers (lo hi : Nat) : (s.freeHostRange lo hi).busAnswers = s.busAnswers := rfl
@[simp] theorem freeHostRange_hostKeepsDuties (lo hi : Nat) : (s.freeHostRange lo hi).hostKeepsDuties = s.hostKeepsDuties := rfl
@[simp] theorem freeHostRange_result (lo hi : Nat) : (s.freeHostRange lo hi).result = s.result := rfl

@[simp] theorem freeHostMemory_initialized : (s.freeHostMemory).initialized = s.initialized := rfl
@[simp] theorem freeHostMemory_divisor : (s.freeHostMemory).divisor = s.divisor := rfl
@[simp] theorem freeHostMemory_sectorCount : (s.freeHostMemory).sectorCount = s.sectorCount := rfl
@[simp] theorem freeHostMemory_cmdIdx : (s.freeHostMemory).cmdIdx = s.cmdIdx := rfl
@[simp] theorem freeHostMemory_cmdArg : (s.freeHostMemory).cmdArg = s.cmdArg := rfl
@[simp] theorem freeHostMemory_resp : (s.freeHostMemory).resp = s.resp := rfl
@[simp] theorem freeHostMemory_ocr : (s.freeHostMemory).ocr = s.ocr := rfl
@[simp] theorem freeHostMemory_csd : (s.freeHostMemory).csd = s.csd := rfl
@[simp] theorem freeHostMemory_scratch : (s.freeHostMemory).scratch = s.scratch := rfl
@[simp] theorem freeHostMemory_map : (s.freeHostMemory).map = s.map := rfl
@[simp] theorem freeHostMemory_loops : (s.freeHostMemory).loops = s.loops := rfl
@[simp] theorem freeHostMemory_found : (s.freeHostMemory).found = s.found := rfl
@[simp] theorem freeHostMemory_drt : (s.freeHostMemory).drt = s.drt := rfl
@[simp] theorem freeHostMemory_completion : (s.freeHostMemory).completion = s.completion := rfl
@[simp] theorem freeHostMemory_cfg : (s.freeHostMemory).cfg = s.cfg := rfl
@[simp] theorem freeHostMemory_top : (s.freeHostMemory).top = s.top := rfl
@[simp] theorem freeHostMemory_br : (s.freeHostMemory).br = s.br := rfl
@[simp] theorem freeHostMemory_position : (s.freeHostMemory).position = s.position := rfl
@[simp] theorem freeHostMemory_pending : (s.freeHostMemory).pending = s.pending := rfl
@[simp] theorem freeHostMemory_sel : (s.freeHostMemory).sel = s.sel := rfl
@[simp] theorem freeHostMemory_req : (s.freeHostMemory).req = s.req := rfl
@[simp] theorem freeHostMemory_mem : (s.freeHostMemory).mem = s.mem.replaceRange 0 (min (2 ^ s.cfg.hostAddr) (2 ^ s.cfg.hostAddr)) (Config.freeCells s.draws) := rfl
@[simp] theorem freeHostMemory_trace : (s.freeHostMemory).trace = s.trace := rfl
@[simp] theorem freeHostMemory_inbox : (s.freeHostMemory).inbox = s.inbox := rfl
@[simp] theorem freeHostMemory_script : (s.freeHostMemory).script = s.script := rfl
@[simp] theorem freeHostMemory_draws : (s.freeHostMemory).draws = s.draws + 1 := rfl
@[simp] theorem freeHostMemory_busAnswers : (s.freeHostMemory).busAnswers = s.busAnswers := rfl
@[simp] theorem freeHostMemory_hostKeepsDuties : (s.freeHostMemory).hostKeepsDuties = s.hostKeepsDuties := rfl
@[simp] theorem freeHostMemory_result : (s.freeHostMemory).result = s.result := rfl

@[simp] theorem accept_initialized (op : HostOp) : (s.accept op).initialized = s.initialized := rfl
@[simp] theorem accept_divisor (op : HostOp) : (s.accept op).divisor = s.divisor := rfl
@[simp] theorem accept_sectorCount (op : HostOp) : (s.accept op).sectorCount = s.sectorCount := rfl
@[simp] theorem accept_cmdIdx (op : HostOp) : (s.accept op).cmdIdx = s.cmdIdx := rfl
@[simp] theorem accept_cmdArg (op : HostOp) : (s.accept op).cmdArg = s.cmdArg := rfl
@[simp] theorem accept_resp (op : HostOp) : (s.accept op).resp = s.resp := rfl
@[simp] theorem accept_ocr (op : HostOp) : (s.accept op).ocr = s.ocr := rfl
@[simp] theorem accept_csd (op : HostOp) : (s.accept op).csd = s.csd := rfl
@[simp] theorem accept_scratch (op : HostOp) : (s.accept op).scratch = s.scratch := rfl
@[simp] theorem accept_map (op : HostOp) : (s.accept op).map = s.map := rfl
@[simp] theorem accept_loops (op : HostOp) : (s.accept op).loops = s.loops := rfl
@[simp] theorem accept_found (op : HostOp) : (s.accept op).found = s.found := rfl
@[simp] theorem accept_drt (op : HostOp) : (s.accept op).drt = s.drt := rfl
@[simp] theorem accept_completion (op : HostOp) : (s.accept op).completion = s.completion := rfl
@[simp] theorem accept_cfg (op : HostOp) : (s.accept op).cfg = s.cfg := rfl
@[simp] theorem accept_top (op : HostOp) : (s.accept op).top = .busy op := rfl
@[simp] theorem accept_br (op : HostOp) : (s.accept op).br = s.br := rfl
@[simp] theorem accept_position (op : HostOp) : (s.accept op).position = 0 := rfl
@[simp] theorem accept_pending (op : HostOp) : (s.accept op).pending = s.pending := rfl
@[simp] theorem accept_sel (op : HostOp) : (s.accept op).sel = s.sel := rfl
@[simp] theorem accept_req (op : HostOp) : (s.accept op).req = s.req := rfl
@[simp] theorem accept_mem (op : HostOp) : (s.accept op).mem = s.mem := rfl
@[simp] theorem accept_trace (op : HostOp) : (s.accept op).trace = s.trace := rfl
@[simp] theorem accept_inbox (op : HostOp) : (s.accept op).inbox = s.inbox := rfl
@[simp] theorem accept_script (op : HostOp) : (s.accept op).script = s.script := rfl
@[simp] theorem accept_draws (op : HostOp) : (s.accept op).draws = s.draws := rfl
@[simp] theorem accept_busAnswers (op : HostOp) : (s.accept op).busAnswers = s.busAnswers := rfl
@[simp] theorem accept_hostKeepsDuties (op : HostOp) : (s.accept op).hostKeepsDuties = s.hostKeepsDuties := rfl
@[simp] theorem accept_result (op : HostOp) : (s.accept op).result = s.result := rfl

@[simp] theorem complete_initialized (c : Completion) : (s.complete c).initialized = s.initialized := rfl
@[simp] theorem complete_divisor (c : Completion) : (s.complete c).divisor = s.divisor := rfl
@[simp] theorem complete_sectorCount (c : Completion) : (s.complete c).sectorCount = s.sectorCount := rfl
@[simp] theorem complete_cmdIdx (c : Completion) : (s.complete c).cmdIdx = s.cmdIdx := rfl
@[simp] theorem complete_cmdArg (c : Completion) : (s.complete c).cmdArg = s.cmdArg := rfl
@[simp] theorem complete_resp (c : Completion) : (s.complete c).resp = s.resp := rfl
@[simp] theorem complete_ocr (c : Completion) : (s.complete c).ocr = s.ocr := rfl
@[simp] theorem complete_csd (c : Completion) : (s.complete c).csd = s.csd := rfl
@[simp] theorem complete_scratch (c : Completion) : (s.complete c).scratch = s.scratch := rfl
@[simp] theorem complete_map (c : Completion) : (s.complete c).map = s.map := rfl
@[simp] theorem complete_loops (c : Completion) : (s.complete c).loops = s.loops := rfl
@[simp] theorem complete_found (c : Completion) : (s.complete c).found = s.found := rfl
@[simp] theorem complete_drt (c : Completion) : (s.complete c).drt = s.drt := rfl
@[simp] theorem complete_completion (c : Completion) : (s.complete c).completion = c := rfl
@[simp] theorem complete_cfg (c : Completion) : (s.complete c).cfg = s.cfg := rfl
@[simp] theorem complete_top (c : Completion) : (s.complete c).top = .idle := rfl
@[simp] theorem complete_br (c : Completion) : (s.complete c).br = s.br := rfl
@[simp] theorem complete_position (c : Completion) : (s.complete c).position = 0 := rfl
@[simp] theorem complete_pending (c : Completion) : (s.complete c).pending = s.pending := rfl
@[simp] theorem complete_sel (c : Completion) : (s.complete c).sel = s.sel := rfl
@[simp] theorem complete_req (c : Completion) : (s.complete c).req = s.req := rfl
@[simp] theorem complete_mem (c : Completion) : (s.complete c).mem = s.mem := rfl
@[simp] theorem complete_trace (c : Completion) : (s.complete c).trace = s.trace := rfl
@[simp] theorem complete_inbox (c : Completion) : (s.complete c).inbox = s.inbox := rfl
@[simp] theorem complete_script (c : Completion) : (s.complete c).script = s.script := rfl
@[simp] theorem complete_draws (c : Completion) : (s.complete c).draws = s.draws := rfl
@[simp] theorem complete_busAnswers (c : Completion) : (s.complete c).busAnswers = s.busAnswers := rfl
@[simp] theorem complete_hostKeepsDuties (c : Completion) : (s.complete c).hostKeepsDuties = s.hostKeepsDuties := rfl
@[simp] theorem complete_result (c : Completion) : (s.complete c).result = s.result := rfl

@[simp] theorem popInbox_initialized : (s.popInbox).initialized = s.initialized := rfl
@[simp] theorem popInbox_divisor : (s.popInbox).divisor = s.divisor := rfl
@[simp] theorem popInbox_sectorCount : (s.popInbox).sectorCount = s.sectorCount := rfl
@[simp] theorem popInbox_cmdIdx : (s.popInbox).cmdIdx = s.cmdIdx := rfl
@[simp] theorem popInbox_cmdArg : (s.popInbox).cmdArg = s.cmdArg := rfl
@[simp] theorem popInbox_resp : (s.popInbox).resp = s.resp := rfl
@[simp] theorem popInbox_ocr : (s.popInbox).ocr = s.ocr := rfl
@[simp] theorem popInbox_csd : (s.popInbox).csd = s.csd := rfl
@[simp] theorem popInbox_scratch : (s.popInbox).scratch = s.scratch := rfl
@[simp] theorem popInbox_map : (s.popInbox).map = s.map := rfl
@[simp] theorem popInbox_loops : (s.popInbox).loops = s.loops := rfl
@[simp] theorem popInbox_found : (s.popInbox).found = s.found := rfl
@[simp] theorem popInbox_drt : (s.popInbox).drt = s.drt := rfl
@[simp] theorem popInbox_completion : (s.popInbox).completion = s.completion := rfl
@[simp] theorem popInbox_cfg : (s.popInbox).cfg = s.cfg := rfl
@[simp] theorem popInbox_top : (s.popInbox).top = s.top := rfl
@[simp] theorem popInbox_br : (s.popInbox).br = s.br := rfl
@[simp] theorem popInbox_position : (s.popInbox).position = s.position := rfl
@[simp] theorem popInbox_pending : (s.popInbox).pending = s.pending := rfl
@[simp] theorem popInbox_sel : (s.popInbox).sel = s.sel := rfl
@[simp] theorem popInbox_req : (s.popInbox).req = s.req := rfl
@[simp] theorem popInbox_mem : (s.popInbox).mem = s.mem := rfl
@[simp] theorem popInbox_trace : (s.popInbox).trace = s.trace := rfl
@[simp] theorem popInbox_inbox : (s.popInbox).inbox = s.inbox.tail := rfl
@[simp] theorem popInbox_script : (s.popInbox).script = s.script := rfl
@[simp] theorem popInbox_draws : (s.popInbox).draws = s.draws := rfl
@[simp] theorem popInbox_busAnswers : (s.popInbox).busAnswers = s.busAnswers := rfl
@[simp] theorem popInbox_hostKeepsDuties : (s.popInbox).hostKeepsDuties = s.hostKeepsDuties := rfl
@[simp] theorem popInbox_result : (s.popInbox).result = s.result := rfl

@[simp] theorem await_initialized (c : BusCall) : (s.await c).initialized = s.initialized := rfl
@[simp] theorem await_divisor (c : BusCall) : (s.await c).divisor = s.divisor := rfl
@[simp] theorem await_sectorCount (c : BusCall) : (s.await c).sectorCount = s.sectorCount := rfl
@[simp] theorem await_cmdIdx (c : BusCall) : (s.await c).cmdIdx = s.cmdIdx := rfl
@[simp] theorem await_cmdArg (c : BusCall) : (s.await c).cmdArg = s.cmdArg := rfl
@[simp] theorem await_resp (c : BusCall) : (s.await c).resp = s.resp := rfl
@[simp] theorem await_ocr (c : BusCall) : (s.await c).ocr = s.ocr := rfl
@[simp] theorem await_csd (c : BusCall) : (s.await c).csd = s.csd := rfl
@[simp] theorem await_scratch (c : BusCall) : (s.await c).scratch = s.scratch := rfl
@[simp] theorem await_map (c : BusCall) : (s.await c).map = s.map := rfl
@[simp] theorem await_loops (c : BusCall) : (s.await c).loops = s.loops := rfl
@[simp] theorem await_found (c : BusCall) : (s.await c).found = s.found := rfl
@[simp] theorem await_drt (c : BusCall) : (s.await c).drt = s.drt := rfl
@[simp] theorem await_completion (c : BusCall) : (s.await c).completion = s.completion := rfl
@[simp] theorem await_cfg (c : BusCall) : (s.await c).cfg = s.cfg := rfl
@[simp] theorem await_top (c : BusCall) : (s.await c).top = s.top := rfl
@[simp] theorem await_br (c : BusCall) : (s.await c).br = s.br := rfl
@[simp] theorem await_position (c : BusCall) : (s.await c).position = s.position := rfl
@[simp] theorem await_pending (c : BusCall) : (s.await c).pending = some c := rfl
@[simp] theorem await_sel (c : BusCall) : (s.await c).sel = s.sel := rfl
@[simp] theorem await_req (c : BusCall) : (s.await c).req = s.req := rfl
@[simp] theorem await_mem (c : BusCall) : (s.await c).mem = s.mem := rfl
@[simp] theorem await_trace (c : BusCall) : (s.await c).trace = s.trace := rfl
@[simp] theorem await_inbox (c : BusCall) : (s.await c).inbox = s.inbox := rfl
@[simp] theorem await_script (c : BusCall) : (s.await c).script = s.script := rfl
@[simp] theorem await_draws (c : BusCall) : (s.await c).draws = s.draws := rfl
@[simp] theorem await_busAnswers (c : BusCall) : (s.await c).busAnswers = s.busAnswers := rfl
@[simp] theorem await_hostKeepsDuties (c : BusCall) : (s.await c).hostKeepsDuties = s.hostKeepsDuties := rfl
@[simp] theorem await_result (c : BusCall) : (s.await c).result = s.result := rfl

@[simp] theorem perform_initialized (c : BusCall) : (s.perform c).initialized = s.initialized := by cases c <;> rfl
@[simp] theorem perform_divisor (c : BusCall) : (s.perform c).divisor = s.divisor := by cases c <;> rfl
@[simp] theorem perform_sectorCount (c : BusCall) : (s.perform c).sectorCount = s.sectorCount := by cases c <;> rfl
@[simp] theorem perform_cmdIdx (c : BusCall) : (s.perform c).cmdIdx = s.cmdIdx := by cases c <;> rfl
@[simp] theorem perform_cmdArg (c : BusCall) : (s.perform c).cmdArg = s.cmdArg := by cases c <;> rfl
@[simp] theorem perform_resp (c : BusCall) : (s.perform c).resp = s.resp := by cases c <;> rfl
@[simp] theorem perform_ocr (c : BusCall) : (s.perform c).ocr = s.ocr := by cases c <;> rfl
@[simp] theorem perform_csd (c : BusCall) : (s.perform c).csd = s.csd := by cases c <;> rfl
@[simp] theorem perform_scratch (c : BusCall) : (s.perform c).scratch = s.scratch := by cases c <;> rfl
@[simp] theorem perform_map (c : BusCall) : (s.perform c).map = s.map := by cases c <;> rfl
@[simp] theorem perform_loops (c : BusCall) : (s.perform c).loops = s.loops := by cases c <;> rfl
@[simp] theorem perform_found (c : BusCall) : (s.perform c).found = s.found := by cases c <;> rfl
@[simp] theorem perform_drt (c : BusCall) : (s.perform c).drt = s.drt := by cases c <;> rfl
@[simp] theorem perform_completion (c : BusCall) : (s.perform c).completion = s.completion := by cases c <;> rfl
@[simp] theorem perform_cfg (c : BusCall) : (s.perform c).cfg = s.cfg := by cases c <;> rfl
@[simp] theorem perform_top (c : BusCall) : (s.perform c).top = s.top := by cases c <;> rfl
@[simp] theorem perform_br (c : BusCall) : (s.perform c).br = s.br := by cases c <;> rfl
@[simp] theorem perform_pending (c : BusCall) : (s.perform c).pending = s.pending := by cases c <;> rfl
@[simp] theorem perform_req (c : BusCall) : (s.perform c).req = s.req := by cases c <;> rfl
@[simp] theorem perform_mem (c : BusCall) : (s.perform c).mem = s.mem := by cases c <;> rfl
@[simp] theorem perform_inbox (c : BusCall) : (s.perform c).inbox = s.inbox := by cases c <;> rfl
@[simp] theorem perform_busAnswers (c : BusCall) : (s.perform c).busAnswers = s.busAnswers := by cases c <;> rfl
@[simp] theorem perform_hostKeepsDuties (c : BusCall) : (s.perform c).hostKeepsDuties = s.hostKeepsDuties := by cases c <;> rfl
@[simp] theorem perform_result (c : BusCall) : (s.perform c).result = s.result := by cases c <;> rfl

@[simp] theorem perform_position (c : BusCall) : (s.perform c).position = s.position + 1 := by cases c <;> rfl

@[simp] theorem freeUnread_initialized : (s.freeUnread).initialized = s.initialized := rfl
@[simp] theorem freeUnread_divisor : (s.freeUnread).divisor = s.divisor := rfl
@[simp] theorem freeUnread_sectorCount : (s.freeUnread).sectorCount = s.sectorCount := rfl
@[simp] theorem freeUnread_cmdIdx : (s.freeUnread).cmdIdx = s.cmdIdx := rfl
@[simp] theorem freeUnread_cmdArg : (s.freeUnread).cmdArg = s.cmdArg := rfl
@[simp] theorem freeUnread_resp : (s.freeUnread).resp = s.resp := rfl
@[simp] theorem freeUnread_ocr : (s.freeUnread).ocr = s.ocr := rfl
@[simp] theorem freeUnread_csd : (s.freeUnread).csd = s.csd := rfl
@[simp] theorem freeUnread_scratch : (s.freeUnread).scratch = s.scratch := rfl
@[simp] theorem freeUnread_map : (s.freeUnread).map = s.map := rfl
@[simp] theorem freeUnread_loops : (s.freeUnread).loops = s.loops := rfl
@[simp] theorem freeUnread_found : (s.freeUnread).found = s.found := rfl
@[simp] theorem freeUnread_drt : (s.freeUnread).drt = s.drt := rfl
@[simp] theorem freeUnread_completion : (s.freeUnread).completion = s.completion := rfl
@[simp] theorem freeUnread_cfg : (s.freeUnread).cfg = s.cfg := rfl
@[simp] theorem freeUnread_top : (s.freeUnread).top = s.top := rfl
@[simp] theorem freeUnread_br : (s.freeUnread).br = s.br := rfl
@[simp] theorem freeUnread_position : (s.freeUnread).position = s.position := rfl
@[simp] theorem freeUnread_pending : (s.freeUnread).pending = s.pending := rfl
@[simp] theorem freeUnread_sel : (s.freeUnread).sel = s.sel := rfl
@[simp] theorem freeUnread_req : (s.freeUnread).req = s.req := rfl
@[simp] theorem freeUnread_trace : (s.freeUnread).trace = s.trace := rfl
@[simp] theorem freeUnread_inbox : (s.freeUnread).inbox = s.inbox := rfl
@[simp] theorem freeUnread_script : (s.freeUnread).script = s.script := rfl
@[simp] theorem freeUnread_draws : (s.freeUnread).draws = s.draws + 1 := rfl
@[simp] theorem freeUnread_busAnswers : (s.freeUnread).busAnswers = s.busAnswers := rfl
@[simp] theorem freeUnread_hostKeepsDuties : (s.freeUnread).hostKeepsDuties = s.hostKeepsDuties := rfl
@[simp] theorem freeUnread_result : (s.freeUnread).result = s.result := rfl

end Sys2Proof.Machine.State
end

