-- ==== Sys2Proof/Laws/Whole.lean ====
section
/-! SUPPORT. Whole-machine lemmas: what every instruction keeps of the invariant, what it sends, and where it leaves the
select line. -/

namespace Sys2Proof.Laws

open Sys2Proof.Machine

variable {α : Type} {P : State → Prop} {R : Fault → State → Prop}

/-! ## The parts of the invariant that every instruction keeps -/

/-- The invariant apart from the select line. -/
structure Safe (s : State) : Prop where
  memory : MemorySound s
  session : SessionSound s
  completion : CompletionSound s
  params : s.cfg.wf = true

theorem safe_moves : AllMoves Safe Safe fun _ _ => True := by
  constructor
  constructor
  constructor
  constructor
  case sectorCount =>
    exact fun v s h hv => ⟨h.memory, fun hi => ⟨(h.session hi).1, hv⟩, h.completion, h.params⟩
  case shut => exact fun s h => ⟨h.memory, fun hi => (by cases hi), h.completion, h.params⟩
  case opened =>
    exact fun s h ho => ⟨h.memory, fun _ => ⟨ho.1.2, ho.2⟩, h.completion, h.params⟩
  case freeSession =>
    intro s h hf
    exact ⟨h.memory, fun hi => (by rw [show s.freeSession.initialized = s.initialized from rfl, hf] at hi; cases hi),
      h.completion, h.params⟩
  case complete => exact fun c s h hc => ⟨h.memory, h.session, hc, h.params⟩
  case divisor =>
    exact fun d s h hd => ⟨h.memory, fun hi => ⟨hd, (h.session hi).2⟩, h.completion, h.params⟩
  case store =>
    intro a bs s h hb
    refine ⟨⟨writeBytes_wf h.memory.1 a bs, ?_⟩, h.session, h.completion, h.params⟩
    intro c hc
    rcases mem_writeBytes hc with hc | hc
    · exact h.memory.2 c hc
    · simp only [State.accessSound, State.hostBytesSound, Bool.and_eq_true, decide_eq_true_eq] at hb
      show c.1 < 2 ^ s.cfg.hostAddr
      omega
  case freeHostRange =>
    intro lo hi s h
    refine ⟨⟨replaceRange_wf h.memory.1 _ _ _, ?_⟩, h.session, h.completion, h.params⟩
    intro c hc
    rcases mem_replaceRange hc with hc | hc
    · exact h.memory.2 c hc
    · show c.1 < 2 ^ s.cfg.hostAddr
      omega
  case perform => exact fun c s h _ => by cases c <;> exact ⟨h.memory, h.session, h.completion, h.params⟩
  case silent => exact fun _ _ h _ => ⟨⟨h.memory, h.session, h.completion, h.params⟩, trivial⟩
  case ends => exact fun _ h => h
  all_goals first
    | (intros; trivial)
    | (intros; rename_i h; exact ⟨h.memory, h.session, h.completion, h.params⟩)

/-- Since `start` the bus calls made and those left add up to `calls`; each has moved the position on by one, and none has
made more than one trace event. -/
def Counted (start : State) (base calls : Nat) (t : State) : Prop :=
  ∃ (es : List BusEvent) (j used : Nat), t.trace = start.trace ++ es ∧ t.busAnswers = some j ∧ j + used = calls ∧
    es.length ≤ used ∧ t.position = base + used

/-- The bus stops answering only where no call is left, and the fault records the state and the call it waits for. -/
def StopsSpent (f : Fault) (t : State) : Prop :=
  ∀ u, f = .busNeverReturns u → u = t ∧ t.busAnswers = some 0 ∧ t.pending ≠ none

/-- One bus event makes at most one trace event. -/
theorem perform_trace (c : BusCall) (s : State) :
    ∃ es : List BusEvent, (s.perform c).trace = s.trace ++ es ∧ es.length ≤ 1 := by
  cases c with
  | sel v => exact ⟨[], (List.append_nil _).symm, by simp⟩
  | xfer tx => exact ⟨_, rfl, by simp⟩
  | receive rx => exact ⟨_, rfl, by simp⟩
  | wait ms => exact ⟨_, rfl, by simp⟩

theorem count_moves (start : State) (base calls : Nat) :
    AllMoves (Counted start base calls) (fun _ => True) StopsSpent := by
  constructor
  constructor
  constructor
  constructor
  case silent =>
    exact fun c s h h0 => ⟨h, fun u hu => by cases hu; exact ⟨rfl, h0, nofun⟩⟩
  case perform =>
    rintro c s ⟨es, j, used, h1, h2, h3, h4, h5⟩ h0
    obtain ⟨fs, h6, h7⟩ := perform_trace c s.spendAnswer
    have : j ≠ 0 := fun h => h0 (h ▸ h2)
    refine ⟨es ++ fs, j - 1, used + 1, ?_, ?_, by omega, ?_, ?_⟩
    · rw [h6, ← List.append_assoc, ← h1]
      rfl
    · simp [h2]
    · simp only [List.length_append]
      omega
    · simp [h5]
      omega
  case overflow => exact fun blk s _ _ u hu => by cases hu
  case domain => exact fun msb lsb s _ _ u hu => by cases hu
  case ends => exact fun _ _ => trivial
  case complete => exact fun _ _ _ _ => trivial
  all_goals (intros; assumption)

/-- The error exit of a request changes no parameter, no bus event and no select level. -/
theorem errorExit_cfg (e : Err) (s : State) : (s.errorExit e).cfg = s.cfg := by
  unfold State.errorExit
  split
  · rfl
  · rfl
  · split <;> rfl
  all_goals rfl

theorem errorExit_trace (e : Err) (s : State) : (s.errorExit e).trace = s.trace := by
  unfold State.errorExit
  split
  · rfl
  · rfl
  · split <;> rfl
  all_goals rfl

theorem errorExit_sel (e : Err) (s : State) : (s.errorExit e).sel = s.sel := by
  unfold State.errorExit
  split
  · rfl
  · rfl
  · split <;> rfl
  all_goals rfl

theorem At.same {s0 t u : State} {c : Scan} (h : At s0 c t) (h1 : u.cfg = t.cfg) (h2 : u.trace = t.trace) : At s0 c u := by
  obtain ⟨hc, es, h⟩ := h
  exact ⟨h1.trans hc, es, h2.trans h.1, h.2⟩

/-! ## What an instruction sends -/

/-- What an instruction leaves: a trace whose frames are the table's; at an address overflow, the select line as it was. -/
def Traced (s0 : State) : Host.Outcome State Fault Refusal → Prop
  | .next t => Sends.Somewhere s0 t
  | .fault f => ∀ blk u, f = .addressOverflow blk u → Calm s0 u
  | .refused _ => True

theorem runSubStep_traced {s0 : State} {E : State → Prop} {toResult : α → Result} {m : M α} {Q : α → State → Prop}
    (h : Sends s0 E P m Q) (hp : P s0) (he : ∀ t, E t → Sends.Somewhere s0 t) (hq : ∀ a t, Q a t → Sends.Somewhere s0 t) :
    Traced s0 (runSubStep toResult m s0) := by
  have h := h s0 hp
  unfold runSubStep
  revert h
  cases m s0 with
  | ok a t => exact hq a t
  | error e t =>
    cases e with
    | raised e =>
      intro h
      obtain ⟨c, hc⟩ := he t h
      exact ⟨c, hc.same (errorExit_cfg e _) (errorExit_trace e _)⟩
    | fault f =>
      intro h blk u hf
      have := h blk u hf
      exact this.2 ▸ this.1

theorem serve_traced {s0 : State} {E : State → Prop} {op : HostOp} {m : M Completion} {Q : Completion → State → Prop}
    (h : Sends s0 E P m Q) (hp : P (s0.accept op)) (he : ∀ t, E t → Sends.Somewhere s0 t)
    (hq : ∀ a t, Q a t → Sends.Somewhere s0 t) : Traced s0 (serve op m s0) := by
  have h := h _ hp
  unfold serve
  split
  · revert h
    cases m (s0.accept op) with
    | ok a t => exact hq a t
    | error e t =>
      cases e with
      | raised e =>
        intro h
        obtain ⟨c, hc⟩ := he t h
        exact ⟨c, hc.same (errorExit_cfg e _) (errorExit_trace e _)⟩
      | fault f =>
        intro h blk u hf
        have := h blk u hf
        exact this.2 ▸ this.1
  · trivial

section

variable {s0 : State}

theorem somewhere_in {c : Scan} {v : Bool} : ∀ t, In s0 c v t → Sends.Somewhere s0 t := fun _ h => ⟨c, h.1⟩

theorem somewhere_outside : ∀ t, Outside s0 t → Sends.Somewhere s0 t := fun _ h => ⟨.outside, h⟩

theorem somewhere_calm : ∀ t, Calm s0 t → Sends.Somewhere s0 t := fun _ h => ⟨.outside, h.1⟩

end

/-- The start of a single byte's exchange. -/
theorem In.here (s0 : State) : In s0 .outside s0.sel s0 := ⟨At.here s0, rfl⟩

/-- Every instruction sends only frames of the table, whatever the card returns (30_encoding.md R104). -/
theorem exec_traced (i : Instr) (s : State) : Traced s (exec i s) := by
  have hout : Outside s s := At.here s
  have hcalm : Calm s s := Calm.here s
  have hin := In.here s
  have pureStep : ∀ {α : Type} (toResult : α → Result) (f : State → α), Traced s (runSubStep toResult (look f) s) :=
    fun toResult f => runSubStep_traced (E := Calm s) (Sends.look (P := Calm s) (Q := fun _ => Calm s) fun _ h => h)
      hcalm somewhere_calm fun _ => somewhere_calm
  cases i with
  | cmd0 => exact runSubStep_traced (Sends.command (E := Calm s) (Sends.emitted_cmd0 _)) hout somewhere_calm fun _ => somewhere_in
  | cmd8 => exact runSubStep_traced (Sends.probeInterfaceCondition (E := Calm s)) hout somewhere_calm fun _ => somewhere_in
  | cmd9 => exact runSubStep_traced Sends.readCSD hout somewhere_in fun _ => somewhere_in
  | cmd16 => exact runSubStep_traced (Sends.command (E := Calm s) (Sends.emitted_cmd16 _)) hout somewhere_calm fun _ => somewhere_in
  | cmd17 a => exact runSubStep_traced (Sends.readBlockFrom a) hout somewhere_in fun _ => somewhere_in
  | cmd24 a => exact runSubStep_traced (Sends.writeBlockTo a) hout somewhere_in fun _ => somewhere_in
  | cmd55 => exact runSubStep_traced (Sends.command (E := Calm s) (Sends.emitted_cmd55 _)) hout somewhere_calm fun _ => somewhere_in
  | acmd41V1 =>
    exact runSubStep_traced (Sends.command (E := Calm s) (Sends.emitted_cmd41 _ _ (.inl rfl))) hout somewhere_calm
      fun _ => somewhere_in
  | acmd41V2 =>
    exact runSubStep_traced (Sends.command (E := Calm s) (Sends.emitted_cmd41 _ _ (.inr rfl))) hout somewhere_calm
      fun _ => somewhere_in
  | cmd58 => exact runSubStep_traced (Sends.readOcr (E := Calm s)) hout somewhere_calm fun _ => somewhere_in
  | r1 f => exact runSubStep_traced (Sends.responseByte (E := Calm s) f _) hin somewhere_calm fun _ => somewhere_in
  | startToken => exact runSubStep_traced (Sends.tokenByte (E := Calm s) _) hin somewhere_calm fun _ => somewhere_in
  | dataResponseAccept x =>
    exact runSubStep_traced (Sends.acceptByte (E := Calm s) x _) hin somewhere_calm fun _ => somewhere_in
  | busy => exact runSubStep_traced (Sends.busyByte _) hin somewhere_in fun _ => somewhere_in
  | filler => exact runSubStep_traced (Sends.filler (E := Calm s) _) hin somewhere_calm fun _ => somewhere_in
  | init => exact serve_traced Sends.initOp hout somewhere_in fun _ => somewhere_in
  | read o n b => exact serve_traced (Sends.rangeOp .read o n b) hcalm somewhere_calm fun _ => somewhere_calm
  | write o n b => exact serve_traced (Sends.rangeOp .write o n b) hcalm somewhere_calm fun _ => somewhere_calm
  | erase o n => exact serve_traced (Sends.rangeOp .erase o n 0) hcalm somewhere_calm fun _ => somewhere_calm
  | capacity => exact serve_traced Sends.capacityOp hout somewhere_in fun _ => somewhere_in
  | status =>
    exact serve_traced (E := Calm s) (P := Calm s) (Q := fun _ => Calm s)
      (Sends.bind (Q := fun _ => Calm s) (Sends.look fun _ h => h) fun _ => Sends.pure fun _ h => h) hcalm somewhere_calm fun _ => somewhere_calm
  | frame idx arg close =>
    change Traced s (execFrame idx arg close s)
    unfold execFrame
    split
    · exact runSubStep_traced (Sends.frame (E := Calm s) ‹_›) hout somewhere_calm fun _ => somewhere_in
    · trivial
  | poll => exact runSubStep_traced (Sends.poll (E := Calm s) _) hin somewhere_calm fun _ => somewhere_in
  | release => exact runSubStep_traced (Sends.release (E := Calm s) .outside) hout somewhere_calm fun _ => somewhere_in
  | command idx arg =>
    change Traced s (execCommand idx arg s)
    unfold execCommand
    split
    · exact runSubStep_traced (Sends.command (E := Calm s) ‹_›) hout somewhere_calm fun _ => somewhere_in
    · trivial
  | commandNoDeselect idx arg =>
    change Traced s (execCommandNoDeselect idx arg s)
    unfold execCommandNoDeselect
    split
    · rename_i he
      by_cases h24 : idx = 24
      · subst h24
        refine runSubStep_traced (Sends.commandNoDeselectWrite (E := Calm s) he) hout somewhere_calm fun r t ht => ?_
        split at ht
        · exact somewhere_in t ht
        · exact Sends.somewhere_of_answered ht
      · refine runSubStep_traced (Sends.commandNoDeselect (E := Calm s) he h24) hout somewhere_calm fun r t ht => ?_
        split at ht <;> exact somewhere_in t ht
    · trivial
  | probeInterfaceCondition =>
    exact runSubStep_traced (Sends.probeInterfaceCondition (E := Calm s)) hout somewhere_calm fun _ => somewhere_in
  | readOperatingConditionRegister =>
    exact runSubStep_traced (Sends.readOcr (E := Calm s)) hout somewhere_calm fun _ => somewhere_in
  | bringUp => exact runSubStep_traced Sends.bringUp hout somewhere_in fun _ => somewhere_in
  | extractBits msb lsb =>
    exact runSubStep_traced (E := Calm s) (P := Calm s) (Q := fun _ => Calm s)
      (Sends.ite (c := extractDomain msb lsb = true) (fun _ => Sends.look fun _ h => h) fun _ =>
        Sends.stop fun _ _ _ h => by cases h) hcalm somewhere_calm fun _ => somewhere_calm
  | decodeCapacity => exact pureStep _ fun s => decodeCapacity s.csd
  | decodeV0 => exact pureStep _ fun s => decodeV0 s.csd
  | decodeV1 => exact pureStep _ fun s => decodeV1 s.csd
  | readCSD => exact runSubStep_traced Sends.readCSD hout somewhere_in fun _ => somewhere_in
  | blockAddress blk => exact runSubStep_traced (Sends.blockAddress (E := Calm s) blk) hcalm somewhere_calm fun _ => somewhere_calm
  | readData n dst =>
    change Traced s (execReadData n dst s)
    unfold execReadData
    split
    · exact runSubStep_traced ((Sends.readData n dst).onRaise (Sends.freeBufferLow dst)) hout somewhere_in fun _ => somewhere_in
    · trivial
  | readBlockAt blk => exact runSubStep_traced (Sends.readBlockAt blk) hcalm somewhere_calm fun _ => somewhere_calm
  | writeBlockAt blk => exact runSubStep_traced (Sends.writeBlockAt blk) hcalm somewhere_calm fun _ => somewhere_calm
  | checkDataResponse => exact runSubStep_traced (Sends.checkDataResponse _) hin somewhere_in fun _ => somewhere_in
  | waitNotBusy => exact runSubStep_traced (Sends.waitNotBusy _) hin somewhere_in fun _ => somewhere_in
  | mapper kind o n b => exact runSubStep_traced (Sends.mapper kind o n b) hcalm somewhere_calm fun _ => somewhere_calm
  | checkBounds o n => exact runSubStep_traced (Sends.checkBounds o n) hcalm somewhere_calm fun _ => somewhere_calm
  | mergeSegment kind blk off n =>
    change Traced s (execMergeSegment kind blk off n s)
    unfold execMergeSegment
    split
    · exact runSubStep_traced (Sends.mergeSegment kind blk off n) hcalm somewhere_calm fun _ => somewhere_calm
    · trivial
  | fullBlock kind blk => exact runSubStep_traced (Sends.fullBlock kind blk) hcalm somewhere_calm fun _ => somewhere_calm

/-! ## The select line between inputs -/

/-- A sub-step that has returned leaves the select line low if it was low; one that has raised leaves it low. -/
theorem runSubStep_select {s0 t : State} {toResult : α → Result} {m : M α} {Q : α → State → Prop}
    (h : Sends s0 (Sends.Low s0) P m Q) (hp : P s0) (hq : ∀ a t, Q a t → s0.sel = false → t.sel = false)
    (htop : Keeps (fun t => t.top = s0.top) R m) (hs : s0.top = .idle → s0.sel = false)
    (ht : runSubStep toResult m s0 = .next t) : t.top = .idle → t.sel = false := by
  have h := h s0 hp
  obtain ⟨a, u, hu, rfl⟩ | ⟨e, u, hu, rfl⟩ := runSubStep_next ht
  · rw [hu] at h
    intro hi
    exact hq a u h (hs ((htop.ok rfl hu).symm.trans hi))
  · rw [hu] at h
    intro _
    rw [errorExit_sel]
    exact h.2

/-- A request leaves the select line low if it was low. -/
theorem serve_select {s0 t : State} {op : HostOp} {m : M Completion} {Q : Completion → State → Prop}
    (h : Sends s0 (Calm s0) P m Q) (hp : P (s0.accept op)) (hq : ∀ a t, Q a t → s0.sel = false → t.sel = false)
    (hs : s0.top = .idle → s0.sel = false) (ht : serve op m s0 = .next t) : t.sel = false := by
  have h := h _ hp
  obtain ⟨hi, ⟨c, u, hu, rfl⟩ | ⟨e, u, hu, rfl⟩⟩ := serve_next ht
  · rw [hu] at h
    exact hq c u h (hs hi)
  · rw [hu] at h
    rw [errorExit_sel]
    exact h.2 (hs hi)

theorem top_moves (x : Top) : BusMoves (fun t => t.top = x) fun _ _ => True := by
  constructor
  case perform => exact fun c s h _ => by cases c <;> exact h
  case silent => exact fun _ _ h _ => ⟨h, trivial⟩
  all_goals (intros; trivial)

/-- An instruction the decoder can give leaves `SEL = 0` whenever it leaves the engine IDLE. -/
theorem decoded_select {p : Params} {w : Input} {i : Instr} (hd : decode p w = .ok i) {s t : State}
    (hs : s.top = .idle → s.sel = false) (ht : exec i s = .next t) : t.top = .idle → t.sel = false := by
  have hout : Outside s s := At.here s
  have hcalm : Calm s s := Calm.here s
  have hin := In.here s
  have hb := top_moves s.top
  have low : ∀ {α : Type} (a : α) (t : State), Sends.Low s t → s.sel = false → t.sel = false := fun _ _ h _ => h.2
  have kept : ∀ {α : Type} (a : α) (t : State), In s .outside s.sel t → s.sel = false → t.sel = false :=
    fun _ _ h hs => h.2.trans hs
  have weak : ∀ {m : M Completion} {P : State → Prop}, Sends s (Sends.Low s) P m (fun _ => Sends.Low s) →
      Sends s (Calm s) P m fun _ => Sends.Low s :=
    fun h => h.weaken (fun _ h => h) (fun _ h => h.calm) fun _ _ h => h
  have hspell := decode_spelled hd
  cases i with
  | cmd0 => exact runSubStep_select (Sends.command (Sends.emitted_cmd0 _)) hout low (Keeps.command hb _ _) hs ht
  | cmd8 => exact runSubStep_select Sends.probeInterfaceCondition hout low (Keeps.probeInterfaceCondition hb) hs ht
  | cmd9 => exact runSubStep_select Sends.readCSD hout low (Keeps.readCSD hb) hs ht
  | cmd16 => exact runSubStep_select (Sends.command (Sends.emitted_cmd16 _)) hout low (Keeps.command hb _ _) hs ht
  | cmd17 a => exact runSubStep_select (Sends.readBlockFrom a) hout low (Keeps.readBlockFrom hb a) hs ht
  | cmd24 a => exact runSubStep_select (Sends.writeBlockTo a) hout low (Keeps.writeBlockTo hb a) hs ht
  | cmd55 => exact runSubStep_select (Sends.command (Sends.emitted_cmd55 _)) hout low (Keeps.command hb _ _) hs ht
  | acmd41V1 =>
    exact runSubStep_select (Sends.command (Sends.emitted_cmd41 _ _ (.inl rfl))) hout low (Keeps.command hb _ _) hs ht
  | acmd41V2 =>
    exact runSubStep_select (Sends.command (Sends.emitted_cmd41 _ _ (.inr rfl))) hout low (Keeps.command hb _ _) hs ht
  | cmd58 => exact runSubStep_select Sends.readOcr hout low (Keeps.readOcr hb) hs ht
  | r1 f => exact runSubStep_select (Sends.responseByte f _) hin kept (Keeps.responseByte hb f) hs ht
  | startToken => exact runSubStep_select (Sends.tokenByte _) hin kept (Keeps.tokenByte hb) hs ht
  | dataResponseAccept x => exact runSubStep_select (Sends.acceptByte x _) hin kept (Keeps.acceptByte hb x) hs ht
  | busy => exact runSubStep_select (Sends.busyByte _) hin kept (Keeps.busyByte hb) hs ht
  | filler => exact runSubStep_select (Sends.filler _) hin kept (Keeps.xfer hb _) hs ht
  | init => exact fun _ => serve_select (weak Sends.initOp) hout low hs ht
  | read o n b => exact fun _ => serve_select (Sends.rangeOp .read o n b) hcalm (fun _ _ h => h.2) hs ht
  | write o n b => exact fun _ => serve_select (Sends.rangeOp .write o n b) hcalm (fun _ _ h => h.2) hs ht
  | erase o n => exact fun _ => serve_select (Sends.rangeOp .erase o n 0) hcalm (fun _ _ h => h.2) hs ht
  | capacity => exact fun _ => serve_select (weak Sends.capacityOp) hout low hs ht
  | status =>
    exact fun _ => serve_select (P := Calm s) (Q := fun _ => Calm s)
      (Sends.bind (Q := fun _ => Calm s) (Sends.look fun _ h => h) fun _ => Sends.pure fun _ h => h) hcalm
      (fun _ _ h => h.2) hs ht
  | _ => cases hspell

end Sys2Proof.Laws
end

