-- ==== Sys2Proof/Laws/Uniform.lean ====
section
/-! SUPPORT. An instruction takes the same course however many bus calls return, up to the call that does not, and makes no
bus event between two calls: the steps of Machine/Sequencer.lean end as `exec` does. -/

namespace Sys2Proof.Laws

open Sys2Proof.Machine

variable {α β : Type}

/-- The state with so many bus calls to return. -/
abbrev limit (k : Nat) (s : State) : State := { s with busAnswers := some k }

/-- A bus call has not returned. -/
def Stuck (r : EStateM.Result Stop State α) : Prop := ∃ u t, r = .error (.fault (.busNeverReturns u)) t

/-- `m` needs `n` bus calls to return from `s`; `r` is what it comes to, by the calls left. -/
def Needs (m : M α) (s : State) (n : Nat) (r : Nat → EStateM.Result Stop State α) : Prop :=
  (∀ j, m (limit (n + j) s) = r j) ∧ ∀ k, k < n → Stuck (m (limit k s))

/-- Is it the fault of a bus call that never returns? -/
def isBusFault : Fault → Bool
  | .busNeverReturns _ => true
  | _ => false

/-- A sub-step that returns or raises while every bus call returns does so too when just enough of them do. -/
def Course (m : M α) : Prop :=
  ∀ s, s.busAnswers = none →
    (∀ a t, m s = .ok a t → t.busAnswers = none ∧ ∃ n, Needs m s n fun j => .ok a (limit j t)) ∧
    (∀ e t, m s = .error (.raised e) t → t.busAnswers = none ∧ ∃ n, Needs m s n fun j => .error (.raised e) (limit j t))

/-- The bus trace a sub-step leaves. -/
def traceOf : EStateM.Result Stop State α → List BusEvent
  | .ok _ t => t.trace
  | .error _ t => t.trace

/-- How a sub-step depends on the number of bus calls that return: `course`; with none returning the trace stays as it is;
one more to return changes nothing once it has returned; and where it is stuck in `u`, one more takes it on from the call
that `u` waits for, with no further bus event. -/
structure Uniform (m : M α) : Prop where
  course : Course m
  idle : ∀ s, traceOf (m (limit 0 s)) = s.trace
  goesOn : ∀ s k a t, m (limit k s) = .ok a t →
    ∃ j, j ≤ k ∧ t.busAnswers = some j ∧ m (limit (k + 1) s) = .ok a (limit (j + 1) t)
  resumes : ∀ s k u t, m (limit k s) = .error (.fault (.busNeverReturns u)) t →
    t = u ∧ traceOf (m (limit (k + 1) s)) = u.answered.trace ∧
      ∀ a v, m (limit (k + 1) s) = .ok a v → v.busAnswers = some 0

/-- An update that neither reads nor writes the number of calls to return or the trace. -/
def Blind (f : State → State) : Prop :=
  ∀ (s : State) (b : Option Nat) (es : List BusEvent),
    f { s with busAnswers := b, trace := es } = { f s with busAnswers := b, trace := es }

theorem Blind.trace {f : State → State} (h : Blind f) (s : State) : (f s).trace = s.trace := by
  have h := congrArg State.trace (h s s.busAnswers s.trace)
  exact h

theorem Blind.answers {f : State → State} (h : Blind f) (s : State) : (f s).busAnswers = s.busAnswers := by
  have h := congrArg State.busAnswers (h s s.busAnswers s.trace)
  exact h

theorem Blind.limit {f : State → State} (h : Blind f) (s : State) (k : Nat) : f (limit k s) = Laws.limit k (f s) := by
  refine (h s (some k) s.trace).trans ?_
  rw [← h.trace s]

theorem limit_self {k : Nat} {s : State} (h : s.busAnswers = some k) : limit k s = s := by
  unfold limit
  rw [← h]

namespace Uniform

theorem returns {m : M α} {f : State → State} {g : State → α} (h : ∀ s, m s = .ok (g s) (f s)) (hf : Blind f)
    (hg : ∀ s k, g (limit k s) = g s) : Uniform m where
  course := by
    intro s hs
    rw [h s]
    refine ⟨fun a t ht => ?_, fun e t ht => (nomatch ht)⟩
    obtain ⟨rfl, rfl⟩ : g s = a ∧ f s = t := by
      injection ht with h1 h2
      exact ⟨h1, h2⟩
    refine ⟨(hf.answers s).trans hs, 0, fun j => ?_, fun _ hk => absurd hk (Nat.not_lt_zero _)⟩
    rw [Nat.zero_add, h, hf.limit, hg]
  idle s := by
    rw [h]
    exact hf.trace _
  goesOn s k a t ht := by
    rw [h, hf.limit, hg] at ht
    obtain ⟨rfl, rfl⟩ : g s = a ∧ limit k (f s) = t := by
      injection ht with h1 h2
      exact ⟨h1, h2⟩
    exact ⟨k, Nat.le_refl k, rfl, by rw [h, hf.limit, hg]⟩
  resumes s k u t ht := by
    rw [h] at ht
    cases ht

theorem blind_id : Blind id := fun _ _ _ => rfl

theorem pure (a : α) : Uniform (pure a : M α) :=
  returns (f := id) (g := fun _ => a) (fun _ => rfl) blind_id fun _ _ => rfl

theorem raise (e : Err) : Uniform (raise e : M α) where
  course := by
    intro s hs
    rw [run_raise]
    refine ⟨fun a t ht => (nomatch ht), fun e' t ht => ?_⟩
    obtain ⟨rfl, rfl⟩ : e = e' ∧ s = t := by
      injection ht with h1 h2
      injection h1 with h1
      exact ⟨h1, h2⟩
    refine ⟨hs, 0, fun j => ?_, fun _ hk => absurd hk (Nat.not_lt_zero _)⟩
    rw [Nat.zero_add, run_raise]
  idle s := by
    rw [run_raise]
    rfl
  goesOn s k a t ht := by
    rw [run_raise] at ht
    cases ht
  resumes s k u t ht := by
    rw [run_raise] at ht
    injection ht with h
    cases h

/-- A stop for another reason than the bus. -/
theorem stop {f : State → Fault} (hf : ∀ s, isBusFault (f s) = false) : Uniform (stop f : M α) where
  course := by
    intro s hs
    rw [run_stop]
    exact ⟨fun a t ht => (nomatch ht), fun e t ht => (nomatch ht)⟩
  idle s := by
    rw [run_stop]
    rfl
  goesOn s k a t ht := by
    rw [run_stop] at ht
    cases ht
  resumes s k u t ht := by
    rw [run_stop] at ht
    injection ht with h
    injection h with h
    have hu := hf (limit k s)
    rw [h] at hu
    cases hu

theorem look {f : State → α} (hf : ∀ s k, f (limit k s) = f s) : Uniform (look f) :=
  returns (f := id) (run_look f) blind_id hf

theorem update {f : State → State} (hf : Blind f) : Uniform (update f) :=
  returns (g := fun _ => ()) (run_update f) hf fun _ _ => rfl

theorem perform_limit (c : BusCall) (s : State) (k : Nat) : (limit k s).perform c = limit k (s.perform c) := by
  cases c <;> rfl

theorem perform_busAnswers (c : BusCall) (s : State) : (s.perform c).busAnswers = s.busAnswers := by
  cases c <;> rfl

theorem busCall_limit (c : BusCall) (s : State) (j : Nat) :
    Machine.busCall c (limit (j + 1) s) = .ok () (limit j (s.perform c)) := by
  rw [busCall_returns (show some (j + 1) ≠ some 0 by simp), show (limit (j + 1) s).spendAnswer = limit j s by
    unfold State.spendAnswer limit
    simp, perform_limit]

theorem answered_await (c : BusCall) (s : State) : ((limit 0 s).await c).answered.trace = (s.perform c).trace := by
  cases c <;> rfl

theorem busCall (c : BusCall) : Uniform (busCall c) where
  course := by
    intro s hs
    rw [busCall_answered hs]
    refine ⟨fun _ t ht => ?_, fun e t ht => (nomatch ht)⟩
    obtain rfl : s.perform c = t := by
      injection ht
    refine ⟨(perform_busAnswers c s).trans hs, 1, fun j => ?_, fun k hk => ?_⟩
    · rw [Nat.add_comm, busCall_limit]
    · obtain rfl : k = 0 := by omega
      exact ⟨_, _, busCall_stuck rfl c⟩
  idle s := by
    rw [busCall_stuck rfl c]
    rfl
  goesOn s k a t ht := by
    cases k with
    | zero =>
      rw [busCall_stuck rfl c] at ht
      cases ht
    | succ k =>
      rw [busCall_limit] at ht
      obtain rfl : limit k (s.perform c) = t := by
        injection ht
      exact ⟨k, by omega, rfl, busCall_limit c s (k + 1)⟩
  resumes s k u t ht := by
    cases k with
    | zero =>
      rw [busCall_stuck rfl c] at ht
      obtain ⟨rfl, rfl⟩ : (limit 0 s).await c = u ∧ (limit 0 s).await c = t := by
        injection ht with h1 h2
        injection h1 with h1
        injection h1 with h1
        exact ⟨h1, h2⟩
      rw [busCall_limit c s 0]
      refine ⟨rfl, (answered_await c s).symm, fun a v hv => ?_⟩
      injection hv with _ h
      rw [← h]
    | succ k =>
      rw [busCall_limit] at ht
      cases ht

theorem needs_bind {m : M α} {k : α → M β} {s t : State} {a : α} {n n' : Nat} {r : Nat → EStateM.Result Stop State β}
    (h : Needs m s n fun j => .ok a (limit j t)) (h' : Needs (k a) t n' r) : Needs (m >>= k) s (n + n') r := by
  refine ⟨fun j => ?_, fun i hi => ?_⟩
  · rw [Nat.add_assoc, bind_ok (h.1 _)]
    exact h'.1 j
  · by_cases hn : i < n
    · obtain ⟨u, v, hx⟩ := h.2 i hn
      exact ⟨u, v, bind_error hx _⟩
    · obtain ⟨d, rfl⟩ := Nat.exists_eq_add_of_le (Nat.le_of_not_lt hn)
      rw [bind_ok (h.1 d)]
      exact h'.2 d (by omega)

theorem needs_bind_error {m : M α} {k : α → M β} {s t : State} {e : Stop} {n : Nat}
    (h : Needs m s n fun j => .error e (limit j t)) : Needs (m >>= k) s n fun j => .error e (limit j t) := by
  refine ⟨fun j => bind_error (h.1 j) _, fun i hi => ?_⟩
  obtain ⟨u, v, hx⟩ := h.2 i hi
  exact ⟨u, v, bind_error hx _⟩

theorem bind_course {m : M α} {k : α → M β} (hm : Course m) (hk : ∀ a, Course (k a)) : Course (m >>= k) := by
  intro s hs
  have h := hm s hs
  rw [run_bind]
  revert h
  cases hx : m s with
  | ok a t =>
    intro h
    obtain ⟨ht, n, hn⟩ := h.1 a t rfl
    have h' := hk a t ht
    refine ⟨fun b u hu => ?_, fun e u hu => ?_⟩
    · obtain ⟨hb, n', hn'⟩ := h'.1 b u hu
      exact ⟨hb, _, needs_bind hn hn'⟩
    · obtain ⟨hb, n', hn'⟩ := h'.2 e u hu
      exact ⟨hb, _, needs_bind hn hn'⟩
  | error x t =>
    intro h
    refine ⟨fun b u hu => (nomatch hu), fun e u hu => ?_⟩
    cases hu
    obtain ⟨hb, n, hn⟩ := h.2 e t rfl
    exact ⟨hb, n, needs_bind_error hn⟩

theorem bind {m : M α} {k : α → M β} (hm : Uniform m) (hk : ∀ a, Uniform (k a)) : Uniform (m >>= k) where
  course := bind_course hm.course fun a => (hk a).course
  idle s := by
    have h := hm.idle s
    cases hx : m (limit 0 s) with
    | ok a t =>
      rw [hx] at h
      obtain ⟨j, hj, ht, -⟩ := hm.goesOn s 0 a t hx
      obtain rfl : j = 0 := by omega
      rw [bind_ok hx, ← limit_self ht, (hk a).idle]
      exact h
    | error e t =>
      rw [hx] at h
      rw [bind_error hx]
      exact h
  goesOn s i b u hu := by
    cases hx : m (limit i s) with
    | ok a t =>
      rw [bind_ok hx] at hu
      obtain ⟨j, hj, ht, h1⟩ := hm.goesOn s i a t hx
      rw [← limit_self ht] at hu
      obtain ⟨j', hj', h2, h3⟩ := (hk a).goesOn t j b u hu
      exact ⟨j', by omega, h2, by rw [bind_ok h1, h3]⟩
    | error e t =>
      rw [bind_error hx] at hu
      cases hu
  resumes s i u t ht := by
    cases hx : m (limit i s) with
    | ok a v =>
      rw [bind_ok hx] at ht
      obtain ⟨j, hj, hv, h1⟩ := hm.goesOn s i a v hx
      rw [← limit_self hv] at ht
      rw [bind_ok h1]
      exact (hk a).resumes v j u t ht
    | error e v =>
      rw [bind_error hx] at ht
      obtain ⟨rfl, rfl⟩ : e = .fault (.busNeverReturns u) ∧ v = t := by
        injection ht with h1 h2
        exact ⟨h1, h2⟩
      obtain ⟨h1, h2, h3⟩ := hm.resumes s i u v hx
      refine ⟨h1, ?_⟩
      cases hy : m (limit (i + 1) s) with
      | ok a w =>
        rw [hy] at h2
        have h0 := h3 a w hy
        rw [bind_ok hy, ← limit_self h0, (hk a).idle]
        refine ⟨h2, fun b x hb => ?_⟩
        obtain ⟨j, hj, hx, -⟩ := (hk a).goesOn w 0 b x hb
        obtain rfl : j = 0 := by omega
        exact hx
      | error e w =>
        rw [hy] at h2
        rw [bind_error hy]
        exact ⟨h2, fun b x hb => (nomatch hb)⟩

theorem ite {c : Prop} [Decidable c] {m n : M α} (hm : Uniform m) (hn : Uniform n) : Uniform (if c then m else n) := by
  split
  · exact hm
  · exact hn

theorem onRaise_course {f : State → State} {m : M α} (hm : Course m) (hf : Blind f) : Course (onRaise f m) := by
  intro s hs
  have h := hm s hs
  have stuck : ∀ {n r}, Needs m s n r → ∀ k, k < n → Stuck (Machine.onRaise f m (limit k s)) := fun hn k hk => by
    obtain ⟨u, v, hx⟩ := hn.2 k hk
    exact ⟨u, v, onRaise_fault hx⟩
  revert h
  cases hx : m s with
  | ok a t =>
    intro h
    rw [onRaise_ok hx]
    refine ⟨fun b u hu => ?_, fun e u hu => (nomatch hu)⟩
    cases hu
    obtain ⟨hb, n, hn⟩ := h.1 a t rfl
    exact ⟨hb, n, fun j => onRaise_ok (hn.1 j), stuck hn⟩
  | error x t =>
    cases x with
    | fault g =>
      intro h
      rw [onRaise_fault hx]
      exact ⟨fun _ _ hu => (nomatch hu), fun _ _ hu => (nomatch hu)⟩
    | raised e =>
      intro h
      rw [onRaise_raised hx]
      refine ⟨fun b u hu => (nomatch hu), fun e u hu => ?_⟩
      cases hu
      obtain ⟨hb, n, hn⟩ := h.2 e t rfl
      exact ⟨(hf.answers t).trans hb, n, fun j => by rw [onRaise_raised (hn.1 j), hf.limit], stuck hn⟩

theorem onRaise_trace {f : State → State} (hf : Blind f) (m : M α) (s : State) :
    traceOf (Machine.onRaise f m s) = traceOf (m s) := by
  cases hx : m s with
  | ok a t => rw [onRaise_ok hx]
  | error x t =>
    cases x with
    | fault g => rw [onRaise_fault hx]
    | raised e =>
      rw [onRaise_raised hx]
      exact hf.trace t

theorem onRaise_eq_ok {f : State → State} {m : M α} {a : α} {s t : State} (h : Machine.onRaise f m s = .ok a t) :
    m s = .ok a t := by
  unfold Machine.onRaise at h
  split at h
  · rw [← h]
    assumption
  · cases h
  · cases h

theorem onRaise_eq_fault {f : State → State} {m : M α} {g : Fault} {s t : State}
    (h : Machine.onRaise f m s = .error (.fault g) t) : m s = .error (.fault g) t := by
  unfold Machine.onRaise at h
  split at h
  · cases h
  · injection h with h _
    cases h
  · rw [← h]
    assumption

theorem onRaise {f : State → State} {m : M α} (hm : Uniform m) (hf : Blind f) : Uniform (onRaise f m) where
  course := onRaise_course hm.course hf
  idle s := by rw [onRaise_trace hf, hm.idle]
  goesOn s k a t ht := by
    obtain ⟨j, hj, h1, h2⟩ := hm.goesOn s k a t (onRaise_eq_ok ht)
    exact ⟨j, hj, h1, onRaise_ok h2⟩
  resumes s k u t ht := by
    obtain ⟨h1, h2, h3⟩ := hm.resumes s k u t (onRaise_eq_fault ht)
    exact ⟨h1, by rw [onRaise_trace hf, h2], fun a v hv => h3 a v (onRaise_eq_ok hv)⟩

theorem settleDuties : Blind settleDuties := fun s b es => by
  show (if _ then _ else _) = _
  rw [show State.bufferSound { s with busAnswers := b, trace := es } = s.bufferSound from rfl]
  unfold Machine.settleDuties
  split <;> rfl

theorem settled {m : M α} (hm : Uniform m) : Uniform (settled m) := by
  rw [settled_eq]
  exact (hm.onRaise settleDuties).bind fun a => (update settleDuties).bind fun _ => pure a

theorem settledFor {kind : MapKind} {m : M α} (hm : Uniform m) : Uniform (settledFor kind m) := by
  cases kind with
  | erase => exact hm
  | read | write => exact hm.settled

/-! ## The bus side -/

theorem sel (v : Bool) : Uniform (sel v) := bind (look fun _ _ => rfl) fun _ => ite (pure ()) (busCall _)

theorem xfer (tx : Byte) : Uniform (xfer tx) := bind (look fun _ _ => rfl) fun _ => (busCall _).bind fun _ => pure _

theorem sendAll (bs : List Byte) : Uniform (sendAll bs) := by
  induction bs with
  | nil => exact pure ()
  | cons b bs ih => exact (xfer b).bind fun _ => ih

theorem frame (idx : CmdIndex) (arg : U32) (close : Byte) : Uniform (frame idx arg close) :=
  bind (update fun _ _ _ => rfl) fun _ => (sel true).bind fun _ => sendAll _

theorem pollLoop (fuel : Nat) : Uniform (pollLoop fuel) := by
  induction fuel with
  | zero => exact bind (update fun _ _ _ => rfl) fun _ => pure _
  | succ fuel ih =>
    refine bind (update fun _ _ _ => rfl) fun _ => (xfer _).bind fun rx => ?_
    split
    · exact bind (update fun _ _ _ => rfl) fun _ => pure _
    · exact ih

theorem poll : Uniform poll := bind (update fun _ _ _ => rfl) fun _ => bind (look fun _ _ => rfl) fun n => pollLoop n

theorem release : Uniform release := (sel false).bind fun _ => (xfer _).bind fun _ => pure ()

theorem command (idx : CmdIndex) (arg : U32) : Uniform (command idx arg) :=
  bind (look fun _ _ => rfl) fun _ => (frame _ _ _).bind fun _ => poll.bind fun _ => release.bind fun _ => pure _

theorem commandNoDeselect (idx : CmdIndex) (arg : U32) : Uniform (commandNoDeselect idx arg) := by
  refine bind (look fun _ _ => rfl) fun _ => (frame _ _ _).bind fun _ => poll.bind fun r => ?_
  cases r with
  | timeout => exact release.bind fun _ => pure _
  | r1 f => exact pure _

theorem trailingByte : Uniform trailingByte := bind (update fun _ _ _ => rfl) fun _ => xfer _

theorem trailingBytes : Uniform trailingBytes :=
  bind (update fun _ _ _ => rfl) fun _ => trailingByte.bind fun _ => trailingByte.bind fun _ => trailingByte.bind fun _ =>
    trailingByte.bind fun _ => pure _

theorem probeInterfaceCondition : Uniform probeInterfaceCondition := by
  refine bind (look fun _ _ => rfl) fun _ => (frame _ _ _).bind fun _ => poll.bind fun r => ?_
  cases r with
  | timeout => exact release.bind fun _ => pure _
  | r1 f => exact trailingBytes.bind fun _ => release.bind fun _ => pure _

theorem readOcr : Uniform readOperatingConditionRegister := by
  refine bind (look fun _ _ => rfl) fun _ => (frame _ _ _).bind fun _ => poll.bind fun r => ?_
  cases r with
  | timeout => exact release.bind fun _ => bind (look fun _ _ => rfl) fun _ => pure _
  | r1 f =>
    exact trailingBytes.bind fun _ => bind (update fun _ _ _ => rfl) fun _ => release.bind fun _ =>
      bind (look fun _ _ => rfl) fun _ => pure _

theorem tokenLoop (fuel : Nat) : Uniform (tokenLoop fuel) := by
  induction fuel with
  | zero => exact pure _
  | succ fuel ih =>
    exact bind (update fun _ _ _ => rfl) fun _ => (xfer _).bind fun _ =>
      ite (bind (update fun _ _ _ => rfl) fun _ => pure _) ih

theorem tokenPoll : Uniform tokenPoll := bind (update fun _ _ _ => rfl) fun _ => bind (update fun _ _ _ => rfl) fun _ =>
    bind (look fun _ _ => rfl) fun n => tokenLoop n

theorem setBufferByte (dst : DataBuffer) (k : Nat) (b : Byte) : Uniform (Machine.update (State.setBufferByte dst k b)) := by
  cases dst <;> exact update fun _ _ _ => rfl

theorem receivePayload (dst : DataBuffer) (fuel k : Nat) : Uniform (receivePayload dst fuel k) := by
  induction fuel generalizing k with
  | zero => exact pure _
  | succ fuel ih =>
    exact (xfer _).bind fun rx => (setBufferByte dst k rx).bind fun _ =>
      bind (update fun _ _ _ => rfl) fun _ => ih (k + 1)

theorem checksumBytes : Uniform checksumBytes := (xfer _).bind fun _ => (xfer _).bind fun _ => pure _

theorem readData (n : Nat) (dst : DataBuffer) : Uniform (readData n dst) :=
  (sel true).bind fun _ => tokenPoll.bind fun _ =>
    ite (bind (update fun _ _ _ => rfl) fun _ => (receivePayload dst n 0).bind fun _ => checksumBytes.bind fun _ =>
      release)
      (release.bind fun _ => raise _)

theorem requireReady (r : Resp) : Uniform (requireReady r) := by
  cases r with
  | timeout => exact raise _
  | r1 f => exact ite (pure _) (release.bind fun _ => raise _)

theorem freeVector_blind (n : Nat) (s : State) (b : Option Nat) (es : List BusEvent) :
    State.freeVector n { s with busAnswers := b, trace := es } = s.freeVector n := by
  unfold State.freeVector
  rfl

theorem freeScratch : Blind State.freeScratch := fun s b es => by
  unfold State.freeScratch
  rw [freeVector_blind]

theorem freeCsd : Blind State.freeCsd := fun s b es => by
  unfold State.freeCsd
  rw [freeVector_blind]

theorem freeBuffer (dst : DataBuffer) : Blind (State.freeBuffer dst) := by
  cases dst with
  | csd => exact freeCsd
  | scratch => exact freeScratch

theorem readBlockFrom (a : U32) : Uniform (readBlockFrom a) :=
  onRaise ((commandNoDeselect 17 a).bind fun r => (requireReady r).bind fun _ => readData 512 .scratch) freeScratch

theorem checkDataResponse : Uniform checkDataResponse :=
  (xfer _).bind fun _ => bind (update fun _ _ _ => rfl) fun _ => ite (pure _) ((sel false).bind fun _ => raise _)

theorem busyLoop (fuel : Nat) : Uniform (busyLoop fuel) := by
  induction fuel with
  | zero => exact release.bind fun _ => raise _
  | succ fuel ih => exact bind (update fun _ _ _ => rfl) fun _ => (xfer _).bind fun rx => ite ih (pure _)

theorem waitNotBusy : Uniform waitNotBusy := bind (update fun _ _ _ => rfl) fun _ =>
    bind (look fun _ _ => rfl) fun n => busyLoop n

theorem gapLoop (fuel : Nat) : Uniform (gapLoop fuel) := by
  induction fuel with
  | zero => exact pure _
  | succ fuel ih => exact bind (update fun _ _ _ => rfl) fun _ => (xfer _).bind fun _ => ih

theorem sendPayload (bs : List Byte) : Uniform (sendPayload bs) := by
  induction bs with
  | nil => exact pure _
  | cons b bs ih => exact (xfer b).bind fun _ => bind (update fun _ _ _ => rfl) fun _ => ih

theorem writeBlockTo (a : U32) : Uniform (writeBlockTo a) :=
  onRaise
    ((commandNoDeselect 24 a).bind fun r => (requireReady r).bind fun _ => (sel true).bind fun _ =>
      bind (update fun _ _ _ => rfl) fun _ => bind (look fun _ _ => rfl) fun n => (gapLoop n).bind fun _ =>
        (xfer _).bind fun _ => bind (update fun _ _ _ => rfl) fun _ =>
        bind (look fun _ _ => rfl) fun bs => (sendPayload bs).bind fun _ => checksumBytes.bind fun _ =>
          checkDataResponse.bind fun _ =>
          waitNotBusy.bind fun _ => release)
    freeScratch

theorem readCSD : Uniform readCSD :=
  onRaise ((commandNoDeselect 9 0).bind fun r => (requireReady r).bind fun _ => readData 16 .csd) freeCsd

/-! ## Bring-up and INIT -/

theorem failBringUp (e : Err) : Uniform (failBringUp e) := bind (update fun _ _ _ => rfl) fun _ => raise _

theorem resetLoop (fuel : Nat) : Uniform (resetLoop fuel) := by
  induction fuel with
  | zero => exact pure _
  | succ fuel ih => exact bind (update fun _ _ _ => rfl) fun _ => (command 0 0).bind fun _ => ih

theorem acmd41 (arg : U32) : Uniform (acmd41 arg) := (command 55 0).bind fun _ => command 41 arg

theorem v1Loop (fuel : Nat) : Uniform (v1Loop fuel) := by
  induction fuel with
  | zero => exact failBringUp _
  | succ fuel ih =>
    exact bind (update fun _ _ _ => rfl) fun _ => (acmd41 0).bind fun _ =>
      ite (bind (update fun _ _ _ => rfl) fun _ => update fun _ _ _ => rfl) ih

theorem v2Loop (fuel : Nat) : Uniform (v2Loop fuel) := by
  induction fuel with
  | zero => exact failBringUp _
  | succ fuel ih =>
    have hrest : ∀ hcs : U32, Uniform (do
        let r ← Machine.acmd41 hcs
        if r = r1Ready then do
          let _ ← readOperatingConditionRegister
          Machine.update (State.setDivisor 1)
          Machine.update (State.setBr .ready)
        else Machine.v2Loop fuel) := fun hcs =>
      (acmd41 hcs).bind fun _ => ite (readOcr.bind fun _ => bind (update fun _ _ _ => rfl) fun _ =>
        update fun _ _ _ => rfl) ih
    refine bind (update fun _ _ _ => rfl) fun _ => bind (look fun _ _ => rfl) fun k => ?_
    split
    · exact bind (look fun _ _ => rfl) fun ms => (busCall (.wait ms)).bind fun _ => readOcr.bind fun _ =>
      bind (look fun _ _ => rfl) fun hcs => hrest hcs
    · exact readOcr.bind fun _ => bind (look fun _ _ => rfl) fun hcs => hrest hcs

theorem versionProbe : Uniform versionProbe :=
  probeInterfaceCondition.bind fun _ =>
    ite (bind (update fun _ _ _ => rfl) fun _ => bind (update fun _ _ _ => rfl) fun _ =>
      bind (look fun _ _ => rfl) fun n => v2Loop n)
      (ite (bind (update fun _ _ _ => rfl) fun _ => bind (update fun _ _ _ => rfl) fun _ =>
        bind (look fun _ _ => rfl) fun n => v1Loop n) (failBringUp _))

theorem bringUp : Uniform bringUp :=
  bind (update fun _ _ _ => rfl) fun _ => bind (update fun _ _ _ => rfl) fun _ => bind (look fun _ _ => rfl) fun n =>
    (resetLoop n).bind fun _ => (command 0 0).bind fun _ =>
    ite (bind (update fun _ _ _ => rfl) fun _ => versionProbe) (failBringUp _)

theorem refreshSectorCount : Uniform refreshSectorCount :=
  bind (look fun _ _ => rfl) fun _ => ite (bind (update fun _ _ _ => rfl) fun _ => pure _) (raise _)

theorem initOp : Uniform initOp :=
  bind (update fun _ _ _ => rfl) fun _ => bringUp.bind fun _ => readCSD.bind fun _ => refreshSectorCount.bind fun _ =>
    (command 16 512).bind fun r => (show Uniform (requireBlockLength r) from ite (pure _) (raise _)).bind fun _ =>
      bind (update fun _ _ _ => rfl) fun _ => pure _

theorem capacityOp : Uniform capacityOp := readCSD.bind fun _ => refreshSectorCount.bind fun _ => pure _

/-! ## The mapper -/

theorem readDivisor : Uniform readDivisor := look fun _ _ => rfl

theorem blockAddress (blk : U64) : Uniform (blockAddress blk) :=
  readDivisor.bind fun _ => ite (pure _) (stop (f := .addressOverflow blk) fun _ => rfl)

theorem readBlockAt (blk : U64) : Uniform (readBlockAt blk) := (blockAddress blk).bind fun a => readBlockFrom a

theorem writeBlockAt (blk : U64) : Uniform (writeBlockAt blk) := (blockAddress blk).bind fun a => writeBlockTo a

theorem memWrite (a : Nat) (bytes : List Byte) : Uniform (memWrite a bytes) :=
  update fun s b es => by
    dsimp only
    rw [show State.accessSound a bytes.length { s with busAnswers := b, trace := es } = s.accessSound a bytes.length
      from rfl]
    split <;> rfl

theorem loadScratch (off a n : Nat) : Uniform (loadScratch off a n) :=
  update fun s b es => by
    dsimp only
    rw [show State.accessSound a n { s with busAnswers := b, trace := es } = s.accessSound a n from rfl]
    split
    · rfl
    · exact freeScratch s b es

theorem overlayScratch (off : Nat) (bs : List Byte) : Blind fun s => s.setScratch (overlay s.scratch off bs) :=
  fun _ _ _ => rfl

theorem advance (n : U64) : Blind (Machine.advance n) := fun _ _ _ => rfl

theorem mergeSegment (kind : MapKind) (blk : U64) (off n : Nat) : Uniform (mergeSegment kind blk off n) := by
  refine (readBlockAt blk).bind fun _ => ?_
  cases kind with
  | read => exact bind (look fun _ _ => rfl) fun a => bind (look fun _ _ => rfl) fun bs => memWrite a bs
  | write => exact bind (look fun _ _ => rfl) fun a => (loadScratch off a n).bind fun _ => writeBlockAt blk
  | erase => exact bind (update (overlayScratch _ _)) fun _ => writeBlockAt blk

theorem fullBlock (kind : MapKind) (blk : U64) : Uniform (fullBlock kind blk) := by
  cases kind with
  | read =>
    exact (readBlockAt blk).bind fun _ => bind (look fun _ _ => rfl) fun a =>
      bind (look fun _ _ => rfl) fun bs => memWrite a bs
  | write => exact bind (look fun _ _ => rfl) fun a => (loadScratch 0 a 512).bind fun _ => writeBlockAt blk
  | erase => exact bind (update (overlayScratch _ _)) fun _ => writeBlockAt blk

theorem bodyLoop (kind : MapKind) (fuel : Nat) : Uniform (bodyLoop kind fuel) := by
  induction fuel with
  | zero => exact pure _
  | succ fuel ih =>
    exact bind (look fun _ _ => rfl) fun _ => ite (bind (look fun _ _ => rfl) fun blk =>
      (fullBlock kind blk).bind fun _ => bind (update (advance 512)) fun _ => ih) (pure _)

theorem segments (kind : MapKind) (o n : U64) : Uniform (segments kind o n) :=
  (show Uniform (headSegment kind o n) from
    bind (update fun _ _ _ => rfl) fun _ => bind (look fun _ _ => rfl) fun m =>
      (mergeSegment kind m.blk m.skew.toNat m.segN.toNat).bind fun _ => update fun _ _ _ => rfl).bind
    fun _ => bind (look fun _ _ => rfl) fun k => (bodyLoop kind k).bind fun _ =>
      bind (look fun _ _ => rfl) fun _ => ite
        (bind (update fun _ _ _ => rfl) fun _ => bind (look fun _ _ => rfl) fun m =>
          (mergeSegment kind m.blk 0 m.segN.toNat).bind fun _ => update fun _ _ _ => rfl) (pure _)

theorem transfer (kind : MapKind) (o n : U64) : Uniform (transfer kind o n) := by
  cases kind with
  | read => exact (segments .read o n).onRaise fun _ _ _ => rfl
  | write | erase => exact segments _ o n

theorem checkBounds (o n : U64) : Uniform (checkBounds o n) :=
  bind (look fun _ _ => rfl) fun _ => ite (pure _) (raise _)

theorem mapper (kind : MapKind) (o n : U64) (buf : Nat) : Uniform (mapper kind o n buf) :=
  bind (update fun _ _ _ => rfl) fun _ => (update freeScratch).bind fun _ =>
    settledFor ((checkBounds o n).bind fun _ => ite (pure _) ((transfer kind o n).bind fun _ => look fun _ _ => rfl))

theorem rangeOp (kind : MapKind) (o n : U64) (buf : Nat) : Uniform (rangeOp kind o n buf) :=
  bind (update fun _ _ _ => rfl) fun _ => bind (look fun _ _ => rfl) fun _ => ite ((mapper kind o n buf).bind fun _ =>
    pure _) (raise _).settledFor

/-! ## Instructions -/

/-- The state an outcome leaves, or is stuck in. -/
def leftIn : Host.Outcome State Fault Refusal → Option State
  | .next t => some t
  | .fault (.busNeverReturns u) => some u
  | _ => none

/-- An instruction that ends does so when just enough bus calls return, and waits for the next one while fewer do; from one
bus call to the next, and from the last one to the end, it makes no bus event. -/
structure Ends (f : State → Host.Outcome State Fault Refusal) : Prop where
  ends : ∀ s t, s.busAnswers = none → f s = .next t →
    ∃ n, f (limit n s) = .next (limit 0 t) ∧ ∀ k, k < n → ∃ u, f (limit k s) = .fault (.busNeverReturns u)
  first : ∀ s v, leftIn (f (limit 0 s)) = some v → v.trace = s.trace
  resumes : ∀ s k u v, f (limit k s) = .fault (.busNeverReturns u) → leftIn (f (limit (k + 1) s)) = some v →
    v.trace = u.answered.trace

theorem errorExit_limit (e : Err) (k : Nat) (s : State) : (limit k s).errorExit e = limit k (s.errorExit e) := by
  unfold State.errorExit
  show (match s.top with | _ => _) = _
  cases s.top with
  | idle => rfl
  | busy op =>
    cases op with
    | read =>
      dsimp only
      split <;> rfl
    | _ => rfl

theorem subStep_left {toResult : α → Result} {m : M α} (hm : Uniform m) {s v : State}
    (h : leftIn (runSubStep toResult m s) = some v) (hs : ∃ k, s.busAnswers = some k) : v.trace = traceOf (m s) := by
  obtain ⟨k, hk⟩ := hs
  revert h
  cases hx : m s with
  | ok a t =>
    rw [runSubStep_ok hx]
    rintro ⟨⟩
    rfl
  | error e t =>
    cases e with
    | raised e =>
      rw [runSubStep_raised hx]
      rintro ⟨⟩
      exact errorExit_trace e _
    | fault g =>
      rw [runSubStep_fault hx]
      cases g with
      | busNeverReturns u =>
        intro h
        obtain rfl : u = v := by injection h
        rw [← limit_self hk] at hx
        obtain ⟨rfl, -, -⟩ := hm.resumes s k u t hx
        rfl
      | _ => exact nofun

theorem runSubStep_eq_fault {toResult : α → Result} {m : M α} {s : State} {g : Fault}
    (h : runSubStep toResult m s = .fault g) : ∃ t, m s = .error (.fault g) t := by
  unfold runSubStep at h
  split at h
  · cases h
  · cases h
  · cases h
    exact ⟨_, ‹_›⟩

theorem subStep {toResult : α → Result} {m : M α} (hm : Uniform m) : Ends (runSubStep toResult m) where
  ends := by
    intro s t hs ht
    obtain ⟨a, u, hu, rfl⟩ | ⟨e, u, hu, rfl⟩ := runSubStep_next ht
    · obtain ⟨_, n, h1, h2⟩ := (hm.course s hs).1 a u hu
      refine ⟨n, runSubStep_ok (h1 0), fun k hk => ?_⟩
      obtain ⟨v, w, hx⟩ := h2 k hk
      exact ⟨v, runSubStep_fault hx⟩
    · obtain ⟨_, n, h1, h2⟩ := (hm.course s hs).2 e u hu
      refine ⟨n, (runSubStep_raised (h1 0)).trans ?_, fun k hk => ?_⟩
      · rw [← errorExit_limit]
        rfl
      · obtain ⟨v, w, hx⟩ := h2 k hk
        exact ⟨v, runSubStep_fault hx⟩
  first s v h := (subStep_left hm h ⟨0, rfl⟩).trans (hm.idle s)
  resumes s k u v h h' := by
    obtain ⟨t, ht⟩ := runSubStep_eq_fault h
    exact (subStep_left hm h' ⟨k + 1, rfl⟩).trans (hm.resumes s k u t ht).2.1

/-- Serving a request is running a sub-step from the accepted state, as far as the trace goes. -/
theorem serve_left {op : HostOp} {m : M Completion} (hm : Uniform m) {s v : State}
    (h : leftIn (serve op m s) = some v) (hs : ∃ k, s.busAnswers = some k) : v.trace = traceOf (m (s.accept op)) := by
  obtain ⟨k, hk⟩ := hs
  by_cases hi : s.top = .idle
  · revert h
    cases hx : m (s.accept op) with
    | ok c t =>
      rw [serve_ok hi hx]
      rintro ⟨⟩
      rfl
    | error e t =>
      cases e with
      | raised e =>
        rw [serve_raised hi hx]
        rintro ⟨⟩
        exact errorExit_trace e _
      | fault g =>
        rw [serve_fault hi hx]
        cases g with
        | busNeverReturns u =>
          intro h
          obtain rfl : u = v := by injection h
          rw [← limit_self (s := s.accept op) hk] at hx
          obtain ⟨rfl, -, -⟩ := hm.resumes _ k u t hx
          rfl
        | _ => exact nofun
  · rw [show serve op m s = .refused .busy from if_neg hi] at h
    cases h

theorem serve_eq_fault {op : HostOp} {m : M Completion} {s : State} {g : Fault} (h : serve op m s = .fault g) :
    ∃ t, m (s.accept op) = .error (.fault g) t := by
  unfold serve at h
  split at h
  · split at h
    · cases h
    · cases h
    · cases h
      exact ⟨_, ‹_›⟩
  · cases h

theorem serve {op : HostOp} {m : M Completion} (hm : Uniform m) : Ends (serve op m) where
  ends := by
    intro s t hs ht
    obtain ⟨hi, ⟨c, u, hu, rfl⟩ | ⟨e, u, hu, rfl⟩⟩ := serve_next ht
    · obtain ⟨_, n, h1, h2⟩ := (hm.course (s.accept op) hs).1 c u hu
      refine ⟨n, serve_ok (s := limit n s) hi (h1 0), fun k hk => ?_⟩
      obtain ⟨v, w, hx⟩ := h2 k hk
      exact ⟨v, serve_fault (s := limit k s) hi hx⟩
    · obtain ⟨_, n, h1, h2⟩ := (hm.course (s.accept op) hs).2 e u hu
      refine ⟨n, (serve_raised (s := limit n s) hi (h1 0)).trans (by rw [errorExit_limit]), fun k hk => ?_⟩
      obtain ⟨v, w, hx⟩ := h2 k hk
      exact ⟨v, serve_fault (s := limit k s) hi hx⟩
  first s v h := (serve_left hm h ⟨0, rfl⟩).trans (hm.idle (s.accept op))
  resumes s k u v h h' := by
    obtain ⟨t, ht⟩ := serve_eq_fault h
    exact (serve_left hm h' ⟨k + 1, rfl⟩).trans (hm.resumes (s.accept op) k u t ht).2.1

theorem guarded {c : State → Prop} [DecidablePred c] {f : State → Host.Outcome State Fault Refusal} {r : Refusal}
    (hf : Ends f) (hc : ∀ s k, c (limit k s) ↔ c s) : Ends fun s => if c s then f s else .refused r where
  ends := by
    intro s t hs ht
    by_cases h : c s
    · rw [if_pos h] at ht
      obtain ⟨n, h1, h2⟩ := hf.ends s t hs ht
      refine ⟨n, (if_pos ((hc s n).2 h)).trans h1, fun k hk => ?_⟩
      obtain ⟨u, hu⟩ := h2 k hk
      exact ⟨u, (if_pos ((hc s k).2 h)).trans hu⟩
    · rw [if_neg h] at ht
      cases ht
  first s v hv := by
    split at hv
    · exact hf.first s v hv
    · cases hv
  resumes s k u v hu hv := by
    split at hu
    · split at hv
      · exact hf.resumes s k u v hu hv
      · cases hv
    · cases hu

end Uniform

/-- Every instruction ends as its bus calls return one by one. -/
theorem exec_ends (i : Instr) : Uniform.Ends (exec i) := by
  cases i with
  | cmd0 => exact Uniform.subStep (Uniform.command _ _)
  | cmd8 => exact Uniform.subStep Uniform.probeInterfaceCondition
  | cmd9 => exact Uniform.subStep Uniform.readCSD
  | cmd16 => exact Uniform.subStep (Uniform.command _ _)
  | cmd17 a => exact Uniform.subStep (Uniform.readBlockFrom a)
  | cmd24 a => exact Uniform.subStep (Uniform.writeBlockTo a)
  | cmd55 => exact Uniform.subStep (Uniform.command _ _)
  | acmd41V1 => exact Uniform.subStep (Uniform.command _ _)
  | acmd41V2 =>
    have h (p : Params) := Uniform.subStep (toResult := .resp) (Uniform.command 41 p.hcsArg)
    exact ⟨fun s => (h s.cfg).ends s, fun s => (h s.cfg).first s, fun s => (h s.cfg).resumes s⟩
  | cmd58 => exact Uniform.subStep Uniform.readOcr
  | r1 f =>
    exact Uniform.subStep (Uniform.bind (Uniform.update fun _ _ _ => rfl) fun _ => (Uniform.busCall _).bind fun _ =>
      Uniform.bind (Uniform.update fun _ _ _ => rfl) fun _ => Uniform.pure _)
  | startToken =>
    exact Uniform.subStep (Uniform.bind (Uniform.update fun _ _ _ => rfl) fun _ =>
      (Uniform.busCall _).bind fun _ => Uniform.update fun _ _ _ => rfl)
  | dataResponseAccept x => exact Uniform.subStep ((Uniform.busCall _).bind fun _ => Uniform.update fun _ _ _ => rfl)
  | busy =>
    exact Uniform.subStep (Uniform.bind (Uniform.update fun _ _ _ => rfl) fun _ => (Uniform.busCall _).bind fun _ =>
      Uniform.bind (Uniform.look fun _ _ => rfl) fun _ =>
      Uniform.bind (Uniform.look fun _ _ => rfl) fun _ => Uniform.ite (Uniform.pure _) (Uniform.release.bind fun _ =>
        Uniform.raise _))
  | filler => exact Uniform.subStep (Uniform.xfer _)
  | init => exact Uniform.serve Uniform.initOp
  | read o n buf => exact Uniform.serve (Uniform.rangeOp .read o n buf)
  | write o n buf => exact Uniform.serve (Uniform.rangeOp .write o n buf)
  | erase o n => exact Uniform.serve (Uniform.rangeOp .erase o n 0)
  | capacity => exact Uniform.serve Uniform.capacityOp
  | status => exact Uniform.serve (Uniform.bind (Uniform.look fun _ _ => rfl) fun _ => Uniform.pure _)
  | frame idx arg close =>
    exact Uniform.guarded (Uniform.subStep (Uniform.frame idx arg close)) (c := fun s => emitted s.cfg idx arg close = true)
      fun _ _ => Iff.rfl
  | poll => exact Uniform.subStep Uniform.poll
  | release => exact Uniform.subStep Uniform.release
  | command idx arg =>
    exact Uniform.guarded (Uniform.subStep (Uniform.command idx arg))
      (c := fun s => emitted s.cfg idx arg s.cfg.close = true) fun _ _ => Iff.rfl
  | commandNoDeselect idx arg =>
    exact Uniform.guarded (Uniform.subStep (Uniform.commandNoDeselect idx arg))
      (c := fun s => emitted s.cfg idx arg s.cfg.close = true) fun _ _ => Iff.rfl
  | probeInterfaceCondition => exact Uniform.subStep Uniform.probeInterfaceCondition
  | readOperatingConditionRegister => exact Uniform.subStep Uniform.readOcr
  | bringUp => exact Uniform.subStep Uniform.bringUp
  | extractBits msb lsb =>
    exact Uniform.subStep
      (Uniform.ite (Uniform.look fun _ _ => rfl) (Uniform.stop (f := .extractBitsDomain msb lsb) fun _ => rfl))
  | decodeCapacity => exact Uniform.subStep (Uniform.look fun _ _ => rfl)
  | decodeV0 => exact Uniform.subStep (Uniform.look fun _ _ => rfl)
  | decodeV1 => exact Uniform.subStep (Uniform.look fun _ _ => rfl)
  | readCSD => exact Uniform.subStep Uniform.readCSD
  | blockAddress blk => exact Uniform.subStep (Uniform.blockAddress blk)
  | readData n dst =>
    exact Uniform.guarded (Uniform.subStep ((Uniform.readData n dst).onRaise (Uniform.freeBuffer dst)))
      (c := fun _ => n = dst.length) fun _ _ => Iff.rfl
  | readBlockAt blk => exact Uniform.subStep (Uniform.readBlockAt blk)
  | writeBlockAt blk => exact Uniform.subStep (Uniform.writeBlockAt blk)
  | checkDataResponse => exact Uniform.subStep Uniform.checkDataResponse
  | waitNotBusy => exact Uniform.subStep Uniform.waitNotBusy
  | mapper kind o n buf => exact Uniform.subStep (Uniform.mapper kind o n buf)
  | checkBounds o n => exact Uniform.subStep (Uniform.checkBounds o n)
  | mergeSegment kind blk off n =>
    exact Uniform.guarded (Uniform.subStep (Uniform.mergeSegment kind blk off n)) (c := fun _ =>
      1 ≤ n ∧ off + n ≤ blockBytes)
      fun _ _ => Iff.rfl
  | fullBlock kind blk => exact Uniform.subStep (Uniform.fullBlock kind blk)

end Sys2Proof.Laws
end

