-- ==== Sys2Proof/Tests/Slice0.lean ====
section
/-! SUPPORT. The model's own tests. Expected values come from the rules of spec/ and from the vectors of
95_test_vectors.md, whose ids are named; "witness" theorems give a concrete state and operands that meet the premises of
the statement they are named after. -/

namespace Sys2Proof.Tests

open Sys2Proof.Machine Sys2Proof.Laws

/-! ## The states the tests start from -/

/-- The parameters of 95_test_vectors.md §1, with 16-bit host addresses. -/
def tp : Params := ⟨8, 100, 100, 5, 5, 1, 0, 0x95, 0x000001AA, 0x87, 0x40000000, 16⟩

/-- Small budgets, for the boundary cases. -/
def small : Params := { tp with nCmd := 3, nToken := 4, nBusy := 3, nReady := 2 }

/-- The engine after reset, before a card that returns these bytes. -/
def eng (p : Params) (bytes : List Byte) : State := { State.reset with cfg := p, script := bytes }

/-- The engine with an open session on a high-capacity card of 1024 sectors (95 B3). -/
def opened (p : Params) (bytes : List Byte) : State :=
  { eng p bytes with initialized := true, divisor := 1, sectorCount := 1024 }

/-- Something of the next state. -/
def after {α : Type} (f : State → α) : Host.Outcome State Fault Refusal → Option α
  | .next t => some (f t)
  | _ => none

/-- Something of the fault. -/
def atFault {α : Type} (f : Fault → α) : Host.Outcome State Fault Refusal → Option α
  | .fault e => some (f e)
  | _ => none

/-- Is it this refusal? -/
def refusedAs (r : Refusal) : Host.Outcome State Fault Refusal → Bool
  | .refused q => decide (q = r)
  | _ => false

/-- The bytes sent, with the select level. -/
def sent (t : State) : List (Bool × Byte) := t.trace.filterMap fun
  | .exchange v tx _ => some (v, tx)
  | .wait _ => none

/-- The frames sent (30_encoding.md R129). -/
def frames (t : State) : List (List Byte) := (itemsIn t.cfg t.trace).filterMap fun
  | .frame bytes => some bytes
  | .payload _ => none

/-- The six bytes received while a frame is sent. -/
def f6 : List Byte := List.replicate 6 0xFF

/-- An R1 on the second poll. -/
def answer (f : BitVec 7) : Answer := ⟨f6, [0xFF], some f⟩

/-- No response within the budget. -/
def silence (p : Params) : Answer := ⟨f6, List.replicate p.nCmd 0xFF, none⟩

/-- A command answered by an R1. -/
def reply (f : BitVec 7) : Bracket := ⟨answer f, 0xFF⟩

/-- A command without an answer. -/
def noReply (p : Params) : Bracket := ⟨silence p, 0xFF⟩

/-- A CMD8 or CMD58 answered by an R1 and four bytes. -/
def longReply (f : BitVec 7) (b0 b1 b2 b3 : Byte) : LongBracket := ⟨answer f, b0, b1, b2, b3, 0xFF⟩

/-- A data block after one byte that is no token. -/
def block {n : Nat} (data : Vector Byte n) : DataBlock n := ⟨[0xFF], data, 0x12, 0x34, 0xFF⟩

/-- A read that succeeds. -/
def readAnswer {n : Nat} (data : Vector Byte n) : ReadAnswer n := ⟨answer 0, block data⟩

/-- A write that is accepted, with one busy byte. -/
def writeAnswer : WriteAnswer := ⟨answer 0, List.replicate 515 0xFF, 0xE5, 1, 0xFF, 0xFF⟩

/-- A CSD from its first bytes; the rest are 0. -/
def csdOf (bytes : List Byte) : Vector Byte 16 := Vector.ofFn fun k => bytes.getD k.val 0

/-- HC0 (95 §1): version 1, 1024 sectors. -/
def hc0 : Vector Byte 16 := csdOf [0x40]

/-- The register of 95 W1. -/
def w1Register : Vector Byte 16 := csdOf
  [0x00, 0x11, 0x22, 0x33, 0x44, 0x55, 0x66, 0x77, 0x88, 0x99, 0xAA, 0xBB, 0xCC, 0xDD, 0xEE, 0xFF]

theorem answer_fits {p : Params} (h : 1 < p.nCmd) (f : BitVec 7) : (answer f).fits p :=
  ⟨rfl, fun b hb => by rw [List.mem_singleton.1 hb]; decide, by simpa [answer] using h⟩

theorem silence_fits (p : Params) : (silence p).fits p :=
  ⟨rfl, fun b hb => by rw [List.eq_of_mem_replicate hb]; decide, by simp [silence]⟩

theorem block_fits {p : Params} (h : 1 < p.nToken) {n : Nat} (data : Vector Byte n) : (block data).fits p :=
  ⟨by simpa [block] using h, by simp [block]⟩

theorem readAnswer_fits {p : Params} (h : 1 < p.nCmd) (ht : 1 < p.nToken) {n : Nat} (data : Vector Byte n) :
    (readAnswer data).fits p :=
  ⟨answer_fits h 0, rfl, block_fits ht data⟩

theorem writeAnswer_sending {p : Params} (h : p.writeGap = 0) : writeAnswer.sending.length = p.writeGap + 515 := by
  unfold writeAnswer
  dsimp only
  rw [List.length_replicate, h]

theorem writeAnswer_fits {p : Params} (h : 1 < p.nCmd) (hg : p.writeGap = 0) (hb : 1 < p.nBusy) : writeAnswer.fits p :=
  ⟨answer_fits h 0, rfl, writeAnswer_sending hg, by decide, hb, by decide⟩

theorem opened_ready (p : Params) (bytes : List Byte) {o n : U64} (h : o.toNat + n.toNat ≤ 524288) (hn : 1 ≤ n.toNat) :
    RangeReady (opened p bytes) o n := by
  have hb : (opened p bytes).sectorCount.toNat * 512 = 524288 := by
    show (1024 : U64).toNat * 512 = 524288
    decide
  refine ⟨rfl, ⟨by omega, by rw [hb]; exact h⟩, hn, ?_, rfl⟩
  show (o.toNat + n.toNat - 1) / 512 * 1 < 2 ^ 32
  omega

theorem opened_sound (p : Params) (bytes : List Byte) : MemorySound (opened p bytes) := ⟨rfl, fun _ h => nomatch h⟩

theorem opened_keeps (bytes : List Byte) {buf : Nat} {n : U64} (h : buf + n.toNat ≤ 65536) :
    BufferKept (opened tp bytes) buf n := ⟨rfl, h⟩

theorem opened_host (bytes : List Byte) {n : Nat} (h : n ≤ 65536) :
    (opened tp bytes).hostBytesSound ((opened tp bytes).req.buf + (opened tp bytes).map.done.toNat) n = true := by
  unfold State.hostBytesSound
  simp only [Bool.and_eq_true, decide_eq_true_eq]
  exact ⟨rfl, by show 0 + (0 : U64).toNat + n ≤ 2 ^ 16; simpa using h⟩

theorem opened_access (bytes : List Byte) {n : Nat} (h : n ≤ 65536) :
    (opened tp bytes).accessSound ((opened tp bytes).req.buf + (opened tp bytes).map.done.toNat) n = true := by
  unfold State.accessSound
  rw [opened_host bytes h]
  exact opened_host bytes (n := 0) (by decide)

/-- Two blocks read. -/
def twoReads (d0 d1 : Vector Byte 512) : List (ReadAnswer 512) := [readAnswer d0, readAnswer d1]

theorem twoReads_fit (d0 d1 : Vector Byte 512) : ∀ a ∈ twoReads d0 d1, a.fits tp := by
  simp only [twoReads, List.mem_cons, List.not_mem_nil, or_false]
  rintro a (rfl | rfl) <;> exact readAnswer_fits (by decide) (by decide) _

theorem twoReads_first (d0 d1 : Vector Byte 512) {j : Nat} (h : j < 512) :
    (blockData (twoReads d0 d1)).getD j 0 = d0.toList.getD j 0 := by
  have := getD_blockData [] (readAnswer d0) [readAnswer d1] h
  rwa [List.length_nil, Nat.mul_zero, Nat.zero_add] at this

theorem twoReads_second (d0 d1 : Vector Byte 512) {j : Nat} (h : j < 512) :
    (blockData (twoReads d0 d1)).getD (512 + j) 0 = d1.toList.getD j 0 :=
  getD_blockData [readAnswer d0] (readAnswer d1) [] h

theorem run_mapper {kind : MapKind} {o n k : U64} {buf : Nat} {s t : State} (h : mapper kind o n buf s = .ok k t) :
    exec (.mapper kind o n buf) s = .next (t.setResult (.count k)) := runSubStep_ok h

theorem run_fullBlock {kind : MapKind} {blk : U64} {s t : State} (h : fullBlock kind blk s = .ok () t) :
    exec (.fullBlock kind blk) s = .next (t.setResult .unit) := runSubStep_ok h

/-! ## WellFormed refuses what no rule allows -/

theorem test_wf_read_buffer : WellFormed tp (.read 0 1 65536) = false := by decide
theorem test_wf_write_buffer : WellFormed tp (.write 0 1 65536) = false := by decide
theorem test_wf_mapper_buffer : WellFormed tp (.mapper .read 0 1 65536) = false := by decide
theorem test_wf_frame_not_listed : WellFormed tp (.frame 1 0 0x95) = false := by decide
theorem test_wf_command_not_listed : WellFormed tp (.command 8 0x1AA) = false := by decide
theorem test_wf_no_deselect_not_listed : WellFormed tp (.commandNoDeselect 9 1) = false := by decide
theorem test_wf_extract_order : WellFormed tp (.extractBits 3 4) = false := by decide
theorem test_wf_extract_top : WellFormed tp (.extractBits 128 120) = false := by decide
theorem test_wf_extract_width : WellFormed tp (.extractBits 32 0) = false := by decide
theorem test_wf_read_data_length : WellFormed tp (.readData 512 .csd) = false := by decide
theorem test_wf_segment_empty : WellFormed tp (.mergeSegment .read 0 0 0) = false := by decide
theorem test_wf_segment_leaves_block : WellFormed tp (.mergeSegment .read 0 511 2) = false := by decide
theorem test_wf_allows_the_edges :
    WellFormed tp (.extractBits 127 96) = true ∧ WellFormed tp (.mergeSegment .read 0 511 1) = true ∧
      WellFormed tp (.read 0 1 65535) = true := by decide

/-! ## Decoding words written out from 30_encoding.md (95 E1, E3-E5) -/

theorem test_decode_cmd0 : decodeTableWord 48 0x400000000095 = some .cmd0 := by decide
theorem test_decode_cmd8 : decodeTableWord 48 0x48000001AA87 = some .cmd8 := by decide
theorem test_decode_cmd9 : decodeTableWord 48 0x490000000095 = some .cmd9 := by decide
theorem test_decode_cmd16 : decodeTableWord 48 0x500000020095 = some .cmd16 := by decide
theorem test_decode_cmd17 : decodeTableWord 48 0x5100000A0095 = some (.cmd17 0x00000A00) := by decide
theorem test_decode_cmd24 : decodeTableWord 48 0x580000000395 = some (.cmd24 3) := by decide
theorem test_decode_cmd55 : decodeTableWord 48 0x770000000095 = some .cmd55 := by decide
theorem test_decode_acmd41_v1 : decodeTableWord 48 0x690000000095 = some .acmd41V1 := by decide
theorem test_decode_acmd41_v2 : decodeTableWord 48 0x694000000095 = some .acmd41V2 := by decide
theorem test_decode_cmd58 : decodeTableWord 48 0x7A0000000095 = some .cmd58 := by decide

/-- A frame R103 does not list, a wrong closing byte, wrong start bits, seven bytes. -/
theorem test_decode_frame_refused :
    decode tp (.frame [0x41, 0, 0, 0, 0, 0x95]) = .error .notEmitted ∧
      decode tp (.frame [0x48, 0, 0, 0x01, 0xAA, 0x95]) = .error .notEmitted ∧
      decode tp (.frame [0x80, 0, 0, 0, 0, 0x95]) = .error .frameStart ∧
      decode tp (.frame [0x40, 0, 0, 0, 0, 0x95, 0xFF]) = .error .frameLength := ⟨rfl, rfl, rfl, rfl⟩

theorem test_decode_response :
    decode tp (.byte .response 0x05) = .ok (.r1 5) ∧ decode tp (.byte .response 0x80) = .error (.noRow 0x80) :=
  ⟨rfl, rfl⟩

theorem test_decode_token :
    decode tp (.byte .token 0xFE) = .ok .startToken ∧ decode tp (.byte .token 0x01) = .error (.noRow 0x01) :=
  ⟨rfl, rfl⟩

theorem test_decode_data_response :
    decode tp (.byte .dataResponse 0x25) = .ok (.dataResponseAccept 1) ∧
      decode tp (.byte .dataResponse 0x0B) = .error (.noRow 0x0B) := ⟨rfl, rfl⟩

theorem test_decode_busy_and_filler :
    decode tp (.byte .busy 0x00) = .ok .busy ∧ decode tp (.byte .sent 0xFF) = .ok .filler := ⟨rfl, rfl⟩

theorem test_decode_read : decodeTableWord 264 (1 + 510 * 2 ^ 8 + 4 * 2 ^ 72 + 0x1000 * 2 ^ 136) =
    some (.read 510 4 0x1000) := by decide

theorem test_decode_requests :
    decodeTableWord 8 0 = some .init ∧ decodeTableWord 8 2 = some (.write 0 0 0) ∧
      decodeTableWord 8 3 = some (.erase 0 0) ∧ decodeTableWord 8 4 = some .capacity ∧
      decodeTableWord 8 5 = some .status := by decide

/-- 95 E5. -/
theorem test_decode_reserved_requests :
    decode tp (.request ⟨0x06, 0, 0, 0⟩) = .error (.reservedRequest 0x06) ∧
      decode tp (.request ⟨0x07, 0, 0, 0⟩) = .error (.reservedRequest 0x07) ∧
      decode tp (.request ⟨0x09, 0, 0, 0⟩) = .error (.reservedRequest 0x09) ∧
      decode tp (.request ⟨0xFD, 0, 0, 0⟩) = .error (.reservedRequest 0xFD) := ⟨rfl, rfl, rfl, rfl⟩

theorem test_step_runs_the_fetched_word :
    after State.completion (step ((opened tp []).withFetchWord 8 5)) = some ⟨.success, 0, 1, .none⟩ := by decide

theorem test_step_refuses_reserved_words :
    refusedAs (.undecodable (.reservedRequest 0x06)) (step ((eng tp []).withFetchWord 264 6)) = true := by decide

/-! ## One step of each instruction -/

/-- 95 PE2: bytes with bit 7 = 1 are skipped. -/
theorem test_cmd0 :
    after (fun t => (t.result, t.trace.length, t.sel)) (exec .cmd0 (eng tp (f6 ++ [0x80, 0xC1, 0xFE, 0x7F, 0xFF]))) =
      some (.resp (.r1 0x7F), 11, false) := by decide

/-- 95 PE9: four bytes follow even an error R1. -/
theorem test_cmd8 :
    after (fun t => (t.result, t.trace.length, frames t)) (exec .cmd8 (eng tp (f6 ++ [0xFF, 0x05, 0, 0, 0, 0, 0xFF]))) =
      some (.resp (.r1 0x05), 13, [[0x48, 0x00, 0x00, 0x01, 0xAA, 0x87]]) := by decide

/-- 95 DV11. -/
theorem test_cmd9 :
    after (fun t => (t.result, t.trace.length, t.csd.toList, t.sel))
        (exec .cmd9 (eng tp (f6 ++ [0xFF, 0x00, 0xFF, 0xFE, 0x40] ++ List.replicate 15 0x00 ++ [0, 0, 0xFF]))) =
      some (.unit, 29, 0x40 :: List.replicate 15 0x00, false) := by decide +kernel

/-- 95 PE1, the whole trace. -/
theorem test_cmd16 :
    after (fun t => (t.result, t.trace)) (exec .cmd16 (eng tp (f6 ++ [0xFF, 0x00, 0xFF]))) =
      some (.resp (.r1 0), [.exchange true 0x50 0xFF, .exchange true 0x00 0xFF, .exchange true 0x00 0xFF,
        .exchange true 0x02 0xFF, .exchange true 0x00 0xFF, .exchange true 0x95 0xFF, .exchange true 0xFF 0xFF,
        .exchange true 0xFF 0x00, .exchange false 0xFF 0xFF]) := by decide

/-- 95 T7: idle is not ready. -/
theorem test_cmd17_rejected :
    after (fun t => (t.result, t.trace.length, t.sel)) (exec (.cmd17 5) (eng tp (f6 ++ [0xFF, 0x01, 0xFF]))) =
      some (.raised .illegalResponse, 9, false) := by decide +kernel

/-- 95 T17: no data phase is sent. -/
theorem test_cmd24_rejected :
    after (fun t => (t.result, t.trace.length, frames t)) (exec (.cmd24 3) (eng tp (f6 ++ [0xFF, 0x40, 0xFF]))) =
      some (.raised .illegalResponse, 9, [[0x58, 0x00, 0x00, 0x00, 0x03, 0x95]]) := by decide +kernel

theorem test_cmd55 :
    after (fun t => (t.result, frames t)) (exec .cmd55 (eng tp (reply 1).bytes)) =
      some (.resp (.r1 1), [[0x77, 0x00, 0x00, 0x00, 0x00, 0x95]]) := by decide

theorem test_acmd41_v1 :
    after (fun t => (t.result, frames t)) (exec .acmd41V1 (eng tp (reply 0).bytes)) =
      some (.resp (.r1 0), [[0x69, 0x00, 0x00, 0x00, 0x00, 0x95]]) := by decide

theorem test_acmd41_v2 :
    after (fun t => (t.result, frames t)) (exec .acmd41V2 (eng tp (reply 0).bytes)) =
      some (.resp (.r1 0), [[0x69, 0x40, 0x00, 0x00, 0x00, 0x95]]) := by decide

/-- 95 PE12. -/
theorem test_cmd58 :
    after (fun t => (t.result, t.ocr)) (exec .cmd58 (eng tp (f6 ++ [0xFF, 0x00, 0xC0, 0xFF, 0x80, 0x00, 0xFF]))) =
      some (.respOcr (.r1 0) 0xC0FF8000, 0xC0FF8000) := by decide

theorem test_r1 :
    after (fun t => (t.resp, t.resp.idle, t.resp.illegalCommand, t.resp.crcError)) (exec (.r1 0x05) (eng tp [])) =
      some (.r1 0x05, true, true, false) := by decide

theorem test_start_token :
    after (fun t => (t.found, t.trace)) (exec .startToken (eng tp [])) =
      some (true, [.exchange false 0xFF 0xFE]) := by decide

/-- 95 E4: 0x25 accepts. -/
theorem test_data_response_accept : after State.drt (exec (.dataResponseAccept 1) (eng tp [])) = some 0x25 := by decide

/-- The last busy byte of the budget fails the wait (43_block_transfer.md R205). -/
theorem test_busy :
    after State.result (exec .busy (eng tp [])) = some .unit ∧
      after State.result (exec .busy (eng { tp with nBusy := 1 } [0xFF])) = some (.raised .protocolTimeout) := by decide

theorem test_filler : after State.result (exec .filler (eng tp [0xA5])) = some (.byte 0xA5) := by decide

/-- 95 B7: a dead card. -/
theorem test_init_dead_card :
    after (fun t => (t.completion, t.trace.length, t.br, t.initialized))
        (exec .init (opened tp (List.replicate 90 0xFF))) =
      some (⟨.ioFailure, 0, 0, .protocolTimeout⟩, 90, .failed, false) := by decide +kernel

/-- 95 B3. -/
theorem test_init_second_generation :
    after (fun t => (t.completion, t.trace.length, t.divisor, t.sectorCount, t.ocr, t.br))
        (exec .init (eng tp ((List.replicate 6 (reply 1)).flatMap Bracket.bytes ++ (longReply 1 0 0 1 0xAA).bytes ++
          (longReply 1 0x80 0xFF 0x80 0).bytes ++ (reply 1).bytes ++ (reply 0).bytes ++
          (longReply 0 0xC0 0xFF 0x80 0).bytes ++ (readAnswer hc0).bytes ++ (reply 0).bytes))) =
      some (⟨.success, 0, 0, .none⟩, 149, 1, 1024, 0xC0FF8000, .ready) := by decide +kernel

/-- 95 M4, M5. -/
theorem test_read_out_of_bounds :
    after State.completion (exec (.read 524288 1 0) (opened tp [])) = some ⟨.outOfBounds, 0, 0, .none⟩ ∧
      after State.completion (exec (.read 0xFFFFFFFFFFFFFFFF 1 0) (opened tp [])) = some ⟨.outOfBounds, 0, 0, .none⟩ := by
  decide

/-- 95 X4: the card is gone, the session stays open. -/
theorem test_read_dead_card :
    after (fun t => (t.completion, t.initialized, t.trace.length)) (exec (.read 0 1 0) (opened tp (List.replicate 15 0xFF))) =
      some (⟨.ioFailure, 0, 0, .protocolTimeout⟩, true, 15) := by decide +kernel

/-- 95 M6, F3. -/
theorem test_write_bounds_and_session :
    after State.completion (exec (.write 0xFFFFFFFFFFFFFFFF 0 0) (opened tp [])) = some ⟨.outOfBounds, 0, 0, .none⟩ ∧
      after State.completion (exec (.write 0 1 0) (eng tp [])) = some ⟨.notInitialized, 0, 0, .none⟩ := by decide

/-- 95 M22: the head of an ERASE fails at once. -/
theorem test_erase_head_fails :
    after (fun t => (t.completion, t.trace.length, frames t))
        (exec (.erase 1024 10) (opened tp (f6 ++ [0xFF, 0x04, 0xFF]))) =
      some (⟨.ioFailure, 0, 0, .illegalResponse⟩, 9, [[0x51, 0x00, 0x00, 0x00, 0x02, 0x95]]) := by decide +kernel

/-- 95 M7. -/
theorem test_erase_out_of_bounds :
    after State.completion (exec (.erase 1 0xFFFFFFFFFFFFFFFF) (opened tp [])) = some ⟨.outOfBounds, 0, 0, .none⟩ := by
  decide

/-- 95 F11: CAPACITY moves the bound. -/
theorem test_capacity :
    after (fun t => (t.completion, t.sectorCount, t.trace.length))
        (exec .capacity (opened tp (readAnswer (csdOf [0x40, 0, 0, 0, 0, 9, 0, 0, 0x10])).bytes)) =
      some (⟨.success, 0, 2148007936, .none⟩, 4195328, 29) := by decide +kernel

/-- 95 F9. -/
theorem test_capacity_dead_card :
    after (fun t => (t.completion, t.sectorCount, t.trace.length)) (exec .capacity (opened tp (List.replicate 15 0xFF))) =
      some (⟨.ioFailure, 0, 0, .protocolTimeout⟩, 1024, 15) := by decide +kernel

/-- 95 F1, F2. -/
theorem test_status :
    after State.completion (exec .status (eng tp [])) = some ⟨.success, 0, 0, .none⟩ ∧
      after State.completion (exec .status (opened tp [])) = some ⟨.success, 0, 1, .none⟩ := by decide

/-- 95 E1 on the bus, select asserted. -/
theorem test_frame :
    after (fun t => (sent t, t.cmdIdx, t.cmdArg)) (exec (.frame 17 0xA00 0x95) (eng tp f6)) =
      some ([(true, 0x51), (true, 0x00), (true, 0x00), (true, 0x0A), (true, 0x00), (true, 0x95)], 17, 0xA00) := by decide

/-- 95 PE5 and PE6: the last allowed poll counts, the next one does not. -/
theorem test_poll :
    after State.resp (exec .poll (eng small [0xFF, 0xFF, 0x00])) = some (.r1 0) ∧
      after State.resp (exec .poll (eng small [0xFF, 0xFF, 0xFF, 0x01])) = some .timeout := by decide

theorem test_release :
    after (fun t => (t.trace, t.sel)) (exec .release { eng tp [0x5A] with sel := true }) =
      some ([.exchange false 0xFF 0x5A], false) := by decide

/-- 95 PE4: no poll at all with `N_CMD = 0`. -/
theorem test_command :
    after (fun t => (t.result, t.trace.length)) (exec (.command 0 0) (eng { tp with nCmd := 0 } (f6 ++ [0xFF]))) =
      some (.resp .timeout, 7) := by decide

/-- 95 PE7, PE8. -/
theorem test_command_no_deselect :
    after (fun t => (t.result, t.trace.length, t.sel))
        (exec (.commandNoDeselect 17 5) (eng { tp with nCmd := 2 } (f6 ++ [0xFF, 0xFF, 0xFF]))) =
      some (.resp .timeout, 9, false) ∧
    after (fun t => (t.result, t.trace.length, t.sel))
        (exec (.commandNoDeselect 17 5) (eng tp (f6 ++ [0xFF, 0x04]))) = some (.resp (.r1 4), 8, true) := by decide

/-- 95 PE10: no trailing bytes after a timeout. -/
theorem test_probe :
    after (fun t => (t.result, t.trace.length))
        (exec .probeInterfaceCondition (eng { tp with nCmd := 4 } (List.replicate 11 0xFF))) =
      some (.resp .timeout, 11) := by decide

/-- 95 PE13, PE14. -/
theorem test_read_ocr :
    after State.ocr (exec .readOperatingConditionRegister
        (eng tp (f6 ++ [0xFF, 0x05, 0x12, 0x34, 0x56, 0x78, 0xFF]))) = some 0x12345678 ∧
    after (fun t => (t.ocr, t.trace.length)) (exec .readOperatingConditionRegister
        { eng { tp with nCmd := 2 } (List.replicate 9 0xFF) with ocr := 7 }) = some (7, 9) := by decide

/-- 95 B6: 0x00 is not exactly idle. -/
theorem test_bring_up_checked_reset :
    after (fun t => (t.result, t.br, t.trace.length))
        (exec .bringUp (eng tp ((List.replicate 6 (reply 0)).flatMap Bracket.bytes))) =
      some (.raised .illegalResponse, .failed, 54) := by decide +kernel

/-- 95 B11 with two attempts: the V1 path sends argument 0 and has no wait. -/
theorem test_bring_up_v1_never_ready :
    after (fun t => (t.result, (frames t).drop 7, waitsIn t.trace))
        (exec .bringUp (eng { tp with nReady := 2 } ((List.replicate 6 (reply 1)).flatMap Bracket.bytes ++
          (longReply 5 0 0 0 0).bytes ++ (List.replicate 4 (reply 1)).flatMap Bracket.bytes))) =
      some (.raised .protocolTimeout,
        [[0x77, 0, 0, 0, 0, 0x95], [0x69, 0, 0, 0, 0, 0x95], [0x77, 0, 0, 0, 0, 0x95], [0x69, 0, 0, 0, 0, 0x95]], []) := by
  decide +kernel

/-- 95 W1. -/
theorem test_extract_bits :
    [(7, 0), (11, 4), (31, 0), (127, 96), (69, 48), (73, 62), (49, 47), (83, 80), (64, 64), (100, 69)].map
        (fun r => after State.result (exec (.extractBits r.1 r.2) { eng tp [] with csd := w1Register })) =
      [0xFF, 0xEF, 0xCCDDEEFF, 0x00112233, 0x378899, 0x9DE, 0x3, 0x5, 0x1, 0x9A22AB33].map fun v =>
        some (.word v) := by decide +kernel

/-- 95 DV3-DV5. -/
theorem test_extract_bits_domain :
    [(3, 4), (128, 120), (40, 0)].map (fun r => (atFault (fun f => match f with
        | .extractBitsDomain m l _ => some (m, l)
        | _ => none) (exec (.extractBits r.1 r.2) (eng tp [])))) =
      [some (some (3, 4)), some (some (128, 120)), some (some (40, 0))] := by decide

/-- 95 W2: S2, S3, DV9. -/
theorem test_decode_capacity :
    [[0x80], [0xC0], [0, 0, 0, 0, 0, 7], [0, 0, 0, 0, 0, 6]].map
        (fun b => after State.result (exec .decodeCapacity { eng tp [] with csd := csdOf b })) =
      [some (.decoded ⟨false, 0, 0⟩), some (.decoded ⟨false, 0, 0⟩), some (.decoded ⟨true, 1, 512⟩),
        some (.decoded ⟨true, 0, 256⟩)] := by decide +kernel

/-- 95 W2: SC-1, SC-4, SC-b; DV10. -/
theorem test_decode_v0 :
    [[0, 0, 0, 0, 0, 0x09, 0x03, 0xBF, 0xC0, 0x03, 0x80], [0, 0, 0, 0, 0, 0x0C, 0x03, 0xFF, 0xC0, 0x03, 0x80],
        [0, 0, 0, 0, 0, 0x09, 0, 0xFF, 0xC0, 0x01, 0x80], 0x3F :: List.replicate 15 0xFF].map
        (fun b => after State.result (exec .decodeV0 { eng tp [] with csd := csdOf b })) =
      [some (.decoded ⟨true, 1966080, 1006632960⟩), some (.decoded ⟨true, 16777216, 8589934592⟩),
        some (.decoded ⟨true, 32768, 16777216⟩), some (.decoded ⟨true, 134217728, 68719476736⟩)] := by decide +kernel

/-- 95 W2: HC-1, HC-2, HC-max. -/
theorem test_decode_v1 :
    [[0x40, 0, 0, 0, 0, 9, 0, 0, 0x10], [0x40, 0, 0, 0, 0, 0, 0, 0, 0x3B, 0x37],
        [0x40, 0, 0, 0, 0, 0, 0, 0x3F, 0xFF, 0xFF]].map
        (fun b => after State.result (exec .decodeV1 { eng tp [] with csd := csdOf b })) =
      [some (.decoded ⟨true, 4195328, 2148007936⟩), some (.decoded ⟨true, 15523840, 7948206080⟩),
        some (.decoded ⟨true, 4294967296, 2199023255552⟩)] := by decide +kernel

/-- 95 DV12, DV13. -/
theorem test_read_csd_fails :
    after (fun t => (t.result, t.trace.length, t.sel)) (exec .readCSD (eng tp (f6 ++ [0xFF, 0x01, 0xFF]))) =
      some (.raised .illegalResponse, 9, false) ∧
    after (fun t => (t.result, t.trace.length, t.sel))
        (exec .readCSD (eng small (f6 ++ [0xFF, 0x00, 0xFF, 0xFF, 0xFF, 0xFF, 0xFF]))) =
      some (.raised .blockStartMissing, 13, false) := by decide +kernel

/-- 95 E2. -/
theorem test_block_address :
    after State.result (exec (.blockAddress 5) { opened tp [] with divisor := 512 }) = some (.word 0xA00) ∧
      after State.result (exec (.blockAddress 0x7FFFFF) { opened tp [] with divisor := 512 }) = some (.word 0xFFFFFE00) ∧
      after State.result (exec (.blockAddress 0xFFFFFFFF) (opened tp [])) = some (.word 0xFFFFFFFF) := by decide

/-- 95 E2: the first block past the end. -/
theorem test_block_address_overflow :
    atFault (fun f => match f with
      | .addressOverflow blk t => some (blk, t.sel)
      | _ => none) (exec (.blockAddress 0x800000) { opened tp [] with divisor := 512 }) =
      some (some (0x800000, false)) := by decide

/-- 95 T9 on the CSD: the first 0xFE is the token, the second is payload. -/
theorem test_read_data :
    after (fun t => (t.csd.toList.take 2, t.trace.length, t.loops.token))
        (exec (.readData 16 .csd) (eng tp ([0xFE, 0xFE] ++ List.replicate 18 0x07))) =
      some ([0xFE, 0x07], 20, 1) := by decide +kernel

/-- 95 T5: no token poll with `N_TOKEN = 0`. -/
theorem test_read_data_no_budget :
    after (fun t => (t.result, t.trace)) (exec (.readData 16 .csd) (eng { tp with nToken := 0 } [0xFE])) =
      some (.raised .blockStartMissing, [.exchange false 0xFF 0xFE]) := by decide

/-- 95 T20 and T19. -/
theorem test_read_block_at_edges :
    after (fun t => (t.result, frames t))
        (exec (.readBlockAt 0x7FFFFF) { opened tp (f6 ++ [0xFF, 0x04, 0xFF]) with divisor := 512 }) =
      some (.raised .illegalResponse, [[0x51, 0xFF, 0xFF, 0xFE, 0x00, 0x95]]) ∧
    atFault (fun f => match f with
      | .addressOverflow _ t => t.trace.length
      | _ => 1) (exec (.readBlockAt 0x800000) { opened tp [] with divisor := 512 }) = some 0 := by decide +kernel

/-- 95 T1, on any block: it lands in `SCRATCH`, the checksum is dropped. -/
theorem test_read_block_at (data : Vector Byte 512) :
    ∃ t, exec (.readBlockAt 5) (opened tp (readAnswer data).bytes) = .next t ∧ t.scratch = data ∧
      t.trace = (readAnswer data).events 17 5 0x95 ∧ t.sel = false :=
  ⟨_, runSubStep_ok (readBlockAt_listed (rest := []) rfl (by decide : (5 : U64).toNat * (1 : U32).toNat < 2 ^ 32)
    (readAnswer_fits (p := tp) (by decide) (by decide) data) (List.append_nil _).symm), rfl, List.append_assoc _ _ _, rfl⟩

/-- 95 T17 at block 3 of a byte-addressed card. -/
theorem test_write_block_at_rejected :
    after (fun t => (t.result, frames t))
        (exec (.writeBlockAt 3) { opened tp (f6 ++ [0xFF, 0x40, 0xFF]) with divisor := 512 }) =
      some (.raised .illegalResponse, [[0x58, 0x00, 0x00, 0x06, 0x00, 0x95]]) := by decide +kernel

/-- 95 E4 and T12: 0x0B rejects, and no exchange follows. -/
theorem test_check_data_response :
    after (fun t => (t.result, t.sel, t.trace.length, t.drt)) (exec .checkDataResponse { eng tp [0x0B] with sel := true }) =
      some (.raised .writeRejected, false, 1, 0x0B) ∧
    after (fun t => (t.result, t.sel)) (exec .checkDataResponse { eng tp [0x05] with sel := true }) =
      some (.unit, true) := by decide

/-- 95 T14, T16. -/
theorem test_wait_not_busy :
    after (fun t => (t.result, t.sel, t.trace.length)) (exec .waitNotBusy { eng small [0, 0, 0, 0] with sel := true }) =
      some (.raised .protocolTimeout, false, 4) ∧
    after (fun t => (t.result, t.sel, t.trace.length)) (exec .waitNotBusy { eng small [0, 0, 1] with sel := true }) =
      some (.unit, true, 3) := by decide

/-- 95 M1-M3 without a request. -/
theorem test_mapper_empty :
    after State.result (exec (.mapper .read 524288 0 0) (opened tp [])) = some (.count 0) ∧
      after State.result (exec (.mapper .read 524289 0 0) (opened tp [])) = some (.raised .boundsViolation) := by decide

/-- 95 P2, request 3: bytes 508 to 511 of the first block, then 0 to 3 of the second. -/
theorem test_mapper_read (d0 d1 : Vector Byte 512) :
    ∃ t, exec (.mapper .read 508 8 0x2000) (opened tp ((twoReads d0 d1).flatMap ReadAnswer.bytes)) =
        .next t ∧ t.result = .count 8 ∧
      Memory.read t.mem 0x2000 = d0.toList.getD 508 0 ∧ Memory.read t.mem 0x2003 = d0.toList.getD 511 0 ∧
      Memory.read t.mem 0x2004 = d1.toList.getD 0 0 ∧ Memory.read t.mem 0x2007 = d1.toList.getD 3 0 := by
  obtain ⟨u, h1, h2⟩ := mapper_read (opened_ready tp _ (o := 508) (n := 8) (by decide) (by decide)) (opened_sound tp _)
    (opened_keeps _ (buf := 0x2000) (by decide)) (by show 2 = _; decide) (twoReads_fit d0 d1) (List.append_nil _).symm
  exact ⟨_, run_mapper h1, rfl, (h2.stored 0 (by decide)).trans (twoReads_first d0 d1 (j := 508) (by decide)),
    (h2.stored 3 (by decide)).trans (twoReads_first d0 d1 (j := 511) (by decide)),
    (h2.stored 4 (by decide)).trans (twoReads_second d0 d1 (j := 0) (by decide)),
    (h2.stored 7 (by decide)).trans (twoReads_second d0 d1 (j := 3) (by decide))⟩

/-- Before bring-up `DIVISOR` and `SECTOR_COUNT` may hold any value (93 I1), and a read of one goes on. -/
theorem test_unwritten_registers_are_read :
    (after State.result (exec (.blockAddress 5) State.reset)).isSome = true ∧
      (after State.result (exec (.checkBounds 0 1) State.reset)).isSome = true := by decide

/-- 95 M2, M4. -/
theorem test_check_bounds :
    after State.result (exec (.checkBounds 524287 1) (opened tp [])) = some .unit ∧
      after State.result (exec (.checkBounds 524288 1) (opened tp [])) = some (.raised .boundsViolation) := by decide

/-- A segment whose read fails writes nothing (44_byte_range_mapper.md R227). -/
theorem test_merge_segment_read_fails :
    after (fun t => (t.result, frames t)) (exec (.mergeSegment .write 2 488 24) (opened tp (f6 ++ [0xFF, 0x04, 0xFF]))) =
      some (.raised .illegalResponse, [[0x51, 0x00, 0x00, 0x00, 0x02, 0x95]]) := by decide +kernel

/-- 95 P3: a body block of ERASE is 512 bytes 0xFF, written with no CMD17. -/
theorem test_full_block_erase :
    ∃ t, exec (.fullBlock .erase 1) (opened tp writeAnswer.bytes) = .next t ∧
      (∀ k, k < 512 → t.scratch.toList[k]? = some 0xFF) ∧ t.sel = false ∧ t.mem = [] ∧
      t.trace = writeAnswer.events tp 24 1 t.scratch.toList := by
  obtain ⟨t, h1, h2⟩ := fullBlock_written (kind := .erase) (blk := 1) (s := opened tp writeAnswer.bytes)
    (w := writeAnswer) (rest := []) (by decide) rfl (by decide) (fun h => absurd rfl h)
    (writeAnswer_fits (by decide) rfl (by decide)) (List.append_nil _).symm
  refine ⟨_, run_fullBlock h1, fun k hk => ?_, h2.sel, h2.mem, ?_⟩
  · show t.scratch.toList[k]? = _
    rw [h2.scratch]
    simp [segmentBytes, sourceByte, hk]
  · show t.trace = writeAnswer.events tp 24 1 t.scratch.toList
    rw [h2.trace, h2.scratch]
    rfl

/-! ## Witnesses: for every statement with premises, a state and operands that meet them -/

theorem witness_TableWords :
    Config.params.close = 0x95 ∧ Config.params.cmd8Arg = 0x000001AA ∧ Config.params.cmd8Close = 0x87 ∧
      Config.params.hcsArg = 0x40000000 := ⟨rfl, rfl, rfl, rfl⟩

theorem witness_DecodeOfEncode :
    tp.wf = true ∧ encode tp .acmd41V2 = some (.frame [0x69, 0x40, 0x00, 0x00, 0x00, 0x95]) ∧
      encode tp (.r1 0x7F) = some (.byte .response 0x7F) ∧
      encode tp (.erase 3 4) = some (.request ⟨0x03, 3, 4, 0⟩) := ⟨rfl, rfl, rfl, rfl⟩

theorem witness_WordsThatDecode :
    decode tp (.frame [0x51, 0xFF, 0xFF, 0xFE, 0x00, 0x95]) = .ok (.cmd17 0xFFFFFE00) ∧
      decode tp (.byte .dataResponse 0xE5) = .ok (.dataResponseAccept 7) ∧
      decode tp (.request ⟨0x05, 1, 2, 3⟩) = .ok .status := ⟨rfl, rfl, rfl⟩

theorem witness_ReservedRequests :
    (0x06 : Byte).extractLsb' 0 3 = 6#3 ∧ (0x07 : Byte).extractLsb' 0 3 = 7#3 ∧ (0x08 : Byte).extractLsb' 3 5 ≠ 0#5 ∧
      ((eng tp []).withFetchWord 264 6).inbox = [.request ⟨0x06, 0, 0, 0⟩] := by decide

theorem witness_StepRuns :
    (eng tp []).inbox = [] ∧ ((eng tp []).withFetchWord 8 5).inbox = [.request ⟨0x05, 0, 0, 0⟩] ∧
      decode tp (.request ⟨0x05, 0, 0, 0⟩) = .ok .status ∧
      decode tp (.request ⟨0x06, 0, 0, 0⟩) = .error (.reservedRequest 0x06) := ⟨rfl, rfl, rfl, rfl⟩

/-- The invariant of an engine with no session, and of one with an open session. -/
theorem eng_inv (bytes : List Byte) (inputs : List Input) : Inv { eng tp bytes with inbox := inputs } :=
  ⟨⟨rfl, fun _ h => nomatch h⟩, nofun, fun _ => rfl, fun _ => rfl, rfl⟩

theorem opened_inv (bytes : List Byte) : Inv (opened tp bytes) :=
  ⟨⟨rfl, fun _ h => nomatch h⟩, fun _ => ⟨.inl rfl, by show (1024 : U64).toNat ≤ 2 ^ 32; decide⟩, fun _ => rfl,
    fun _ => rfl, rfl⟩

theorem witness_InvariantKept :
    Inv { eng tp [] with inbox := [.request ⟨0x01, 0, 1, 0⟩] } ∧
      after State.completion (step { eng tp [] with inbox := [.request ⟨0x01, 0, 1, 0⟩] }) =
        some ⟨.notInitialized, 0, 0, .none⟩ := ⟨eng_inv _ _, by decide⟩

theorem witness_NoInstructionChangesAParameter : after State.cfg (exec .status (eng tp [])) = some tp := by decide

theorem witness_FrameAndRelease :
    (eng tp (f6 ++ [0xFF])).busAnswers = none ∧ emitted tp 0 0 0x95 = true ∧ f6.length = 6 ∧
      (eng tp (f6 ++ [0xFF])).script = f6 ++ [0xFF] ∧ (eng tp [0xFF]).script = 0xFF :: [] := by decide

theorem witness_Poll :
    (eng small []).busAnswers = none ∧ (∀ b ∈ [0xFF, (0x80 : Byte)], b.msb = true) ∧
      [0xFF, (0x80 : Byte)].length < small.nCmd ∧
      (eng small [0xFF, 0x80, 0x7F]).script = [0xFF, 0x80] ++ [0#1 ++ 0x7F#7] ++ [] ∧
      (∀ b ∈ List.replicate 3 (0xFF : Byte), b.msb = true) ∧ (List.replicate 3 (0xFF : Byte)).length = small.nCmd := by
  decide

theorem witness_CommandExchanges :
    (eng small (reply 0x7F).bytes).busAnswers = none ∧ (reply 0x7F).fits small ∧ (noReply small).fits small ∧
      (eng small (noReply small).bytes).script = (noReply small).bytes ++ [] ∧ emitted small 58 0 small.close = true :=
  ⟨rfl, answer_fits (by decide) _, silence_fits _, (List.append_nil _).symm, rfl⟩

theorem witness_CommandNoDeselect :
    emitted small 17 5 small.close = true ∧ (answer 4).fits small ∧ (answer 4).flags ≠ none ∧
      (eng small (answer 4).bytes).script = (answer 4).bytes ++ [] ∧ (noReply small).fits small ∧
      (noReply small).answer.flags = none :=
  ⟨rfl, answer_fits (by decide) _, nofun, (List.append_nil _).symm, silence_fits _, rfl⟩

theorem witness_InterfaceProbe :
    (longReply 5 0 0 1 0xAA).fits small ∧ LongBracket.fits small ⟨silence small, 0, 0, 0, 0, 0xFF⟩ ∧
      (eng small (longReply 5 0 0 1 0xAA).bytes).script = (longReply 5 0 0 1 0xAA).bytes ++ [] :=
  ⟨answer_fits (by decide) _, silence_fits _, (List.append_nil _).symm⟩

theorem witness_OcrRead :
    (longReply 0 0xC0 0xFF 0x80 0).fits small ∧ LongBracket.fits small ⟨silence small, 0, 0, 0, 0, 0xFF⟩ ∧
      (longReply 0 0xC0 0xFF 0x80 0).ocr 0 = 0xC0FF8000 ∧
      (eng small (longReply 0 0xC0 0xFF 0x80 0).bytes).script = (longReply 0 0xC0 0xFF 0x80 0).bytes ++ [] :=
  ⟨answer_fits (by decide) _, silence_fits _, rfl, (List.append_nil _).symm⟩

theorem witness_SingleBytes :
    (eng small [0xFF]).busAnswers = none ∧ (eng small [0xFF]).loops.busy + 1 < small.nBusy ∧
      small.nBusy ≤ { (eng small [0xFF]).loops with busy := 2 }.busy + 1 ∧ (eng small [0xFF]).script = 0xFF :: [] := by
  decide

/-- The last poll of the budget finds the token; the block goes to either buffer. -/
theorem witness_ReadData (data : Vector Byte 512) :
    DataBlock.fits small (⟨[0xFF, 0xFF, 0x01], csdOf [0x40], 0, 0, 0xFF⟩ : DataBlock DataBuffer.csd.length) ∧
      DataBlock.fits small (block data) ∧ (eng small (block data).bytes).script = (block data).bytes ++ [] :=
  ⟨by unfold DataBlock.fits; decide, block_fits (by decide) data, (List.append_nil _).symm⟩

/-- A data phase without a token. -/
def noToken : NoToken := ⟨List.replicate 4 0xFF, 0xFE⟩

theorem noToken_fits : noToken.fits small := by
  unfold NoToken.fits
  decide

/-- On its own, and after an R1 0x00; block 5 has card address 5 on this card. -/
theorem witness_MissingToken :
    noToken.fits small ∧ (eng small noToken.bytes).script = noToken.bytes ++ [] ∧ (answer 0).fits small ∧
      (answer 0).flags = some 0 ∧
      (opened small ((answer 0).bytes ++ noToken.bytes)).script = (answer 0).bytes ++ noToken.bytes ++ [] ∧
      (5 : U64).toNat * (opened small []).divisor.toNat = (5 : U32).toNat :=
  ⟨noToken_fits, rfl, answer_fits (by decide) _, rfl, rfl, by decide⟩

theorem witness_CsdRead :
    (readAnswer hc0).fits small ∧ (eng small (readAnswer hc0).bytes).script = (readAnswer hc0).bytes ++ [] :=
  ⟨readAnswer_fits (by decide) (by decide) _, (List.append_nil _).symm⟩

/-- The card address of block 0x7FFFFF on a byte-addressed card. -/
theorem witness_BlockRead (data : Vector Byte 512) :
    (readAnswer data).fits small ∧ (opened small (readAnswer data).bytes).script = (readAnswer data).bytes ++ [] ∧
      (0x7FFFFF : U64).toNat * (512 : U32).toNat = (0xFFFFFE00 : U32).toNat :=
  ⟨readAnswer_fits (by decide) (by decide) _, (List.append_nil _).symm, by decide⟩

theorem witness_BlockWrite :
    writeAnswer.fits small ∧ (opened small writeAnswer.bytes).script = writeAnswer.bytes ++ [] ∧
      (0xFFFFFFFF : U64).toNat * (1 : U32).toNat = (0xFFFFFFFF : U32).toNat :=
  ⟨writeAnswer_fits (by decide) rfl (by decide), (List.append_nil _).symm, by decide⟩

theorem witness_Rejected :
    (reply 1).fits small ∧ (reply 1).answer.flags ≠ some 0 ∧ (noReply small).fits small ∧
      (noReply small).answer.flags ≠ some 0 ∧ (opened small (reply 1).bytes).script = (reply 1).bytes ++ [] ∧
      (0xFFFFFFFF : U64).toNat * (opened small []).divisor.toNat = (0xFFFFFFFF : U32).toNat :=
  ⟨answer_fits (by decide) _, by decide, silence_fits _, nofun, (List.append_nil _).symm, by decide⟩

theorem witness_BlockAddress :
    (0xFFFFFFFF : U64).toNat * (opened tp []).divisor.toNat < 2 ^ 32 ∧
      2 ^ 32 ≤ (0x100000000 : U64).toNat * (opened tp []).divisor.toNat := by decide

theorem witness_AddressOverflow :
    (opened tp []).sel = false ∧ atFault (fun f => match f with
      | .addressOverflow blk t => some (blk, t.sel)
      | _ => none) (exec (.writeBlockAt 0x100000000) (opened tp [])) = some (some (0x100000000, false)) := by decide

/-- A byte-addressed card past 4 GiB: block 0x800000 has no address, and block 0x7FFFFF is the last that has one. -/
def large : State := { opened tp [] with divisor := 512, sectorCount := 0x1000000 }

/-- A range whose first block does not fit, and one whose second does not. -/
theorem witness_AddressOverflowStops :
    2 ^ 32 ≤ (0x800000 : U64).toNat * large.divisor.toNat ∧ 511 + 1 ≤ 512 ∧ large.busAnswers = none ∧
      0x100000000 + 1 ≤ large.sectorCount.toNat * 512 ∧ ¬ AddressesFit large 0x100000000 1 ∧
      0xFFFFFFFF + 2 ≤ large.sectorCount.toNat * 512 ∧ ¬ AddressesFit large 0xFFFFFFFF 2 ∧
      (0xFFFFFFFF : U64).toNat / 512 * large.divisor.toNat < 2 ^ 32 ∧ large.top = .idle ∧ large.initialized = true := by
  unfold AddressesFit
  decide

theorem test_address_overflow_stops_requests :
    atFault (fun f => match f with
      | .addressOverflow blk t => some (blk, t.trace.length)
      | _ => none) (exec (.erase 0x100000000 1) large) = some (some (0x800000, 0)) ∧
    atFault (fun f => match f with
      | .addressOverflow blk t => some (blk, t.trace.length)
      | _ => none) (exec (.read 0x100000000 1 0) large) = some (some (0x800000, 0)) := by decide

theorem witness_DataResponse :
    (eng tp [0x05]).busAnswers = none ∧ (eng tp [0x05]).script = 0x05 :: [] ∧
      (0x05 : Byte).extractLsb' 0 5 = 0b00101#5 ∧ (0xFF : Byte).extractLsb' 0 5 ≠ 0b00101#5 := by decide

theorem witness_BusyWait :
    (eng small []).busAnswers = none ∧ (0x01 : Byte) ≠ 0x00 ∧ 2 < small.nBusy ∧
      (eng small [0, 0, 1]).script = List.replicate 2 0x00 ++ [0x01] ++ [] ∧ 3 = small.nBusy ∧
      (eng small [0, 0, 0, 0]).script = List.replicate 3 0x00 ++ [0x00] ++ [] := by decide

theorem witness_FailedBlockWrite :
    (opened small []).top = .idle ∧
      (3 : U64).toNat * (opened small []).divisor.toNat = (3 : U32).toNat ∧ (answer 0).fits small ∧ (answer 0).flags = some 0 ∧
      writeAnswer.sending.length = small.writeGap + 515 ∧ (0x0B : Byte).extractLsb' 0 5 ≠ 0b00101#5 ∧
      (0x25 : Byte).extractLsb' 0 5 = 0b00101#5 :=
  ⟨rfl, by decide, answer_fits (by decide) _, rfl, writeAnswer_sending rfl, by decide, by decide⟩

theorem witness_ExtractBits :
    (96 ≤ 127 ∧ 127 ≤ 127 ∧ 127 - 96 + 1 ≤ 32) ∧ (0 ≤ 0 ∧ 0 ≤ 127 ∧ 0 - 0 + 1 ≤ 32) ∧ 3 < 4 ∧ 127 < 128 ∧
      32 < 32 - 0 + 1 ∧ atFault (fun f => match f with
        | .extractBitsDomain m l _ => some (m, l)
        | _ => none) (exec (.extractBits 32 0) (eng tp [])) = some (some (32, 0)) := by decide

theorem witness_StructureVersion :
    csdNumber (csdOf [0x3F]) / 2 ^ 126 = 0 ∧ csdNumber (csdOf [0x40]) / 2 ^ 126 = 1 ∧
      2 ≤ csdNumber (csdOf [0x80]) / 2 ^ 126 ∧ 2 ≤ csdNumber (csdOf [0xC0]) / 2 ^ 126 := by decide +kernel

/-- 95 DV9, rbl 7, and W2, HC-max. -/
theorem witness_CapacityIsSectors :
    after State.result (exec .decodeCapacity { eng tp [] with csd := csdOf [0, 0, 0, 0, 0, 7] }) =
        some (.decoded ⟨true, 1, 512⟩) ∧
      csdNumber (csdOf [0, 0, 0, 0, 0, 7]) / 2 ^ 80 % 2 ^ 4 = 7 ∧
      csdNumber (csdOf [0x40, 0, 0, 0, 0, 0, 0, 0x3F, 0xFF, 0xFF]) / 2 ^ 126 = 1 := by decide +kernel

/-! ### Bring-up and INIT -/

/-- The resets, the checked reset and the probe on the way to a path. -/
def fiveResets : List Bracket := List.replicate 5 (reply 0x7F)

theorem fiveResets_fit : ∀ b ∈ fiveResets, b.fits small := fun b hb => by
  rw [List.eq_of_mem_replicate hb]
  exact answer_fits (by decide) _

/-- The second of two attempts succeeds. -/
def v1Answer : BringUpAnswer :=
  ⟨fiveResets, reply 1, longReply 5 0 0 0 0, .v1 [⟨reply 1, noReply small⟩] ⟨reply 1, reply 0⟩⟩

def v2Answer : BringUpAnswer :=
  ⟨fiveResets, reply 1, longReply 1 0 0 1 0xAA,
    .v2 [⟨longReply 1 0x80 0xFF 0x80 0, reply 1, reply 1⟩] ⟨longReply 1 0x80 0xFF 0x80 0, noReply small, reply 0⟩
      (longReply 0 0xC0 0xFF 0x80 0)⟩

theorem v1Answer_fits : v1Answer.fits small := by
  refine ⟨rfl, fiveResets_fit, answer_fits (by decide) _, rfl, answer_fits (by decide) _, rfl, by decide, ?_,
    ⟨answer_fits (by decide) _, answer_fits (by decide) _⟩, rfl⟩
  intro a ha
  rw [List.mem_singleton.1 ha]
  exact ⟨⟨answer_fits (by decide) _, silence_fits _⟩, nofun⟩

theorem v2Answer_fits : v2Answer.fits small := by
  refine ⟨rfl, fiveResets_fit, answer_fits (by decide) _, rfl, answer_fits (by decide) _, rfl, by decide, ?_,
    ⟨answer_fits (by decide) _, silence_fits _, answer_fits (by decide) _⟩, rfl, answer_fits (by decide) _⟩
  intro a ha
  rw [List.mem_singleton.1 ha]
  exact ⟨⟨answer_fits (by decide) _, answer_fits (by decide) _, answer_fits (by decide) _⟩, by decide⟩

theorem witness_BringUpReachesReady :
    (v1Answer.fits small ∧ (eng small v1Answer.bytes).script = v1Answer.bytes ++ []) ∧
      (v2Answer.fits small ∧ (eng small v2Answer.bytes).script = v2Answer.bytes ++ []) :=
  ⟨⟨v1Answer_fits, (List.append_nil _).symm⟩, v2Answer_fits, (List.append_nil _).symm⟩

theorem witness_BringUpFailsAtItsDecisionPoints :
    (eng small []).top = .idle ∧ fiveResets.length = small.nResetPre ∧ (∀ b ∈ fiveResets, b.fits small) ∧
      ((reply 0).fits small ∧ (reply 0).answer.flags ≠ some 0x01) ∧
      ((noReply small).fits small ∧ (noReply small).answer.flags ≠ some 0x01) ∧
      ((reply 1).fits small ∧ (reply 1).answer.flags = some 0x01) ∧
      ((longReply 4 0 0 0 0).fits small ∧ (longReply 4 0 0 0 0).answer.flags ≠ some 0x01 ∧
        (longReply 4 0 0 0 0).answer.flags ≠ some 0x05) :=
  ⟨rfl, rfl, fiveResets_fit, ⟨answer_fits (by decide) _, by decide⟩, ⟨silence_fits _, nofun⟩,
    ⟨answer_fits (by decide) _, rfl⟩, answer_fits (by decide) _, by decide, by decide⟩

/-- Both paths, with attempts that fail by another R1 and by silence. -/
theorem witness_BringUpFailsAfterItsAttempts :
    ([⟨reply 1, reply 1⟩, ⟨reply 1, noReply small⟩] : List V1Attempt).length = small.nReady ∧
      (∀ a ∈ ([⟨reply 1, reply 1⟩, ⟨reply 1, noReply small⟩] : List V1Attempt),
        a.fits small ∧ a.cmd41.answer.flags ≠ some 0) ∧
      (∀ a ∈ ([⟨longReply 1 0 0 0 0, reply 1, reply 1⟩, ⟨longReply 1 0 0 0 0, reply 1, noReply small⟩] : List V2Attempt),
        a.fits small ∧ a.cmd41.answer.flags ≠ some 0) := by
  refine ⟨rfl, ?_, ?_⟩
  · simp only [List.mem_cons, List.not_mem_nil, or_false]
    rintro a (rfl | rfl)
    · exact ⟨⟨answer_fits (by decide) _, answer_fits (by decide) _⟩, by decide⟩
    · exact ⟨⟨answer_fits (by decide) _, silence_fits _⟩, nofun⟩
  · simp only [List.mem_cons, List.not_mem_nil, or_false]
    rintro a (rfl | rfl)
    · exact ⟨⟨answer_fits (by decide) _, answer_fits (by decide) _, answer_fits (by decide) _⟩, by decide⟩
    · exact ⟨⟨answer_fits (by decide) _, answer_fits (by decide) _, silence_fits _⟩, nofun⟩

theorem witness_InitOpensTheSession :
    InitAnswer.fits small ⟨v2Answer, readAnswer hc0, reply 0⟩ ∧ InitAnswer.fits small ⟨v1Answer, readAnswer hc0, reply 0⟩ :=
  ⟨⟨v2Answer_fits, readAnswer_fits (by decide) (by decide) _, by decide +kernel, answer_fits (by decide) _, rfl⟩,
    v1Answer_fits, readAnswer_fits (by decide) (by decide) _, by decide +kernel, answer_fits (by decide) _, rfl⟩

/-- A run that opens the session is `test_init_second_generation`; this one closes an open session. -/
theorem witness_InitEndsOpenOrClosed :
    after State.initialized (exec .init (opened small (List.replicate 60 0xFF))) = some false := by decide +kernel

/-- A failure in each step of INIT; the resets and the probe of the bring-up that fails are those of one that does not. -/
theorem witness_InitFailureReportsItsCause :
    InitFailure.fits small (.bringUp (.reset fiveResets (noReply small))) ∧
      InitFailure.fits small (.bringUp (.probe fiveResets (reply 1) (longReply 4 0 0 0 0))) ∧
      InitFailure.fits small
        (.bringUp (.v1 fiveResets (reply 1) (longReply 5 0 0 0 0) [⟨reply 1, reply 1⟩, ⟨reply 1, noReply small⟩])) ∧
      InitFailure.fits small
        (.bringUp (.v2 fiveResets (reply 1) (longReply 1 0 0 1 0xAA)
          [⟨longReply 1 0 0 0 0, reply 1, reply 1⟩, ⟨longReply 1 0 0 0 0, reply 1, noReply small⟩])) ∧
      InitFailure.fits small (.csd v2Answer (.rejected (noReply small))) ∧
      InitFailure.fits small (.csd v1Answer (.noToken (answer 0) noToken)) ∧
      InitFailure.fits small (.undecodable v2Answer (readAnswer (csdOf [0x80]))) ∧
      InitFailure.fits small (.blockLength v2Answer (readAnswer hc0) (reply 0x40)) := by
  obtain ⟨h1, h2, h3⟩ := witness_BringUpFailsAfterItsAttempts
  have hr : ∀ {b : Bracket}, b.fits small → ResetsFit small fiveResets b := fun hb => ⟨rfl, fiveResets_fit, hb⟩
  have one : (reply 1).fits small := answer_fits (by decide) _
  exact ⟨⟨hr (silence_fits _), nofun⟩, ⟨hr one, rfl, answer_fits (by decide) _, by decide, by decide⟩,
    ⟨hr one, rfl, answer_fits (by decide) _, rfl, h1, h2⟩, ⟨hr one, rfl, answer_fits (by decide) _, rfl, rfl, h3⟩,
    ⟨v2Answer_fits, silence_fits _, nofun⟩, ⟨v1Answer_fits, answer_fits (by decide) _, rfl, noToken_fits⟩,
    ⟨v2Answer_fits, readAnswer_fits (by decide) (by decide) _, by decide +kernel⟩,
    ⟨v2Answer_fits, readAnswer_fits (by decide) (by decide) _, by decide +kernel, answer_fits (by decide) _, by decide⟩⟩

theorem witness_Status : (eng tp []).top = .idle := rfl

theorem witness_Capacity :
    (readAnswer hc0).fits small ∧ (decodeCapacity hc0).ok = true ∧ (readAnswer (csdOf [0x80])).fits small ∧
      (decodeCapacity (csdOf [0x80])).ok = false ∧ (reply 1).fits small ∧ (reply 1).answer.flags ≠ some 0 ∧
      (noReply small).fits small ∧ (answer 0).fits small ∧ (answer 0).flags = some 0 ∧ noToken.fits small :=
  ⟨readAnswer_fits (by decide) (by decide) _, by decide +kernel, readAnswer_fits (by decide) (by decide) _,
    by decide +kernel, answer_fits (by decide) _, by decide, silence_fits _, answer_fits (by decide) _, rfl, noToken_fits⟩

/-! ### Byte ranges -/

theorem witness_RangeRequestsNeedASession :
    (eng tp []).top = .idle ∧ (eng tp []).initialized = false ∧
      after (fun t => t.completion.status) (exec .status (eng tp [])) = some .success := by decide

theorem witness_OutOfBounds :
    (opened tp []).top = .idle ∧ (opened tp []).initialized = true ∧
      2 ^ 64 ≤ (0xFFFFFFFFFFFFFFFF : U64).toNat + (1 : U64).toNat ∧
      (opened tp []).sectorCount.toNat * 512 < (524288 : U64).toNat + (1 : U64).toNat ∧
      after (fun t => t.completion.status) (exec .status (opened tp [])) = some .success := by decide

theorem witness_EmptyRange :
    (opened tp []).top = .idle ∧ (opened tp []).initialized = true ∧
      (524288 : U64).toNat ≤ (opened tp []).sectorCount.toNat * 512 ∧
      ¬ (524289 : U64).toNat ≤ (opened tp []).sectorCount.toNat * 512 := by decide

theorem witness_CheckBounds :
    (524287 : U64).toNat + (1 : U64).toNat < 2 ^ 64 ∧
      (524287 : U64).toNat + (1 : U64).toNat ≤ (opened tp []).sectorCount.toNat * 512 ∧
      (opened tp []).sectorCount.toNat * 512 < (524288 : U64).toNat + (1 : U64).toNat := by decide

/-- A READ across a block boundary into the last bytes of host memory. -/
theorem witness_ReadReturnsTheCardBytes (d0 d1 : Vector Byte 512) :
    let s := opened tp ((twoReads d0 d1).flatMap ReadAnswer.bytes)
    s.top = .idle ∧ RangeReady s 510 4 ∧ MemorySound s ∧ BufferKept s 65532 4 ∧
      (twoReads d0 d1).length = touchedBlocks 510 4 ∧ (∀ a ∈ twoReads d0 d1, a.fits s.cfg) ∧
      s.script = (twoReads d0 d1).flatMap ReadAnswer.bytes ++ [] :=
  ⟨rfl, opened_ready tp _ (by decide) (by decide), opened_sound tp _, opened_keeps _ (by decide), by show 2 = _; decide,
    twoReads_fit d0 d1, (List.append_nil _).symm⟩

/-- Three blocks: a merge, a body block, a merge. -/
def threeWrites (d0 d1 : Vector Byte 512) : List BlockAnswer :=
  [.merge (readAnswer d0) writeAnswer, .full writeAnswer, .merge (readAnswer d1) writeAnswer]

theorem threeWrites_fit (d0 d1 : Vector Byte 512) : ∀ a ∈ threeWrites d0 d1, a.fits tp := by
  have hw : writeAnswer.fits tp := writeAnswer_fits (by decide) rfl (by decide)
  simp only [threeWrites, List.mem_cons, List.not_mem_nil, or_false]
  rintro a (rfl | rfl | rfl)
  · exact ⟨readAnswer_fits (by decide) (by decide) _, hw⟩
  · exact hw
  · exact ⟨readAnswer_fits (by decide) (by decide) _, hw⟩

theorem threeWrites_merge (d0 d1 : Vector Byte 512) : MergesAtEnds (threeWrites d0 d1) := by
  intro k h
  match k, h with
  | 0, _ => exact ⟨fun _ => .inl rfl, fun _ => rfl⟩
  | 1, _ => exact ⟨fun h => (nomatch h), fun h => by rcases h with h | h <;> cases h⟩
  | 2, _ => exact ⟨fun _ => .inr rfl, fun _ => rfl⟩

/-- One block, which is both the first and the last: 4 bytes inside it. -/
theorem witness_WriteAndErase_oneBlock (d : Vector Byte 512) :
    let as := [BlockAnswer.merge (readAnswer d) writeAnswer]
    let s := opened tp (as.flatMap BlockAnswer.bytes)
    s.top = .idle ∧ RangeReady s 1024 4 ∧ BufferKept s 65532 4 ∧ as.length = touchedBlocks 1024 4 ∧
      (∀ a ∈ as, a.fits s.cfg) ∧ MergesAtEnds as ∧ s.script = as.flatMap BlockAnswer.bytes ++ [] := by
  refine ⟨rfl, opened_ready tp _ (by decide) (by decide), opened_keeps _ (by decide), by show 1 = _; decide, fun a ha => ?_,
    fun k h => ?_, (List.append_nil _).symm⟩
  · rw [List.mem_singleton.1 ha]
    exact ⟨readAnswer_fits (p := tp) (by decide) (by decide) _, writeAnswer_fits (p := tp) (by decide) rfl (by decide)⟩
  · match k, h with
    | 0, _ => exact ⟨fun _ => .inl rfl, fun _ => rfl⟩

/-- Three blocks. -/
theorem witness_WriteAndErase (d0 d1 : Vector Byte 512) :
    let s := opened tp ((threeWrites d0 d1).flatMap BlockAnswer.bytes)
    s.top = .idle ∧ RangeReady s 100 1100 ∧ BufferKept s 64436 1100 ∧
      (threeWrites d0 d1).length = touchedBlocks 100 1100 ∧ (∀ a ∈ threeWrites d0 d1, a.fits s.cfg) ∧
      MergesAtEnds (threeWrites d0 d1) ∧ s.script = (threeWrites d0 d1).flatMap BlockAnswer.bytes ++ [] :=
  ⟨rfl, opened_ready tp _ (by decide) (by decide), opened_keeps _ (by decide), by show 3 = _; decide, threeWrites_fit d0 d1,
    threeWrites_merge d0 d1, (List.append_nil _).symm⟩

/-- A READ whose second block gets no answer. -/
theorem witness_ReadFailsPartWay (d : Vector Byte 512) :
    let as := [readAnswer d]
    let f := ReadFailure.rejected (noReply tp)
    let s := opened tp (as.flatMap ReadAnswer.bytes ++ f.bytes)
    s.top = .idle ∧ RangeReady s 510 4 ∧ MemorySound s ∧ BufferKept s 65532 4 ∧ as.length < touchedBlocks 510 4 ∧
      (∀ a ∈ as, a.fits s.cfg) ∧ f.fits s.cfg ∧ s.script = as.flatMap ReadAnswer.bytes ++ f.bytes ++ [] ∧
      bytesBefore 510 as.length = 2 :=
  ⟨rfl, opened_ready tp _ (by decide) (by decide), opened_sound tp _, opened_keeps _ (by decide), by show 1 < _; decide,
    fun a ha => by rw [List.mem_singleton.1 ha]; exact readAnswer_fits (p := tp) (by decide) (by decide) _,
    ⟨silence_fits tp, nofun⟩, (List.append_nil _).symm, by show 512 * 1 - 510 % 512 = 2; decide⟩

/-- A WRITE or ERASE whose second of three blocks, a body block, is rejected. -/
theorem witness_WriteFailsPartWay (d : Vector Byte 512) :
    let as := [BlockAnswer.merge (readAnswer d) writeAnswer]
    let f := BlockFailure.full (.refused (answer 0) (List.replicate 515 0xFF) 0x0B)
    let s := opened tp (as.flatMap BlockAnswer.bytes ++ f.bytes)
    s.top = .idle ∧ RangeReady s 100 1100 ∧ BufferKept s 64436 1100 ∧ as.length < touchedBlocks 100 1100 ∧
      (∀ a ∈ as, a.fits s.cfg) ∧ f.fits s.cfg ∧ (∀ k : Nat, ∀ h : k < as.length, as[k].isMerge = true ↔ k = 0) ∧
      (f.isMerge = true ↔ as.length = 0 ∨ as.length + 1 = touchedBlocks 100 1100) ∧
      s.script = as.flatMap BlockAnswer.bytes ++ f.bytes ++ [] ∧ bytesBefore 100 as.length = 412 := by
  refine ⟨rfl, opened_ready tp _ (by decide) (by decide), opened_keeps _ (by decide), by show 1 < _; decide, fun a ha => ?_,
    ⟨answer_fits (p := tp) (by decide) _, rfl, writeAnswer_sending (p := tp) rfl, by decide⟩, fun k h => ?_,
    ⟨nofun, fun h => ?_⟩, (List.append_nil _).symm, by show 512 * 1 - 100 % 512 = 412; decide⟩
  · rw [List.mem_singleton.1 ha]
    exact ⟨readAnswer_fits (p := tp) (by decide) (by decide) _, writeAnswer_fits (p := tp) (by decide) rfl (by decide)⟩
  · match k, h with
    | 0, _ => exact ⟨fun _ => rfl, fun _ => rfl⟩
  · exact absurd (show 1 = 0 ∨ 1 + 1 = touchedBlocks 100 1100 from h) (by decide)

/-- The mapper's premises are those of READ, and of WRITE and ERASE, without IDLE. -/
theorem witness_MapperReturnsTheSize (d0 d1 : Vector Byte 512) :
    RangeReady (opened tp []) 510 4 ∧ (twoReads d0 d1).length = touchedBlocks 510 4 ∧
      RangeReady (opened tp []) 100 1100 ∧ (threeWrites d0 d1).length = touchedBlocks 100 1100 :=
  ⟨opened_ready tp _ (by decide) (by decide), by show 2 = _; decide, opened_ready tp _ (by decide) (by decide),
    by show 3 = _; decide⟩

theorem witness_MergeSegment (data : Vector Byte 512) :
    let s := opened tp ((readAnswer data).bytes ++ writeAnswer.bytes)
    s.busAnswers = none ∧ (0xFFFFFFFF : U64).toNat * s.divisor.toNat < 2 ^ 32 ∧ 511 + 1 ≤ 512 ∧
      s.accessSound (s.req.buf + s.map.done.toNat) 1 = true ∧ (readAnswer data).fits s.cfg ∧ MemorySound s ∧
      writeAnswer.fits s.cfg ∧ s.script = (readAnswer data).bytes ++ writeAnswer.bytes ++ [] :=
  ⟨rfl, (by decide : (0xFFFFFFFF : U64).toNat * (1 : U32).toNat < 2 ^ 32), by decide, opened_access _ (by decide),
    readAnswer_fits (p := tp) (by decide) (by decide) _, opened_sound tp _, writeAnswer_fits (p := tp) (by decide) rfl (by decide),
    (List.append_nil _).symm⟩

theorem witness_FullBlock (data : Vector Byte 512) :
    let s := opened tp (readAnswer data).bytes
    s.accessSound (s.req.buf + s.map.done.toNat) 512 = true ∧ (readAnswer data).fits s.cfg ∧ MemorySound s ∧
      s.script = (readAnswer data).bytes ++ [] ∧ writeAnswer.fits s.cfg :=
  ⟨opened_access _ (by decide), readAnswer_fits (p := tp) (by decide) (by decide) _, opened_sound tp _, (List.append_nil _).symm,
    writeAnswer_fits (p := tp) (by decide) rfl (by decide)⟩

/-! ### Whole-machine rules -/

/-- The four outcomes of READ that need no data block: no session, out of bounds, empty, an I/O failure. -/
theorem witness_RangeRequestsReportOneOutcome :
    after State.completion (exec (.read 0 1 0) (eng tp [])) = some ⟨.notInitialized, 0, 0, .none⟩ ∧
      after State.completion (exec (.read 524289 0 0) (opened tp [])) = some ⟨.outOfBounds, 0, 0, .none⟩ ∧
      after State.completion (exec (.read 524288 0 0) (opened tp [])) = some ⟨.success, 0, 0, .none⟩ ∧
      after State.completion (exec (.read 0 1 0) (opened small (List.replicate 10 0xFF))) =
        some ⟨.ioFailure, 0, 0, .protocolTimeout⟩ := by decide +kernel

theorem witness_OnlyInitAndCapacity :
    after State.sectorCount (exec .capacity (opened small (readAnswer (csdOf [0, 0, 0, 0, 0, 9])).bytes)) = some 4 ∧
      after State.sectorCount (exec (.erase 0 0) (opened small [])) = some 1024 := by decide +kernel

/-- A READ, a READ segment and a READ block that fail on the bus, a WRITE and a STATUS, all from IDLE. -/
theorem witness_HostMemory :
    let s := opened small (List.replicate 10 0xFF)
    s.top = .idle ∧ BufferKept s 65535 1 ∧ after State.top (exec (.mapper .read 0 1 65535) s) = some .idle ∧
      after State.top (exec (.read 0 1 65535) s) = some .idle ∧
      s.accessSound (s.req.buf + s.map.done.toNat) 512 = true ∧
      after State.mem (exec (.mergeSegment .read 0 0 512) s) = some [] ∧
      after State.mem (exec (.fullBlock .read 0) s) = some [] ∧ after State.mem (exec (.write 0 1 65535) s) = some [] ∧
      after State.mem (exec (.mapper .write 0 1 65535) s) = some [] ∧ after State.mem (exec .status s) = some [] := by
  refine ⟨rfl, ⟨rfl, ?_⟩, ?_⟩
  · show 65535 + (1 : U64).toNat ≤ 2 ^ 16
    decide
  · decide +kernel

theorem witness_OnlyTableFrames :
    after frames (exec .cmd0 (eng tp (reply 1).bytes)) = some [[0x40, 0x00, 0x00, 0x00, 0x00, 0x95]] := by decide

/-- The largest request on a card of 1024 sectors. -/
theorem witness_EveryRequestEnds :
    Inv (opened tp []) ∧ (opened tp []).top = .idle ∧ (opened tp []).busAnswers = none ∧
      (0 : U64).toNat + (524288 : U64).toNat ≤ (opened tp []).sectorCount.toNat * 512 ∧
      AddressesFit (opened tp []) 0 524288 :=
  ⟨opened_inv _, rfl, rfl, by decide, by unfold AddressesFit; decide⟩

/-- The instructions that have premises of their own; any other one needs only that the bus answers. -/
theorem witness_EveryExchangeEnds :
    (opened tp []).busAnswers = none ∧ emitted tp 17 5 tp.close = true ∧ emitted tp 8 0x1AA 0x87 = true ∧
      (0xFFFFFFFF : U64).toNat * (opened tp []).divisor.toNat < 2 ^ 32 := by decide

theorem witness_RequestsWhileBusy :
    { eng tp [] with top := .busy .read }.top ≠ .idle ∧
      refusedAs .busy (exec .status { eng tp [] with top := .busy .read }) = true := by decide

theorem witness_OperandsOutside :
    emitted tp 1 0 0x95 = false ∧ emitted tp 8 0 tp.close = false ∧ 15 ≠ DataBuffer.length .csd ∧ 512 < 511 + 2 := by decide

/-- Before a session is open INIT and CAPACITY complete with a card that answers nothing, and the other requests do with no
card at all. -/
theorem witness_ClosedSession :
    let s := eng small (List.replicate 60 0xFF)
    s.initialized = false ∧ (after State.top (exec .init s) = some .idle ∧ after State.top (exec .capacity s) = some .idle ∧
      after State.top (exec .status s) = some .idle) ∧ after State.top (exec (.read 0 1 0) s) = some .idle ∧
      after State.top (exec (.write 0 1 0) s) = some .idle ∧ after State.top (exec (.erase 0 1) s) = some .idle := by decide

/-- CMD0 after its `Sel` change and three exchanges waits for the fourth, and then has it back; it ends after 11 bus
calls. One whose first bus call never returns is stuck in it. -/
theorem witness_SequencerSteps :
    (Running.now ⟨eng small (reply 1).bytes, .cmd0, 4, true⟩).map (fun t => (t.pending, sent t)) =
        some (some (.xfer 0x00), [(true, 0x40), (true, 0x00), (true, 0x00)]) ∧
      (Running.now ⟨eng small (reply 1).bytes, .cmd0, 5, false⟩).map (fun t => (t.pending, (sent t).length)) =
        some (none, 4) ∧
      after State.result ((Running.begin .cmd0 (eng small (reply 1).bytes)).outcome 11) = some (.resp (.r1 1)) ∧
      (eng small (reply 1).bytes).busAnswers = none ∧
      after State.result (exec .cmd0 (eng small (reply 1).bytes)) = some (.resp (.r1 1)) ∧
      (Running.now ⟨{ eng small [] with busAnswers := some 0 }, .cmd0, 0, true⟩).map (fun t => (t.pending, sent t)) =
        some (some (.sel true), []) := by decide +kernel

end Sys2Proof.Tests
end

section
namespace Sys2Proof.Proofs

open Sys2Proof.Machine Sys2Proof.Laws

/-! ## What a step can do -/

section

variable {s t : State} {w : Input} {rest : List Input} {i : Instr} {e : DecodeError}

theorem step_nothing (h : s.inbox = []) : step s = .next s := by
  unfold step
  rw [h]

theorem step_decoded (h : s.inbox = w :: rest) (hd : decode s.cfg w = .ok i) : step s = exec i s.popInbox := by
  unfold step
  simp only [h, hd]

theorem step_undecodable (h : s.inbox = w :: rest) (hd : decode s.cfg w = .error e) :
    step s = .refused (.undecodable e) := by
  unfold step
  simp only [h, hd]

theorem popInbox_of_cons (h : s.inbox = w :: rest) : s.popInbox = { s with inbox := rest } := by
  unfold State.popInbox
  rw [h, List.tail_cons]

/-- A step that answers a next state had nothing presented, or ran the instruction it decoded. -/
theorem step_next (h : step s = .next t) :
    t = s ∨ ∃ w i, decode s.cfg w = .ok i ∧ exec i s.popInbox = .next t := by
  cases hin : s.inbox with
  | nil =>
    rw [step_nothing hin] at h
    cases h
    exact .inl rfl
  | cons w rest =>
    cases hd : decode s.cfg w with
    | ok i => exact .inr ⟨w, i, hd, (step_decoded hin hd).symm.trans h⟩
    | error e =>
      rw [step_undecodable hin hd] at h
      cases h

end

/-- Settles O5: the three branches of `step`. -/
theorem stepRunsTheDecodedInstruction : Obligations.StepRunsTheDecodedInstruction := by
  unfold Obligations.StepRunsTheDecodedInstruction
  refine fun s => ⟨step_nothing, fun w rest i h hd => ?_, fun w rest e => step_undecodable⟩
  rw [step_decoded h hd, popInbox_of_cons h]

/-! ## The invariant -/

/-- Settles O7: every clause is about a value `State.reset` fixes. -/
theorem invariantHoldsAtReset : Obligations.InvariantHoldsAtReset := by
  unfold Obligations.InvariantHoldsAtReset
  exact
    { memory := ⟨reset_memory_wf, nofun⟩
      session := nofun
      completion := fun _ => rfl
      select := fun _ => rfl
      params := by
        show Config.params.wf = true
        decide }

theorem safe_of_inv {s : State} (h : Inv s) : Safe s := ⟨h.memory, h.session, h.completion, h.params⟩

theorem safe_popInbox {s : State} (h : Safe s) : Safe s.popInbox := ⟨h.memory, h.session, h.completion, h.params⟩

theorem safe_accept {s : State} (h : Safe s) (op : HostOp) : Safe (s.accept op) :=
  ⟨h.memory, h.session, h.completion, h.params⟩

/-- Every instruction keeps what `Safe` says of the state, a request from the moment it is accepted. -/
theorem exec_safe {s t : State} {i : Instr} (h : Safe s) (ht : exec i s = .next t) : Safe t :=
  exec_keeps safe_moves i h (safe_accept h) ht

/-- Settles O8: all but the select line is kept by every move of every instruction (`safe_moves`); the select line is low
again wherever an instruction that has a spelling leaves the engine IDLE (`decoded_select`). -/
theorem invariantKeptByEveryStep : Obligations.InvariantKeptByEveryStep := by
  unfold Obligations.InvariantKeptByEveryStep
  intro s t hs h
  obtain rfl | ⟨w, i, hd, ht⟩ := step_next h
  · exact hs
  · have safe : Safe t := exec_safe (safe_popInbox (safe_of_inv hs)) ht
    exact ⟨safe.memory, safe.session, safe.completion, decoded_select (s := s.popInbox) hd hs.select ht, safe.params⟩

/-! ## What no instruction changes -/

/-- The parameters, and what the host and the environment present, are those of `s`. -/
def SameInputs (s t : State) : Prop := t.cfg = s.cfg ∧ t.inbox = s.inbox ∧ t.hostKeepsDuties = s.hostKeepsDuties

theorem sameInputs_moves (s : State) : AllMoves (SameInputs s) (SameInputs s) fun _ _ => True := by
  constructor
  constructor
  constructor
  constructor
  case perform => exact fun c t h _ => by cases c <;> exact h
  case silent => exact fun _ _ h _ => ⟨h, trivial⟩
  all_goals (intros; trivial)

/-- Settles O9: no move of any instruction writes one of these fields. -/
theorem noInstructionChangesAParameter : Obligations.NoInstructionChangesAParameter := by
  unfold Obligations.NoInstructionChangesAParameter
  exact fun i s t ht => exec_keeps (sameInputs_moves s) i (s := s) ⟨rfl, rfl, rfl⟩ (fun _ => ⟨rfl, rfl, rfl⟩) ht

/-! ## Independence of the session registers -/

/-- The form in which the statement compares the two runs. -/
theorem sessionApart_registers {d : U32} {c : U64} {s t t' : State} (h : SessionApart d c s t t') :
    (t'.divisor = t.divisor ∨ (t.divisor = s.divisor ∧ t'.divisor = d)) ∧
      (t'.sectorCount = t.sectorCount ∨ (t.sectorCount = s.sectorCount ∧ t'.sectorCount = c)) ∧
      { t' with divisor := t.divisor, sectorCount := t.sectorCount } = t := by
  obtain ⟨d', c', rfl, hd, hc⟩ := h
  exact ⟨hd, hc, rfl⟩

/-- Settles O59: INIT, CAPACITY and STATUS read neither register, and a READ, WRITE or ERASE in a closed session is turned
away before it would. -/
theorem closedSessionRequestsIgnoreTheSessionRegisters :
    Obligations.ClosedSessionRequestsIgnoreTheSessionRegisters := by
  unfold Obligations.ClosedSessionRequestsIgnoreTheSessionRegisters
  intro i s t d c hi ht
  suffices h : ∃ t', exec i (withSession d c s) = .next t' ∧ SessionApart d c s t t' by
    obtain ⟨t', ht', hapart⟩ := h
    exact ⟨t', ht', sessionApart_registers hapart⟩
  rcases hi with rfl | rfl | rfl | ⟨hclosed, o, n, buf, rfl | rfl | rfl⟩
  · exact Oblivious.initOp.serve d c ht
  · exact Oblivious.capacityOp.serve d c ht
  · exact Oblivious.serve (.bind (.look fun _ _ _ => rfl) fun _ => .pure _) d c ht
  · exact serve_closed hclosed d c ht
  · exact serve_closed hclosed d c ht
  · exact serve_closed hclosed d c ht

end Sys2Proof.Proofs
end

section
namespace Sys2Proof.Proofs

open Sys2Proof.Machine Sys2Proof.Laws

/-! ## The sequencer one step at a time -/

section

variable {r : Running} {t u : State} {k : Nat}

/-- What `position` counts from while an instruction runs: a request sets it to 0 when it is accepted (10_state.md R50). -/
def basePosition (i : Instr) (s : State) : Nat := if i.isRequest then 0 else s.position

/-- Waiting for a bus call is stopping where no further call returns, with the calls left put back. -/
theorem waitsIn_eq_some : r.waitsIn k = some t ↔
    ∃ u, r.outcome k = .fault (.busNeverReturns u) ∧ { u with busAnswers := r.start.busAnswers.map (· - k) } = t := by
  unfold Running.waitsIn
  split
  · rename_i v hv
    simp [hv]
  · rename_i hno
    simpa using fun v hv => (hno v hv).elim

/-- Where an instruction waits, `position` has counted the calls returned, and `pending` names the next one. -/
theorem waitsIn_counted (h : r.waitsIn k = some t) :
    t.position = basePosition r.instr r.start + k ∧ t.pending ≠ none ∧ t.busAnswers = r.start.busAnswers.map (· - k) := by
  obtain ⟨u, hu, rfl⟩ := waitsIn_eq_some.1 h
  have hl := exec_leaves (count_moves (limit k r.start) (basePosition r.instr r.start) k) r.instr
    (s := limit k r.start)
    (fun hi => ⟨[], k, 0, by simp, rfl, rfl, by simp, by simp [basePosition, hi]⟩)
    (fun hi op => ⟨[], k, 0, by simp, rfl, rfl, by simp, by simp [basePosition, hi]⟩)
  rw [show exec r.instr (limit k r.start) = _ from hu] at hl
  obtain ⟨v, ⟨es, j, used, htr, hleft, hsum, hlen, hpos⟩, hstop⟩ := hl
  obtain ⟨rfl, hspent, hpending⟩ := hstop u rfl
  obtain rfl : j = 0 := by simpa [hleft] using hspent
  obtain rfl : used = k := by omega
  exact ⟨hpos, hpending, rfl⟩

/-- The bus call that returns is the one waited for. -/
theorem answered_of_pending {c : BusCall} (h : t.pending = some c) :
    t.answered = State.perform c { t.spendAnswer with pending := none } := by
  unfold State.answered
  rw [h]

theorem answered_counted (h : t.pending ≠ none) :
    t.answered.position = t.position + 1 ∧ t.answered.pending = none ∧ t.answered.busAnswers = t.busAnswers.map (· - 1) := by
  obtain ⟨c, hc⟩ := Option.ne_none_iff_exists'.1 h
  rw [answered_of_pending hc]
  exact ⟨by simp, by simp, by simp⟩

/-- Putting calls back changes no bus event of the one waited for. -/
theorem answered_trace_answers (b : Option Nat) : State.trace { t with busAnswers := b }.answered = t.answered.trace := by
  cases h : t.pending with
  | none => simp only [State.answered, h]
  | some c =>
    simp only [State.answered, h]
    cases c <;> rfl

/-! The three places an instruction under way can be in. -/

theorem now_begun (s : State) (i : Instr) : Running.now ⟨s, i, 0, false⟩ = some s := rfl

theorem now_waiting (s : State) (i : Instr) (k : Nat) :
    Running.now ⟨s, i, k, true⟩ = Running.waitsIn ⟨s, i, k, true⟩ k := rfl

theorem now_answered (s : State) (i : Instr) (k : Nat) :
    Running.now ⟨s, i, k + 1, false⟩ = (Running.waitsIn ⟨s, i, k + 1, false⟩ k).map State.answered := rfl

theorem tick_computes (s : State) (i : Instr) (k : Nat) : Running.tick ⟨s, i, k, false⟩ = ⟨s, i, k, true⟩ := rfl

theorem tick_returns {s : State} {i : Instr} {k : Nat} (h : s.busAnswers ≠ some k) :
    Running.tick ⟨s, i, k, true⟩ = ⟨s, i, k + 1, false⟩ := if_neg h

theorem tick_stuck {s : State} {i : Instr} {k : Nat} (h : s.busAnswers = some k) :
    Running.tick ⟨s, i, k, true⟩ = ⟨s, i, k, true⟩ := if_pos h

/-- Only the state it began in, and the instruction, decide where an instruction waits. -/
theorem waitsIn_congr (s : State) (i : Instr) (a b : Nat) (v w : Bool) (k : Nat) :
    Running.waitsIn ⟨s, i, a, v⟩ k = Running.waitsIn ⟨s, i, b, w⟩ k := rfl

/-- The position of an instruction under way counts the bus steps. -/
theorem now_counted (hr : r.calls ≠ 0 ∨ r.waiting = true) (h : r.now = some t) :
    t.position = basePosition r.instr r.start + r.calls ∧ t.pending.isSome = r.waiting ∧
      t.busAnswers = r.start.busAnswers.map (· - r.calls) := by
  obtain ⟨s, i, calls, waiting⟩ := r
  cases waiting with
  | true =>
    obtain ⟨hpos, hpending, hleft⟩ := waitsIn_counted ((now_waiting s i calls).symm.trans h)
    exact ⟨hpos, Option.isSome_iff_ne_none.2 hpending, hleft⟩
  | false =>
    obtain _ | k := calls
    · simp at hr
    · rw [now_answered] at h
      obtain ⟨u, hu, rfl⟩ := Option.map_eq_some_iff.1 h
      obtain ⟨hpos, hpending, hleft⟩ := waitsIn_counted hu
      obtain ⟨hpos', hpending', hleft'⟩ := answered_counted hpending
      refine ⟨by rw [hpos', hpos]; rfl, by rw [hpending']; rfl, ?_⟩
      rw [hleft', hleft, Option.map_map]
      rfl

/-- A computation makes no bus event: from the instruction's beginning, or from the return of a bus call, to the next call
or the end. -/
theorem computation_trace {s v : State} {i : Instr} {k : Nat} (h : Running.now ⟨s, i, k, false⟩ = some t)
    (hv : Uniform.leftIn (exec i (limit k s)) = some v) : v.trace = t.trace := by
  obtain _ | k := k
  · cases (now_begun s i).symm.trans h
    exact (exec_ends i).first _ v hv
  · rw [now_answered] at h
    obtain ⟨w, hw, rfl⟩ := Option.map_eq_some_iff.1 h
    obtain ⟨u, hu, rfl⟩ := waitsIn_eq_some.1 hw
    rw [answered_trace_answers]
    exact (exec_ends i).resumes s k u v hu hv

end

/-! ### The ticks of an instruction on a bus that answers -/

section

variable {s : State} {i : Instr} (hs : s.busAnswers = none)
include hs

/-- Two ticks take an instruction through one bus call. -/
theorem tick_even (k : Nat) : Running.tick^[2 * k] (Running.begin i s) = ⟨s, i, k, false⟩ := by
  induction k with
  | zero => rfl
  | succ k ih =>
    rw [Nat.mul_succ, Function.iterate_succ_apply', Function.iterate_succ_apply', ih, tick_computes,
      tick_returns (by rw [hs]; exact nofun)]

theorem tick_odd (k : Nat) : Running.tick^[2 * k + 1] (Running.begin i s) = ⟨s, i, k, true⟩ := by
  rw [Function.iterate_succ_apply', tick_even hs, tick_computes]

end

/-- Settles O60: the counted calls (`count_moves`) give the position, and the course of an instruction as its bus calls
return one by one (`exec_ends`) gives the events and the end. -/
theorem sequencerStepsComposeToTheInstruction : Obligations.SequencerStepsComposeToTheInstruction := by
  unfold Obligations.SequencerStepsComposeToTheInstruction
  refine ⟨fun r t => now_counted, ?_, ?_⟩
  · rintro ⟨s, i, k, waiting⟩ t u ht hu
    refine ⟨?_, ?_, ?_⟩
    · rintro rfl
      obtain ⟨v, hv, rfl⟩ := waitsIn_eq_some.1 ((now_waiting s i k).symm.trans hu)
      have hleft : Uniform.leftIn (exec i (limit k s)) = some v := by
        rw [show exec i (limit k s) = _ from hv]
        rfl
      exact computation_trace (v := v) ht hleft
    · rintro rfl hstuck
      rw [tick_stuck hstuck] at hu
      exact Option.some.inj (hu.symm.trans ht)
    · rintro rfl hreturns
      rw [tick_returns hreturns, now_answered, waitsIn_congr s i (k + 1) k false true, ← now_waiting, ht] at hu
      cases hu
      obtain ⟨-, hpending, -⟩ := now_counted (.inr rfl) ht
      obtain ⟨c, hc⟩ := Option.isSome_iff_exists.1 hpending
      refine ⟨c, hc, ?_⟩
      rw [answered_of_pending hc]
      cases c with
      | sel v => exact ⟨rfl, rfl⟩
      | xfer tx => exact ⟨_, rfl⟩
      | receive rx => rfl
      | wait ms => rfl
  · intro i s u hs hu
    obtain ⟨n, hend, hwait⟩ := (exec_ends i).ends s u hs hu
    have waits : ∀ k, k < n → (Running.waitsIn ⟨s, i, k, true⟩ k).isSome = true := fun k hk => by
      obtain ⟨v, hv⟩ := hwait k hk
      exact Option.isSome_iff_exists.2 ⟨_, waitsIn_eq_some.2 ⟨v, hv, rfl⟩⟩
    refine ⟨n, hend, fun k hk => ?_, fun t ht => ?_, ?_⟩
    · obtain ⟨j, rfl | rfl⟩ := Nat.even_or_odd' k
      · rw [tick_even hs]
        obtain _ | j := j
        · rfl
        · rw [now_answered, Option.isSome_map]
          exact waits j (by omega)
      · rw [tick_odd hs]
        exact waits j (by omega)
    · rw [tick_even hs] at ht
      exact computation_trace (v := limit 0 u) ht (by rw [hend]; rfl)
    · rw [tick_odd hs, now_waiting]
      unfold Running.waitsIn
      rw [show Running.outcome ⟨s, i, n, true⟩ n = _ from hend]

end Sys2Proof.Proofs
end

section
namespace Sys2Proof.Proofs

open Sys2Proof.Machine Sys2Proof.Laws

variable {α : Type} {P : State → Prop} {R : Fault → State → Prop}

/-! ## How an instruction runs

An instruction that is neither a request nor one of the mapper's is a sub-step made of the moves of the bus side and of
bring-up. -/

/-- An instruction outside the requests and the mapper, and what `R` has to say of the faults it may stop with. -/
def Allowed (P : State → Prop) (R : Fault → State → Prop) : Instr → Prop
  | .init | .read _ _ _ | .write _ _ _ | .erase _ _ | .capacity | .status => False
  | .mapper _ _ _ _ | .mergeSegment _ _ _ _ | .fullBlock _ _ => False
  | .blockAddress blk | .readBlockAt blk | .writeBlockAt blk =>
    ∀ s, P s → ¬ cardAddress blk s.divisor < 2 ^ 32 → R (.addressOverflow blk s) s
  | .extractBits msb lsb => ∀ s, P s → extractDomain msb lsb = false → R (.extractBitsDomain msb lsb s) s
  | _ => True

/-- How such an instruction runs from a state: as a sub-step that keeps `P`, or, with operands outside its rule, not at
all. -/
inductive Runs (P : State → Prop) (R : Fault → State → Prop) (i : Instr) (s : State) : Prop where
  | refused (r : Refusal) (illFormed : WellFormed s.cfg i = false) (runs : exec i s = .refused r)
  | subStep {α : Type} (toResult : α → Result) (m : M α) (keeps : Keeps P R m) (runs : exec i s = runSubStep toResult m s)

/-- An instruction that checks its operands first. -/
theorem Runs.guarded {c : Prop} [Decidable c] {i : Instr} {s : State} {r : Refusal} {toResult : α → Result} {m : M α}
    (hc : ¬ c → WellFormed s.cfg i = false) (hm : Keeps P R m)
    (he : exec i s = if c then runSubStep toResult m s else .refused r) : Runs P R i s := by
  by_cases h : c
  · exact .subStep toResult m hm (he.trans (if_pos h))
  · exact .refused r (hc h) (he.trans (if_neg h))

theorem extractBits_keeps {msb lsb : Nat}
    (hd : ∀ s, P s → extractDomain msb lsb = false → R (.extractBitsDomain msb lsb s) s) :
    Keeps P R (extractBits msb lsb) := by
  by_cases h : extractDomain msb lsb = true
  · rw [extractBits, if_pos h]
    exact .look _
  · rw [extractBits, if_neg h]
    exact .stop fun s hs => hd s hs (by simpa using h)

theorem exec_runs (h : BringUpMoves P R) (s : State) {i : Instr} (hi : Allowed P R i) : Runs P R i s := by
  have hb := h.toBusMoves
  cases i with
  | cmd0 => exact .subStep _ _ (Keeps.command hb _ _) rfl
  | cmd8 => exact .subStep _ _ (Keeps.probeInterfaceCondition hb) rfl
  | cmd9 => exact .subStep _ _ (Keeps.readCSD hb) rfl
  | cmd16 => exact .subStep _ _ (Keeps.command hb _ _) rfl
  | cmd17 a => exact .subStep _ _ (Keeps.readBlockFrom hb a) rfl
  | cmd24 a => exact .subStep _ _ (Keeps.writeBlockTo hb a) rfl
  | cmd55 => exact .subStep _ _ (Keeps.command hb _ _) rfl
  | acmd41V1 => exact .subStep _ _ (Keeps.command hb _ _) rfl
  | acmd41V2 => exact .subStep _ _ (Keeps.command hb _ _) rfl
  | cmd58 => exact .subStep _ _ (Keeps.readOcr hb) rfl
  | r1 f => exact .subStep _ _ (Keeps.responseByte hb f) rfl
  | startToken => exact .subStep _ _ (Keeps.tokenByte hb) rfl
  | dataResponseAccept x => exact .subStep _ _ (Keeps.acceptByte hb x) rfl
  | busy => exact .subStep _ _ (Keeps.busyByte hb) rfl
  | filler => exact .subStep _ _ (Keeps.xfer hb _) rfl
  | frame idx arg close => exact .guarded Bool.eq_false_of_not_eq_true (Keeps.frame hb idx arg close) rfl
  | poll => exact .subStep _ _ (Keeps.poll hb) rfl
  | release => exact .subStep _ _ (Keeps.release hb) rfl
  | command idx arg => exact .guarded Bool.eq_false_of_not_eq_true (Keeps.command hb idx arg) rfl
  | commandNoDeselect idx arg => exact .guarded Bool.eq_false_of_not_eq_true (Keeps.commandNoDeselect hb idx arg) rfl
  | probeInterfaceCondition => exact .subStep _ _ (Keeps.probeInterfaceCondition hb) rfl
  | readOperatingConditionRegister => exact .subStep _ _ (Keeps.readOcr hb) rfl
  | bringUp => exact .subStep _ _ (Keeps.bringUp h) rfl
  | extractBits msb lsb => exact .subStep _ _ (extractBits_keeps hi) rfl
  | decodeCapacity => exact .subStep _ _ (Keeps.look fun t => Machine.decodeCapacity t.csd) rfl
  | decodeV0 => exact .subStep _ _ (Keeps.look fun t => Machine.decodeV0 t.csd) rfl
  | decodeV1 => exact .subStep _ _ (Keeps.look fun t => Machine.decodeV1 t.csd) rfl
  | readCSD => exact .subStep _ _ (Keeps.readCSD hb) rfl
  | blockAddress blk => exact .subStep _ _ (Keeps.blockAddress hi) rfl
  | readData n dst =>
    exact .guarded decide_eq_false ((Keeps.readData hb n dst).onRaise (Keeps.freeBuffer hb dst)) rfl
  | readBlockAt blk => exact .subStep _ _ ((Keeps.blockAddress hi).bind fun a => Keeps.readBlockFrom hb a) rfl
  | writeBlockAt blk => exact .subStep _ _ ((Keeps.blockAddress hi).bind fun a => Keeps.writeBlockTo hb a) rfl
  | checkDataResponse => exact .subStep _ _ (Keeps.checkDataResponse hb) rfl
  | waitNotBusy => exact .subStep _ _ (Keeps.waitNotBusy hb) rfl
  | checkBounds o n => exact .subStep _ _ (Keeps.checkBounds o n) rfl
  | init | read | write | erase | capacity | status | mapper | mergeSegment | fullBlock => exact hi.elim

/-! ## Every exchange ends -/

/-- A well-formed instruction that no fault can stop answers a next state. -/
theorem exec_ends_of_runs {i : Instr} {s : State} (h : Runs P (fun _ _ => False) i s) (hw : WellFormed s.cfg i = true)
    (hs : P s) : ∃ t, exec i s = .next t := by
  cases h with
  | refused r hill _ =>
    rw [hill] at hw
    cases hw
  | subStep toResult m hk he =>
    rw [he]
    exact runSubStep_ends hk hs

/-- A transfer of a block whose card address fits answers a next state. -/
theorem blockTransfer_ends {s : State} {blk : U64} {toResult : α → Result} {m : U32 → M α}
    (hm : ∀ a, Keeps P (fun _ _ => False) (m a)) (hs : P s) (hfit : blk.toNat * s.divisor.toNat < 2 ^ 32) :
    ∃ t, runSubStep toResult (do let a ← blockAddress blk; m a) s = .next t := by
  obtain ⟨t, ht⟩ := runSubStep_ends (toResult := toResult) (hm (cardArg s blk.toNat)) hs
  refine ⟨t, ?_⟩
  rw [← ht]
  unfold runSubStep
  rw [bind_ok (blockAddress_fits hfit)]

/-- Settles O56: on a bus that answers, no move of the bus side stops (`answered_moves`), so an instruction made of such moves
returns or raises; a block transfer computes its address first. -/
theorem everyExchangeEnds : Obligations.EveryExchangeEnds := by
  unfold Obligations.EveryExchangeEnds
  intro i s hbus hi
  have hb := answered_moves.toBusMoves
  have ends : ∀ j, Allowed (fun t : State => t.busAnswers = none) (fun _ _ => False) j → WellFormed s.cfg j = true →
      ∃ t, exec j s = .next t :=
    fun j ha hw => exec_ends_of_runs (exec_runs answered_moves.toBringUpMoves s ha) hw hbus
  rcases hi with rfl | rfl | rfl | rfl | ⟨a, rfl | rfl⟩ | rfl | rfl | rfl | rfl | ⟨f, rfl⟩ | rfl | ⟨x, rfl⟩ | rfl | rfl |
    ⟨idx, arg, close, rfl, he⟩ | rfl | rfl | ⟨idx, arg, rfl | rfl, he⟩ | rfl | rfl | rfl | rfl | ⟨dst, rfl⟩ |
    ⟨blk, rfl | rfl, hfit⟩ | rfl | rfl
  all_goals try exact ends _ trivial rfl
  · exact ends _ trivial he
  · exact ends _ trivial he
  · exact ends _ trivial he
  · exact ends _ trivial (decide_eq_true rfl)
  · exact blockTransfer_ends (Keeps.readBlockFrom hb) hbus hfit
  · exact blockTransfer_ends (Keeps.writeBlockTo hb) hbus hfit

end Sys2Proof.Proofs
end

section
namespace Sys2Proof.Proofs

open Sys2Proof.Machine Sys2Proof.Laws

variable {α : Type} {C : State → Prop} {R : Fault → State → Prop} {kind : MapKind} {o n : U64} {buf : Nat}

/-! ## Every request ends -/

theorem settledFor_no_fault {m : M α} {s : State} (h : ∀ f t, m s ≠ .error (.fault f) t) (f : Fault) (t : State) :
    settledFor kind m s ≠ .error (.fault f) t := by
  by_cases hk : kind = .erase
  · subst hk
    exact h f t
  · rw [settledFor_buffer hk]
    cases hm : m s with
    | ok a u => rw [settled_ok hm]; exact nofun
    | error e u =>
      cases e with
      | raised e => rw [settled_raised hm]; exact nofun
      | fault g => exact absurd hm (h g u)

/-- What every step of the mapper keeps on a bus that answers, where the request's card addresses fit. -/
theorem steady_moves {s : State} (hf : AddressesFit s o n) : WalkMoves (Steady s) (fun _ _ => False) kind o n where
  map _ _ h := h
  free _ h := h
  unread _ _ h := h
  settle _ t h := by
    unfold settleDuties
    split
    · exact h
    · exact h
  segment d b off k blk m _ hb hp := Steady.segment (by rw [hb]; exact hp.address hf) m k

/-- A request within the bounds, as integers (44_byte_range_mapper.md R221). -/
def InBounds (s : State) (o n : U64) : Prop :=
  o.toNat + n.toNat < 2 ^ 64 ∧ o.toNat + n.toNat ≤ s.sectorCount.toNat * 512

/-- The mapper stops with no fault, whatever its operands, if the addresses of a legal, non-empty request fit. -/
theorem mapper_no_fault {s : State} (hbus : s.busAnswers = none)
    (hf : InBounds s o n → 1 ≤ n.toNat → AddressesFit s o n) (f : Fault) (t : State) :
    mapper kind o n buf s ≠ .error (.fault f) t := by
  by_cases hb : InBounds s o n
  · by_cases hn : 1 ≤ n.toNat
    · intro hx
      have h := mapper_ends (buf := buf) hb hn (steady_moves (s := s) (kind := kind) (hf hb hn)) ⟨hbus, rfl, rfl, rfl⟩
      rw [hx] at h
      exact h
    · obtain rfl : n = 0 := BitVec.eq_of_toNat_eq (by simpa using hn)
      refine settledFor_no_fault (s := mapperStart o 0 buf s) (fun f t => ?_) f t
      unfold mapRange
      rw [bind_ok (checkBounds_legal (s := mapperStart o 0 buf s) hb), if_pos rfl]
      exact nofun
  · refine settledFor_no_fault (s := mapperStart o n buf s) (fun f t => ?_) f t
    unfold mapRange
    rw [bind_error (checkBounds_illegal (s := mapperStart o n buf s) ?_)]
    · exact nofun
    · unfold InBounds at hb
      show _ ∨ s.sectorCount.toNat * 512 < _
      omega

/-- READ, WRITE and ERASE in an open session (R252): the mapper runs. -/
theorem rangeOp_open {s : State} (hi : s.initialized = true) :
    rangeOp kind o n buf s = (do
      let k ← mapper kind o n buf
      pure (succeed k 0)) (s.setReq ⟨o, n, buf⟩) := by
  unfold rangeOp
  rw [update_bind, look_bind]
  exact congrFun (if_pos hi) _

theorem rangeOp_no_fault {s : State} (hbus : s.busAnswers = none)
    (hf : s.initialized = true → InBounds s o n → 1 ≤ n.toNat → AddressesFit s o n) (f : Fault) (t : State) :
    rangeOp kind o n buf s ≠ .error (.fault f) t := by
  by_cases hi : s.initialized = true
  · have hm := mapper_no_fault (kind := kind) (buf := buf) (s := s.setReq ⟨o, n, buf⟩) hbus (hf hi)
    rw [rangeOp_open hi, run_bind]
    cases hx : mapper kind o n buf (s.setReq ⟨o, n, buf⟩) with
    | ok k u => exact nofun
    | error e u =>
      rintro ⟨⟩
      exact hm f t hx
  · rw [rangeOp_closed (by simpa using hi), update_bind]
    exact settledFor_no_fault (fun _ _ => by rw [run_raise]; simp) f t

/-- `TOP` while a request runs: nothing but accepting and ending one changes it (45_facade.md R250). -/
theorem busy_moves (op : HostOp) : AllMoves (fun t => t.top = .busy op) (fun _ => True) fun _ _ => True := by
  constructor
  constructor
  constructor
  constructor
  case perform => exact fun c s h _ => by cases c <;> exact h
  case silent => exact fun _ _ h _ => ⟨h, trivial⟩
  all_goals (intros; trivial)

/-- A request has words that spell it (30_encoding.md R116). -/
theorem request_decodes {p : Params} (hp : p.wf = true) {i : Instr} (hi : i.isRequest = true) :
    ∃ w, decode p w = .ok i := by
  cases i with
  | init => exact ⟨_, RoundTrip.init p hp _ rfl⟩
  | read o n buf => exact ⟨_, RoundTrip.read o n buf p hp _ rfl⟩
  | write o n buf => exact ⟨_, RoundTrip.write o n buf p hp _ rfl⟩
  | erase o n => exact ⟨_, RoundTrip.erase o n p hp _ rfl⟩
  | capacity => exact ⟨_, RoundTrip.capacity p hp _ rfl⟩
  | status => exact ⟨_, RoundTrip.status p hp _ rfl⟩
  | _ => cases hi

/-- A request that ends in IDLE has released the card. -/
theorem request_select {i : Instr} {s t : State} (hs : Inv s) (hi : i.isRequest = true) (ht : exec i s = .next t)
    (hidle : t.top = .idle) : t.sel = false := by
  obtain ⟨w, hw⟩ := request_decodes hs.params hi
  exact decoded_select hw hs.select ht hidle

/-- Settles O55: on a bus that answers no request stops, so it completes or takes its error exit, and either leaves
`TOP = IDLE` (`serve_ends`); there the select line is low (`request_select`). -/
theorem everyRequestEnds : Obligations.EveryRequestEnds := by
  unfold Obligations.EveryRequestEnds
  intro i s hs hidle hbus hi
  suffices h : i.isRequest = true ∧ ∃ t, exec i s = .next t ∧ t.top = .idle by
    obtain ⟨hreq, t, ht, htop⟩ := h
    exact ⟨t, ht, htop, request_select hs hreq ht htop⟩
  rcases hi with (rfl | rfl | rfl) | ⟨o, n, buf, hi, hfit⟩
  · exact ⟨rfl, serve_ends hidle nofun (Keeps.initOp (busy_moves .init).toSessionMoves)
      fun f t hx => ((Keeps.initOp answered_moves).fault (s := s.accept .init) hbus hx).2⟩
  · exact ⟨rfl, serve_ends hidle nofun (Keeps.capacityOp (busy_moves .capacity).toSessionMoves)
      fun f t hx => ((Keeps.capacityOp answered_moves).fault (s := s.accept .capacity) hbus hx).2⟩
  · exact ⟨rfl, _, serve_ok hidle rfl, rfl⟩
  · have range : ∀ (op : HostOp) (kind : MapKind) (buf : Nat), op ≠ .status →
        ∃ t, serve op (rangeOp kind o n buf) s = .next t ∧ t.top = .idle := fun op kind buf hop =>
      serve_ends hidle hop (Keeps.rangeOp (busy_moves op).toMapperMoves kind o n buf)
        (rangeOp_no_fault (s := s.accept op) hbus fun hinit hb => hfit hinit hb.2)
    rcases hi with rfl | rfl | rfl
    · exact ⟨rfl, range .read .read buf nofun⟩
    · exact ⟨rfl, range .write .write buf nofun⟩
    · exact ⟨rfl, range .erase .erase 0 nofun⟩

end Sys2Proof.Proofs
end

section
namespace Sys2Proof.Proofs

open Sys2Proof.Machine Sys2Proof.Laws

variable {α β : Type} {C : State → Prop} {R : Fault → State → Prop} {Q : Memory → Prop} {kind : MapKind} {o n : U64}

/-! ## Two properties kept together -/

theorem busMoves_and {P C : State → Prop} {R R' : Fault → State → Prop} (hp : BusMoves P R) (hc : BusMoves C R') :
    BusMoves (fun t => P t ∧ C t) R where
  silent c t h h0 := ⟨⟨(hp.silent c t h.1 h0).1, (hc.silent c t h.2 h0).1⟩, (hp.silent c t h.1 h0).2⟩
  perform c t h h0 := ⟨hp.perform c t h.1 h0, hc.perform c t h.2 h0⟩
  command idx arg t h := ⟨hp.command idx arg t h.1, hc.command idx arg t h.2⟩
  resp v t h := ⟨hp.resp v t h.1, hc.resp v t h.2⟩
  ocr v t h := ⟨hp.ocr v t h.1, hc.ocr v t h.2⟩
  csd v t h := ⟨hp.csd v t h.1, hc.csd v t h.2⟩
  scratch v t h := ⟨hp.scratch v t h.1, hc.scratch v t h.2⟩
  loops v t h := ⟨hp.loops v t h.1, hc.loops v t h.2⟩
  found v t h := ⟨hp.found v t h.1, hc.found v t h.2⟩
  drt v t h := ⟨hp.drt v t h.1, hc.drt v t h.2⟩
  freeCsd t h := ⟨hp.freeCsd t h.1, hc.freeCsd t h.2⟩
  freeScratch t h := ⟨hp.freeScratch t h.1, hc.freeScratch t h.2⟩

/-- The bus side leaves the mapper's registers alone. -/
theorem map_moves (m : MapperRegs) : BusMoves (fun t => t.map = m) fun _ _ => True := by
  constructor
  case perform => exact fun c t h _ => by cases c <;> exact h
  case silent => exact fun _ _ h _ => ⟨h, trivial⟩
  all_goals (intros; trivial)

/-! ## Host memory -/

/-- Host memory meets `Q`, and what decides about the host's duties and about an error exit is as in `s0`. -/
structure HostFrame (s0 : State) (Q : Memory → Prop) (t : State) : Prop where
  mem : Q t.mem
  top : t.top = s0.top
  req : t.req = s0.req
  cfg : t.cfg = s0.cfg
  duties : t.hostKeepsDuties = s0.hostKeepsDuties

section

variable {s0 t u : State}

/-- An update of other fields. -/
theorem HostFrame.congr (h : HostFrame s0 Q t) (hm : u.mem = t.mem) (ht : u.top = t.top) (hr : u.req = t.req)
    (hc : u.cfg = t.cfg) (hd : u.hostKeepsDuties = t.hostKeepsDuties) : HostFrame s0 Q u :=
  ⟨hm ▸ h.mem, ht.trans h.top, hr.trans h.req, hc.trans h.cfg, hd.trans h.duties⟩

theorem HostFrame.setMem (h : HostFrame s0 Q t) {m : Memory} (hm : Q m) : HostFrame s0 Q (t.setMem m) :=
  ⟨hm, h.top, h.req, h.cfg, h.duties⟩

theorem HostFrame.bufferSound (h : HostFrame s0 Q t) : t.bufferSound = s0.bufferSound := by
  unfold State.bufferSound State.hostBytesSound
  rw [h.req, h.cfg, h.duties]

/-- A host access inside one that keeps the duties keeps them. -/
theorem HostFrame.accessSound (h : HostFrame s0 Q t) {a k j : Nat} (hs : s0.accessSound a k = true) (hj : j ≤ k) :
    t.accessSound a j = true := by
  unfold State.accessSound State.hostBytesSound at hs ⊢
  rw [h.bufferSound, h.cfg, h.duties]
  simp only [Bool.and_eq_true, decide_eq_true_eq] at hs ⊢
  exact ⟨⟨hs.1.1, by omega⟩, hs.2⟩

/-- Where the host keeps its duties nothing is settled. -/
theorem HostFrame.settle (h : HostFrame s0 Q t) (hb : s0.bufferSound = true) : HostFrame s0 Q (settleDuties t) := by
  rw [settleDuties_sound (h.bufferSound.trans hb)]
  exact h

/-- Outside the stores of the mapper nothing writes host memory. -/
theorem hostFrame_moves (s0 : State) (Q : Memory → Prop) : SessionMoves (HostFrame s0 Q) fun _ _ => True := by
  constructor
  constructor
  constructor
  case silent => exact fun _ _ h _ => ⟨h.congr rfl rfl rfl rfl rfl, trivial⟩
  case perform => exact fun c s h _ => h.congr (by simp) (by simp) (by simp) (by simp) (by simp)
  all_goals (intros; apply HostFrame.congr; assumption; all_goals rfl)

/-- A segment: only a READ stores, and where the host keeps its duties it stores at most `k` bytes from its host address
on. -/
theorem hostFrame_segment {blk : U64} {k : Nat} {m : MapperRegs}
    (hsound : kind = .read → s0.accessSound (s0.req.buf + m.done.toNat) k = true)
    (hstore : kind = .read → ∀ M bs, Q M → bs.length ≤ k → Q (Memory.writeBytes M (s0.req.buf + m.done.toNat) bs)) :
    SegmentMoves (fun t => HostFrame s0 Q t ∧ t.map = m) (fun _ _ => True) kind blk k := by
  have address : ∀ t, HostFrame s0 Q t ∧ t.map = m → segmentAddress t = s0.req.buf + m.done.toNat := fun t h => by
    unfold segmentAddress
    rw [h.1.req, h.2]
  constructor
  case overflow => exact fun _ _ _ => trivial
  case store =>
    intro hk bs t h hle _
    rw [address t h]
    exact ⟨h.1.setMem (hstore hk _ bs h.1.mem hle), h.2⟩
  case storeFree =>
    intro hk j t h hj hbad
    rw [address t h] at hbad
    exact absurd (h.1.accessSound (hsound hk) hj) hbad
  exact busMoves_and (hostFrame_moves s0 Q).toBusMoves (map_moves m)

end

/-! ### Where an instruction ends -/

/-- `C` holds where a sub-step returns and where it raises. -/
def Stays (C : State → Prop) (m : M α) (s : State) : Prop :=
  (∀ a t, m s = .ok a t → C t) ∧ ∀ e t, m s = .error (.raised e) t → C t

theorem stays_of_keeps {m : M α} {s : State} (h : Keeps C R m) (hs : C s) : Stays C m s :=
  ⟨fun _ _ => h.ok hs, fun _ _ => h.raised hs⟩

theorem Stays.congr {m m' : M α} {s s' : State} (h : Stays C m' s') (he : m s = m' s') : Stays C m s := by
  unfold Stays
  rw [he]
  exact h

theorem Stays.map {m : M α} {f : α → β} {s : State} (h : Stays C m s) : Stays C (do let a ← m; pure (f a)) s := by
  refine ⟨fun b t ht => ?_, fun e t ht => ?_⟩
  · obtain ⟨a, u, hu, hp⟩ := bind_eq_ok ht
    cases hp
    exact h.1 a t hu
  · rw [run_bind] at ht
    cases hm : m s with
    | ok a u => rw [hm] at ht; cases ht
    | error x u =>
      rw [hm] at ht
      cases ht
      exact h.2 e t hm

theorem subStep_memory {m : M α} {s0 s t : State} {toResult : α → Result} (h : Stays (HostFrame s0 Q) m s)
    (hi : s0.top = .idle) (ht : runSubStep toResult m s = .next t) : Q t.mem := by
  obtain ⟨a, u, hu, rfl⟩ | ⟨e, u, hu, rfl⟩ := runSubStep_next ht
  · exact (h.1 a u hu).mem
  · rw [errorExit_idle (s := u.setResult (.raised e)) ((h.2 e u hu).top.trans hi)]
    exact (h.2 e u hu).mem

/-- The error exit of a READ leaves host memory alone, or frees the bytes that were not transferred. -/
theorem errorExit_read_mem {s : State} {e : Err} (h : s.top = .busy .read) :
    (s.errorExit e).mem = s.mem ∨ (s.errorExit e).mem = s.freeUnread.mem := by
  unfold State.errorExit
  rw [h]
  dsimp only
  split
  · exact .inr rfl
  · exact .inl rfl

theorem serve_memory {m : M Completion} {op : HostOp} {s s0 t : State} (h : Stays (HostFrame s0 Q) m (s.accept op))
    (hop : s0.top = .busy op) (hread : op = .read → ∀ u, HostFrame s0 Q u → Q u.freeUnread.mem)
    (ht : serve op m s = .next t) : Q t.mem := by
  obtain ⟨-, ⟨c, u, hu, rfl⟩ | ⟨e, u, hu, rfl⟩⟩ := serve_next ht
  · exact (h.1 c u hu).mem
  · have hf := h.2 e u hu
    by_cases hr : op = .read
    · subst hr
      obtain hm | hm := errorExit_read_mem (e := e) (hf.top.trans hop)
      · rw [hm]
        exact hf.mem
      · rw [hm]
        exact hread rfl u hf
    · rw [errorExit_mem (hf.top.trans hop) hr]
      exact hf.mem

/-! ### The mapper -/

/-- What the mapper keeps of host memory: with a READ, whatever its stores inside the buffer keep. -/
theorem hostFrame_walk {s0 : State} {buf : Nat} (hreq : s0.req = ⟨o, n, buf⟩)
    (hb : kind ≠ .erase → s0.bufferSound = true)
    (hstore : kind = .read → ∀ M a bs, Q M → buf ≤ a → a + bs.length ≤ buf + n.toNat → Q (Memory.writeBytes M a bs))
    (hfree : kind = .read → ∀ u, HostFrame s0 Q u → Q u.freeUnread.mem) :
    WalkMoves (HostFrame s0 Q) (fun _ _ => True) kind o n where
  map _ _ h := h.congr rfl rfl rfl rfl rfl
  free _ h := h.congr rfl rfl rfl rfl rfl
  unread hk u h := ⟨hfree hk u h, h.top, h.req, h.cfg, h.duties⟩
  settle hk _ h := h.settle (hb hk)
  segment d b off k blk m hd _ hp := by
    have hin := hp.inRequest
    have hbuf : s0.req.buf = buf := by rw [hreq]
    refine hostFrame_segment (fun hk => ?_) fun hk M bs hM hle => hstore hk M _ bs hM (by omega) (by omega)
    have hsound := hb (by rw [hk]; exact nofun)
    unfold State.accessSound
    rw [hsound, Bool.and_true]
    unfold State.bufferSound State.hostBytesSound at hsound
    unfold State.hostBytesSound
    rw [hreq] at hsound ⊢
    simp only [Bool.and_eq_true, decide_eq_true_eq] at hsound ⊢
    exact ⟨hsound.1, by omega⟩

theorem mapper_memory {s : State} {buf : Nat} (hm : WalkMoves (HostFrame (s.setReq ⟨o, n, buf⟩) Q) (fun _ _ => True) kind o n)
    (hQ : Q s.mem) : Stays (HostFrame (s.setReq ⟨o, n, buf⟩) Q) (mapper kind o n buf) s := by
  have h := mapper_stays (buf := buf) (s := s) hm ⟨hQ, rfl, rfl, rfl, rfl⟩
  exact ⟨h.1, fun e t ht => (h.2 e t ht).1⟩

theorem rangeOp_memory {s : State} {buf : Nat} (hm : WalkMoves (HostFrame (s.setReq ⟨o, n, buf⟩) Q) (fun _ _ => True) kind o n)
    (hQ : Q s.mem) : Stays (HostFrame (s.setReq ⟨o, n, buf⟩) Q) (rangeOp kind o n buf) s := by
  by_cases hi : s.initialized = true
  · exact (mapper_memory (s := s.setReq ⟨o, n, buf⟩) hm hQ).map.congr (rangeOp_open hi)
  · refine Stays.congr ?_ ((rangeOp_closed (by simpa using hi)).trans (update_bind _ _ _))
    exact stays_of_keeps (R := fun _ _ => True) ((Keeps.raise _).settledFor hm.settle) ⟨hQ, rfl, rfl, rfl, rfl⟩

/-! ### The two facts about host memory -/

/-- `M` differs from `m` only at the addresses `lo .. hi - 1`. -/
def SameOutside (m : Memory) (lo hi : Nat) (M : Memory) : Prop :=
  ∀ a, a < lo ∨ hi ≤ a → Memory.read M a = Memory.read m a

theorem SameOutside.writeBytes {m M : Memory} {lo hi a : Nat} {bs : List Byte} (h : SameOutside m lo hi M) (ha : lo ≤ a)
    (hb : a + bs.length ≤ hi) : SameOutside m lo hi (Memory.writeBytes M a bs) := fun x hx => by
  rw [read_writeBytes_other _ _ _ (by omega), h x hx]

theorem SameOutside.freeUnread {m : Memory} {lo hi : Nat} {t : State} (h : SameOutside m lo hi t.mem)
    (ha : lo ≤ t.req.buf) (hb : t.req.buf + t.req.size.toNat ≤ hi) : SameOutside m lo hi t.freeUnread.mem := fun x hx => by
  show Memory.read (Memory.replaceRange _ _ _ _) x = _
  rw [read_replaceRange_other _ _ _ _ (by omega), h x hx]

theorem bufferKept_sound {s : State} {buf : Nat} (h : BufferKept s buf n) : (s.setReq ⟨o, n, buf⟩).bufferSound = true :=
  bufferSound_kept (s := s) h rfl rfl rfl

/-- The walk of a READ keeps every byte outside its buffer. -/
theorem read_walk {s : State} {m : Memory} {buf : Nat} (hb : BufferKept s buf n) :
    WalkMoves (HostFrame (s.setReq ⟨o, n, buf⟩) (SameOutside m buf (buf + n.toNat))) (fun _ _ => True) .read o n :=
  hostFrame_walk rfl (fun _ => bufferKept_sound hb) (fun _ _ _ _ h ha hle => h.writeBytes ha hle)
    fun _ _ hu => hu.mem.freeUnread (by rw [hu.req]; exact le_rfl) (by rw [hu.req]; exact le_rfl)

/-- The walk of a WRITE or an ERASE keeps host memory. -/
theorem write_walk {s : State} {m : Memory} {buf : Nat} (hk : kind ≠ .read) (hb : kind ≠ .erase → BufferKept s buf n) :
    WalkMoves (HostFrame (s.setReq ⟨o, n, buf⟩) (· = m)) (fun _ _ => True) kind o n :=
  hostFrame_walk rfl (fun he => bufferKept_sound (hb he)) (fun h => absurd h hk) fun h => absurd h hk

/-- An instruction outside the requests and the mapper leaves host memory alone. -/
theorem exec_memory {i : Instr} {s t : State} (hi : s.top = .idle) (ht : exec i s = .next t)
    (ha : Allowed (HostFrame s (· = s.mem)) (fun _ _ => True) i) : t.mem = s.mem := by
  have hr := exec_runs (hostFrame_moves s (· = s.mem)).toBringUpMoves s ha
  cases hr with
  | refused r _ he =>
    rw [he] at ht
    cases ht
  | subStep toResult m hk he =>
    rw [he] at ht
    exact subStep_memory (Q := (· = s.mem)) (stays_of_keeps hk ⟨rfl, rfl, rfl, rfl, rfl⟩) hi ht

/-- A request outside READ that keeps host memory and the request's registers leaves host memory alone. -/
theorem serve_memory_of_keeps {op : HostOp} {m : M Completion} {s t : State} (hop : op ≠ .read)
    (hk : Keeps (HostFrame (s.accept op) (· = s.mem)) R m) (ht : serve op m s = .next t) : t.mem = s.mem :=
  serve_memory (Q := (· = s.mem)) (stays_of_keeps hk ⟨rfl, rfl, rfl, rfl, rfl⟩) rfl (fun h => absurd h hop) ht

/-- A WRITE or an ERASE leaves host memory alone. -/
theorem serve_range_memory {op : HostOp} {s t : State} {buf : Nat} (hop : op ≠ .read) (hk : kind ≠ .read)
    (hb : kind ≠ .erase → BufferKept s buf n) (ht : serve op (rangeOp kind o n buf) s = .next t) : t.mem = s.mem :=
  serve_memory (Q := (· = s.mem)) (rangeOp_memory (write_walk (s := s.accept op) hk hb) rfl) rfl (fun h => absurd h hop) ht

/-- A segment or a block of a WRITE or an ERASE leaves host memory alone. -/
theorem segment_memory {s t : State} {blk : U64} {k : Nat} {toResult : Unit → Result} {m : M Unit} (hi : s.top = .idle)
    (hm : SegmentMoves (fun t => HostFrame s Q t ∧ t.map = s.map) (fun _ _ => True) kind blk k →
      Keeps (fun t => HostFrame s Q t ∧ t.map = s.map) (fun _ _ => True) m)
    (hsound : kind = .read → s.accessSound (s.req.buf + s.map.done.toNat) k = true)
    (hstore : kind = .read → ∀ M bs, Q M → bs.length ≤ k → Q (Memory.writeBytes M (s.req.buf + s.map.done.toNat) bs))
    (hQ : Q s.mem) (ht : runSubStep toResult m s = .next t) : Q t.mem := by
  have h := stays_of_keeps (hm (hostFrame_segment hsound hstore)) (s := s) ⟨⟨hQ, rfl, rfl, rfl, rfl⟩, rfl⟩
  exact subStep_memory ⟨fun a t ht => (h.1 a t ht).1, fun e t ht => (h.2 e t ht).1⟩ hi ht

/-- READ, and the mapper run for a READ, change only bytes of the buffer. -/
theorem read_memory {s t : State} {buf : Nat} (hb : BufferKept s buf n) (ht : exec (.read o n buf) s = .next t) :
    SameOutside s.mem buf (buf + n.toNat) t.mem :=
  have hm := read_walk (s := s.accept .read) (m := s.mem) (o := o) hb
  serve_memory (rangeOp_memory hm fun _ _ => rfl) rfl (fun _ u hu => (hm.unread rfl u hu).mem) ht

theorem mapper_read_memory {s t : State} {buf : Nat} (hi : s.top = .idle) (hb : BufferKept s buf n)
    (ht : exec (.mapper .read o n buf) s = .next t) : SameOutside s.mem buf (buf + n.toNat) t.mem :=
  subStep_memory (mapper_memory (read_walk hb) fun _ _ => rfl) hi ht

/-- The mapper run for a WRITE or an ERASE leaves host memory alone. -/
theorem mapper_write_memory {s t : State} {buf : Nat} (hi : s.top = .idle) (hk : kind ≠ .read)
    (hb : kind ≠ .erase → BufferKept s buf n) (ht : exec (.mapper kind o n buf) s = .next t) : t.mem = s.mem :=
  subStep_memory (Q := (· = s.mem)) (mapper_memory (write_walk hk hb) rfl) hi ht

/-- A merge segment of a READ changes only the bytes it transfers, one of a WRITE or an ERASE none. -/
theorem mergeSegment_memory {s t : State} {blk : U64} {off n : Nat} (hi : s.top = .idle)
    (hsound : kind = .read → s.accessSound (s.req.buf + s.map.done.toNat) n = true)
    (hstore : kind = .read → ∀ M bs, Q M → bs.length ≤ n → Q (Memory.writeBytes M (s.req.buf + s.map.done.toNat) bs))
    (hQ : Q s.mem) (ht : exec (.mergeSegment kind blk off n) s = .next t) : Q t.mem := by
  change execMergeSegment kind blk off n s = .next t at ht
  unfold execMergeSegment at ht
  split at ht
  · exact segment_memory hi (fun h => Keeps.mergeSegment h off) hsound hstore hQ ht
  · cases ht

theorem fullBlock_memory {s t : State} {blk : U64} (hi : s.top = .idle)
    (hsound : kind = .read → s.accessSound (s.req.buf + s.map.done.toNat) 512 = true)
    (hstore : kind = .read → ∀ M bs, Q M → bs.length ≤ 512 → Q (Memory.writeBytes M (s.req.buf + s.map.done.toNat) bs))
    (hQ : Q s.mem) (ht : exec (.fullBlock kind blk) s = .next t) : Q t.mem :=
  segment_memory hi (fun h => Keeps.fullBlock h le_rfl) hsound hstore hQ ht

/-- Stores of at most `k` bytes at `a` keep every byte outside `a .. a + k - 1`. -/
theorem sameOutside_store (m : Memory) (a k : Nat) (M : Memory) (bs : List Byte) (hM : SameOutside m a (a + k) M)
    (hle : bs.length ≤ k) : SameOutside m a (a + k) (Memory.writeBytes M a bs) :=
  hM.writeBytes le_rfl (by omega)

/-- Settles O53: a sub-step reaches host memory only through the stores of a READ's segments (`hostFrame_segment`), which
lie inside the buffer (`Piece.inRequest`); with the host's duties kept nothing else writes it. -/
theorem hostMemoryChangesOnlyInAReadBuffer : Obligations.HostMemoryChangesOnlyInAReadBuffer := by
  unfold Obligations.HostMemoryChangesOnlyInAReadBuffer
  intro i s t ht hi
  cases i
  case init => exact serve_memory_of_keeps (op := .init) nofun (Keeps.initOp (hostFrame_moves _ _)) ht
  case capacity => exact serve_memory_of_keeps (op := .capacity) nofun (Keeps.capacityOp (hostFrame_moves _ _)) ht
  case status => exact serve_memory_of_keeps (op := .status) (R := fun _ _ => True) nofun Keeps.statusOp ht
  case read o n buf => exact fun hb => read_memory hb ht
  case write o n buf => exact fun hb => serve_range_memory (op := .write) (kind := .write) nofun nofun (fun _ => hb) ht
  case erase o n => exact serve_range_memory (op := .erase) (kind := .erase) nofun nofun (fun h => absurd rfl h) ht
  case mapper kind o n buf =>
    cases kind with
    | read => exact fun hb => mapper_read_memory hi hb ht
    | write => exact fun hb => mapper_write_memory (kind := .write) hi nofun (fun _ => hb) ht
    | erase => exact mapper_write_memory (kind := .erase) hi nofun (fun h => absurd rfl h) ht
  case mergeSegment kind blk off n =>
    cases kind with
    | read => exact fun hs => mergeSegment_memory hi (fun _ => hs) (fun _ => sameOutside_store s.mem _ n) (fun _ _ => rfl) ht
    | write => exact mergeSegment_memory (kind := .write) (Q := (· = s.mem)) hi nofun nofun rfl ht
    | erase => exact mergeSegment_memory (kind := .erase) (Q := (· = s.mem)) hi nofun nofun rfl ht
  case fullBlock kind blk =>
    cases kind with
    | read => exact fun hs => fullBlock_memory hi (fun _ => hs) (fun _ => sameOutside_store s.mem _ 512) (fun _ _ => rfl) ht
    | write => exact fullBlock_memory (kind := .write) (Q := (· = s.mem)) hi nofun nofun rfl ht
    | erase => exact fullBlock_memory (kind := .erase) (Q := (· = s.mem)) hi nofun nofun rfl ht
  case blockAddress | readBlockAt | writeBlockAt | extractBits => exact exec_memory hi ht fun _ _ _ => trivial
  all_goals exact exec_memory hi ht trivial

end Sys2Proof.Proofs
end

section
namespace Sys2Proof.Proofs

open Sys2Proof.Machine Sys2Proof.Laws

/-! ## From an instruction to its words and back -/

/-- Every spelling decodes back, and an internal primitive has none. -/
theorem roundTrip (i : Instr) : RoundTrip.Statement i := by
  cases i with
  | cmd0 => exact RoundTrip.cmd0
  | cmd8 => exact RoundTrip.cmd8
  | cmd9 => exact RoundTrip.cmd9
  | cmd16 => exact RoundTrip.cmd16
  | cmd17 arg => exact RoundTrip.cmd17 arg
  | cmd24 arg => exact RoundTrip.cmd24 arg
  | cmd55 => exact RoundTrip.cmd55
  | acmd41V1 => exact RoundTrip.acmd41V1
  | acmd41V2 => exact RoundTrip.acmd41V2
  | cmd58 => exact RoundTrip.cmd58
  | r1 flags => exact RoundTrip.r1 flags
  | startToken => exact RoundTrip.startToken
  | dataResponseAccept ignored => exact RoundTrip.dataResponseAccept ignored
  | busy => exact RoundTrip.busy
  | filler => exact RoundTrip.filler
  | init => exact RoundTrip.init
  | read offset size buf => exact RoundTrip.read offset size buf
  | write offset size buf => exact RoundTrip.write offset size buf
  | erase offset size => exact RoundTrip.erase offset size
  | capacity => exact RoundTrip.capacity
  | status => exact RoundTrip.status
  | _ => exact fun _ _ _ => RoundTrip.of_none rfl

/-- Settles O2: one round trip per row (`roundTrip`). -/
theorem decodeOfEncodeIsTheInstruction : Obligations.DecodeOfEncodeIsTheInstruction := by
  unfold Obligations.DecodeOfEncodeIsTheInstruction
  exact fun p hp i w => roundTrip i p hp w

/-! ## From words to the instruction they spell -/

section

variable {p : Params} {i : Instr} {idx : CmdIndex} {arg : U32} {close : Byte} {bytes : List Byte}

/-- The bytes of a frame of the table decode to its row. -/
theorem decode_frame_of_row (hb : bytes = frameBytes idx arg close) (hrow : frameRow p idx arg close = some i) :
    decode p (.frame bytes) = .ok i := by
  subst hb
  show decodeFrame p (frameBytes idx arg close) = .ok i
  rw [decodeFrame_frameBytes, hrow]

/-- Bytes that decode as a frame are the frame of a row of the table. -/
theorem decode_frame_ok (h : decode p (.frame bytes) = .ok i) :
    ∃ idx arg close, bytes = frameBytes idx arg close ∧ frameRow p idx arg close = some i := by
  change decodeFrame p bytes = .ok i at h
  unfold decodeFrame at h
  split at h
  · split at h
    · cases h
    · rename_i b0 b1 b2 b3 b4 b5 hstart
      split at h
      · rename_i hrow
        cases h
        exact ⟨_, _, _, (frameBytes_of_bytes b0 b1 b2 b3 b4 (not_not.1 hstart) b5).symm, hrow⟩
      · cases h
  · cases h

/-- A byte is its top bit and its seven flags (30_encoding.md R106). -/
theorem response_join (b : Byte) : b.extractLsb' 7 1 ++ b.extractLsb' 0 7 = b := by
  revert b; decide

/-- A byte is its three ignored bits and its five status bits (R111). -/
theorem dataResponse_join (b : Byte) : b.extractLsb' 5 3 ++ b.extractLsb' 0 5 = b := by
  revert b; decide

/-- A guarded reading that succeeds met its guard. -/
theorem guarded_ok {c : Prop} [Decidable c] {e : DecodeError} {j : Instr}
    (h : (if c then Except.ok j else Except.error e) = Except.ok i) : c ∧ j = i := by
  split at h
  · exact ⟨‹c›, Except.ok.inj h⟩
  · cases h

/-- A byte that decodes in a context is what the instruction is spelled as. -/
theorem decode_byte_spelled {ctx : ByteContext} {b : Byte} (h : decode p (.byte ctx b) = .ok i) :
    encode p i = some (.byte ctx b) := by
  change decodeByte ctx b = .ok i at h
  cases ctx with
  | response =>
    obtain ⟨hb, rfl⟩ := guarded_ok h
    show some (Input.byte .response (0#1 ++ b.extractLsb' 0 7)) = _
    rw [← hb, response_join]
  | token =>
    obtain ⟨rfl, rfl⟩ := guarded_ok h
    rfl
  | dataResponse =>
    obtain ⟨hb, rfl⟩ := guarded_ok h
    show some (Input.byte .dataResponse (b.extractLsb' 5 3 ++ acceptBits)) = _
    rw [← hb, dataResponse_join]
  | busy =>
    obtain ⟨rfl, rfl⟩ := guarded_ok h
    rfl
  | sent =>
    obtain ⟨rfl, rfl⟩ := guarded_ok h
    rfl

/-- An operation word with a clear reserved field is its operation (R116). -/
theorem opw_of_operation {b : Byte} (h : b.extractLsb' 3 5 = 0#5) : b = BitVec.ofNat 8 (b.extractLsb' 0 3).toNat := by
  revert b; decide

/-- A request that decodes is spelled with the same operation word; the other words may be ones it ignores (log 24). -/
theorem decode_request_spelled {w : RequestWords} (h : decode p (.request w) = .ok i) :
    ∃ w', encode p i = some (.request w') ∧ w'.opw = w.opw := by
  change decodeRequest w = .ok i at h
  unfold decodeRequest at h
  split at h
  · cases h
  · rename_i hreserved
    rw [opw_of_operation (not_not.1 hreserved)]
    split at h
    all_goals cases h
    all_goals
      rename_i hop
      rw [hop]
      exact ⟨_, rfl, rfl⟩

end

/-- Settles O3: the bytes of a frame are the frame of its row (`decode_frame_ok`), and a row has one spelling
(`frameRow_encode`); bytes and requests are their fields put together again. -/
theorem wordsThatDecodeAreTheSpelling : Obligations.WordsThatDecodeAreTheSpelling := by
  unfold Obligations.WordsThatDecodeAreTheSpelling
  refine fun p i => ⟨fun bytes h => ?_, fun ctx b => decode_byte_spelled, fun w => decode_request_spelled⟩
  obtain ⟨idx, arg, close, rfl, hrow⟩ := decode_frame_ok h
  exact frameRow_encode hrow

/-! ## What goes out on the bus -/

/-- Settles O54: whatever an instruction leaves, a reader of its trace has found frames of the table only
(`exec_traced`). -/
theorem onlyTableFramesAreEmitted : Obligations.OnlyTableFramesAreEmitted := by
  unfold Obligations.OnlyTableFramesAreEmitted
  intro i s t ht
  have h := exec_traced i s
  rw [ht] at h
  obtain ⟨c, -, es, htrace, -, hframes⟩ := h
  exact ⟨es, htrace, hframes⟩

/-! ## The words of the table -/

section

variable (p : Params)

/-! The rows of 30_encoding.md R103. -/

theorem frameRow_cmd0 : frameRow p 0 0 p.close = some .cmd0 := by simp [frameRow]
theorem frameRow_cmd8 : frameRow p 8 p.cmd8Arg p.cmd8Close = some .cmd8 := by simp [frameRow]
theorem frameRow_cmd9 : frameRow p 9 0 p.close = some .cmd9 := by simp [frameRow]
theorem frameRow_cmd16 : frameRow p 16 512 p.close = some .cmd16 := by simp [frameRow]
theorem frameRow_cmd17 (arg : U32) : frameRow p 17 arg p.close = some (.cmd17 arg) := by simp [frameRow]
theorem frameRow_cmd24 (arg : U32) : frameRow p 24 arg p.close = some (.cmd24 arg) := by simp [frameRow]
theorem frameRow_cmd55 : frameRow p 55 0 p.close = some .cmd55 := by simp [frameRow]
theorem frameRow_acmd41V1 : frameRow p 41 0 p.close = some .acmd41V1 := by simp [frameRow]
theorem frameRow_acmd41V2 (h : p.hcsArg ≠ 0) : frameRow p 41 p.hcsArg p.close = some .acmd41V2 := by
  simpa [frameRow] using h
theorem frameRow_cmd58 : frameRow p 58 0 p.close = some .cmd58 := by simp [frameRow]

end

/-- Settles O1: a frame's bytes are those of its row, written out; bytes and requests are read field by field. -/
theorem tableWordsDecodeToTheirRows : Obligations.TableWordsDecodeToTheirRows := by
  unfold Obligations.TableWordsDecodeToTheirRows
  intro p hclose harg8 hclose8 hhcs a b c d o z buf
  have hhcs0 : p.hcsArg ≠ 0 := by rw [hhcs]; decide
  refine ⟨decode_frame_of_row (by rw [hclose]; rfl) (frameRow_cmd0 p),
    decode_frame_of_row (by rw [harg8, hclose8]; rfl) (frameRow_cmd8 p),
    decode_frame_of_row (by rw [hclose]; rfl) (frameRow_cmd9 p),
    decode_frame_of_row (by rw [hclose]; rfl) (frameRow_cmd16 p),
    decode_frame_of_row (by rw [hclose]; exact (frameBytes_of_bytes 0x51 a b c d rfl 0x95).symm) (frameRow_cmd17 p _),
    decode_frame_of_row (by rw [hclose]; exact (frameBytes_of_bytes 0x58 a b c d rfl 0x95).symm) (frameRow_cmd24 p _),
    decode_frame_of_row (by rw [hclose]; rfl) (frameRow_cmd55 p),
    decode_frame_of_row (by rw [hclose]; rfl) (frameRow_acmd41V1 p),
    decode_frame_of_row (by rw [hhcs, hclose]; rfl) (frameRow_acmd41V2 p hhcs0),
    decode_frame_of_row (by rw [hclose]; rfl) (frameRow_cmd58 p),
    rfl, rfl, rfl, rfl, rfl, ?_, ?_, ?_, ?_, ?_, ?_⟩
  all_goals simp [decode, decodeRequest]

/-! ## What is refused -/

/-- Operations 6 and 7 and a non-zero reserved field spell no request (30_encoding.md R124). -/
theorem decodeRequest_reserved {w : RequestWords}
    (h : w.opw.extractLsb' 0 3 = 6#3 ∨ w.opw.extractLsb' 0 3 = 7#3 ∨ w.opw.extractLsb' 3 5 ≠ 0#5) :
    decodeRequest w = .error (.reservedRequest w.opw) := by
  unfold decodeRequest
  by_cases hreserved : w.opw.extractLsb' 3 5 = 0#5
  · rw [if_neg (not_not.2 hreserved)]
    rcases h with h | h | h
    · rw [h]; rfl
    · rw [h]; rfl
    · exact absurd hreserved h
  · rw [if_pos hreserved]

/-- Settles O4: such a request does not decode, and a step refuses it before it reads anything else of the state. -/
theorem reservedRequestsAreRefused : Obligations.ReservedRequestsAreRefused := by
  unfold Obligations.ReservedRequestsAreRefused
  exact fun s w rest hin h => step_undecodable hin (decodeRequest_reserved h)

/-- Settles O58: each of these primitives checks its operands before it runs. -/
theorem operandsOutsideTheRulesAreRefused : Obligations.OperandsOutsideTheRulesAreRefused := by
  unfold Obligations.OperandsOutsideTheRulesAreRefused
  refine fun s => ⟨fun _ _ _ h => if_neg (Bool.eq_false_iff.1 h),
    fun _ _ h => ⟨if_neg (Bool.eq_false_iff.1 h), if_neg (Bool.eq_false_iff.1 h)⟩, fun _ _ h => if_neg h,
    fun kind blk off n h => if_neg ?_⟩
  unfold blockBytes
  omega

/-! ## Single bytes -/

/-- After a busy byte: one more attempt of `N_BUSY` is spent (43_block_transfer.md R205). -/
def afterBusyByte (s : State) : State :=
  bus [0xFF] [0x00] s.script (s.setLoops { s.loops with busy := s.loops.busy + 1 })

section

variable {s : State} (ha : s.busAnswers = none)
include ha

theorem responseByte_runs (f : BitVec 7) : responseByte f s = .ok (.r1 f)
    ((bus [0xFF] [0#1 ++ f] s.script (s.setLoops { s.loops with poll := s.loops.poll + 1 })).setResp (.r1 f)) := by
  unfold responseByte
  rw [update_bind, bind_ok (receive_given (by exact ha) _), update_bind, run_pure]
  rfl

theorem tokenByte_runs : tokenByte s = .ok ()
    ((bus [0xFF] [0xFE] s.script (s.setLoops { s.loops with token := s.loops.token + 1 })).setFound true) := by
  unfold tokenByte
  rw [update_bind, bind_ok (receive_given (by exact ha) _), run_update]
  rfl

theorem acceptByte_runs (x : BitVec 3) :
    acceptByte x s = .ok () ((bus [0xFF] [x ++ acceptBits] s.script s).setDrt (x ++ acceptBits)) := by
  unfold acceptByte
  rw [bind_ok (receive_given ha _), run_update]

/-- Whether the wait goes on after a busy byte depends on the attempts spent. -/
theorem busyByte_runs : busyByte s =
    (if s.loops.busy + 1 < s.cfg.nBusy then pure () else do
      release
      raise .protocolTimeout : M Unit) (afterBusyByte s) := by
  unfold busyByte
  rw [update_bind, bind_ok (receive_given (by exact ha) _), look_bind, look_bind]
  rfl

theorem busyByte_within (h : s.loops.busy + 1 < s.cfg.nBusy) : busyByte s = .ok () (afterBusyByte s) := by
  rw [busyByte_runs ha, if_pos h, run_pure]

theorem busyByte_spent {last : Byte} {rest : List Byte} (h : s.cfg.nBusy ≤ s.loops.busy + 1)
    (hs : s.script = last :: rest) :
    busyByte s = .error (.raised .protocolTimeout) ((afterBusyByte s).afterRelease last rest) := by
  rw [busyByte_runs ha, if_neg (Nat.not_lt.2 h), bind_ok (release_listed (s := afterBusyByte s) ha hs), run_raise]

end

/-- Settles O16: each byte is one exchange, with what its rule does around it. -/
theorem singleBytesHaveTheirEffect : Obligations.SingleBytesHaveTheirEffect := by
  unfold Obligations.SingleBytesHaveTheirEffect
  intro s ha
  exact ⟨fun f => runSubStep_ok (responseByte_runs ha f), runSubStep_ok (tokenByte_runs ha),
    fun x => runSubStep_ok (acceptByte_runs ha x), fun h => runSubStep_ok (busyByte_within ha h),
    fun last rest h hs => runSubStep_raised (busyByte_spent ha h hs),
    fun b rest hs => runSubStep_ok (xfer_listed ha hs fillerByte)⟩

end Sys2Proof.Proofs
end

section
namespace Sys2Proof.Proofs

open Sys2Proof.Machine Sys2Proof.Laws

/-! ## The protocol engine -/

section

variable {s : State} {idx : CmdIndex} {arg : U32}

/-! A frame of the table is not refused (30_encoding.md R104): the instruction runs its sub-step. -/

theorem exec_frame_emitted {close : Byte} (h : emitted s.cfg idx arg close = true) :
    exec (.frame idx arg close) s = runSubStep (fun _ => .unit) (frame idx arg close) s := if_pos h

theorem exec_command_emitted (h : emitted s.cfg idx arg s.cfg.close = true) :
    exec (.command idx arg) s = runSubStep .resp (command idx arg) s := if_pos h

theorem exec_commandNoDeselect_emitted (h : emitted s.cfg idx arg s.cfg.close = true) :
    exec (.commandNoDeselect idx arg) s = runSubStep .resp (commandNoDeselect idx arg) s := if_pos h

end

/-- Settles O10: what the two sub-steps do with the card's bytes listed (`frame_listed`, `release_listed`). -/
theorem frameAndReleaseExchanges : Obligations.FrameAndReleaseExchanges := by
  unfold Obligations.FrameAndReleaseExchanges
  intro s rest ha
  refine ⟨fun idx arg close during hemit hlen hs => ?_, fun last hs => runSubStep_ok (release_listed ha hs)⟩
  rw [exec_frame_emitted hemit]
  exact runSubStep_ok (frame_listed ha hlen hs idx arg close)

/-- Settles O11: the poll loop, by induction on the bytes it skips, ends at the response (`pollLoop_response`) or with the
budget (`pollLoop_silence`). -/
theorem pollReturnsTheFirstResponse : Obligations.PollReturnsTheFirstResponse := by
  unfold Obligations.PollReturnsTheFirstResponse
  exact fun s waits rest ha hw => ⟨fun f hlt hs => runSubStep_ok (poll_response ha hw hlt hs),
    fun hlen hs => runSubStep_ok (poll_silence ha hw hlen hs)⟩

/-- Settles O12: each of the five frames, and `command` with a frame of the table, runs `command`, whose release follows
either end of the poll (`command_listed`). -/
theorem commandExchanges : Obligations.CommandExchanges := by
  unfold Obligations.CommandExchanges
  intro i idx arg s b rest hi ha hf hs
  have hrun : exec i s = runSubStep .resp (command idx arg) s := by
    rcases hi with ⟨rfl, rfl, rfl⟩ | ⟨rfl, rfl, rfl⟩ | ⟨rfl, rfl, rfl⟩ | ⟨rfl, rfl, rfl⟩ | ⟨rfl, rfl, rfl⟩ | ⟨rfl, hemit⟩
    · rfl
    · rfl
    · rfl
    · rfl
    · rfl
    · exact exec_command_emitted hemit
  rw [hrun]
  exact runSubStep_ok (command_listed ha hf hs idx arg)

/-- Settles O13: the release is in the timeout branch only. -/
theorem commandNoDeselectHandsOver : Obligations.CommandNoDeselectHandsOver := by
  unfold Obligations.CommandNoDeselectHandsOver
  intro idx arg s rest ha hemit
  rw [exec_commandNoDeselect_emitted hemit]
  exact ⟨fun a hf hflags hs => runSubStep_ok (commandNoDeselect_response ha hf hflags hs idx arg),
    fun b hf hflags hs => runSubStep_ok (commandNoDeselect_silence ha hf hflags hs idx arg)⟩

/-- Settles O14: both instructions are the probe, whose branch on the answer decides the four bytes (`probe_listed`). -/
theorem interfaceProbeDropsTheEcho : Obligations.InterfaceProbeDropsTheEcho := by
  unfold Obligations.InterfaceProbeDropsTheEcho
  intro i s b rest hi ha hf hs
  rcases hi with rfl | rfl
  · exact runSubStep_ok (probe_listed ha hf hs)
  · exact runSubStep_ok (probe_listed ha hf hs)

/-- Settles O15: both instructions are the OCR read, whose branch on the answer decides the write (`readOcr_listed`). -/
theorem ocrReadOnAnyResponse : Obligations.OcrReadOnAnyResponse := by
  unfold Obligations.OcrReadOnAnyResponse
  intro i s b rest hi ha hf hs
  rcases hi with rfl | rfl
  · exact runSubStep_ok (readOcr_listed ha hf hs)
  · exact runSubStep_ok (readOcr_listed ha hf hs)

end Sys2Proof.Proofs
end

section
namespace Sys2Proof.Proofs

open Sys2Proof.Machine Sys2Proof.Laws

/-! ## Bring-up -/

/-- The error a failing bring-up raises (41_bringup.md R168). -/
def bringUpError : BringUpFailure → Err
  | .reset _ checked => refusedError checked.answer.flags
  | .probe _ _ probed => refusedError probed.answer.flags
  | .v1 _ _ _ _ | .v2 _ _ _ _ => .protocolTimeout

theorem refusedError_bringUp (flags : Option (BitVec 7)) : Raises.BringUp (refusedError flags) := by
  unfold refusedError
  split
  · exact .inl rfl
  · exact .inr rfl

theorem bringUpError_bringUp (f : BringUpFailure) : Raises.BringUp (bringUpError f) := by
  cases f with
  | reset resets checked => exact refusedError_bringUp _
  | probe resets checked probed => exact refusedError_bringUp _
  | v1 resets checked probed attempts => exact .inl rfl
  | v2 resets checked probed attempts => exact .inl rfl

theorem bringUpError_cause (f : BringUpFailure) : (bringUpError f).cause = f.cause := by
  cases f with
  | reset resets checked => exact refusedError_cause _
  | probe resets checked probed => exact refusedError_cause _
  | v1 resets checked probed attempts => rfl
  | v2 resets checked probed attempts => rfl

/-- The two errors of bring-up are reported with different causes. -/
theorem bringUp_eq_of_cause {e e' : Err} (h : Raises.BringUp e) (h' : Raises.BringUp e') (hc : e.cause = e'.cause) :
    e = e' := by
  rcases h with rfl | rfl
  · rcases h' with rfl | rfl
    · rfl
    · cases hc
  · rcases h' with rfl | rfl
    · cases hc
    · rfl

/-- The instruction on a card that takes a transition to FAILED: with no request running its `raise` is only recorded. -/
theorem exec_bringUp_fails {s : State} {f : BringUpFailure} {rest : List Byte} (ha : s.busAnswers = none)
    (hi : s.top = .idle) (hf : f.fits s.cfg) (hs : s.script = f.bytes ++ rest) :
    ∃ t, exec .bringUp s = .next t ∧ t.br = .failed ∧ t.sel = false ∧ t.script = rest ∧
      t.trace = s.trace ++ f.events s.cfg ∧ t.result = .raised (bringUpError f) := by
  obtain ⟨e, t, hrun, hcause, hbr, htrace, hsel, hscript, -, hframe⟩ := bringUp_fails ha hf hs
  have he : e = bringUpError f :=
    bringUp_eq_of_cause (Raises.bringUp _ _ _ hrun) (bringUpError_bringUp f) (hcause.trans (bringUpError_cause f).symm)
  have hidle : (t.setResult (.raised e)).top = .idle := hframe.top.trans hi
  refine ⟨t.setResult (.raised e), (runSubStep_raised hrun).trans ?_, hbr, hsel, hscript, htrace, by rw [he]; rfl⟩
  rw [errorExit_idle hidle]

/-- Settles O33: the run of `bringUp` on a card that takes every transition to READY (`bringUp_ready`), with its result
recorded. -/
theorem bringUpReachesReady : Obligations.BringUpReachesReady := by
  unfold Obligations.BringUpReachesReady
  intro s a rest ha hf hs
  obtain ⟨t, hrun, hbr, hdivisor, htrace, hsel, hscript, -, hframe⟩ := bringUp_ready ha hf hs
  exact ⟨t.setResult .unit, runSubStep_ok hrun, hbr, hdivisor, htrace, hsel, hscript, rfl,
    BringUpFrame.trans hframe (by constructor <;> rfl)⟩

/-- Settles O34: the checked reset and the probe are the first two ways to fail (`exec_bringUp_fails`). -/
theorem bringUpFailsAtItsDecisionPoints : Obligations.BringUpFailsAtItsDecisionPoints := by
  unfold Obligations.BringUpFailsAtItsDecisionPoints
  intro s resets checked rest ha hi hn hr hc
  have hfit : ResetsFit s.cfg resets checked := ⟨hn, hr, hc⟩
  refine ⟨fun hbad hs => exec_bringUp_fails (f := .reset resets checked) ha hi ⟨hfit, hbad⟩ hs,
    fun probe hgood hp h1 h5 hs => ?_⟩
  rw [List.append_assoc s.trace]
  exact exec_bringUp_fails (f := .probe resets checked probe) ha hi ⟨hfit, hgood, hp, h1, h5⟩ hs

/-- Settles O35: the attempts of V1 and of V2 are the other two ways to fail (`exec_bringUp_fails`). -/
theorem bringUpFailsAfterItsAttempts : Obligations.BringUpFailsAfterItsAttempts := by
  unfold Obligations.BringUpFailsAfterItsAttempts
  intro s resets checked probe rest ha hi hn hr hc hgood hp
  have hfit : ResetsFit s.cfg resets checked := ⟨hn, hr, hc⟩
  refine ⟨fun as h5 hlen has hs => ?_, fun as h1 hlen has hs => ?_⟩
  · obtain ⟨t, ht, hbr, hsel, hscript, htrace, hresult⟩ :=
      exec_bringUp_fails (f := .v1 resets checked probe as) ha hi ⟨hfit, hgood, hp, h5, hlen, has⟩ hs
    exact ⟨t, ht, hbr, hresult, hsel, hscript, by simpa [BringUpFailure.events] using htrace⟩
  · obtain ⟨t, ht, hbr, hsel, hscript, htrace, hresult⟩ :=
      exec_bringUp_fails (f := .v2 resets checked probe as) ha hi ⟨hfit, hgood, hp, h1, hlen, has⟩ hs
    exact ⟨t, ht, hbr, hresult, hsel, hscript, by simpa [BringUpFailure.events] using htrace⟩

end Sys2Proof.Proofs
end

section
namespace Sys2Proof.Proofs

open Sys2Proof.Machine Sys2Proof.Laws

/-! ## Block commands -/

/-- Settles O19: both instructions are the CSD read, whose data phase the card answers (`readCSD_listed`). -/
theorem csdReadCapturesSixteenBytes : Obligations.CsdReadCapturesSixteenBytes := by
  unfold Obligations.CsdReadCapturesSixteenBytes
  intro i s a rest hi ha hf hs
  rcases hi with rfl | rfl
  · exact runSubStep_ok (readCSD_listed ha hf hs)
  · exact runSubStep_ok (readCSD_listed ha hf hs)

/-- A transfer of a block runs at the block's card address, where that is a u32 (43_block_transfer.md R200). -/
theorem blockAddress_bind {α : Type} {s : State} {blk : U64} {arg : U32} (h : blk.toNat * s.divisor.toNat = arg.toNat)
    (m : U32 → M α) : (blockAddress blk >>= m) s = m arg s := by
  rw [bind_ok (blockAddress_fits (h ▸ arg.isLt)), cardArg_eq h]

section

variable {s : State} {b : Bracket} {rest : List Byte} (ha : s.busAnswers = none) (hf : b.fits s.cfg)
  (hr : b.answer.flags ≠ some 0) (hs : s.script = b.bytes ++ rest)
include ha hf hr hs

/-! A CMD17 or CMD24 the card does not answer with 0x00: `SCRATCH` is free from then on (43_block_transfer.md R202, R203). -/

theorem readBlockFrom_refused (arg : U32) :
    readBlockFrom arg s =
      .error (.raised (refusedError b.answer.flags)) (s.afterCommand 17 arg s.cfg.close b rest).freeScratch :=
  onRaise_raised (refused_bind_listed ha hf hr hs 17 arg _)

theorem writeBlockTo_refused (arg : U32) :
    writeBlockTo arg s =
      .error (.raised (refusedError b.answer.flags)) (s.afterCommand 24 arg s.cfg.close b rest).freeScratch :=
  onRaise_raised (refused_bind_listed ha hf hr hs 24 arg _)

theorem readBlockAt_refused {blk : U64} {arg : U32} (hd : blk.toNat * s.divisor.toNat = arg.toNat) :
    readBlockAt blk s =
      .error (.raised (refusedError b.answer.flags)) (s.afterCommand 17 arg s.cfg.close b rest).freeScratch :=
  (blockAddress_bind hd readBlockFrom).trans (readBlockFrom_refused ha hf hr hs arg)

theorem writeBlockAt_refused {blk : U64} {arg : U32} (hd : blk.toNat * s.divisor.toNat = arg.toNat) :
    writeBlockAt blk s =
      .error (.raised (refusedError b.answer.flags)) (s.afterCommand 24 arg s.cfg.close b rest).freeScratch :=
  (blockAddress_bind hd writeBlockTo).trans (writeBlockTo_refused ha hf hr hs arg)

end

/-- Settles O22: each instruction sends its command and checks the answer before its data phase, so it ends where the
check does (`readCSD_refused`, `readBlockFrom_refused`, `writeBlockTo_refused`), with its own buffer freed. -/
theorem rejectedBlockCommandsRaise : Obligations.RejectedBlockCommandsRaise := by
  unfold Obligations.RejectedBlockCommandsRaise
  intro i idx arg s b rest e hi ha hf hr hs he
  obtain rfl : e = refusedError b.answer.flags := he
  rcases hi with ⟨rfl, rfl, rfl⟩ | ⟨rfl, rfl, rfl⟩ | ⟨rfl, rfl⟩ | ⟨rfl, rfl⟩ | ⟨blk, ⟨rfl, rfl⟩ | ⟨rfl, rfl⟩, hd⟩
  · exact ⟨_, runSubStep_raised (readCSD_refused ha hf hr hs), rfl⟩
  · exact ⟨_, runSubStep_raised (readCSD_refused ha hf hr hs), rfl⟩
  · exact ⟨_, runSubStep_raised (readBlockFrom_refused ha hf hr hs arg), rfl⟩
  · exact ⟨_, runSubStep_raised (writeBlockTo_refused ha hf hr hs arg), rfl⟩
  · exact ⟨_, runSubStep_raised (readBlockAt_refused ha hf hr hs hd), rfl⟩
  · exact ⟨_, runSubStep_raised (writeBlockAt_refused ha hf hr hs hd), rfl⟩

end Sys2Proof.Proofs
end

section
namespace Sys2Proof.Proofs

open Sys2Proof.Machine Sys2Proof.Laws

/-! ## Bit slices of the CSD -/

section

variable {msb lsb : Nat}

theorem extractDomain_iff : extractDomain msb lsb = true ↔ lsb ≤ msb ∧ msb ≤ 127 ∧ msb - lsb + 1 ≤ 32 := by
  simp [extractDomain, and_assoc]

theorem extractBits_within (h : extractDomain msb lsb = true) (s : State) :
    extractBits msb lsb s = .ok (bitField s.csd msb lsb) s := by
  rw [extractBits, if_pos h, run_look]

theorem extractBits_outside (h : ¬ extractDomain msb lsb = true) (s : State) :
    extractBits msb lsb s = .error (.fault (.extractBitsDomain msb lsb s)) s := by
  rw [extractBits, if_neg h, run_stop]

end

/-- Settles O28: inside the domain the field is read (`extractBits_within`), and it is that slice of the number
(`toNat_bitField`). -/
theorem extractBitsIsTheBigEndianSlice : Obligations.ExtractBitsIsTheBigEndianSlice := by
  unfold Obligations.ExtractBitsIsTheBigEndianSlice
  exact fun msb lsb s hl hm hw => ⟨bitField s.csd msb lsb, toNat_bitField s.csd hl hm hw,
    runSubStep_ok (extractBits_within (extractDomain_iff.2 ⟨hl, hm, hw⟩) s)⟩

/-! ## The faults of an instruction -/

theorem fault_of_keeps {α : Type} {R : Fault → State → Prop} {m : M α} {s : State} {f : Fault}
    (hk : Keeps (fun _ => True) R m) (h : ∃ t, m s = .error (.fault f) t) : ∃ t, R f t := by
  obtain ⟨t, ht⟩ := h
  exact ⟨t, (hk.fault trivial ht).2⟩

/-- The fault an instruction stops with is one `R` speaks of, where `R` speaks of every fault of the moves inside it. -/
theorem exec_fault {R : Fault → State → Prop} (hs : SessionMoves (fun _ => True) R) (hm : MapperMoves (fun _ => True) R)
    {i : Instr} (hd : ∀ msb lsb s, i = .extractBits msb lsb → R (.extractBitsDomain msb lsb s) s) {s : State} {f : Fault}
    (h : exec i s = .fault f) : ∃ t, R f t := by
  have runs : Allowed (fun _ => True) R i → ∃ t, R f t := fun hi => by
    cases exec_runs hs.toBringUpMoves s hi with
    | refused r _ he => cases he.symm.trans h
    | subStep toResult m hk he => exact fault_of_keeps hk (Uniform.runSubStep_eq_fault (he.symm.trans h))
  cases i with
  | init => exact fault_of_keeps (Keeps.initOp hs) (Uniform.serve_eq_fault h)
  | read o n buf => exact fault_of_keeps (Keeps.rangeOp hm .read o n buf) (Uniform.serve_eq_fault h)
  | write o n buf => exact fault_of_keeps (Keeps.rangeOp hm .write o n buf) (Uniform.serve_eq_fault h)
  | erase o n => exact fault_of_keeps (Keeps.rangeOp hm .erase o n 0) (Uniform.serve_eq_fault h)
  | capacity => exact fault_of_keeps (Keeps.capacityOp hs) (Uniform.serve_eq_fault h)
  | status => exact fault_of_keeps Keeps.statusOp (Uniform.serve_eq_fault h)
  | mapper kind o n buf => exact fault_of_keeps (Keeps.mapper hm kind o n buf) (Uniform.runSubStep_eq_fault h)
  | mergeSegment kind blk off n =>
    change execMergeSegment kind blk off n s = _ at h
    unfold execMergeSegment at h
    split at h
    · exact fault_of_keeps (Keeps.mergeSegment (hm.segment kind blk n) off) (Uniform.runSubStep_eq_fault h)
    · cases h
  | fullBlock kind blk =>
    exact fault_of_keeps (Keeps.fullBlock (hm.segment kind blk 512) le_rfl) (Uniform.runSubStep_eq_fault h)
  | blockAddress blk | readBlockAt blk | writeBlockAt blk => exact runs (hm.overflow blk)
  | extractBits msb lsb => exact runs fun t _ _ => hd msb lsb t rfl
  | _ => exact runs trivial

/-- A fault of the domain of `extractBits` names the operands of the instruction. -/
def DomainFaultOf (i : Instr) (f : Fault) (_ : State) : Prop :=
  ∀ msb lsb t, f = .extractBitsDomain msb lsb t → i = .extractBits msb lsb

theorem domainFault_session (i : Instr) : SessionMoves (fun _ => True) (DomainFaultOf i) := by
  constructor
  constructor
  constructor
  case silent => exact fun _ _ _ _ => ⟨trivial, fun _ _ _ hf => by cases hf⟩
  all_goals (intros; trivial)

theorem domainFault_mapper (i : Instr) : MapperMoves (fun _ => True) (DomainFaultOf i) := by
  constructor
  case toBusMoves => exact (domainFault_session i).toBusMoves
  case overflow => exact fun _ _ _ _ _ _ _ hf => by cases hf
  all_goals (intros; trivial)

/-- Settles O29: outside the domain the fault is raised at once (`extractBits_outside`), and no other move of any
instruction raises it (`domainFault_session`, `domainFault_mapper`). -/
theorem extractBitsOutsideItsDomainFaults : Obligations.ExtractBitsOutsideItsDomainFaults := by
  unfold Obligations.ExtractBitsOutsideItsDomainFaults
  refine ⟨fun msb lsb s h => runSubStep_fault (extractBits_outside ?_ s), fun i msb lsb s t h => ?_⟩
  · rw [extractDomain_iff]
    omega
  · obtain ⟨_, hf⟩ := exec_fault (domainFault_session i) (domainFault_mapper i)
      (fun msb lsb _ hi _ _ _ hf => by cases hf; exact hi) h
    exact hf msb lsb t rfl

end Sys2Proof.Proofs
end

section
namespace Sys2Proof.Proofs

open Sys2Proof.Machine Sys2Proof.Laws

/-! ## The capacity -/

theorem toNat_div_512 (v : U64) : (v / 512).toNat = v.toNat / 512 := by
  rw [BitVec.toNat_udiv]
  rfl

section

variable (csd : Vector Byte 16)

theorem sectorsV1_le : (sectorsV1 csd).toNat ≤ 2 ^ 32 := by
  have h : (hcCSize csd).toNat < 2 ^ 22 := by rw [toNat_hcCSize]; exact Nat.mod_lt _ (by omega)
  rw [toNat_sectorsV1]
  omega

/-- The version-1 capacity does not overflow (R184). -/
theorem toNat_capacityV1 : (decodeV1 csd).capacityBytes.toNat = (sectorsV1 csd).toNat * 512 := by
  have h := sectorsV1_le csd
  show (sectorsV1 csd * 512).toNat = _
  rw [BitVec.toNat_mul]
  exact Nat.mod_eq_of_lt (by show _ * 512 < _; omega)

/-- The version-0 capacity is a whole number of sectors from `readBlockLen` 7 on (R187). -/
theorem dvd_capacityV0 (h : 7 ≤ (readBlockLen csd).toNat) : 512 ∣ (capacityV0 csd).toNat := by
  have h9 : 2 ^ 9 ∣ 2 ^ ((cSizeMult csd).toNat + 2) * 2 ^ (readBlockLen csd).toNat := by
    rw [← Nat.pow_add]
    exact Nat.pow_dvd_pow 2 (by omega)
  rw [toNat_capacityV0, Nat.mul_assoc]
  exact Dvd.dvd.mul_left h9 _

theorem csdStructure_eq_iff (v : U32) : csdStructure csd = v ↔ csdNumber csd / 2 ^ 126 = v.toNat := by
  rw [← toNat_csdStructure, BitVec.toNat_inj]

variable {csd}

theorem decodeCapacity_version0 (h : csdNumber csd / 2 ^ 126 = 0) : decodeCapacity csd = decodeV0 csd :=
  if_pos ((csdStructure_eq_iff csd 0).2 h)

theorem decodeCapacity_version1 (h : csdNumber csd / 2 ^ 126 = 1) : decodeCapacity csd = decodeV1 csd := by
  unfold decodeCapacity
  rw [(csdStructure_eq_iff csd 1).2 h]
  rfl

theorem decodeCapacity_undefined (h : 2 ≤ csdNumber csd / 2 ^ 126) : decodeCapacity csd = ⟨false, 0, 0⟩ := by
  have h0 : csdStructure csd ≠ 0 := fun h0 => by
    have : csdNumber csd / 2 ^ 126 = 0 := (csdStructure_eq_iff csd 0).1 h0
    omega
  have h1 : csdStructure csd ≠ 1 := fun h1 => by
    have : csdNumber csd / 2 ^ 126 = 1 := (csdStructure_eq_iff csd 1).1 h1
    omega
  unfold decodeCapacity
  rw [if_neg h0, if_neg h1]

end

/-- Settles O30: each formula as an integer (`toNat_capacityV0`, `toNat_sectorsV1`), on the fields as slices of the
number. -/
theorem capacityFormulas : Obligations.CapacityFormulas := by
  unfold Obligations.CapacityFormulas
  refine fun s => ⟨decodeV0 s.csd, decodeV1 s.csd, rfl, rfl, rfl, ?_, toNat_div_512 _, rfl, ?_, toNat_capacityV1 s.csd⟩
  · rw [← toNat_cSize, ← toNat_cSizeMult, ← toNat_readBlockLen]
    exact toNat_capacityV0 s.csd
  · rw [← toNat_hcCSize]
    exact toNat_sectorsV1 s.csd

theorem exec_decodeCapacity (s : State) :
    exec .decodeCapacity s = .next (s.setResult (.decoded (decodeCapacity s.csd))) := rfl

/-- What the instruction returns is all it changes, so it determines the decode. -/
theorem exec_decodeCapacity_iff {s : State} {d : Decoded} :
    exec .decodeCapacity s = .next (s.setResult (.decoded d)) ↔ decodeCapacity s.csd = d := by
  rw [exec_decodeCapacity]
  refine ⟨fun h => ?_, fun h => by rw [h]⟩
  have hresult := congrArg State.result (Host.Outcome.next.inj h)
  exact Result.decoded.inj hresult

/-- Settles O31: the two top bits of the number decide (`csdStructure_eq_iff`). -/
theorem structureVersionSelectsTheLayout : Obligations.StructureVersionSelectsTheLayout := by
  unfold Obligations.StructureVersionSelectsTheLayout
  exact fun s => ⟨fun h => ⟨decodeV0 s.csd, rfl, exec_decodeCapacity_iff.2 (decodeCapacity_version0 h)⟩,
    fun h => ⟨decodeV1 s.csd, rfl, exec_decodeCapacity_iff.2 (decodeCapacity_version1 h)⟩,
    fun h => exec_decodeCapacity_iff.2 (decodeCapacity_undefined h)⟩

/-- Settles O32: the bound is `sectorCount_le`; version 1 multiplies the sectors, and version 0 divides a capacity that 512
divides (`dvd_capacityV0`). -/
theorem capacityIsSectorsTimes512 : Obligations.CapacityIsSectorsTimes512 := by
  unfold Obligations.CapacityIsSectorsTimes512
  intro s d hd hok
  obtain rfl : decodeCapacity s.csd = d := exec_decodeCapacity_iff.1 hd
  refine ⟨sectorCount_le s.csd, fun h => ?_⟩
  obtain h0 | h1 | h2 : csdNumber s.csd / 2 ^ 126 = 0 ∨ csdNumber s.csd / 2 ^ 126 = 1 ∨ 2 ≤ csdNumber s.csd / 2 ^ 126 := by
    omega
  · rw [decodeCapacity_version0 h0]
    have h7 : 7 ≤ (readBlockLen s.csd).toNat := by
      rw [toNat_readBlockLen]
      omega
    show (capacityV0 s.csd).toNat = (capacityV0 s.csd / 512).toNat * 512
    rw [toNat_div_512, Nat.div_mul_cancel (dvd_capacityV0 s.csd h7)]
  · rw [decodeCapacity_version1 h1]
    exact toNat_capacityV1 s.csd
  · rw [decodeCapacity_undefined h2] at hok
    cases hok

end Sys2Proof.Proofs
end

section
namespace Sys2Proof.Proofs

open Sys2Proof.Machine Sys2Proof.Laws

/-! ## Block transfers -/

/-- Settles O17: the run of `readData` on a data block (`readData_listed`) returns, so nothing is freed. -/
theorem readDataStoresThePayload : Obligations.ReadDataStoresThePayload := by
  unfold Obligations.ReadDataStoresThePayload
  intro s dst d rest ha hf hs
  exact (if_pos rfl).trans (runSubStep_ok (onRaise_ok (readData_listed ha hf hs)))

section

variable {i : Instr} {arg : U32} {s : State}

/-! A row of the table sends its card address, and the primitive sends the address of its block: either way the same sub-step
runs (43_block_transfer.md R200). -/

theorem exec_blockRead
    (hi : i = .cmd17 arg ∨ ∃ blk : U64, i = .readBlockAt blk ∧ blk.toNat * s.divisor.toNat = arg.toNat) :
    exec i s = runSubStep (fun _ => .unit) (readBlockFrom arg) s := by
  obtain rfl | ⟨blk, rfl, hd⟩ := hi
  · rfl
  · show runSubStep _ (readBlockAt blk) s = _
    unfold runSubStep readBlockAt
    rw [blockAddress_bind hd]

theorem exec_blockWrite
    (hi : i = .cmd24 arg ∨ ∃ blk : U64, i = .writeBlockAt blk ∧ blk.toNat * s.divisor.toNat = arg.toNat) :
    exec i s = runSubStep (fun _ => .unit) (writeBlockTo arg) s := by
  obtain rfl | ⟨blk, rfl, hd⟩ := hi
  · rfl
  · show runSubStep _ (writeBlockAt blk) s = _
    unfold runSubStep writeBlockAt
    rw [blockAddress_bind hd]

end

/-- Settles O18: `readData` without a token raises (`readData_missing`), and so does a command answered 0x00 that goes on
with it (`readCSD_fails`, `readBlockFrom_fails`); each frees its own buffer. -/
theorem missingTokenRaisesBlockStartMissing : Obligations.MissingTokenRaisesBlockStartMissing := by
  unfold Obligations.MissingTokenRaisesBlockStartMissing
  intro s d rest ha hd
  refine ⟨fun dst hs => (if_pos rfl).trans (runSubStep_raised (onRaise_raised (readData_missing ha hd hs))),
    fun i idx arg dst a hi hf hflags hs => ?_⟩
  have hfit : (ReadFailure.noToken a d).fits s.cfg := ⟨hf, hflags, hd⟩
  have block (hrun : exec i s = runSubStep (fun _ => .unit) (readBlockFrom arg) s) :=
    hrun.trans (runSubStep_raised (readBlockFrom_fails ha hfit hs arg))
  rcases hi with ⟨rfl, rfl, rfl, rfl⟩ | ⟨rfl, rfl, rfl, rfl⟩ | ⟨rfl, rfl, rfl⟩ | ⟨blk, rfl, haddr, rfl, rfl⟩
  · exact runSubStep_raised (readCSD_fails ha hfit hs)
  · exact runSubStep_raised (readCSD_fails ha hfit hs)
  · exact block (exec_blockRead (.inl rfl))
  · exact block (exec_blockRead (.inr ⟨blk, rfl, haddr⟩))

/-- Settles O20: both instructions are the block read, whose data phase the card answers (`readBlockFrom_listed`). -/
theorem blockReadFillsScratch : Obligations.BlockReadFillsScratch := by
  unfold Obligations.BlockReadFillsScratch
  intro i arg s a rest hi ha hf hs
  rw [exec_blockRead hi]
  exact runSubStep_ok (readBlockFrom_listed ha hf hs arg)

/-- Settles O21: both instructions are the block write, run to its release (`writeBlockTo_listed`). -/
theorem blockWriteSendsScratch : Obligations.BlockWriteSendsScratch := by
  unfold Obligations.BlockWriteSendsScratch
  intro i arg s a rest hi ha hf hs
  rw [exec_blockWrite hi]
  exact runSubStep_ok (writeBlockTo_listed ha hf hs arg)

/-- Settles O26: the busy loop, by induction on the zeros it skips, ends at another byte (`waitNotBusy_ends`) or with the
budget (`waitNotBusy_spent`). -/
theorem busyWaitEndsOnANonZeroByte : Obligations.BusyWaitEndsOnANonZeroByte := by
  unfold Obligations.BusyWaitEndsOnANonZeroByte
  intro s k rest ha
  refine ⟨fun b hb hk hs => runSubStep_ok (waitNotBusy_ends ha hb hk (by simpa using hs)), fun last hk hs => ?_⟩
  subst hk
  exact runSubStep_raised (waitNotBusy_spent ha (by simpa using hs))

section

variable {s t : State} {a : Answer} {sending rest : List Byte} {drt last : Byte} {arg : U32} {e : Stop}
  (ha : s.busAnswers = none) (ht : writeBlockTo arg s = .error e t)
include ha ht

/-! `DRT` keeps the token after either failure (60_exceptions.md R275). -/

theorem drt_of_refused (hf : (WriteFailure.refused a sending drt).fits s.cfg)
    (hs : s.script = (WriteFailure.refused a sending drt).bytes ++ rest) : t.drt = drt := by
  obtain ⟨hfit, hflags, hlen, hd⟩ := hf
  cases ht.symm.trans (writeBlockTo_rejected ha hfit hflags hlen hd (by simpa [WriteFailure.bytes] using hs) arg)
  rfl

theorem drt_of_busy (hf : (WriteFailure.busy a sending drt s.cfg.nBusy last).fits s.cfg)
    (hs : s.script = (WriteFailure.busy a sending drt s.cfg.nBusy last).bytes ++ rest) : t.drt = drt := by
  obtain ⟨hfit, hflags, hlen, hd, -⟩ := hf
  obtain ⟨u, hu, rfl⟩ :=
    writeBlockTo_busy ha hfit hflags hlen hd (by simpa [WriteFailure.bytes] using hs) arg (last := last) (rest := rest)
  cases ht.symm.trans hu
  rfl

end

/-- A block write that fails with no request running: its `raise` is only recorded. -/
theorem exec_blockWrite_fails {i : Instr} {arg : U32} {s : State} {f : WriteFailure} {rest : List Byte}
    (hi : i = .cmd24 arg ∨ ∃ blk : U64, i = .writeBlockAt blk ∧ blk.toNat * s.divisor.toNat = arg.toNat)
    (ha : s.busAnswers = none) (hidle : s.top = .idle) (hf : f.fits s.cfg) (hs : s.script = f.bytes ++ rest) :
    ∃ t, writeBlockTo arg s = .error (.raised (writeError f)) t ∧
      exec i s = .next (t.setResult (.raised (writeError f))) ∧
      Failed s (f.events s.cfg 24 arg s.scratch.toList) rest t := by
  obtain ⟨t, hrun, hfailed⟩ := writeBlockTo_fails ha hf hs arg
  have htop : (t.setResult (.raised (writeError f))).top = .idle := hfailed.top.trans hidle
  refine ⟨t, hrun, ?_, hfailed⟩
  rw [exec_blockWrite hi, runSubStep_raised hrun, errorExit_idle htop]

/-- Settles O27: a block that is refused and one that leaves the card busy are two ways for the write to fail
(`exec_blockWrite_fails`), both after the token has been latched (`drt_of_refused`, `drt_of_busy`). -/
theorem failedBlockWriteRaises : Obligations.FailedBlockWriteRaises := by
  unfold Obligations.FailedBlockWriteRaises
  intro i s arg a sending rest drt hi ha hidle hfit hflags hlen
  refine ⟨fun hd hs => ?_, fun last hd hs => ?_⟩
  · have hf : (WriteFailure.refused a sending drt).fits s.cfg := ⟨hfit, hflags, hlen, hd⟩
    obtain ⟨t, hrun, hexec, hfailed⟩ := exec_blockWrite_fails hi ha hidle hf hs
    have hdrt : t.drt = drt := drt_of_refused ha hrun hf hs
    exact ⟨_, hexec, rfl, hfailed.sel, hdrt, hfailed.script, by simpa [WriteFailure.events] using hfailed.trace⟩
  · have hf : (WriteFailure.busy a sending drt s.cfg.nBusy last).fits s.cfg := ⟨hfit, hflags, hlen, hd, rfl⟩
    obtain ⟨t, hrun, hexec, hfailed⟩ := exec_blockWrite_fails hi ha hidle hf hs
    have hdrt : t.drt = drt := drt_of_busy ha hrun hf hs
    exact ⟨_, hexec, rfl, hfailed.sel, hdrt, hfailed.script, by simpa [WriteFailure.events] using hfailed.trace⟩

/-- Settles O23: the product decides (`blockAddress_fits`, `blockAddress_overflows`), and the two transfers compute their
address before any bus event. -/
theorem blockAddressScalesOrOverflows : Obligations.BlockAddressScalesOrOverflows := by
  unfold Obligations.BlockAddressScalesOrOverflows
  intro blk s
  refine ⟨fun h => ⟨cardArg s blk.toNat, ?_, runSubStep_ok (blockAddress_fits h)⟩,
    fun h => ⟨runSubStep_fault (blockAddress_overflows h), runSubStep_fault (readBlockAt_overflows h),
      runSubStep_fault (writeBlockAt_overflows h)⟩⟩
  unfold cardArg
  rw [BitVec.toNat_ofNat, Nat.mod_eq_of_lt h]

/-- Settles O25: what the check does with either kind of token (`checkDataResponse_accept`, `checkDataResponse_reject`). -/
theorem dataResponseAcceptsOrRejects : Obligations.DataResponseAcceptsOrRejects := by
  unfold Obligations.DataResponseAcceptsOrRejects
  intro s b rest ha hs
  refine ⟨fun hb => runSubStep_ok (checkDataResponse_accept ha hb hs), fun hb => ?_⟩
  refine (runSubStep_raised (checkDataResponse_reject ha hb hs)).trans ?_
  cases hsel : s.sel <;> simp [selected, bus, State.setDrt, State.setResult, hsel]

end Sys2Proof.Proofs
end

section
namespace Sys2Proof.Proofs

open Sys2Proof.Machine Sys2Proof.Laws

section

variable {s t : State}

/-! The ends of an operation write none of the registers of its frame: a sub-step leaves `result`, a request `COMPLETION`. -/

theorem rangeFrame_setResult (h : RangeFrame s t) (r : Result) : RangeFrame s (t.setResult r) :=
  RangeFrame.trans h (by constructor <;> rfl)

theorem rangeFrame_complete (h : RangeFrame s t) (c : Completion) : RangeFrame s (t.complete c) :=
  RangeFrame.trans h (by constructor <;> rfl)

end

/-! ## Segments and bounds on their own -/

/-- A segment inside one block is not refused (44_byte_range_mapper.md R227). -/
theorem exec_mergeSegment_within {kind : MapKind} {blk : U64} {off n : Nat} {s : State} (hn : 1 ≤ n) (hoff : off + n ≤ 512) :
    exec (.mergeSegment kind blk off n) s = runSubStep (fun _ => .unit) (mergeSegment kind blk off n) s :=
  if_pos ⟨hn, hoff⟩

/-- Settles O49: the block read fills `SCRATCH`, and its bytes are stored (`mergeSegment_read`) or written back with the
source laid over them (`mergeSegment_written`). -/
theorem mergeSegmentReadsThenWrites : Obligations.MergeSegmentReadsThenWrites := by
  unfold Obligations.MergeSegmentReadsThenWrites
  intro kind blk off n s r rest hbus haddr hn hoff hsound hfit
  refine ⟨fun hk hm hs => ?_, fun w hk hfw hs => ?_⟩
  · subst hk
    obtain ⟨u, hrun, hu⟩ := mergeSegment_read hbus haddr hoff (hsound nofun) hm hfit hs
    exact ⟨_, (exec_mergeSegment_within hn hoff).trans (runSubStep_ok hrun), rfl, hu.trace, hu.scratch, hu.stored, hu.kept,
      hu.map, hu.req, hu.drt, hu.sel, hu.script, rangeFrame_setResult hu.unchanged _⟩
  · obtain ⟨u, hrun, hu⟩ := mergeSegment_written hk hbus haddr hoff hsound hfit hfw hs
    exact ⟨_, (exec_mergeSegment_within hn hoff).trans (runSubStep_ok hrun), rfl, hu.trace, hu.scratch, hu.drt, hu.mem,
      hu.map, hu.req, hu.sel, hu.script, rangeFrame_setResult hu.unchanged _⟩

/-- Settles O50: a READ stores the whole block it reads (`fullBlock_read`), a WRITE or ERASE writes its source alone
(`fullBlock_written`). -/
theorem fullBlockMovesWholeBlocks : Obligations.FullBlockMovesWholeBlocks := by
  unfold Obligations.FullBlockMovesWholeBlocks
  intro kind blk s rest hbus haddr hsound
  refine ⟨fun r hk hm hfit hs => ?_, fun w hk hfw hs => ?_⟩
  · subst hk
    obtain ⟨u, hrun, hu⟩ := fullBlock_read hbus haddr (hsound nofun) hm hfit hs
    have hstored := hu.stored
    simp only [Nat.zero_add] at hstored
    exact ⟨_, runSubStep_ok hrun, rfl, hu.trace, hu.scratch, hstored, hu.kept, hu.map, hu.req, hu.drt, hu.sel, hu.script,
      rangeFrame_setResult hu.unchanged _⟩
  · obtain ⟨u, hrun, hu⟩ := fullBlock_written hk hbus haddr hsound hfw hs
    exact ⟨_, runSubStep_ok hrun, rfl, hu.trace, hu.scratch, hu.drt, hu.mem, hu.map, hu.req, hu.sel, hu.script,
      rangeFrame_setResult hu.unchanged _⟩

/-- Settles O44: the bounds as integers decide (`checkBounds_legal`, `checkBounds_illegal`), and the check writes nothing. -/
theorem checkBoundsDecides : Obligations.CheckBoundsDecides := by
  unfold Obligations.CheckBoundsDecides
  exact fun o n s => ⟨fun hsum hcap => runSubStep_ok (checkBounds_legal ⟨hsum, hcap⟩),
    fun h => runSubStep_raised (checkBounds_illegal h)⟩

end Sys2Proof.Proofs
end

section
namespace Sys2Proof.Proofs

open Sys2Proof.Machine Sys2Proof.Laws

/-! ## Range requests that transfer nothing -/

/-- A READ, WRITE or ERASE accepted in `s`, with its operands in place. -/
abbrev served (op : HostOp) (o n : U64) (buf : Nat) (s : State) : State := (s.accept op).setReq ⟨o, n, buf⟩

/-- What a request from `s` that ends before its transfer leaves alone. A buffer that breaks 70_reset_and_hazards.md R312
frees host memory even so (log 12). -/
structure Untouched (op : HostOp) (kind : MapKind) (o n : U64) (buf : Nat) (s t : State) : Prop where
  top : t.top = .busy op
  req : t.req = ⟨o, n, buf⟩
  trace : t.trace = s.trace
  sel : t.sel = s.sel
  mem : kind = .erase ∨ BufferKept s buf n → t.mem = s.mem
  script : t.script = s.script
  map : t.map = s.map
  unchanged : RangeFrame s t

section

variable {op : HostOp} {kind : MapKind} {o n : U64} {buf : Nat} {i : Instr} {s t : State}

theorem untouched_settle (h : Untouched op kind o n buf s t) (hk : kind ≠ .erase) :
    Untouched op kind o n buf s (settleDuties t) := by
  by_cases hb : t.bufferSound = true
  · rwa [settleDuties_sound hb]
  · have hfree : settleDuties t = t.freeHostMemory := if_neg hb
    rw [hfree]
    refine ⟨h.top, h.req, h.trace, h.sel, fun hm => ?_, h.script, h.map,
      RangeFrame.trans h.unchanged (by constructor <;> rfl)⟩
    obtain he | hkept := hm
    · exact absurd he hk
    · exact absurd (bufferSound_kept hkept h.unchanged.hostKeepsDuties h.unchanged.cfg h.req) hb

/-- A mapper call that ends before its transfer has freed `SCRATCH` and settled the host's duties, no more. -/
theorem mapper_untouched {r : Except Stop U64}
    (h : mapRange kind o n (mapperStart o n buf (served op o n buf s)) =
      ended r (mapperStart o n buf (served op o n buf s))) :
    ∃ u, Untouched op kind o n buf s u ∧ mapper kind o n buf (served op o n buf s) = ended r u :=
  settledFor_ends h ⟨rfl, rfl, rfl, rfl, fun _ => rfl, rfl, rfl, by constructor <;> rfl⟩
    fun hk _ ht => untouched_settle ht hk

/-- READ, WRITE and ERASE are served alike; ERASE has no buffer (44_byte_range_mapper.md R231). -/
theorem exec_range (hi : i = .read o n buf ∨ i = .write o n buf ∨ i = .erase o n) :
    ∃ op kind b, (op = .read ∨ op = .write ∨ op = .erase) ∧
      (i = .erase o n ∨ BufferKept s buf n → kind = .erase ∨ BufferKept s b n) ∧
      exec i s = serve op (rangeOp kind o n b) s := by
  rcases hi with rfl | rfl | rfl
  · exact ⟨.read, .read, buf, .inl rfl, Or.imp_left nofun, rfl⟩
  · exact ⟨.write, .write, buf, .inr (.inl rfl), Or.imp_left nofun, rfl⟩
  · exact ⟨.erase, .erase, 0, .inr (.inr rfl), fun _ => .inl rfl, rfl⟩

/-- A request outside the card: the bounds check raises, and the error exit counts nothing (60_exceptions.md R273). -/
theorem serve_outOfBounds (hop : op = .read ∨ op = .write ∨ op = .erase) (hidle : s.top = .idle) (hinit : s.initialized = true)
    (hout : 2 ^ 64 ≤ o.toNat + n.toNat ∨ s.sectorCount.toNat * 512 < o.toNat + n.toNat) :
    ∃ u, serve op (rangeOp kind o n buf) s = .next (u.complete ⟨.outOfBounds, 0, 0, .none⟩) ∧
      Untouched op kind o n buf s u := by
  obtain ⟨u, hu, hrun⟩ := mapper_untouched (op := op) (kind := kind) (buf := buf) (s := s)
    (r := .error (.raised .boundsViolation))
    (bind_error (checkBounds_illegal (s := mapperStart o n buf (served op o n buf s)) hout) _)
  have hrange : rangeOp kind o n buf (s.accept op) = .error (.raised .boundsViolation) u :=
    (rangeOp_open (s := s.accept op) hinit).trans (bind_error hrun _)
  refine ⟨u, ?_, hu⟩
  rw [serve_raised hidle hrange, errorExit_range hu.top hop rfl]
  rfl

/-- A legal request of size 0: the mapper returns after the bounds check (44_byte_range_mapper.md R222). -/
theorem serve_empty (hidle : s.top = .idle) (hinit : s.initialized = true) (hin : o.toNat ≤ s.sectorCount.toNat * 512) :
    ∃ u, serve op (rangeOp kind o 0 buf) s = .next (u.complete ⟨.success, 0, 0, .none⟩) ∧ Untouched op kind o 0 buf s u := by
  have hmap : mapRange kind o 0 (mapperStart o 0 buf (served op o 0 buf s)) =
      ended (.ok 0) (mapperStart o 0 buf (served op o 0 buf s)) := by
    unfold mapRange
    have hlegal : o.toNat + (0 : U64).toNat < 2 ^ 64 ∧ o.toNat + (0 : U64).toNat ≤ s.sectorCount.toNat * 512 :=
      ⟨o.isLt, hin⟩
    rw [bind_ok (checkBounds_legal (s := mapperStart o 0 buf (served op o 0 buf s)) hlegal), if_pos rfl]
    rfl
  obtain ⟨u, hu, hrun⟩ := mapper_untouched hmap
  exact ⟨u, serve_ok hidle (rangeOp_ok hinit hrun), hu⟩

/-- Whatever INIT or CAPACITY raises, it completes as an I/O failure (60_exceptions.md R279). -/
theorem serve_success_or_ioFailure {m : M Completion} (hop : op = .init ∨ op = .capacity)
    (htop : Keeps (fun t => t.top = .busy op) (fun _ _ => True) m) (hm : ∀ s c t, m s = .ok c t → c.status = .success)
    (ht : serve op m s = .next t) : t.completion.status = .success ∨ t.completion.status = .ioFailure := by
  obtain ⟨-, ⟨c, u, hu, rfl⟩ | ⟨e, u, hu, rfl⟩⟩ := serve_next ht
  · exact .inl (hm _ c u hu)
  · have hbusy : u.top = .busy op := htop.raised rfl hu
    unfold State.errorExit
    rw [hbusy]
    rcases hop with rfl | rfl <;> exact .inr rfl

/-- INIT, CAPACITY and STATUS ask for no session and check no bounds. -/
theorem session_request_status (hi : i = .init ∨ i = .capacity ∨ i = .status) (ht : exec i s = .next t) :
    t.completion.status = .success ∨ t.completion.status = .ioFailure := by
  rcases hi with rfl | rfl | rfl
  · exact serve_success_or_ioFailure (.inl rfl) (Keeps.initOp (busy_moves .init).toSessionMoves)
      (fun s c t h => by rw [initOp_returns s c t h]; rfl) ht
  · exact serve_success_or_ioFailure (.inr rfl) (Keeps.capacityOp (busy_moves .capacity).toSessionMoves)
      (fun s c t h => by obtain ⟨v, rfl⟩ := capacityOp_returns s c t h; rfl) ht
  · obtain ⟨-, ⟨c, u, hu, rfl⟩ | ⟨e, u, hu, -⟩⟩ := serve_next (op := .status) (m := statusOp) ht
    · cases hu
      exact .inl rfl
    · cases hu

end

/-- Settles O42: a range request stops at the bounds check (`serve_outOfBounds`), and the other three succeed or fail on the
bus (`session_request_status`). -/
theorem outOfBoundsTouchesNothing : Obligations.OutOfBoundsTouchesNothing := by
  unfold Obligations.OutOfBoundsTouchesNothing
  refine ⟨fun i o n buf s hi hidle hinit hout => ?_, fun i s t hi ht => ?_⟩
  · obtain ⟨op, kind, b, hop, hmem, hexec⟩ := exec_range (s := s) hi
    obtain ⟨u, hserve, hu⟩ := serve_outOfBounds (kind := kind) (buf := b) hop hidle hinit hout
    exact ⟨_, hexec.trans hserve, rfl, rfl, hu.trace, hu.sel, fun h => hu.mem (hmem h), hu.script, hu.map,
      rangeFrame_complete hu.unchanged _⟩
  · rcases session_request_status hi ht with h | h <;> rw [h] <;> exact nofun

/-- Settles O43: the bounds are checked first; inside them the mapper returns at once (`serve_empty`), past them the request
is out of bounds like any other (`serve_outOfBounds`). -/
theorem emptyRangeDoesNothing : Obligations.EmptyRangeDoesNothing := by
  unfold Obligations.EmptyRangeDoesNothing
  intro i o buf s hi hidle hinit
  obtain ⟨op, kind, b, hop, hmem, hexec⟩ := exec_range (s := s) hi
  have houtcome : ∃ u, exec i s = .next (u.complete
      (if o.toNat ≤ s.sectorCount.toNat * 512 then ⟨.success, 0, 0, .none⟩ else ⟨.outOfBounds, 0, 0, .none⟩)) ∧
      Untouched op kind o 0 b s u := by
    rw [hexec]
    split
    · next hin => exact serve_empty hidle hinit hin
    · next hout => exact serve_outOfBounds hop hidle hinit (.inr (Nat.lt_of_not_le hout))
  obtain ⟨u, hserve, hu⟩ := houtcome
  exact ⟨_, hserve, rfl, rfl, hu.trace, hu.sel, fun h => hu.mem (hmem h), hu.script, hu.map,
    rangeFrame_complete hu.unchanged _⟩

end Sys2Proof.Proofs
end

section
namespace Sys2Proof.Proofs

open Sys2Proof.Machine Sys2Proof.Laws

/-! ## Range requests that run to their end -/

section

variable {op : HostOp} {kind : MapKind} {o n k : U64} {buf : Nat} {s t u : State} {rest : List Byte}

/-! What a run leaves, seen from the state the request was presented in, and after its end. -/

theorem rangeFrame_served (h : RangeFrame (served op o n buf s) t) : RangeFrame s t :=
  RangeFrame.trans (by constructor <;> rfl) h

theorem readDone_setResult {as : List (ReadAnswer 512)} (h : ReadDone s o n buf as rest t) (r : Result) :
    ReadDone s o n buf as rest (t.setResult r) :=
  ⟨h.trace, h.stored, h.kept, h.done, h.sel, h.script, rangeFrame_setResult h.unchanged r⟩

theorem readDone_served {as : List (ReadAnswer 512)} (h : ReadDone (served op o n buf s) o n buf as rest t) (c : Completion) :
    ReadDone s o n buf as rest (t.complete c) :=
  ⟨h.trace.trans (congrArg _ (readEvents_congr s (served op o n buf s) rfl rfl _ as)), h.stored, h.kept, h.done, h.sel,
    h.script, rangeFrame_complete (rangeFrame_served h.unchanged) c⟩

theorem writeDone_setResult {as : List BlockAnswer} (h : WriteDone kind s o n buf as rest t) (r : Result) :
    WriteDone kind s o n buf as rest (t.setResult r) :=
  ⟨h.trace, h.mem, h.done, h.sel, h.script, rangeFrame_setResult h.unchanged r⟩

theorem writeDone_served {as : List BlockAnswer} (h : WriteDone kind (served op o n buf s) o n buf as rest t) (c : Completion) :
    WriteDone kind s o n buf as rest (t.complete c) :=
  ⟨h.trace.trans (congrArg _ (writeEvents_congr s (served op o n buf s) rfl rfl rfl kind o n buf _ as)), h.mem, h.done, h.sel,
    h.script, rangeFrame_complete (rangeFrame_served h.unchanged) c⟩

/-- ERASE has no buffer. -/
theorem writeDone_erase {as : List BlockAnswer} {b : Nat} (h : WriteDone .erase s o n b as rest t) (buf : Nat) :
    WriteDone .erase s o n buf as rest t :=
  { h with trace := h.trace.trans (congrArg _ (eraseEvents_buf s o n b buf _ as)) }

/-- A request whose mapper returns completes with the count returned (44_byte_range_mapper.md R229). -/
theorem serve_range_ok (hidle : s.top = .idle) (hinit : s.initialized = true)
    (h : mapper kind o n buf (served op o n buf s) = .ok k u) :
    serve op (rangeOp kind o n buf) s = .next (u.complete (succeed k 0)) :=
  serve_ok hidle (rangeOp_ok hinit h)

/-- A WRITE or ERASE whose card accepts every block (44_byte_range_mapper.md R233). -/
theorem serve_written {as : List BlockAnswer} (hk : kind ≠ .read) (hidle : s.top = .idle) (hr : RangeReady s o n)
    (hb : kind ≠ .erase → BufferKept s buf n) (hl : as.length = touchedBlocks o n) (hf : ∀ a ∈ as, a.fits s.cfg)
    (hm : MergesAtEnds as) (hs : s.script = as.flatMap BlockAnswer.bytes ++ rest) :
    ∃ t, serve op (rangeOp kind o n buf) s = .next t ∧ t.completion = ⟨.success, n, 0, .none⟩ ∧ t.top = .idle ∧
      WriteDone kind s o n buf as rest t := by
  obtain ⟨u, hrun, hu⟩ := mapper_written (s := served op o n buf s) hk (RangeReady.moved hr op _) hb hl hf hm hs
  exact ⟨_, serve_range_ok hidle hr.session hrun, rfl, rfl, writeDone_served hu _⟩

end

/-- Settles O45: READ is its mapper (`serve_range_ok`), whose walk stores every block the card returns (`mapper_read`). -/
theorem readReturnsTheCardBytes : Obligations.ReadReturnsTheCardBytes := by
  unfold Obligations.ReadReturnsTheCardBytes
  intro o n buf s as rest hidle hr hm hb hl hf hs
  obtain ⟨u, hrun, hu⟩ := mapper_read (s := served .read o n buf s) (RangeReady.moved hr .read _) hm hb hl hf hs
  exact ⟨_, serve_range_ok hidle hr.session hrun, rfl, rfl, readDone_served hu _⟩

/-- Settles O46: WRITE and ERASE are their mapper, whose walk writes every block merged at the ends (`serve_written`). -/
theorem writeAndEraseMergeAtTheEnds : Obligations.WriteAndEraseMergeAtTheEnds := by
  unfold Obligations.WriteAndEraseMergeAtTheEnds
  intro i kind o n buf s as rest hi hidle hr hl hf hm hs
  rcases hi with ⟨rfl, rfl, hb⟩ | ⟨rfl, rfl⟩
  · exact serve_written nofun hidle hr (fun _ => hb) hl hf hm hs
  · obtain ⟨t, hexec, hc, htop, ht⟩ := serve_written (op := .erase) (kind := .erase) (buf := 0) nofun hidle hr
      (absurd rfl) hl hf hm hs
    exact ⟨t, hexec, hc, htop, writeDone_erase ht buf⟩

/-- Settles O48: the walks of `mapper_read` and `mapper_written` return the size, which is left in `result`. -/
theorem mapperReturnsTheSize : Obligations.MapperReturnsTheSize := by
  unfold Obligations.MapperReturnsTheSize
  intro o n buf s rest hr
  refine ⟨fun as hm hb hl hf hs => ?_, fun kind as hkind hl hf hm hs => ?_⟩
  · obtain ⟨u, hrun, hu⟩ := mapper_read hr hm hb hl hf hs
    exact ⟨_, runSubStep_ok hrun, rfl, readDone_setResult hu _⟩
  · have hk : kind ≠ .read := by rcases hkind with ⟨rfl, -⟩ | rfl <;> exact nofun
    have hb : kind ≠ .erase → BufferKept s buf n := fun he => (hkind.resolve_right he).2
    obtain ⟨u, hrun, hu⟩ := mapper_written hk hr hb hl hf hm hs
    exact ⟨_, runSubStep_ok hrun, rfl, writeDone_setResult hu _⟩

end Sys2Proof.Proofs
end

section
namespace Sys2Proof.Proofs

open Sys2Proof.Machine Sys2Proof.Laws

/-! ## Range requests that fail part way -/

section

variable {op : HostOp} {kind : MapKind} {o n : U64} {buf : Nat} {s u : State} {e : Err} {rest : List Byte}

/-- A request whose mapper raises takes its error exit. -/
theorem serve_range_raised (hidle : s.top = .idle) (hinit : s.initialized = true)
    (h : mapper kind o n buf (served op o n buf s) = .error (.raised e) u) :
    serve op (rangeOp kind o n buf) s = .next (u.errorExit e) ∧ u.top = .busy op :=
  ⟨serve_raised hidle ((rangeOp_open (s := s.accept op) hinit).trans (bind_error h _)),
    (Keeps.mapper (busy_moves op).toMapperMoves kind o n buf).raised rfl h⟩

/-- The error exit of READ frees what it did not transfer (44_byte_range_mapper.md R234). -/
theorem errorExit_read (h : s.top = .busy .read) (hio : e.isIo = true) :
    s.errorExit e = s.freeUnread.complete (s.rangeCompletion e) := by
  unfold State.errorExit
  rw [h]
  exact if_pos hio

/-- The error exit of WRITE and ERASE writes the completion alone. -/
theorem errorExit_write (h : s.top = .busy op) (hop : op = .write ∨ op = .erase) :
    s.errorExit e = s.complete (s.rangeCompletion e) := by
  unfold State.errorExit
  rw [h]
  rcases hop with rfl | rfl <;> rfl

/-- The completion of an I/O failure counts what is done (44_byte_range_mapper.md R230). -/
theorem rangeCompletion_io {k : Nat} (hio : e.isIo = true) (hdone : s.map.done.toNat = k) :
    s.rangeCompletion e = ⟨.ioFailure, BitVec.ofNat 64 k, 0, e.cause⟩ := by
  have hstatus : e.status = .ioFailure := of_decide_eq_true hio
  unfold State.rangeCompletion
  rw [hstatus, if_pos hio, ← hdone, BitVec.ofNat_toNat, BitVec.setWidth_eq]

/-- A WRITE or ERASE whose card fails the block after those of `as`. -/
theorem serve_written_fails {as : List BlockAnswer} {f : BlockFailure} (hop : op = .write ∨ op = .erase) (hk : kind ≠ .read)
    (hidle : s.top = .idle) (hr : RangeReady s o n) (hb : kind ≠ .erase → BufferKept s buf n)
    (hl : as.length < touchedBlocks o n) (hf : ∀ a ∈ as, a.fits s.cfg) (hff : f.fits s.cfg)
    (hm : ∀ k : Nat, ∀ h : k < as.length, as[k].isMerge = true ↔ k = 0)
    (hfm : f.isMerge = true ↔ as.length = 0 ∨ as.length + 1 = touchedBlocks o n)
    (hs : s.script = as.flatMap BlockAnswer.bytes ++ f.bytes ++ rest) :
    ∃ u, serve op (rangeOp kind o n buf) s =
        .next (u.complete ⟨.ioFailure, BitVec.ofNat 64 (bytesBefore o as.length), 0, f.cause⟩) ∧
      WriteFailed kind s o n buf as f rest u := by
  obtain ⟨u, hrun, hu⟩ := mapper_written_fails (s := served op o n buf s) hk (RangeReady.moved hr op _) hb hl hf hff hm hfm hs
  obtain ⟨hserve, htop⟩ := serve_range_raised hidle hr.session hrun
  refine ⟨u, ?_, ?_, hu.mem, hu.done, hu.sel, hu.script, hu.req, rangeFrame_served hu.unchanged⟩
  · rw [hserve, errorExit_write htop hop, rangeCompletion_io (blockError_io f) hu.done, blockError_cause]
  · rw [hu.trace, writeEvents_congr s (served op o n buf s) rfl rfl rfl]
    rfl

/-- A READ whose card fails the block after those of `as` (60_exceptions.md R279). -/
theorem serve_read_fails {as : List (ReadAnswer 512)} {f : ReadFailure} (hidle : s.top = .idle) (hr : RangeReady s o n)
    (hm : MemorySound s) (hb : BufferKept s buf n) (hl : as.length < touchedBlocks o n) (hf : ∀ a ∈ as, a.fits s.cfg)
    (hff : f.fits s.cfg) (hs : s.script = as.flatMap ReadAnswer.bytes ++ f.bytes ++ rest) :
    ∃ u, serve .read (rangeOp .read o n buf) s =
        .next (u.complete ⟨.ioFailure, BitVec.ofNat 64 (bytesBefore o as.length), 0, f.cause⟩) ∧
      ReadFailed s o n buf as f rest u := by
  obtain ⟨u, hrun, hu⟩ := mapper_read_fails (s := served .read o n buf s) (RangeReady.moved hr .read _) hm hb hl hf hff hs
  obtain ⟨hserve, htop⟩ := serve_range_raised hidle hr.session hrun
  have hfree := hu.free
  refine ⟨u.freeUnread, ?_, ?_, hfree.stored, hfree.kept, hfree.done, hfree.sel, hfree.script, hfree.req,
    rangeFrame_served hfree.unchanged⟩
  · rw [hserve, errorExit_read htop (readError_io f), rangeCompletion_io (readError_io f) hu.done, readError_cause]
  · rw [hfree.trace, readEvents_congr s (served .read o n buf s) rfl rfl]
    rfl

end

/-- Settles O47: the walk stops in the failing segment with the bytes before it done (`mapper_read_fails`,
`mapper_written_fails`), and the error exit reports both. -/
theorem rangeRequestsFailPartWay : Obligations.RangeRequestsFailPartWay := by
  unfold Obligations.RangeRequestsFailPartWay
  intro o n buf s rest hidle hr
  refine ⟨fun as f hm hb hl hf hff hs => ?_, fun i kind as f hi hl hf hff hm hfm hs => ?_⟩
  · obtain ⟨u, hserve, hu⟩ := serve_read_fails hidle hr hm hb hl hf hff hs
    exact ⟨_, hserve, rfl, rfl, hu.sel, hu.script, hu.trace, hu.stored, hu.kept, rangeFrame_complete hu.unchanged _⟩
  · rcases hi with ⟨rfl, rfl, hb⟩ | ⟨rfl, rfl⟩
    · obtain ⟨u, hserve, hu⟩ := serve_written_fails (op := .write) (kind := .write) (.inl rfl) nofun hidle hr (fun _ => hb)
        hl hf hff hm hfm hs
      exact ⟨_, hserve, rfl, rfl, hu.sel, hu.script, hu.trace, hu.mem, rangeFrame_complete hu.unchanged _⟩
    · obtain ⟨u, hserve, hu⟩ := serve_written_fails (op := .erase) (kind := .erase) (buf := 0) (.inr rfl) nofun hidle hr
        (absurd rfl) hl hf hff hm hfm hs
      have htrace := hu.trace
      rw [eraseEvents_buf s o n 0 buf] at htrace
      exact ⟨_, hserve, rfl, rfl, hu.sel, hu.script, htrace, hu.mem, rangeFrame_complete hu.unchanged _⟩

end Sys2Proof.Proofs
end

section
namespace Sys2Proof.Proofs

open Sys2Proof.Machine Sys2Proof.Laws

/-! ## STATUS -/

theorem statusFlags_eq (s : State) : s.statusFlags = if s.initialized then 1 else 0 := by
  unfold State.statusFlags
  cases s.initialized <;> rfl

/-- Settles O39: STATUS reads the flag (`statusFlags_eq`), and its end leaves `TOP = IDLE`, where it was. -/
theorem statusReportsInitialized : Obligations.StatusReportsInitialized := by
  unfold Obligations.StatusReportsInitialized
  intro s hidle
  refine ⟨0, (serve_ok (m := statusOp) hidle rfl).trans ?_⟩
  rw [← statusFlags_eq, hidle]
  rfl

/-! ## The steps of INIT and CAPACITY -/

/-- The engine has run from `s` to `t` inside INIT or CAPACITY, with these bus events and this script left, and its last
select bracket closed. -/
structure SessionRun (s t : State) (es : List BusEvent) (rest : List Byte) : Prop where
  trace : t.trace = s.trace ++ es
  script : t.script = rest
  sel : t.sel = false
  bus : t.busAnswers = none
  top : t.top = s.top
  mem : t.mem = s.mem
  scratch : t.scratch = s.scratch
  map : t.map = s.map
  drt : t.drt = s.drt
  req : t.req = s.req
  cfg : t.cfg = s.cfg

/-- The session registers, and where bring-up stands, are those of `s`. -/
structure SameSession (s t : State) : Prop where
  initialized : t.initialized = s.initialized
  divisor : t.divisor = s.divisor
  sectorCount : t.sectorCount = s.sectorCount
  br : t.br = s.br

section

variable {s t u : State} {es fs : List BusEvent} {mid rest : List Byte}

theorem SessionRun.trans (h : SessionRun s t es mid) (k : SessionRun t u fs rest) : SessionRun s u (es ++ fs) rest where
  trace := by rw [k.trace, h.trace, List.append_assoc]
  script := k.script
  sel := k.sel
  bus := k.bus
  top := k.top.trans h.top
  mem := k.mem.trans h.mem
  scratch := k.scratch.trans h.scratch
  map := k.map.trans h.map
  drt := k.drt.trans h.drt
  req := k.req.trans h.req
  cfg := k.cfg.trans h.cfg

theorem sessionRun_of_bringUpFrame (h : BringUpFrame s t) (htrace : t.trace = s.trace ++ es) (hscript : t.script = rest)
    (hsel : t.sel = false) (hbus : t.busAnswers = none) : SessionRun s t es rest :=
  ⟨htrace, hscript, hsel, hbus, h.top, h.mem, h.scratch, h.map, h.drt, h.req, h.cfg⟩

theorem sessionRun_setSectorCount (h : SessionRun s t es rest) (v : U64) : SessionRun s (t.setSectorCount v) es rest :=
  { h with }

section

variable (ha : s.busAnswers = none)
include ha

/-- The CSD read on a card that sends its CSD (42_register_decoder.md R186). -/
theorem readCSD_runs {a : ReadAnswer 16} (hf : a.fits s.cfg) (hs : s.script = a.bytes ++ rest) :
    ∃ t, readCSD s = .ok () t ∧ SessionRun s t (a.events 9 0 s.cfg.close) rest ∧ SameSession s t ∧
      t.csd = a.block.data :=
  ⟨_, readCSD_listed ha hf hs, ⟨List.append_assoc .., rfl, rfl, ha, rfl, rfl, rfl, rfl, rfl, rfl, rfl⟩,
    ⟨rfl, rfl, rfl, rfl⟩, rfl⟩

/-- The CSD read on a card that rejects CMD9 or sends no start token. -/
theorem readCSD_raises {f : ReadFailure} (hf : f.fits s.cfg) (hs : s.script = f.bytes ++ rest) :
    ∃ t, readCSD s = .error (.raised (readError f)) t ∧ SessionRun s t (f.events 9 0 s.cfg.close) rest ∧
      SameSession s t := by
  refine ⟨_, readCSD_fails ha hf hs, ?_⟩
  cases f with
  | rejected b | noToken a d =>
    exact ⟨⟨List.append_assoc .., rfl, rfl, ha, rfl, rfl, rfl, rfl, rfl, rfl, rfl⟩, rfl, rfl, rfl, rfl⟩

theorem command_runs {b : Bracket} (hf : b.fits s.cfg) (hs : s.script = b.bytes ++ rest) (idx : CmdIndex) (arg : U32) :
    ∃ t, command idx arg s = .ok b.answer.resp t ∧ SessionRun s t (b.events idx arg s.cfg.close) rest ∧
      SameSession s t ∧ t.csd = s.csd :=
  ⟨_, command_listed ha hf hs idx arg, ⟨List.append_assoc .., rfl, rfl, ha, rfl, rfl, rfl, rfl, rfl, rfl, rfl⟩,
    ⟨rfl, rfl, rfl, rfl⟩, rfl⟩

end

theorem refreshSectorCount_decodes (h : (decodeCapacity s.csd).ok = true) :
    refreshSectorCount s = .ok (decodeCapacity s.csd) (s.setSectorCount (decodeCapacity s.csd).sectorCount) := by
  unfold refreshSectorCount
  rw [look_bind, if_pos h, update_bind, run_pure]

theorem refreshSectorCount_undecodable (h : (decodeCapacity s.csd).ok = false) :
    refreshSectorCount s = .error (.raised .csdDecodeFailed) s := by
  unfold refreshSectorCount
  rw [look_bind, if_neg (ne_true_of_eq_false h), run_raise]

/-! The error exits of CAPACITY and INIT (60_exceptions.md R279). -/

theorem errorExit_capacity {e : Err} (h : s.top = .busy .capacity) :
    s.errorExit e = s.complete ⟨.ioFailure, 0, 0, e.cause⟩ := by
  unfold State.errorExit
  rw [h]

theorem errorExit_init {e : Err} (h : s.top = .busy .init) :
    s.errorExit e = (s.setInitialized false).freeSession.complete ⟨.ioFailure, 0, 0, e.cause⟩ := by
  unfold State.errorExit
  rw [h]

end

/-! ## CAPACITY -/

section

variable {s : State} {rest : List Byte} (hidle : s.top = .idle) (ha : s.busAnswers = none)
include hidle ha

/-- CAPACITY on a card that sends its CSD: it moves `SECTOR_COUNT`, or leaves it where the CSD does not decode. -/
theorem exec_capacity_reads {a : ReadAnswer 16} (hf : a.fits s.cfg) (hs : s.script = a.bytes ++ rest) :
    ∃ u c, exec .capacity s = .next (u.complete c) ∧ SessionRun (s.accept .capacity) u (a.events 9 0 s.cfg.close) rest ∧
      u.csd = a.block.data ∧ u.initialized = s.initialized ∧ u.divisor = s.divisor ∧
      if (decodeCapacity a.block.data).ok = true then
        c = ⟨.success, 0, (decodeCapacity a.block.data).capacityBytes, .none⟩ ∧
          u.sectorCount = (decodeCapacity a.block.data).sectorCount
      else c = ⟨.ioFailure, 0, 0, .csdDecodeFailed⟩ ∧ u.sectorCount = s.sectorCount := by
  obtain ⟨u, hread, hu, hsame, hcsd⟩ := readCSD_runs (s := s.accept .capacity) ha hf hs
  rw [← hcsd]
  split
  · next hd =>
    exact ⟨_, _, serve_ok hidle ((bind_ok hread _).trans (bind_ok (refreshSectorCount_decodes hd) _)),
      sessionRun_setSectorCount hu _, rfl, hsame.initialized, hsame.divisor, rfl, rfl⟩
  · next hd =>
    have hraise := refreshSectorCount_undecodable (eq_false_of_ne_true hd)
    exact ⟨u, _, (serve_raised hidle ((bind_ok hread _).trans (bind_error hraise _))).trans
      (congrArg _ (errorExit_capacity hu.top)), hu, rfl, hsame.initialized, hsame.divisor, rfl, hsame.sectorCount⟩

/-- CAPACITY on a card whose CSD read fails. -/
theorem exec_capacity_fails {f : ReadFailure} (hf : f.fits s.cfg) (hs : s.script = f.bytes ++ rest) :
    ∃ u, exec .capacity s = .next (u.complete ⟨.ioFailure, 0, 0, f.cause⟩) ∧
      SessionRun (s.accept .capacity) u (f.events 9 0 s.cfg.close) rest ∧ SameSession s u := by
  obtain ⟨u, hread, hu, hsame⟩ := readCSD_raises (s := s.accept .capacity) ha hf hs
  refine ⟨u, (serve_raised hidle (bind_error hread _)).trans ?_, hu, { hsame with }⟩
  rw [errorExit_capacity hu.top, readError_cause]

end

/-- Settles O40: CAPACITY is the CSD read and its decode (`exec_capacity_reads`); a rejected CMD9 and a missing start token
are the two ways for that read to fail (`exec_capacity_fails`). -/
theorem capacityRereadsTheCsd : Obligations.CapacityRereadsTheCsd := by
  unfold Obligations.CapacityRereadsTheCsd
  intro s rest hidle ha
  have fails (f : ReadFailure) (hf : f.fits s.cfg) (hs : s.script = f.bytes ++ rest) := exec_capacity_fails hidle ha hf hs
  refine ⟨fun a hf hs => ?_, fun b hf hr hs => ?_, fun a d hf hr hd hs => ?_⟩
  · obtain ⟨u, c, hexec, hu, hcsd, hinit, hdiv, hcompletion⟩ := exec_capacity_reads hidle ha hf hs
    exact ⟨_, hexec, hu.trace, hcsd, hinit, hdiv, rfl, hu.sel, hu.script, hu.mem, hu.scratch, hcompletion⟩
  · obtain ⟨u, hexec, hu, hsame⟩ := fails (.rejected b) ⟨hf, hr⟩ hs
    exact ⟨_, hexec, hu.trace, rfl, hsame.sectorCount, hsame.initialized, hsame.divisor, rfl, hu.sel, hu.script, hu.mem,
      hu.scratch⟩
  · obtain ⟨u, hexec, hu, hsame⟩ := fails (.noToken a d) ⟨hf, hr, hd⟩ hs
    exact ⟨_, hexec, hu.trace.trans (List.append_assoc ..).symm, rfl, hsame.sectorCount, hsame.initialized, hsame.divisor,
      rfl, hu.sel, hu.script, hu.mem, hu.scratch⟩

/-! ## INIT -/

/-- The last step of INIT (45_facade.md R251): CMD16, and the session opens. -/
def setBlockLength : M Completion := do
  let r ← command 16 512
  requireBlockLength r
  update (State.setInitialized true)
  pure (succeed 0 0)

/-- The steps of INIT once the card is up. -/
def openSession : M Completion := do
  readCSD
  let _ ← refreshSectorCount
  setBlockLength

theorem initOp_eq : initOp = (do
    update (State.setInitialized false)
    bringUp
    openSession) := rfl

section

variable {s t u : State} {rest : List Byte}

theorem requireBlockLength_ready {a : Answer} (h : a.flags = some 0) : requireBlockLength a.resp s = .ok () s :=
  congrFun (if_pos (show a.resp = r1Ready from resp_eq_r1.2 h)) s

theorem requireBlockLength_rejects {a : Answer} (h : a.flags ≠ some 0) :
    requireBlockLength a.resp s = .error (.raised (rejection a.resp)) s :=
  congrFun (if_neg (show ¬ a.resp = r1Ready from fun hr => h (resp_eq_r1.1 hr))) s

section

variable (ha : s.busAnswers = none)
include ha

theorem setBlockLength_opens {b : Bracket} (hf : b.fits s.cfg) (hz : b.answer.flags = some 0)
    (hs : s.script = b.bytes ++ rest) :
    ∃ t, setBlockLength s = .ok (succeed 0 0) (t.setInitialized true) ∧
      SessionRun s t (b.events 16 512 s.cfg.close) rest ∧ SameSession s t ∧ t.csd = s.csd := by
  obtain ⟨t, hrun, ht⟩ := command_runs ha hf hs 16 512
  exact ⟨t, (bind_ok hrun _).trans (bind_ok (requireBlockLength_ready hz) _), ht⟩

theorem setBlockLength_fails {b : Bracket} (hf : b.fits s.cfg) (hz : b.answer.flags ≠ some 0)
    (hs : s.script = b.bytes ++ rest) :
    ∃ t, setBlockLength s = .error (.raised (rejection b.answer.resp)) t ∧
      SessionRun s t (b.events 16 512 s.cfg.close) rest ∧ SameSession s t := by
  obtain ⟨t, hrun, ht, hsame, -⟩ := command_runs ha hf hs 16 512
  exact ⟨t, (bind_ok hrun _).trans (bind_error (requireBlockLength_rejects hz) _), ht, hsame⟩

/-- A card that takes INIT through bring-up. -/
theorem initOp_broughtUp {a : BringUpAnswer} (hf : a.fits s.cfg) (hs : s.script = a.bytes ++ rest) :
    ∃ t, initOp s = openSession t ∧ SessionRun s t (a.events s.cfg) rest ∧ t.br = .ready ∧ t.divisor = a.path.divisor := by
  obtain ⟨t, hrun, hbr, hdiv, htrace, hsel, hscript, hbus, hframe⟩ := bringUp_ready (s := s.setInitialized false) ha hf hs
  have ht : SessionRun (s.setInitialized false) t _ rest := sessionRun_of_bringUpFrame hframe htrace hscript hsel hbus
  refine ⟨t, ?_, { ht with }, hbr, hdiv⟩
  rw [initOp_eq, update_bind, bind_ok hrun]

/-- A card that sends a CSD that decodes. -/
theorem openSession_reads {a : ReadAnswer 16} (hf : a.fits s.cfg) (hd : (decodeCapacity a.block.data).ok = true)
    (hs : s.script = a.bytes ++ rest) :
    ∃ t, openSession s = setBlockLength t ∧ SessionRun s t (a.events 9 0 s.cfg.close) rest ∧ t.br = s.br ∧
      t.divisor = s.divisor ∧ t.csd = a.block.data ∧ t.sectorCount = (decodeCapacity a.block.data).sectorCount := by
  obtain ⟨t, hread, ht, hsame, hcsd⟩ := readCSD_runs ha hf hs
  rw [← hcsd] at hd ⊢
  exact ⟨_, (bind_ok hread _).trans (bind_ok (refreshSectorCount_decodes hd) _), sessionRun_setSectorCount ht _, hsame.br,
    hsame.divisor, rfl, rfl⟩

/-- A card that answers every step of INIT. -/
theorem initOp_opens {a : InitAnswer} (hf : a.fits s.cfg) (hs : s.script = a.bytes ++ rest) :
    ∃ t, initOp s = .ok (succeed 0 0) (t.setInitialized true) ∧ SessionRun s t (a.events s.cfg) rest ∧ t.br = .ready ∧
      t.divisor = a.bringUp.path.divisor ∧ t.csd = a.csd.block.data ∧
      t.sectorCount = (decodeCapacity a.csd.block.data).sectorCount := by
  obtain ⟨hup, hread, hdecodes, hlength, hflags⟩ := hf
  obtain ⟨t, h1, ht, htbr, htdiv⟩ := initOp_broughtUp (rest := a.csd.bytes ++ a.cmd16.bytes ++ rest) ha hup
    (by simpa [InitAnswer.bytes] using hs)
  obtain ⟨u, h2, hu, hubr, hudiv, hucsd, husectors⟩ := openSession_reads (rest := a.cmd16.bytes ++ rest) ht.bus
    (ht.cfg ▸ hread) hdecodes (by simpa using ht.script)
  have hcfg : u.cfg = s.cfg := hu.cfg.trans ht.cfg
  obtain ⟨v, h3, hv, hsame, hvcsd⟩ := setBlockLength_opens hu.bus (hcfg ▸ hlength) hflags hu.script
  exact ⟨v, (h1.trans h2).trans h3, (ht.trans (ht.cfg ▸ hu)).trans (hcfg ▸ hv), hsame.br.trans (hubr.trans htbr),
    hsame.divisor.trans (hudiv.trans htdiv), hvcsd.trans hucsd, hsame.sectorCount.trans husectors⟩

/-- A card that fails some step of INIT: that step raises, and no event follows it. -/
theorem initOp_fails {f : InitFailure} (hf : f.fits s.cfg) (hs : s.script = f.bytes ++ rest) :
    ∃ e t, initOp s = .error (.raised e) t ∧ e.cause = f.cause ∧ SessionRun s t (f.events s.cfg) rest ∧ t.br = f.br := by
  cases f with
  | bringUp f =>
    obtain ⟨e, t, hrun, hcause, hbr, htrace, hsel, hscript, hbus, hframe⟩ :=
      bringUp_fails (s := s.setInitialized false) ha hf hs
    have ht : SessionRun (s.setInitialized false) t _ rest := sessionRun_of_bringUpFrame hframe htrace hscript hsel hbus
    refine ⟨e, t, ?_, hcause, { ht with }, hbr⟩
    rw [initOp_eq, update_bind, bind_error hrun]
  | csd up f =>
    obtain ⟨hup, hfail⟩ := hf
    obtain ⟨t, h1, ht, hbr, -⟩ := initOp_broughtUp (rest := f.bytes ++ rest) ha hup (by simpa [InitFailure.bytes] using hs)
    obtain ⟨u, h2, hu, hsame⟩ := readCSD_raises ht.bus (ht.cfg ▸ hfail) ht.script
    exact ⟨_, u, h1.trans (bind_error h2 _), readError_cause f, ht.trans (ht.cfg ▸ hu), hsame.br.trans hbr⟩
  | undecodable up read =>
    obtain ⟨hup, hread, hbad⟩ := hf
    obtain ⟨t, h1, ht, hbr, -⟩ := initOp_broughtUp (rest := read.bytes ++ rest) ha hup
      (by simpa [InitFailure.bytes] using hs)
    obtain ⟨u, h2, hu, hsame, hcsd⟩ := readCSD_runs ht.bus (ht.cfg ▸ hread) ht.script
    have h3 := refreshSectorCount_undecodable (hcsd ▸ hbad)
    exact ⟨_, u, h1.trans ((bind_ok h2 _).trans (bind_error h3 _)), rfl, ht.trans (ht.cfg ▸ hu), hsame.br.trans hbr⟩
  | blockLength up read cmd16 =>
    obtain ⟨hup, hread, hdecodes, hlength, hflags⟩ := hf
    obtain ⟨t, h1, ht, htbr, -⟩ := initOp_broughtUp (rest := read.bytes ++ cmd16.bytes ++ rest) ha hup
      (by simpa [InitFailure.bytes] using hs)
    obtain ⟨u, h2, hu, hubr, -⟩ := openSession_reads (rest := cmd16.bytes ++ rest) ht.bus (ht.cfg ▸ hread) hdecodes
      (by simpa using ht.script)
    have hcfg : u.cfg = s.cfg := hu.cfg.trans ht.cfg
    obtain ⟨v, h3, hv, hsame⟩ := setBlockLength_fails hu.bus (hcfg ▸ hlength) hflags hu.script
    exact ⟨_, v, (h1.trans h2).trans h3, rejection_cause _, (ht.trans (ht.cfg ▸ hu)).trans (hcfg ▸ hv),
      hsame.br.trans (hubr.trans htbr)⟩

end

/-- INIT returns only with the session open, after a bring-up that reached READY. -/
theorem initOp_returns_open {c : Completion} (h : initOp s = .ok c t) : t.initialized = true ∧ BroughtUp t := by
  obtain ⟨_, s1, -, h⟩ := bind_eq_ok h
  obtain ⟨_, s2, hup, h⟩ := bind_eq_ok h
  obtain ⟨_, s3, hread, h⟩ := bind_eq_ok h
  obtain ⟨_, s4, hrefresh, h⟩ := bind_eq_ok h
  obtain ⟨r, s5, hcommand, h⟩ := bind_eq_ok h
  obtain ⟨_, s6, hlength, h⟩ := bind_eq_ok h
  have h2 : BroughtUp s2 := bringUp_returns _ _ _ hup
  have h3 : BroughtUp s3 := (Keeps.readCSD broughtUp_moves).ok h2 hread
  obtain ⟨⟨h4, -⟩, -⟩ := refreshSectorCount_returns _ _ _ h3 hrefresh
  have h5 : BroughtUp s5 := (Keeps.command broughtUp_moves _ _).ok h4 hcommand
  have h6 : BroughtUp s6 := (Keeps.requireBlockLength (P := BroughtUp) (R := fun _ _ => True) r).ok h5 hlength
  cases h
  exact ⟨rfl, h6⟩

end

/-- Every error of INIT has a cause, and none of them is a rejected write. -/
theorem session_cause {e : Err} (h : Raises.Session e) : e.cause ≠ .none ∧ e.cause ≠ .writeRejected := by
  rcases h with rfl | rfl | rfl | rfl <;> exact ⟨nofun, nofun⟩

/-- Settles O36: INIT runs to its end (`initOp_opens`) and completes. -/
theorem initOpensTheSession : Obligations.InitOpensTheSession := by
  unfold Obligations.InitOpensTheSession
  intro s a rest hidle ha hf hs
  obtain ⟨t, hrun, ht, hbr, hdiv, hcsd, hsectors⟩ := initOp_opens (s := s.accept .init) ha hf hs
  exact ⟨_, serve_ok hidle hrun, rfl, rfl, rfl, hdiv, hcsd, hsectors, hbr, ht.trace, ht.sel, ht.script, ht.mem, ht.scratch,
    ht.map, ht.drt, ht.req, ht.cfg⟩

/-- Settles O37: INIT either returns, which it does only with the session open (`initOp_returns_open`), or raises one of its
errors (`session_cause`) and closes the session in its error exit. -/
theorem initEndsOpenOrClosed : Obligations.InitEndsOpenOrClosed := by
  unfold Obligations.InitEndsOpenOrClosed
  intro s t ht
  obtain ⟨-, ⟨c, u, hu, rfl⟩ | ⟨e, u, hu, rfl⟩⟩ := serve_next (op := .init) (m := initOp) ht
  · obtain ⟨hopen, hbr, hdiv⟩ := initOp_returns_open hu
    exact .inl ⟨hopen, initOp_returns _ _ _ hu, hdiv, hbr⟩
  · have hbusy : u.top = .busy .init := (Keeps.initOp (busy_moves .init).toSessionMoves).raised rfl hu
    obtain ⟨hnone, hwrite⟩ := session_cause (Raises.initOp _ _ _ hu)
    rw [errorExit_init hbusy]
    exact .inr ⟨rfl, e.cause, hnone, hwrite, rfl⟩

/-- Settles O38: the failing step raises (`initOp_fails`), and the error exit of INIT reports its cause. -/
theorem initFailureReportsItsCause : Obligations.InitFailureReportsItsCause := by
  unfold Obligations.InitFailureReportsItsCause
  intro s f rest hidle ha hf hs
  obtain ⟨e, t, hrun, hcause, ht, hbr⟩ := initOp_fails (s := s.accept .init) ha hf hs
  have hexec : exec .init s = _ := serve_raised hidle hrun
  rw [errorExit_init ht.top, hcause] at hexec
  exact ⟨_, hexec, rfl, rfl, hbr, ht.trace, rfl, ht.sel, ht.script, ht.mem, ht.scratch, ht.map, ht.drt, ht.req, ht.cfg⟩

end Sys2Proof.Proofs
end

section
namespace Sys2Proof.Proofs

open Sys2Proof.Machine Sys2Proof.Laws

variable {op : HostOp} {kind : MapKind} {o n : U64} {buf : Nat} {e : Err} {s : State}

/-! ## The error exit -/

/-- The error exit leaves what a sub-step run on its own raised (log 7). -/
theorem errorExit_result (e : Err) (s : State) : (s.errorExit e).result = s.result := by
  unfold State.errorExit
  split
  · rfl
  · rfl
  · split <;> rfl
  all_goals rfl

/-- Outside INIT the error exit leaves the session alone (60_exceptions.md R279, R280). -/
theorem errorExit_sameSession (e : Err) (h : s.top ≠ .busy .init) : SameSession s (s.errorExit e) := by
  unfold State.errorExit
  split
  · exact ⟨rfl, rfl, rfl, rfl⟩
  · exact absurd ‹s.top = .busy .init› h
  · split <;> exact ⟨rfl, rfl, rfl, rfl⟩
  all_goals exact ⟨rfl, rfl, rfl, rfl⟩

/-- A range request that meets an I/O error completes with the bytes done so far (44_byte_range_mapper.md R230). -/
theorem errorExit_io (htop : s.top = .busy op) (hop : op = .read ∨ op = .write ∨ op = .erase) (hio : e.isIo = true) :
    (s.errorExit e).completion = ⟨.ioFailure, s.map.done, 0, e.cause⟩ ∧ (s.errorExit e).map = s.map := by
  have hc : s.rangeCompletion e = ⟨.ioFailure, s.map.done, 0, e.cause⟩ := by
    rw [rangeCompletion_io hio rfl, BitVec.ofNat_toNat, BitVec.setWidth_eq]
  rcases hop with rfl | hop
  · rw [errorExit_read htop hio]
    exact ⟨hc, rfl⟩
  · rw [errorExit_write htop hop]
    exact ⟨hc, rfl⟩

/-- The errors of a transfer are I/O kinds, and each is reported with its cause (60_exceptions.md R270). -/
theorem io_reported (h : Raises.Io e) : e.isIo = true ∧ e.cause ≠ .none ∧ e.cause ≠ .csdDecodeFailed := by
  rcases h with rfl | rfl | rfl | rfl <;> decide

/-! ## Requests that are not accepted, or turned away -/

/-- Settles O57: a request is served only in IDLE. -/
theorem requestsWhileBusyAreRefused : Obligations.RequestsWhileBusyAreRefused := by
  unfold Obligations.RequestsWhileBusyAreRefused
  intro i s hbusy hi
  have refused (op : HostOp) (m : M Completion) : serve op m s = .refused .busy := if_neg hbusy
  rcases hi with rfl | rfl | rfl | ⟨o, n, buf, rfl | rfl | rfl⟩
  · exact refused .init initOp
  · exact refused .capacity capacityOp
  · exact refused .status statusOp
  all_goals exact refused _ _

theorem settleDuties_scratch (s : State) : (settleDuties s).scratch = s.scratch := by
  unfold settleDuties
  split <;> rfl

/-- A READ, WRITE or ERASE in a closed session raises before its mapper begins, so `SCRATCH` is kept too
(60_exceptions.md R274). -/
theorem serve_notInitialized (hop : op = .read ∨ op = .write ∨ op = .erase) (hidle : s.top = .idle)
    (hinit : s.initialized = false) :
    ∃ u, serve op (rangeOp kind o n buf) s = .next (u.complete ⟨.notInitialized, 0, 0, .none⟩) ∧
      Untouched op kind o n buf s u ∧ u.scratch = s.scratch := by
  have hstart : Untouched op kind o n buf s (served op o n buf s) :=
    ⟨rfl, rfl, rfl, rfl, fun _ => rfl, rfl, rfl, by constructor <;> rfl⟩
  obtain ⟨u, ⟨hu, hscratch⟩, hrun⟩ := settledFor_ends (kind := kind) (m := (raise .notInitialized : M Completion))
    (P := fun t => Untouched op kind o n buf s t ∧ t.scratch = s.scratch) (r := .error (.raised .notInitialized)) rfl
    ⟨hstart, rfl⟩ fun hk t ht => ⟨untouched_settle ht.1 hk, (settleDuties_scratch t).trans ht.2⟩
  have hrange : rangeOp kind o n buf (s.accept op) = .error (.raised .notInitialized) u :=
    (rangeOp_closed (s := s.accept op) hinit).trans ((update_bind _ _ _).trans hrun)
  refine ⟨u, ?_, hu, hscratch⟩
  rw [serve_raised hidle hrange, errorExit_range hu.top hop rfl]
  rfl

/-- Settles O41: a range request in a closed session raises at once (`serve_notInitialized`), and the other three succeed or
fail on the bus (`session_request_status`). -/
theorem rangeRequestsNeedASession : Obligations.RangeRequestsNeedASession := by
  unfold Obligations.RangeRequestsNeedASession
  refine ⟨fun i o n buf s hi hidle hinit => ?_, fun i s t hi ht => ?_⟩
  · obtain ⟨op, kind, b, hop, hmem, hexec⟩ := exec_range (s := s) hi
    obtain ⟨u, hserve, hu, hscratch⟩ := serve_notInitialized (kind := kind) (o := o) (n := n) (buf := b) hop hidle hinit
    exact ⟨_, hexec.trans hserve, rfl, rfl, hu.trace, hu.sel, fun h => hu.mem (hmem h), hu.script, hscratch, hu.map,
      rangeFrame_complete hu.unchanged _⟩
  · rcases session_request_status hi ht with h | h <;> rw [h] <;> exact nofun

end Sys2Proof.Proofs
end

section
namespace Sys2Proof.Proofs

open Sys2Proof.Machine Sys2Proof.Laws

variable {op : HostOp} {kind : MapKind} {o n : U64} {buf : Nat} {s t u : State}

/-! ## Who moves the session registers -/

theorem sameSession_trans (h : SameSession s t) (k : SameSession t u) : SameSession s u :=
  ⟨k.initialized.trans h.initialized, k.divisor.trans h.divisor, k.sectorCount.trans h.sectorCount, k.br.trans h.br⟩

/-- No move of the mapper writes a session register. -/
theorem sameSession_moves (s : State) : MapperMoves (SameSession s) fun _ _ => True := by
  constructor
  constructor
  case perform => exact fun c t h _ => sameSession_trans h (by cases c <;> exact ⟨rfl, rfl, rfl, rfl⟩)
  case silent => exact fun _ t h _ => ⟨sameSession_trans h ⟨rfl, rfl, rfl, rfl⟩, trivial⟩
  case overflow => exact fun _ _ _ _ => trivial
  case store => exact fun _ _ t h _ => sameSession_trans h ⟨rfl, rfl, rfl, rfl⟩
  all_goals (intros; rename_i h; exact sameSession_trans h ⟨rfl, rfl, rfl, rfl⟩)

/-- A range request leaves the session as it was, however it ends. -/
theorem serve_range_session (hop : op = .read ∨ op = .write ∨ op = .erase)
    (ht : serve op (rangeOp kind o n buf) s = .next t) : SameSession s t := by
  have hstart : SameSession s (s.accept op) := ⟨rfl, rfl, rfl, rfl⟩
  have hkeeps := Keeps.rangeOp (sameSession_moves s) kind o n buf
  obtain ⟨-, ⟨c, u, hu, rfl⟩ | ⟨e, u, hu, rfl⟩⟩ := serve_next ht
  · exact sameSession_trans (hkeeps.ok hstart hu) ⟨rfl, rfl, rfl, rfl⟩
  · have htop : u.top = .busy op := (Keeps.rangeOp (busy_moves op).toMapperMoves kind o n buf).raised rfl hu
    refine sameSession_trans (hkeeps.raised hstart hu) (errorExit_sameSession e ?_)
    rw [htop]
    rcases hop with rfl | rfl | rfl <;> exact nofun

/-- CAPACITY writes `SECTOR_COUNT` only where the CSD decodes, and then it succeeds (45_facade.md R255). -/
theorem capacityOp_session :
    (∀ c, capacityOp s = .ok c t → t.initialized = s.initialized ∧ t.divisor = s.divisor ∧ c.status = .success) ∧
    ∀ e, capacityOp s = .error (.raised e) t → SameSession s t := by
  have hkeeps := Keeps.readCSD (sameSession_moves s).toBusMoves
  have hstart : SameSession s s := ⟨rfl, rfl, rfl, rfl⟩
  unfold capacityOp
  rw [run_bind]
  cases hread : readCSD s with
  | error x u => exact ⟨nofun, fun e h => by cases h; exact hkeeps.raised hstart hread⟩
  | ok _ u =>
    have hu : SameSession s u := hkeeps.ok hstart hread
    dsimp only
    cases hd : (decodeCapacity u.csd).ok with
    | true =>
      rw [bind_ok (refreshSectorCount_decodes hd), run_pure]
      exact ⟨fun c h => by cases h; exact ⟨hu.initialized, hu.divisor, rfl⟩, nofun⟩
    | false =>
      rw [bind_error (refreshSectorCount_undecodable hd)]
      exact ⟨nofun, fun e h => by cases h; exact hu⟩

theorem exec_capacity_session (ht : exec .capacity s = .next t) :
    t.initialized = s.initialized ∧ t.divisor = s.divisor ∧
      (t.sectorCount = s.sectorCount ∨ t.completion.status = .success) := by
  obtain ⟨-, ⟨c, u, hu, rfl⟩ | ⟨e, u, hu, rfl⟩⟩ := serve_next (op := .capacity) (m := capacityOp) ht
  · obtain ⟨hinit, hdiv, hok⟩ := capacityOp_session.1 c hu
    exact ⟨hinit, hdiv, .inr hok⟩
  · have hsame := capacityOp_session.2 e hu
    have hbusy : u.top = .busy .capacity := (Keeps.capacityOp (busy_moves .capacity).toSessionMoves).raised rfl hu
    rw [errorExit_capacity hbusy]
    exact ⟨hsame.initialized, hsame.divisor, .inl hsame.sectorCount⟩

/-- Settles O52: neither STATUS nor the mapper's moves write a session register (`serve_range_session`), and CAPACITY writes
one of them (`exec_capacity_session`). -/
theorem onlyInitAndCapacityMoveTheSession : Obligations.OnlyInitAndCapacityMoveTheSession := by
  unfold Obligations.OnlyInitAndCapacityMoveTheSession
  intro i s t ht hi
  rcases hi with rfl | rfl | ⟨o, n, buf, hi⟩
  · obtain ⟨hinit, hdiv, hcount⟩ := exec_capacity_session ht
    exact ⟨hinit, hdiv, hcount.imp_right fun h => ⟨rfl, h⟩⟩
  · obtain ⟨-, ⟨c, u, hu, rfl⟩ | ⟨e, u, hu, -⟩⟩ := serve_next (op := .status) (m := statusOp) ht
    · cases hu
      exact ⟨rfl, rfl, .inl rfl⟩
    · cases hu
  · obtain ⟨op, kind, b, hop, -, hexec⟩ := exec_range (s := s) hi
    have hsame := serve_range_session hop (hexec.symm.trans ht)
    exact ⟨hsame.initialized, hsame.divisor, .inl hsame.sectorCount⟩

/-! ## One outcome -/

/-- The walk keeps what every move of the mapper keeps. -/
theorem walkMoves_of_mapperMoves {P : State → Prop} {R : Fault → State → Prop} (h : MapperMoves P R) :
    WalkMoves P R kind o n where
  map := h.map
  free := h.freeScratch
  unread _ t := h.freeHostRange _ _ t
  settle _ := Keeps.settleDuties h
  segment _ _ _ _ blk m _ _ _ :=
    { busMoves_and h.toBusMoves (map_moves m) with
      overflow := fun t ht => h.overflow blk t ht.1
      store := fun _ bs t ht _ hb => ⟨h.store _ bs t ht.1 hb, ht.2⟩
      storeFree := fun _ _ t ht _ _ => ⟨h.freeHostRange _ _ t ht.1, ht.2⟩ }

/-- A legal, non-empty request in an open session transfers all its bytes, or meets an I/O error before the last of them
(44_byte_range_mapper.md R229, R230). -/
theorem serve_transfer (hop : op = .read ∨ op = .write ∨ op = .erase) (hinit : s.initialized = true)
    (hin : InBounds s o n) (hn : 1 ≤ n.toNat) (ht : serve op (rangeOp kind o n buf) s = .next t) :
    t.completion = ⟨.success, n, 0, .none⟩ ∨
      ∃ e, Raises.Io e ∧ t.completion = ⟨.ioFailure, t.map.done, 0, e.cause⟩ ∧ t.map.done.toNat < n.toNat := by
  have hends := mapper_ends (kind := kind) (buf := buf) (s := served op o n buf s) hin hn
    (walkMoves_of_mapperMoves (busy_moves op).toMapperMoves) rfl
  have hopen := rangeOp_open (kind := kind) (o := o) (n := n) (buf := buf) (s := s.accept op) hinit
  obtain ⟨-, ⟨c, u, hu, rfl⟩ | ⟨e, u, hu, rfl⟩⟩ := serve_next ht
  · obtain ⟨k, v, hk, hc⟩ := bind_eq_ok (hopen.symm.trans hu)
    rw [hk] at hends
    obtain ⟨rfl, -, -⟩ := hends
    cases hc
    exact .inl rfl
  · rw [hopen, run_bind] at hu
    revert hu hends
    cases mapper kind o n buf (served op o n buf s) with
    | ok k v => exact fun _ hu => nomatch hu
    | error x v =>
      rintro hends ⟨⟩
      obtain ⟨hio, hdone, htop⟩ := hends
      obtain ⟨hc, hmap⟩ := errorExit_io htop hop (io_reported hio).1
      rw [hc, hmap]
      exact .inr ⟨e, hio, rfl, hdone⟩

/-- Settles O51: the outcomes are decided in the order of 60_exceptions.md R282, and a transfer that begins either transfers
everything or meets an I/O error (`serve_transfer`). -/
theorem rangeRequestsReportOneOutcome : Obligations.RangeRequestsReportOneOutcome := by
  unfold Obligations.RangeRequestsReportOneOutcome
  intro i o n buf s t hi ht
  obtain ⟨op, kind, b, hop, -, hexec⟩ := exec_range (s := s) hi
  rw [hexec] at ht
  obtain ⟨hidle, -⟩ := serve_next ht
  have completed {u : State} {c : Completion} (h : serve op (rangeOp kind o n b) s = .next (u.complete c))
      (hc : c.status ≠ .ioFailure) {Q : Prop} : t.completion = c ∧ (t.completion.status = .ioFailure → Q) := by
    obtain rfl := Host.Outcome.next.inj (h.symm.trans ht)
    exact ⟨rfl, fun hio => absurd hio hc⟩
  by_cases hclosed : s.initialized = false
  · obtain ⟨u, hserve, -⟩ := serve_notInitialized (kind := kind) (o := o) (n := n) (buf := b) hop hidle hclosed
    rw [if_pos hclosed]
    exact completed hserve nofun
  have hinit : s.initialized = true := by simpa using hclosed
  rw [if_neg hclosed]
  by_cases hout : 2 ^ 64 ≤ o.toNat + n.toNat ∨ s.sectorCount.toNat * 512 < o.toNat + n.toNat
  · obtain ⟨u, hserve, -⟩ := serve_outOfBounds (kind := kind) (buf := b) hop hidle hinit hout
    rw [if_pos hout]
    exact completed hserve nofun
  have hin : InBounds s o n := by
    unfold InBounds
    omega
  rw [if_neg hout]
  by_cases hzero : n = 0
  · subst hzero
    obtain ⟨u, hserve, -⟩ := serve_empty (op := op) (kind := kind) (buf := b) hidle hinit (by simpa using hin.2)
    rw [if_pos rfl]
    exact completed hserve nofun
  have hn : 1 ≤ n.toNat := by
    have : n.toNat ≠ 0 := fun h => hzero (BitVec.eq_of_toNat_eq h)
    omega
  rw [if_neg hzero]
  obtain hc | ⟨e, hio, hc, hdone⟩ := serve_transfer hop hinit hin hn ht
  · rw [hc]
    exact ⟨rfl, nofun⟩
  · obtain ⟨-, hcause, hdecode⟩ := io_reported hio
    rw [hc]
    exact ⟨rfl, fun _ => ⟨hcause, hdecode, hdone⟩⟩

end Sys2Proof.Proofs
end

section
namespace Sys2Proof.Proofs

open Sys2Proof.Machine Sys2Proof.Laws

variable {op : HostOp} {kind : MapKind} {o n blk : U64} {buf : Nat} {s t : State}

/-! ## Card addresses that do not fit -/

/-- A fault that reports an address leaves the select line low if it was low. -/
theorem overflow_select {i : Instr} (hsel : s.sel = false) (h : exec i s = .fault (.addressOverflow blk t)) :
    t.sel = false := by
  have htraced := exec_traced i s
  rw [h] at htraced
  obtain ⟨-, hlow⟩ : Calm s t := htraced blk t rfl
  exact hlow hsel

/-- Where the model stops, seen from the state the request was presented in. -/
theorem overflowedAt_served (h : OverflowedAt (served op o n buf s) o n blk t) : OverflowedAt s o n blk t :=
  ⟨h.inRange, h.unfit, h.earlier, h.completion, h.quiet⟩

/-- A range request of which some address does not fit: its mapper stops, or takes it to its error exit before. -/
theorem serve_overflows (hop : op = .read ∨ op = .write ∨ op = .erase) (hidle : s.top = .idle)
    (hinit : s.initialized = true) (hbus : s.busAnswers = none) (hin : InBounds s o n) (hn : 1 ≤ n.toNat) (hfit : ¬ AddressesFit s o n) :
    (∃ blk t, serve op (rangeOp kind o n buf) s = .fault (.addressOverflow blk t) ∧ OverflowedAt s o n blk t) ∨
      (o.toNat / 512 * s.divisor.toNat < 2 ^ 32 ∧
        ∃ t, serve op (rangeOp kind o n buf) s = .next t ∧ t.completion.status = .ioFailure) := by
  obtain ⟨blk, u, hrun, hu⟩ | ⟨e, u, hrun, hio, -, hfirst⟩ :=
    mapper_overflows (kind := kind) (buf := buf) (s := served op o n buf s) hbus hin hn hfit
  · exact .inl ⟨blk, u, serve_fault hidle ((rangeOp_open (s := s.accept op) hinit).trans (bind_error hrun _)),
      overflowedAt_served hu⟩
  · obtain ⟨hserve, htop⟩ := serve_range_raised hidle hinit hrun
    refine .inr ⟨hfirst, _, hserve, ?_⟩
    rw [(errorExit_io htop hop (io_reported hio).1).1]

/-- The mapper on its own, in the same place. -/
theorem exec_mapper_overflows (hbus : s.busAnswers = none) (hin : InBounds s o n) (hn : 1 ≤ n.toNat)
    (hfit : ¬ AddressesFit s o n) :
    (∃ blk t, exec (.mapper kind o n buf) s = .fault (.addressOverflow blk t) ∧ OverflowedAt s o n blk t) ∨
      (o.toNat / 512 * s.divisor.toNat < 2 ^ 32 ∧
        ∃ t e, exec (.mapper kind o n buf) s = .next t ∧ t.result = .raised e ∧ e.isIo = true) := by
  obtain ⟨blk, u, hrun, hu⟩ | ⟨e, u, hrun, hio, -, hfirst⟩ :=
    mapper_overflows (kind := kind) (buf := buf) hbus hin hn hfit
  · exact .inl ⟨blk, u, runSubStep_fault hrun, hu⟩
  · exact .inr ⟨hfirst, _, e, runSubStep_raised hrun, errorExit_result e _, (io_reported hio).1⟩

/-- Settles O24: a segment computes its address before anything goes out on the bus (`mergeSegment_overflows`,
`fullBlock_overflows`), so the walk of a request stops at its first block that does not fit (`serve_overflows`,
`exec_mapper_overflows`); the select line is as the walk left it between two blocks (`overflow_select`). -/
theorem addressOverflowStopsTheRequest : Obligations.AddressOverflowStopsTheRequest := by
  unfold Obligations.AddressOverflowStopsTheRequest
  refine ⟨fun i s t blk => overflow_select, fun kind blk s hunfit => ⟨fun off n hn hoff => ?_, ?_⟩,
    fun o n buf s hbus hsum hcap hn hfit => ⟨fun i hidle hinit hi => ?_, fun kind =>
      exec_mapper_overflows hbus ⟨hsum, hcap⟩ hn hfit⟩⟩
  · exact (exec_mergeSegment_within hn hoff).trans (runSubStep_fault (mergeSegment_overflows hunfit off n))
  · obtain ⟨t, hrun, ht⟩ := fullBlock_overflows (kind := kind) hunfit
    exact ⟨t, runSubStep_fault hrun, ht.completion, ht.trace, ht.sel, ht.script, ht.mem⟩
  · obtain ⟨op, kind, b, hop, -, hexec⟩ := exec_range (buf := buf) (s := s) hi
    rw [hexec]
    exact serve_overflows hop hidle hinit hbus ⟨hsum, hcap⟩ hn hfit

end Sys2Proof.Proofs
end

section
namespace Sys2Proof.Proofs

open Sys2Proof.Machine

/-! ## Reset (70_reset_and_hazards.md R301) -/

/-- 10_state.md R56: the completion register holds zeros, as the host reads its codes. -/
theorem reset_completion_zero :
    State.reset.completion.status.code = 0 ∧ State.reset.completion.count = 0 ∧
      State.reset.completion.value = 0 ∧ State.reset.completion.cause.code = 0 :=
  ⟨rfl, rfl, rfl, rfl⟩

/-- 10_state.md R34: the block size is hardwired, so at reset as in any other state. -/
theorem blockSize_hardwired (s : State) : s.blockSize = 512 := rfl

/-- Settles O6: the invariant keeps the select line low while the engine is idle (`invariantHoldsAtReset`), the completion
is `reset_completion_zero`, the block size `blockSize_hardwired`; the other values are those `State.reset` fixes. -/
theorem resetLeavesTheEngineIdle : Obligations.ResetLeavesTheEngineIdle := by
  unfold Obligations.ResetLeavesTheEngineIdle
  have hidle : State.reset.top = .idle := rfl
  have hinv : Inv State.reset := invariantHoldsAtReset
  obtain ⟨hstatus, hcount, hvalue, hcause⟩ := reset_completion_zero
  exact ⟨hinv.select hidle, hidle, rfl, hstatus, hcount, hvalue, hcause, rfl, blockSize_hardwired _⟩

end Sys2Proof.Proofs
end
